-- ==== Sys2Proof/Word.lean ====
section
/-! DEFINITION. The words of the machine: bytes (DATA_BITS, 8 bits) and CPU addresses (PC_BITS, 16 bits), 00_scope.md R7. -/

namespace Sys2Proof

/-- One byte, the unit of every bus access (20_memory.md R67). -/
abbrev Byte := BitVec 8

/-- One CPU-space address or 16-bit quantity (00_scope.md R7, R10). -/
abbrev Word := BitVec 16

end Sys2Proof
end

