-- ==== Sys2Proof/Syntax.lean ====
section
/-! DEFINITION. The instructions (30_encoding.md R150) and their operand forms (R123 to R136): one constructor for each
mnemonic of the opcode table, its rows being the constructor's operand forms. -/

namespace Sys2Proof

/-- The addressing modes that name a byte of CPU space (30_encoding.md R127 to R132, R134, R135), with their operand. -/
inductive MemMode
  | zp (a : Byte)
  | zpx (a : Byte)
  | zpy (a : Byte)
  | abs (a : Word)
  | abx (a : Word)
  | aby (a : Word)
  | izx (a : Byte)
  | izy (a : Byte)
  deriving DecidableEq, Repr

/-- The operand of an instruction that only reads: an immediate (R126) or a byte of CPU space. -/
inductive ReadOp
  | imm (v : Byte)
  | mem (m : MemMode)
  deriving DecidableEq, Repr

/-- The operand of a shift or rotate: the accumulator (R125) or a byte of CPU space. -/
inductive RmwOp
  | acc
  | mem (m : MemMode)
  deriving DecidableEq, Repr

/-- The operand of JMP: absolute (R130) or absolute indirect (R133). -/
inductive JmpOp
  | abs (a : Word)
  | ind (a : Word)
  deriving DecidableEq, Repr

/-- The instructions. Branches hold their offset byte (R123), BRK no operand (its padding byte is not fetched, R272). -/
inductive Instr
  | lda (o : ReadOp)
  | ldx (o : ReadOp)
  | ldy (o : ReadOp)
  | sta (m : MemMode)
  | stx (m : MemMode)
  | sty (m : MemMode)
  | tax
  | tay
  | txa
  | tya
  | tsx
  | txs
  | adc (o : ReadOp)
  | sbc (o : ReadOp)
  | and (o : ReadOp)
  | ora (o : ReadOp)
  | eor (o : ReadOp)
  | cmp (o : ReadOp)
  | cpx (o : ReadOp)
  | cpy (o : ReadOp)
  | bit (m : MemMode)
  | inc (m : MemMode)
  | dec (m : MemMode)
  | inx
  | iny
  | dex
  | dey
  | asl (o : RmwOp)
  | lsr (o : RmwOp)
  | rol (o : RmwOp)
  | ror (o : RmwOp)
  | jmp (t : JmpOp)
  | jsr (a : Word)
  | rts
  | bcc (off : Byte)
  | bcs (off : Byte)
  | beq (off : Byte)
  | bmi (off : Byte)
  | bne (off : Byte)
  | bpl (off : Byte)
  | bvc (off : Byte)
  | bvs (off : Byte)
  | pha
  | php
  | pla
  | plp
  | clc
  | sec
  | cli
  | sei
  | cld
  | sed
  | clv
  | nop
  | brk
  | rti
  /-- One of the 105 undefined opcode values (R141), with the byte itself. -/
  | undefined (op : Byte)
  deriving DecidableEq, Repr

end Sys2Proof
end

