-- ==== Sys2Proof/WellFormed.lean ====
section
/-! DEFINITION. Which terms of `Instr` have an encoding: the (mnemonic, mode) pairs of 30_encoding.md R138, R140 and the
undefined opcode values of R141. -/

namespace Sys2Proof

/-- The names of the addressing modes (30_encoding.md R124 to R136). -/
inductive Mode
  | imp | acc | imm | zp | zpx | zpy | abs | abx | aby | ind | izx | izy | rel
  deriving DecidableEq, Repr

def MemMode.mode : MemMode → Mode
  | .zp _ => .zp
  | .zpx _ => .zpx
  | .zpy _ => .zpy
  | .abs _ => .abs
  | .abx _ => .abx
  | .aby _ => .aby
  | .izx _ => .izx
  | .izy _ => .izy

def ReadOp.mode : ReadOp → Mode
  | .imm _ => .imm
  | .mem m => m.mode

def RmwOp.mode : RmwOp → Mode
  | .acc => .acc
  | .mem m => m.mode

def JmpOp.mode : JmpOp → Mode
  | .abs _ => .abs
  | .ind _ => .ind

/-- The mode of an instruction (the `format` of its row in opcode_table.json). -/
def Instr.mode : Instr → Mode
  | .lda o | .ldx o | .ldy o | .adc o | .sbc o | .and o | .ora o | .eor o | .cmp o | .cpx o | .cpy o => o.mode
  | .sta m | .stx m | .sty m | .bit m | .inc m | .dec m => m.mode
  | .asl o | .lsr o | .rol o | .ror o => o.mode
  | .jmp t => t.mode
  | .jsr _ => .abs
  | .bcc _ | .bcs _ | .beq _ | .bmi _ | .bne _ | .bpl _ | .bvc _ | .bvs _ => .rel
  | .tax | .tay | .txa | .tya | .tsx | .txs | .inx | .iny | .dex | .dey | .rts | .pha | .php | .pla | .plp
  | .clc | .sec | .cli | .sei | .cld | .sed | .clv | .nop | .brk | .rti | .undefined _ => .imp

/-- Instruction length in bytes by mode (R120, formats F1, F2, F3). -/
def Mode.length : Mode → Nat
  | .imp | .acc => 1
  | .imm | .zp | .zpx | .zpy | .izx | .izy | .rel => 2
  | .abs | .abx | .aby | .ind => 3

/-- Instruction length in bytes (R120). -/
def Instr.size (i : Instr) : Nat := i.mode.length

/-- The 105 undefined opcode values, in the order of R141. -/
def undefinedOpcodes : List Nat :=
  [0x02, 0x03, 0x04, 0x07, 0x0B, 0x0C, 0x0F, 0x12, 0x13, 0x14, 0x17, 0x1A] ++
  [0x1B, 0x1C, 0x1F, 0x22, 0x23, 0x27, 0x2B, 0x2F, 0x32, 0x33, 0x34, 0x37] ++
  [0x3A, 0x3B, 0x3C, 0x3F, 0x42, 0x43, 0x44, 0x47, 0x4B, 0x4F, 0x52, 0x53] ++
  [0x54, 0x57, 0x5A, 0x5B, 0x5C, 0x5F, 0x62, 0x63, 0x64, 0x67, 0x6B, 0x6F] ++
  [0x72, 0x73, 0x74, 0x77, 0x7A, 0x7B, 0x7C, 0x7F, 0x80, 0x82, 0x83, 0x87] ++
  [0x89, 0x8B, 0x8F, 0x92, 0x93, 0x97, 0x9B, 0x9C, 0x9E, 0x9F, 0xA3, 0xA7] ++
  [0xAB, 0xAF, 0xB2, 0xB3, 0xB7, 0xBB, 0xBF, 0xC2, 0xC3, 0xC7, 0xCB, 0xCF] ++
  [0xD2, 0xD3, 0xD4, 0xD7, 0xDA, 0xDB, 0xDC, 0xDF, 0xE2, 0xE3, 0xE7, 0xEB] ++
  [0xEF, 0xF2, 0xF3, 0xF4, 0xF7, 0xFA, 0xFB, 0xFC, 0xFF]

/-- The modes of LDA, ADC, SBC, AND, ORA, EOR, CMP (R138). -/
def aluModes : List Mode := [.imm, .zp, .zpx, .abs, .abx, .aby, .izx, .izy]

/-- The memory modes of INC, DEC, ASL, LSR, ROL, ROR (R138). -/
def rmwModes : List Mode := [.zp, .zpx, .abs, .abx]

/-- Does the opcode table hold a row for this instruction (R138, R141)? -/
def Instr.wf : Instr → Bool
  | .lda o | .adc o | .sbc o | .and o | .ora o | .eor o | .cmp o => o.mode ∈ aluModes
  | .ldx o => o.mode ∈ [Mode.imm, .zp, .zpy, .abs, .aby]
  | .ldy o => o.mode ∈ [Mode.imm, .zp, .zpx, .abs, .abx]
  | .sta m => m.mode ∈ [Mode.zp, .zpx, .abs, .abx, .aby, .izx, .izy]
  | .stx m => m.mode ∈ [Mode.zp, .zpy, .abs]
  | .sty m => m.mode ∈ [Mode.zp, .zpx, .abs]
  | .cpx o | .cpy o => o.mode ∈ [Mode.imm, .zp, .abs]
  | .bit m => m.mode ∈ [Mode.zp, .abs]
  | .inc m | .dec m => m.mode ∈ rmwModes
  | .asl o | .lsr o | .rol o | .ror o => o.mode ∈ Mode.acc :: rmwModes
  | .undefined op => op.toNat ∈ undefinedOpcodes
  | .tax | .tay | .txa | .tya | .tsx | .txs | .inx | .iny | .dex | .dey => true
  | .jmp _ | .jsr _ | .rts => true
  | .bcc _ | .bcs _ | .beq _ | .bmi _ | .bne _ | .bpl _ | .bvc _ | .bvs _ => true
  | .pha | .php | .pla | .plp | .clc | .sec | .cli | .sei | .cld | .sed | .clv | .nop | .brk | .rti => true

/-- The instruction has an encoding. -/
abbrev WellFormed (i : Instr) : Prop := i.wf = true

end Sys2Proof
end

