-- ==== Sys2Proof/Decode.lean ====
section
/-! DEFINITION. The decoder (30_encoding.md R120, R121, R123, R140, R141), total on any bytes, and the encoder written from
the same table of the spec (R138, opcode_table.json). -/

namespace Sys2Proof

/-- The opcode map of R140: the instruction an opcode byte selects, given the operand bytes `b1` and `b2` (R123: `b2 ++ b1`
is the 16-bit operand, low byte first). Every value outside the map is undefined (R141). -/
def decodeOp (op b1 b2 : Byte) : Instr :=
  match op.toNat with
  | 0x00 => .brk
  | 0x01 => .ora (.mem (.izx b1))
  | 0x05 => .ora (.mem (.zp b1))
  | 0x06 => .asl (.mem (.zp b1))
  | 0x08 => .php
  | 0x09 => .ora (.imm b1)
  | 0x0A => .asl .acc
  | 0x0D => .ora (.mem (.abs (b2 ++ b1)))
  | 0x0E => .asl (.mem (.abs (b2 ++ b1)))
  | 0x10 => .bpl b1
  | 0x11 => .ora (.mem (.izy b1))
  | 0x15 => .ora (.mem (.zpx b1))
  | 0x16 => .asl (.mem (.zpx b1))
  | 0x18 => .clc
  | 0x19 => .ora (.mem (.aby (b2 ++ b1)))
  | 0x1D => .ora (.mem (.abx (b2 ++ b1)))
  | 0x1E => .asl (.mem (.abx (b2 ++ b1)))
  | 0x20 => .jsr (b2 ++ b1)
  | 0x21 => .and (.mem (.izx b1))
  | 0x24 => .bit (.zp b1)
  | 0x25 => .and (.mem (.zp b1))
  | 0x26 => .rol (.mem (.zp b1))
  | 0x28 => .plp
  | 0x29 => .and (.imm b1)
  | 0x2A => .rol .acc
  | 0x2C => .bit (.abs (b2 ++ b1))
  | 0x2D => .and (.mem (.abs (b2 ++ b1)))
  | 0x2E => .rol (.mem (.abs (b2 ++ b1)))
  | 0x30 => .bmi b1
  | 0x31 => .and (.mem (.izy b1))
  | 0x35 => .and (.mem (.zpx b1))
  | 0x36 => .rol (.mem (.zpx b1))
  | 0x38 => .sec
  | 0x39 => .and (.mem (.aby (b2 ++ b1)))
  | 0x3D => .and (.mem (.abx (b2 ++ b1)))
  | 0x3E => .rol (.mem (.abx (b2 ++ b1)))
  | 0x40 => .rti
  | 0x41 => .eor (.mem (.izx b1))
  | 0x45 => .eor (.mem (.zp b1))
  | 0x46 => .lsr (.mem (.zp b1))
  | 0x48 => .pha
  | 0x49 => .eor (.imm b1)
  | 0x4A => .lsr .acc
  | 0x4C => .jmp (.abs (b2 ++ b1))
  | 0x4D => .eor (.mem (.abs (b2 ++ b1)))
  | 0x4E => .lsr (.mem (.abs (b2 ++ b1)))
  | 0x50 => .bvc b1
  | 0x51 => .eor (.mem (.izy b1))
  | 0x55 => .eor (.mem (.zpx b1))
  | 0x56 => .lsr (.mem (.zpx b1))
  | 0x58 => .cli
  | 0x59 => .eor (.mem (.aby (b2 ++ b1)))
  | 0x5D => .eor (.mem (.abx (b2 ++ b1)))
  | 0x5E => .lsr (.mem (.abx (b2 ++ b1)))
  | 0x60 => .rts
  | 0x61 => .adc (.mem (.izx b1))
  | 0x65 => .adc (.mem (.zp b1))
  | 0x66 => .ror (.mem (.zp b1))
  | 0x68 => .pla
  | 0x69 => .adc (.imm b1)
  | 0x6A => .ror .acc
  | 0x6C => .jmp (.ind (b2 ++ b1))
  | 0x6D => .adc (.mem (.abs (b2 ++ b1)))
  | 0x6E => .ror (.mem (.abs (b2 ++ b1)))
  | 0x70 => .bvs b1
  | 0x71 => .adc (.mem (.izy b1))
  | 0x75 => .adc (.mem (.zpx b1))
  | 0x76 => .ror (.mem (.zpx b1))
  | 0x78 => .sei
  | 0x79 => .adc (.mem (.aby (b2 ++ b1)))
  | 0x7D => .adc (.mem (.abx (b2 ++ b1)))
  | 0x7E => .ror (.mem (.abx (b2 ++ b1)))
  | 0x81 => .sta (.izx b1)
  | 0x84 => .sty (.zp b1)
  | 0x85 => .sta (.zp b1)
  | 0x86 => .stx (.zp b1)
  | 0x88 => .dey
  | 0x8A => .txa
  | 0x8C => .sty (.abs (b2 ++ b1))
  | 0x8D => .sta (.abs (b2 ++ b1))
  | 0x8E => .stx (.abs (b2 ++ b1))
  | 0x90 => .bcc b1
  | 0x91 => .sta (.izy b1)
  | 0x94 => .sty (.zpx b1)
  | 0x95 => .sta (.zpx b1)
  | 0x96 => .stx (.zpy b1)
  | 0x98 => .tya
  | 0x99 => .sta (.aby (b2 ++ b1))
  | 0x9A => .txs
  | 0x9D => .sta (.abx (b2 ++ b1))
  | 0xA0 => .ldy (.imm b1)
  | 0xA1 => .lda (.mem (.izx b1))
  | 0xA2 => .ldx (.imm b1)
  | 0xA4 => .ldy (.mem (.zp b1))
  | 0xA5 => .lda (.mem (.zp b1))
  | 0xA6 => .ldx (.mem (.zp b1))
  | 0xA8 => .tay
  | 0xA9 => .lda (.imm b1)
  | 0xAA => .tax
  | 0xAC => .ldy (.mem (.abs (b2 ++ b1)))
  | 0xAD => .lda (.mem (.abs (b2 ++ b1)))
  | 0xAE => .ldx (.mem (.abs (b2 ++ b1)))
  | 0xB0 => .bcs b1
  | 0xB1 => .lda (.mem (.izy b1))
  | 0xB4 => .ldy (.mem (.zpx b1))
  | 0xB5 => .lda (.mem (.zpx b1))
  | 0xB6 => .ldx (.mem (.zpy b1))
  | 0xB8 => .clv
  | 0xB9 => .lda (.mem (.aby (b2 ++ b1)))
  | 0xBA => .tsx
  | 0xBC => .ldy (.mem (.abx (b2 ++ b1)))
  | 0xBD => .lda (.mem (.abx (b2 ++ b1)))
  | 0xBE => .ldx (.mem (.aby (b2 ++ b1)))
  | 0xC0 => .cpy (.imm b1)
  | 0xC1 => .cmp (.mem (.izx b1))
  | 0xC4 => .cpy (.mem (.zp b1))
  | 0xC5 => .cmp (.mem (.zp b1))
  | 0xC6 => .dec (.zp b1)
  | 0xC8 => .iny
  | 0xC9 => .cmp (.imm b1)
  | 0xCA => .dex
  | 0xCC => .cpy (.mem (.abs (b2 ++ b1)))
  | 0xCD => .cmp (.mem (.abs (b2 ++ b1)))
  | 0xCE => .dec (.abs (b2 ++ b1))
  | 0xD0 => .bne b1
  | 0xD1 => .cmp (.mem (.izy b1))
  | 0xD5 => .cmp (.mem (.zpx b1))
  | 0xD6 => .dec (.zpx b1)
  | 0xD8 => .cld
  | 0xD9 => .cmp (.mem (.aby (b2 ++ b1)))
  | 0xDD => .cmp (.mem (.abx (b2 ++ b1)))
  | 0xDE => .dec (.abx (b2 ++ b1))
  | 0xE0 => .cpx (.imm b1)
  | 0xE1 => .sbc (.mem (.izx b1))
  | 0xE4 => .cpx (.mem (.zp b1))
  | 0xE5 => .sbc (.mem (.zp b1))
  | 0xE6 => .inc (.zp b1)
  | 0xE8 => .inx
  | 0xE9 => .sbc (.imm b1)
  | 0xEA => .nop
  | 0xEC => .cpx (.mem (.abs (b2 ++ b1)))
  | 0xED => .sbc (.mem (.abs (b2 ++ b1)))
  | 0xEE => .inc (.abs (b2 ++ b1))
  | 0xF0 => .beq b1
  | 0xF1 => .sbc (.mem (.izy b1))
  | 0xF5 => .sbc (.mem (.zpx b1))
  | 0xF6 => .inc (.zpx b1)
  | 0xF8 => .sed
  | 0xF9 => .sbc (.mem (.aby (b2 ++ b1)))
  | 0xFD => .sbc (.mem (.abx (b2 ++ b1)))
  | 0xFE => .inc (.abx (b2 ++ b1))
  | _ => .undefined op

/-- How many operand bytes follow an opcode byte (R120: the opcode byte alone fixes the length). -/
def operandCount (op : Byte) : Nat := (decodeOp op 0#8 0#8).size - 1

/-- Why bytes are not decoded: there are fewer of them than the opcode's format has. No byte value is refused. -/
inductive DecodeError
  | empty
  | truncated (op : Byte)
  deriving DecidableEq, Repr

/-- Decodes the instruction at the head of a list of bytes and answers it with the rest of the list. -/
def decode : List Byte → Except DecodeError (Instr × List Byte)
  | [] => .error .empty
  | op :: rest =>
    match operandCount op, rest with
    | 0, rest => .ok (decodeOp op 0#8 0#8, rest)
    | 1, b1 :: rest => .ok (decodeOp op b1 0#8, rest)
    | 2, b1 :: b2 :: rest => .ok (decodeOp op b1 b2, rest)
    | _, _ => .error (.truncated op)

/-- The three bytes of an instruction word numbered as opcode_table.json numbers it: bit 0 is the least significant bit of
the first byte; every bit at or above `nbits` is 0. -/
def tableBytes (nbits w : Nat) : List Byte :=
  let v := w % 2 ^ nbits
  [BitVec.ofNat 8 v, BitVec.ofNat 8 (v / 256), BitVec.ofNat 8 (v / 65536)]

/-- The instruction the decoder reads from a word of the opcode table. -/
def decodeTableWord (nbits w : Nat) : Option Instr :=
  match decode (tableBytes nbits w) with
  | .ok (i, _) => some i
  | .error _ => none

/-- The opcode byte of an instruction (R138), none for a form the table has no row for. -/
def opcode : Instr → Option Byte
  | .lda (.mem (.izx _)) => some 0xA1#8
  | .lda (.mem (.zp _)) => some 0xA5#8
  | .lda (.imm _) => some 0xA9#8
  | .lda (.mem (.abs _)) => some 0xAD#8
  | .lda (.mem (.izy _)) => some 0xB1#8
  | .lda (.mem (.zpx _)) => some 0xB5#8
  | .lda (.mem (.aby _)) => some 0xB9#8
  | .lda (.mem (.abx _)) => some 0xBD#8
  | .ldx (.imm _) => some 0xA2#8
  | .ldx (.mem (.zp _)) => some 0xA6#8
  | .ldx (.mem (.abs _)) => some 0xAE#8
  | .ldx (.mem (.zpy _)) => some 0xB6#8
  | .ldx (.mem (.aby _)) => some 0xBE#8
  | .ldy (.imm _) => some 0xA0#8
  | .ldy (.mem (.zp _)) => some 0xA4#8
  | .ldy (.mem (.abs _)) => some 0xAC#8
  | .ldy (.mem (.zpx _)) => some 0xB4#8
  | .ldy (.mem (.abx _)) => some 0xBC#8
  | .adc (.mem (.izx _)) => some 0x61#8
  | .adc (.mem (.zp _)) => some 0x65#8
  | .adc (.imm _) => some 0x69#8
  | .adc (.mem (.abs _)) => some 0x6D#8
  | .adc (.mem (.izy _)) => some 0x71#8
  | .adc (.mem (.zpx _)) => some 0x75#8
  | .adc (.mem (.aby _)) => some 0x79#8
  | .adc (.mem (.abx _)) => some 0x7D#8
  | .sbc (.mem (.izx _)) => some 0xE1#8
  | .sbc (.mem (.zp _)) => some 0xE5#8
  | .sbc (.imm _) => some 0xE9#8
  | .sbc (.mem (.abs _)) => some 0xED#8
  | .sbc (.mem (.izy _)) => some 0xF1#8
  | .sbc (.mem (.zpx _)) => some 0xF5#8
  | .sbc (.mem (.aby _)) => some 0xF9#8
  | .sbc (.mem (.abx _)) => some 0xFD#8
  | .and (.mem (.izx _)) => some 0x21#8
  | .and (.mem (.zp _)) => some 0x25#8
  | .and (.imm _) => some 0x29#8
  | .and (.mem (.abs _)) => some 0x2D#8
  | .and (.mem (.izy _)) => some 0x31#8
  | .and (.mem (.zpx _)) => some 0x35#8
  | .and (.mem (.aby _)) => some 0x39#8
  | .and (.mem (.abx _)) => some 0x3D#8
  | .ora (.mem (.izx _)) => some 0x01#8
  | .ora (.mem (.zp _)) => some 0x05#8
  | .ora (.imm _) => some 0x09#8
  | .ora (.mem (.abs _)) => some 0x0D#8
  | .ora (.mem (.izy _)) => some 0x11#8
  | .ora (.mem (.zpx _)) => some 0x15#8
  | .ora (.mem (.aby _)) => some 0x19#8
  | .ora (.mem (.abx _)) => some 0x1D#8
  | .eor (.mem (.izx _)) => some 0x41#8
  | .eor (.mem (.zp _)) => some 0x45#8
  | .eor (.imm _) => some 0x49#8
  | .eor (.mem (.abs _)) => some 0x4D#8
  | .eor (.mem (.izy _)) => some 0x51#8
  | .eor (.mem (.zpx _)) => some 0x55#8
  | .eor (.mem (.aby _)) => some 0x59#8
  | .eor (.mem (.abx _)) => some 0x5D#8
  | .cmp (.mem (.izx _)) => some 0xC1#8
  | .cmp (.mem (.zp _)) => some 0xC5#8
  | .cmp (.imm _) => some 0xC9#8
  | .cmp (.mem (.abs _)) => some 0xCD#8
  | .cmp (.mem (.izy _)) => some 0xD1#8
  | .cmp (.mem (.zpx _)) => some 0xD5#8
  | .cmp (.mem (.aby _)) => some 0xD9#8
  | .cmp (.mem (.abx _)) => some 0xDD#8
  | .cpx (.imm _) => some 0xE0#8
  | .cpx (.mem (.zp _)) => some 0xE4#8
  | .cpx (.mem (.abs _)) => some 0xEC#8
  | .cpy (.imm _) => some 0xC0#8
  | .cpy (.mem (.zp _)) => some 0xC4#8
  | .cpy (.mem (.abs _)) => some 0xCC#8
  | .sta (.izx _) => some 0x81#8
  | .sta (.zp _) => some 0x85#8
  | .sta (.abs _) => some 0x8D#8
  | .sta (.izy _) => some 0x91#8
  | .sta (.zpx _) => some 0x95#8
  | .sta (.aby _) => some 0x99#8
  | .sta (.abx _) => some 0x9D#8
  | .stx (.zp _) => some 0x86#8
  | .stx (.abs _) => some 0x8E#8
  | .stx (.zpy _) => some 0x96#8
  | .sty (.zp _) => some 0x84#8
  | .sty (.abs _) => some 0x8C#8
  | .sty (.zpx _) => some 0x94#8
  | .bit (.zp _) => some 0x24#8
  | .bit (.abs _) => some 0x2C#8
  | .inc (.zp _) => some 0xE6#8
  | .inc (.abs _) => some 0xEE#8
  | .inc (.zpx _) => some 0xF6#8
  | .inc (.abx _) => some 0xFE#8
  | .dec (.zp _) => some 0xC6#8
  | .dec (.abs _) => some 0xCE#8
  | .dec (.zpx _) => some 0xD6#8
  | .dec (.abx _) => some 0xDE#8
  | .asl (.mem (.zp _)) => some 0x06#8
  | .asl .acc => some 0x0A#8
  | .asl (.mem (.abs _)) => some 0x0E#8
  | .asl (.mem (.zpx _)) => some 0x16#8
  | .asl (.mem (.abx _)) => some 0x1E#8
  | .lsr (.mem (.zp _)) => some 0x46#8
  | .lsr .acc => some 0x4A#8
  | .lsr (.mem (.abs _)) => some 0x4E#8
  | .lsr (.mem (.zpx _)) => some 0x56#8
  | .lsr (.mem (.abx _)) => some 0x5E#8
  | .rol (.mem (.zp _)) => some 0x26#8
  | .rol .acc => some 0x2A#8
  | .rol (.mem (.abs _)) => some 0x2E#8
  | .rol (.mem (.zpx _)) => some 0x36#8
  | .rol (.mem (.abx _)) => some 0x3E#8
  | .ror (.mem (.zp _)) => some 0x66#8
  | .ror .acc => some 0x6A#8
  | .ror (.mem (.abs _)) => some 0x6E#8
  | .ror (.mem (.zpx _)) => some 0x76#8
  | .ror (.mem (.abx _)) => some 0x7E#8
  | .bcc _ => some 0x90#8
  | .bcs _ => some 0xB0#8
  | .beq _ => some 0xF0#8
  | .bmi _ => some 0x30#8
  | .bne _ => some 0xD0#8
  | .bpl _ => some 0x10#8
  | .bvc _ => some 0x50#8
  | .bvs _ => some 0x70#8
  | .brk => some 0x00#8
  | .php => some 0x08#8
  | .clc => some 0x18#8
  | .jsr _ => some 0x20#8
  | .plp => some 0x28#8
  | .sec => some 0x38#8
  | .rti => some 0x40#8
  | .pha => some 0x48#8
  | .jmp (.abs _) => some 0x4C#8
  | .cli => some 0x58#8
  | .rts => some 0x60#8
  | .pla => some 0x68#8
  | .jmp (.ind _) => some 0x6C#8
  | .sei => some 0x78#8
  | .dey => some 0x88#8
  | .txa => some 0x8A#8
  | .tya => some 0x98#8
  | .txs => some 0x9A#8
  | .tay => some 0xA8#8
  | .tax => some 0xAA#8
  | .clv => some 0xB8#8
  | .tsx => some 0xBA#8
  | .iny => some 0xC8#8
  | .dex => some 0xCA#8
  | .cld => some 0xD8#8
  | .inx => some 0xE8#8
  | .nop => some 0xEA#8
  | .sed => some 0xF8#8
  | .undefined op => if op.toNat ∈ undefinedOpcodes then some op else none
  | .lda _ | .ldx _ | .ldy _ | .adc _ | .sbc _ | .and _ | .ora _ | .eor _ | .cmp _ | .cpx _ | .cpy _ => none
  | .sta _ | .stx _ | .sty _ | .bit _ | .inc _ | .dec _ => none
  | .asl _ | .lsr _ | .rol _ | .ror _ => none

/-- The operand bytes of a memory mode, low byte first (R123). -/
def MemMode.bytes : MemMode → List Byte
  | .zp a | .zpx a | .zpy a | .izx a | .izy a => [a]
  | .abs a | .abx a | .aby a => [a.setWidth 8, a.extractLsb' 8 8]

def ReadOp.bytes : ReadOp → List Byte
  | .imm v => [v]
  | .mem m => m.bytes

def RmwOp.bytes : RmwOp → List Byte
  | .acc => []
  | .mem m => m.bytes

/-- The operand bytes of an instruction, in memory order (R120, R123). -/
def Instr.operandBytes : Instr → List Byte
  | .lda o | .ldx o | .ldy o | .adc o | .sbc o | .and o | .ora o | .eor o | .cmp o | .cpx o | .cpy o => o.bytes
  | .sta m | .stx m | .sty m | .bit m | .inc m | .dec m => m.bytes
  | .asl o | .lsr o | .rol o | .ror o => o.bytes
  | .jmp (.abs a) | .jmp (.ind a) | .jsr a => [a.setWidth 8, a.extractLsb' 8 8]
  | .bcc d | .bcs d | .beq d | .bmi d | .bne d | .bpl d | .bvc d | .bvs d => [d]
  | .tax | .tay | .txa | .tya | .tsx | .txs | .inx | .iny | .dex | .dey | .rts | .pha | .php | .pla | .plp
  | .clc | .sec | .cli | .sei | .cld | .sed | .clv | .nop | .brk | .rti | .undefined _ => []

/-- The bytes of a well-formed instruction (R120); a term without an encoding has none. -/
def encode (i : Instr) : List Byte :=
  match opcode i with
  | some op => op :: i.operandBytes
  | none => []

end Sys2Proof
end

