-- ==== Sys2Proof/Machine/Bits.lean ====
section
/-! DEFINITION. Bit helpers of the notation of 00_scope.md R8: `hi`, `lo`, sign extension, single bits, concatenation. -/

namespace Sys2Proof.Machine

/-- `lo(w) = w[7:0]` (00_scope.md R8). -/
def lo (w : Word) : Byte := w.setWidth 8

/-- `hi(w) = w[15:8]` (00_scope.md R8). -/
def hi (w : Word) : Byte := w.extractLsb' 8 8

/-- The 16-bit value with high byte `h` and low byte `l` (00_scope.md R8, R10). -/
def word (h l : Byte) : Word := h ++ l

/-- `sext_16(b)` (00_scope.md R8): `b` when `b < $80`, else `$FF00 + b`. -/
def sext16 (b : Byte) : Word := b.signExtend 16

/-- A flag as a one-bit value. -/
def bit1 (b : Bool) : BitVec 1 := BitVec.ofBool b

/-- A flag as a byte, 0 or 1. -/
def bitByte (b : Bool) : Byte := if b then 1#8 else 0#8

/-- `bitreverse8` (47_ppu.md R406): swaps bit k with bit 7 - k. -/
def bitReverse8 (b : Byte) : Byte := b.reverse

end Sys2Proof.Machine
end

