-- ==== Sys2Proof/Config.lean ====
section
/-! DEFINITION. What is fixed for a machine: the open parameters of 00_scope.md R7 that `new(config)` takes
(49_machine_and_savestate.md R521), the fixed numbers of R7, and the model's free values. -/

namespace Sys2Proof

/-- DESIGN CHOICE (log entry 6). The colour of each palette index, red, green, blue: PALETTE_RGBA is an OPEN parameter
and the spec gives no colour (47_ppu.md R411, 93 U5). A free value: nothing constrains it. -/
opaque Config.paletteRgb : Nat → BitVec 24

/-- DESIGN CHOICE (log entry 10). The pattern row of a sprite where the integer row of 47_ppu.md R406 is negative: the address
is made of naturals, and the rule gives none there. Arguments: height, scanline, Y byte, flipped vertically.
A free value: nothing constrains it. -/
opaque Config.spriteRow : Nat → Nat → Nat → Bool → Nat

/-- The parameters `new(config)` takes (00_scope.md R7, 49_machine_and_savestate.md R521). Fixed for a run; a claim about
every state is a claim about every value of them. -/
structure Params where
  /-- SAMPLE_RATE, at least 1 and at most NOMINAL_CPU_HZ (48_apu.md R492). -/
  sampleRate : Nat
  /-- OPEN_BUS_VALUE (20_memory.md R71). -/
  openBus : Byte
  /-- RAM_INIT as (cell, byte) pairs, an unlisted cell 0 (10_state.md R45). -/
  ramInit : List Host.Cell
  /-- The red, green and blue that `PALETTE_RGBA` gives the first colour indices (47_ppu.md R411); an index it does not reach
  has the free value `Config.paletteRgb` (log entry 6). -/
  palette : List (BitVec 24)
  deriving DecidableEq, Repr

/-- The defaults of 00_scope.md R7; the palette, which has none, is the free value (log entry 6). -/
def Params.standard : Params :=
  { sampleRate := 44100
    openBus := 0x00#8
    ramInit := []
    palette := [] }

/-- `PALETTE_RGBA(c)` (47_ppu.md R411): the colour with alpha $FF. -/
def Params.rgba (p : Params) (c : Byte) : BitVec 32 := (p.palette[c.toNat]?.getD (Config.paletteRgb c.toNat)) ++ 0xFF#8

/-- NOMINAL_CPU_HZ = 341 · 262 · 60 / 3 (48_apu.md R492). -/
def nominalCpuHz : Nat := 1786840

/-- SCREEN_W and SCREEN_H (00_scope.md R7). -/
def screenW : Nat := 256
/-- SCREEN_H (00_scope.md R7). -/
def screenH : Nat := 240

/-- SAVE_STATE_VERSION (00_scope.md R7). -/
def saveStateVersion : BitVec 32 := 1#32

end Sys2Proof
end

