-- ==== Sys2Proof/Machine/State.lean ====
section
/-! DEFINITION. The state of every block (10_state.md R20 to R41) as plain data, its value at reset (R45, R47), and the
closed types of faults and refusals. -/

namespace Sys2Proof.Machine

/-- Why the machine stops with a fault. It has no constructor: no rule of the spec stops the machine (60_exceptions.md R580,
70_reset_and_hazards.md R634, 49_machine_and_savestate.md R544), so nothing raises one; safe. -/
inductive Fault
  deriving DecidableEq, Repr

/-- Why an instruction has no meaning in the model. -/
inductive Refusal
  /-- Raised by an arm of exec for an instruction that is not modelled; safe. No arm raises it. -/
  | notModelled (mnemonic : String)
  deriving DecidableEq, Repr

/-- The bytes of one storage array: (index, byte) pairs, indexes strictly rising, no pair holding what an unlisted index
reads as (Machine/Memory.lean). -/
abbrev Mem := List Host.Cell

/-- What an unlisted byte of any storage array reads as: every memory is zero at power-on (10_state.md R45; log entry 5). -/
abbrev Mem.unlisted : Byte := 0x00#8

/-- A picture of screenH rows by screenW columns: (row, pixels) pairs, the pixels (column, word) pairs, both in the same
canonical form; an unlisted pixel is 0 (10_state.md R34, R45). -/
abbrev Frame := List (Nat × List (Nat × BitVec 32))

/-- The CPU (10_state.md R22 to R30). -/
structure Cpu where
  a : Byte
  x : Byte
  y : Byte
  s : Byte
  pc : Word
  c : Bool
  z : Bool
  i : Bool
  d : Bool
  v : Bool
  n : Bool
  nmiPending : Bool
  irqPending : Bool
  cycles : BitVec 64
  unsupportedSeen : Bool
  unsupportedOpcode : Byte
  unsupportedAt : Word
  deriving DecidableEq, Repr

/-- One controller port (10_state.md R32). -/
structure Pad where
  buttons : Byte
  shift : Byte
  deriving DecidableEq, Repr

/-- The bus's own state: work RAM (R31) and the controllers (R32). -/
structure Bus where
  ram : Mem
  strobe : Bool
  pad0 : Pad
  pad1 : Pad
  deriving DecidableEq, Repr

/-- The picture processing unit (10_state.md R33 to R35). -/
structure Ppu where
  ctrl : Byte
  mask : Byte
  status : Byte
  v : BitVec 15
  t : BitVec 15
  x : BitVec 3
  w : Bool
  buffer : Byte
  oamAddr : Byte
  scanline : Nat
  dot : Nat
  frameComplete : Bool
  vram : Mem
  oam : Mem
  palette : Mem
  framebuffer : Frame
  ntLatch : Byte
  atLatch : BitVec 2
  loLatch : Byte
  hiLatch : Byte
  bgLo : BitVec 16
  bgHi : BitVec 16
  atLo : BitVec 16
  atHi : BitVec 16
  secOam : Vector Byte 32
  spriteCount : Nat
  spLo : Vector Byte 8
  spHi : Vector Byte 8
  spX : Vector Byte 8
  spAttr : Vector Byte 8
  sp0OnLine : Bool
  deriving DecidableEq, Repr

/-- A pulse channel (10_state.md R36). -/
structure Pulse where
  enabled : Bool
  duty : BitVec 2
  halt : Bool
  constant : Bool
  volume : BitVec 4
  sweepEnabled : Bool
  sweepPeriod : BitVec 3
  sweepNegate : Bool
  sweepShift : BitVec 3
  sweepReload : Bool
  sweepDivider : BitVec 3
  timerPeriod : BitVec 11
  timer : BitVec 11
  seqPos : BitVec 3
  length : Byte
  envStart : Bool
  envDivider : BitVec 4
  envDecay : BitVec 4
  deriving DecidableEq, Repr

/-- The triangle channel (10_state.md R36). -/
structure Triangle where
  enabled : Bool
  control : Bool
  linearLoad : BitVec 7
  timerPeriod : BitVec 11
  timer : BitVec 11
  seqPos : BitVec 5
  length : Byte
  linear : BitVec 7
  linearReload : Bool
  deriving DecidableEq, Repr

/-- The noise channel (10_state.md R36). -/
structure Noise where
  enabled : Bool
  halt : Bool
  constant : Bool
  volume : BitVec 4
  mode : Bool
  periodIndex : BitVec 4
  timer : BitVec 12
  lfsr : BitVec 15
  length : Byte
  envStart : Bool
  envDivider : BitVec 4
  envDecay : BitVec 4
  deriving DecidableEq, Repr

/-- The delta-modulation channel (10_state.md R36). -/
structure Dmc where
  irqEnabled : Bool
  loop : Bool
  rateIndex : BitVec 4
  timer : BitVec 9
  level : BitVec 7
  sampleAddr : Word
  sampleLen : BitVec 12
  curAddr : Word
  bytesRemaining : BitVec 12
  buffer : Byte
  bufferFull : Bool
  shift : Byte
  bitsRemaining : Nat
  silence : Bool
  irqFlag : Bool
  deriving DecidableEq, Repr

/-- The frame sequencer (10_state.md R37); `mode` is true in 5-step mode. The counter is held in 16 bits (log entry 11). -/
structure FrameSeq where
  mode : Bool
  irqInhibit : Bool
  irqFlag : Bool
  counter : BitVec 16
  deriving DecidableEq, Repr

/-- The audio processing unit (10_state.md R36, R37); samples are binary32 words, oldest first. -/
structure Apu where
  pulse0 : Pulse
  pulse1 : Pulse
  triangle : Triangle
  noise : Noise
  dmc : Dmc
  frame : FrameSeq
  odd : Bool
  decimAcc : BitVec 32
  samples : List (BitVec 32)
  deriving DecidableEq, Repr

/-- The mirroring modes: the header's three (10_state.md R38) and the two one-screen modes (R39). -/
inductive Mirroring
  | horizontal | vertical | fourScreen | oneScreenLow | oneScreenHigh
  deriving DecidableEq, Repr

/-- The cartridge (10_state.md R38). -/
structure Cart where
  prgRom : Mem
  chrRom : Mem
  chrRam : Mem
  prgRam : Mem
  mirroring : Mirroring
  mapperId : Byte
  prgBanks : Byte
  chrBanks : Byte
  fingerprint : BitVec 32
  deriving DecidableEq, Repr

/-- The registers of mapper variant 1 (46_mapper.md R320). -/
structure Mapper1 where
  shift : BitVec 5
  shiftCount : Nat
  control : BitVec 5
  chr0 : BitVec 5
  chr1 : BitVec 5
  prg : BitVec 5
  deriving DecidableEq, Repr

/-- The registers of mapper variant 4 (46_mapper.md R330). -/
structure Mapper4 where
  bankSelect : Byte
  r : Vector Byte 8
  ramProtect : Byte
  irqLatch : Byte
  irqCounter : Byte
  irqReload : Bool
  irqEnabled : Bool
  a12Prev : Bool
  deriving DecidableEq, Repr

/-- The mapper variants (46_mapper.md R304). -/
inductive Variant
  | v0
  | v1 (m : Mapper1)
  | v4 (m : Mapper4)
  deriving DecidableEq, Repr

/-- The mapper: what every variant has and the variant's own registers (10_state.md R39). -/
structure Mapper where
  mirroring : Mirroring
  irqFlag : Bool
  variant : Variant
  deriving DecidableEq, Repr

/-- The whole machine (10_state.md R40) with the parameters of the run (00_scope.md R7). -/
structure State where
  cpu : Cpu
  bus : Bus
  ppu : Ppu
  apu : Apu
  cart : Cart
  mapper : Mapper
  loaded : Bool
  publishedFrame : Frame
  audioOut : List (BitVec 32)
  params : Params
  deriving DecidableEq, Repr

/-- The CPU after `load` and after `reset()` (10_state.md R45, R46; 70_reset_and_hazards.md R621), with `PC` at `pc`. -/
def Cpu.reset (pc : Word) : Cpu :=
  { a := 0x00#8, x := 0x00#8, y := 0x00#8, s := 0xFD#8, pc := pc
    c := false, z := false, i := true, d := false, v := false, n := false
    nmiPending := false, irqPending := false, cycles := 0#64
    unsupportedSeen := false, unsupportedOpcode := 0x00#8, unsupportedAt := 0x0000#16 }

/-- The PPU's registers, latches, pipeline and position after `load` and after `reset()` (10_state.md R45, R46), with the
given memories and picture. -/
def Ppu.reset (vram oam palette : Mem) (framebuffer : Frame) : Ppu :=
  { ctrl := 0x00#8, mask := 0x00#8, status := 0x00#8, v := 0#15, t := 0#15, x := 0#3, w := false
    buffer := 0x00#8, oamAddr := 0x00#8, scanline := 241, dot := 2, frameComplete := false
    vram := vram, oam := oam, palette := palette, framebuffer := framebuffer
    ntLatch := 0x00#8, atLatch := 0#2, loLatch := 0x00#8, hiLatch := 0x00#8
    bgLo := 0#16, bgHi := 0#16, atLo := 0#16, atHi := 0#16
    secOam := Vector.replicate 32 0xFF#8, spriteCount := 0
    spLo := Vector.replicate 8 0x00#8, spHi := Vector.replicate 8 0x00#8
    spX := Vector.replicate 8 0x00#8, spAttr := Vector.replicate 8 0x00#8, sp0OnLine := false }

/-- The PPU after `load`: its memories and picture are zero (10_state.md R45). -/
def Ppu.powerOn : Ppu := Ppu.reset [] [] [] []

/-- A pulse channel after reset (10_state.md R45). -/
def Pulse.reset : Pulse :=
  { enabled := false, duty := 0#2, halt := false, constant := false, volume := 0#4, sweepEnabled := false
    sweepPeriod := 0#3, sweepNegate := false, sweepShift := 0#3, sweepReload := false, sweepDivider := 0#3
    timerPeriod := 0#11, timer := 0#11, seqPos := 0#3, length := 0x00#8, envStart := false, envDivider := 0#4
    envDecay := 0#4 }

/-- The APU after `load` and after `reset()` (10_state.md R45, R46). -/
def Apu.reset : Apu :=
  { pulse0 := Pulse.reset, pulse1 := Pulse.reset
    triangle := { enabled := false, control := false, linearLoad := 0#7, timerPeriod := 0#11, timer := 0#11
                  seqPos := 0#5, length := 0x00#8, linear := 0#7, linearReload := false }
    noise := { enabled := false, halt := false, constant := false, volume := 0#4, mode := false, periodIndex := 0#4
               timer := 0#12, lfsr := 1#15, length := 0x00#8, envStart := false, envDivider := 0#4, envDecay := 0#4 }
    dmc := { irqEnabled := false, loop := false, rateIndex := 0#4, timer := 427#9, level := 0#7
             sampleAddr := 0x0000#16, sampleLen := 0#12, curAddr := 0x0000#16, bytesRemaining := 0#12
             buffer := 0x00#8, bufferFull := false, shift := 0x00#8, bitsRemaining := 8, silence := true
             irqFlag := false }
    frame := { mode := false, irqInhibit := false, irqFlag := false, counter := 0#16 }
    odd := false, decimAcc := 0#32, samples := [] }

/-- Bus state after `load` (10_state.md R45): work RAM is RAM_INIT, the controllers are zero. -/
def Bus.powerOn (p : Params) : Bus :=
  { ram := p.ramInit, strobe := false
    pad0 := { buttons := 0x00#8, shift := 0x00#8 }, pad1 := { buttons := 0x00#8, shift := 0x00#8 } }

/-- No cartridge (10_state.md R47): zero banks and no byte (log entry 1). -/
def Cart.none : Cart :=
  { prgRom := [], chrRom := [], chrRam := [], prgRam := [], mirroring := .horizontal, mapperId := 0x00#8
    prgBanks := 0x00#8, chrBanks := 0x00#8, fingerprint := 0x811C9DC5#32 }

/-- The empty machine `new(config)` builds (49_machine_and_savestate.md R521, 10_state.md R47): `machine.loaded` is 0. R47
gives it no other state; every register holds the value R45 gives it, and `PC`, for which there is no vector to read,
$0000 (log entry 1). Of these `diagnostic()` answers three fields (log entry 24). -/
def State.empty (p : Params) : State :=
  { cpu := Cpu.reset 0x0000#16
    bus := Bus.powerOn p
    ppu := Ppu.powerOn
    apu := Apu.reset
    cart := Cart.none
    mapper := { mirroring := .horizontal, irqFlag := false, variant := .v0 }
    loaded := false
    publishedFrame := []
    audioOut := []
    params := p }

/-- The machine before any `load`, with the default parameters of 00_scope.md R7 (log entries 1 and 2). -/
def State.reset : State := State.empty Params.standard

end Sys2Proof.Machine
end

