-- ==== Sys2Proof/Machine/ApuRegs.lean ====
section
/-! DEFINITION. The APU's units and registers (48_apu.md R443 to R485): tables, envelopes, length counters, sweeps, the
quarter- and half-frame clocks and the register reads and writes. -/

namespace Sys2Proof.Machine

/-- Pulse channel `k` (10_state.md R36). -/
def Apu.pulse (a : Apu) (k : Fin 2) : Pulse := if k = 0 then a.pulse0 else a.pulse1

/-- Replaces pulse channel `k`. -/
def Apu.setPulse (a : Apu) (k : Fin 2) (p : Pulse) : Apu :=
  if k = 0 then { a with pulse0 := p } else { a with pulse1 := p }

/-- LENGTH_TABLE (48_apu.md R443). -/
def lengthTable : List Nat :=
  [10, 254, 20, 2, 40, 4, 80, 6, 160, 8, 60, 10, 14, 12, 26, 14] ++
  [12, 16, 24, 18, 48, 20, 96, 22, 192, 24, 72, 26, 16, 28, 32, 30]

/-- `LENGTH_TABLE[data >> 3]` (48_apu.md R443). -/
def lengthOf (data : Byte) : Byte := BitVec.ofNat 8 (lengthTable.getD (data >>> 3).toNat 0)

/-- `ClockEnvelope` (48_apu.md R444) over the fields every envelope has: the next start bit, divider and decay. -/
def clockEnvelope (start halt : Bool) (volume divider decay : BitVec 4) : Bool × BitVec 4 × BitVec 4 :=
  if start then (false, volume, 15#4)
  else if divider = 0#4 then
    (false, volume, if decay = 0#4 then (if halt then 15#4 else 0#4) else decay - 1#4)
  else (false, divider - 1#4, decay)

/-- `EnvelopeOut` (48_apu.md R444). -/
def envelopeOut (constant : Bool) (volume decay : BitVec 4) : BitVec 4 := if constant then volume else decay

def Pulse.clockEnvelope (p : Pulse) : Pulse :=
  let e := Machine.clockEnvelope p.envStart p.halt p.volume p.envDivider p.envDecay
  { p with envStart := e.1, envDivider := e.2.1, envDecay := e.2.2 }

def Noise.clockEnvelope (n : Noise) : Noise :=
  let e := Machine.clockEnvelope n.envStart n.halt n.volume n.envDivider n.envDecay
  { n with envStart := e.1, envDivider := e.2.1, envDecay := e.2.2 }

/-- `ClockLength` (48_apu.md R445). -/
def clockLength (halt : Bool) (length : Byte) : Byte :=
  if halt ∨ length = 0x00#8 then length else length - 1#8

/-- `SweepTarget` (48_apu.md R455), a negative result as 0: pulse 1 subtracts one more than pulse 2. -/
def Pulse.sweepTarget (p : Pulse) (k : Fin 2) : Nat :=
  let period := p.timerPeriod.toNat
  let change := (p.timerPeriod >>> p.sweepShift.toNat).toNat
  if !p.sweepNegate then period + change
  else if k = 0 then period - change - 1
  else period - change

/-- `SweepMute` (48_apu.md R455). -/
def Pulse.sweepMute (p : Pulse) (k : Fin 2) : Bool :=
  decide (p.timerPeriod.toNat < 8 ∨ 0x7FF < p.sweepTarget k)

/-- `ClockSweep` (48_apu.md R455). -/
def Pulse.clockSweep (p : Pulse) (k : Fin 2) : Pulse :=
  let period :=
    if p.sweepDivider = 0#3 ∧ p.sweepEnabled ∧ p.sweepShift ≠ 0#3 ∧ !p.sweepMute k then
      BitVec.ofNat 11 (p.sweepTarget k)
    else p.timerPeriod
  if p.sweepDivider = 0#3 ∨ p.sweepReload then
    { p with timerPeriod := period, sweepDivider := p.sweepPeriod, sweepReload := false }
  else { p with timerPeriod := period, sweepDivider := p.sweepDivider - 1#3 }

/-- `ClockLinear` (48_apu.md R464). -/
def Triangle.clockLinear (t : Triangle) : Triangle :=
  { t with
    linear := if t.linearReload then t.linearLoad else if t.linear = 0#7 then 0#7 else t.linear - 1#7
    linearReload := t.linearReload && t.control }

/-- `QuarterFrame` (48_apu.md R446). -/
def Apu.quarterFrame (a : Apu) : Apu :=
  { a with
    pulse0 := a.pulse0.clockEnvelope
    pulse1 := a.pulse1.clockEnvelope
    noise := a.noise.clockEnvelope
    triangle := a.triangle.clockLinear }

def Pulse.clockLength (p : Pulse) : Pulse := { p with length := Machine.clockLength p.halt p.length }

/-- `HalfFrame` (48_apu.md R447). -/
def Apu.halfFrame (a : Apu) : Apu :=
  { a with
    pulse0 := a.pulse0.clockLength.clockSweep 0
    pulse1 := a.pulse1.clockLength.clockSweep 1
    triangle := { a.triangle with length := clockLength a.triangle.control a.triangle.length }
    noise := { a.noise with length := clockLength a.noise.halt a.noise.length } }

/-- $4000 / $4004 (48_apu.md R450). -/
def Pulse.write0 (p : Pulse) (data : Byte) : Pulse :=
  { p with
    duty := data.extractLsb' 6 2, halt := data.getLsbD 5, constant := data.getLsbD 4, volume := data.setWidth 4 }

/-- $4001 / $4005 (48_apu.md R451). -/
def Pulse.write1 (p : Pulse) (data : Byte) : Pulse :=
  { p with
    sweepEnabled := data.getLsbD 7, sweepPeriod := data.extractLsb' 4 3, sweepNegate := data.getLsbD 3
    sweepShift := data.setWidth 3, sweepReload := true }

/-- The low byte of a timer period (48_apu.md R452, R461). -/
def periodLow (period : BitVec 11) (data : Byte) : BitVec 11 := (period &&& 0x700#11) ||| data.setWidth 11

/-- The high three bits of a timer period (48_apu.md R453, R462). -/
def periodHigh (period : BitVec 11) (data : Byte) : BitVec 11 :=
  (period &&& 0x0FF#11) ||| ((data &&& 7#8).setWidth 11 <<< 8)

/-- $4002 / $4006 (48_apu.md R452). -/
def Pulse.write2 (p : Pulse) (data : Byte) : Pulse := { p with timerPeriod := periodLow p.timerPeriod data }

/-- $4003 / $4007 (48_apu.md R453). -/
def Pulse.write3 (p : Pulse) (data : Byte) : Pulse :=
  { p with
    timerPeriod := periodHigh p.timerPeriod data
    length := if p.enabled then lengthOf data else p.length
    seqPos := 0#3
    envStart := true }

/-- A write to pulse register `r` of 0 to 3 (48_apu.md R450 to R453). -/
def Pulse.writeReg (p : Pulse) (r : Nat) (data : Byte) : Pulse :=
  match r with
  | 0 => p.write0 data
  | 1 => p.write1 data
  | 2 => p.write2 data
  | _ => p.write3 data

/-- $4008 to $400B (48_apu.md R460 to R462); $4009 changes nothing. -/
def Triangle.writeReg (t : Triangle) (r : Nat) (data : Byte) : Triangle :=
  match r with
  | 0 => { t with control := data.getLsbD 7, linearLoad := data.setWidth 7 }
  | 1 => t
  | 2 => { t with timerPeriod := periodLow t.timerPeriod data }
  | _ => { t with
      timerPeriod := periodHigh t.timerPeriod data
      length := if t.enabled then lengthOf data else t.length
      linearReload := true }

/-- $400C to $400F (48_apu.md R466 to R468); $400D changes nothing. -/
def Noise.writeReg (n : Noise) (r : Nat) (data : Byte) : Noise :=
  match r with
  | 0 => { n with halt := data.getLsbD 5, constant := data.getLsbD 4, volume := data.setWidth 4 }
  | 1 => n
  | 2 => { n with mode := data.getLsbD 7, periodIndex := data.setWidth 4 }
  | _ => { n with length := if n.enabled then lengthOf data else n.length, envStart := true }

/-- $4010 to $4013 (48_apu.md R472 to R475). -/
def Dmc.writeReg (d : Dmc) (r : Nat) (data : Byte) : Dmc :=
  match r with
  | 0 => { d with
      irqEnabled := data.getLsbD 7, loop := data.getLsbD 6, rateIndex := data.setWidth 4
      irqFlag := d.irqFlag && data.getLsbD 7 }
  | 1 => { d with level := data.setWidth 7 }
  | 2 => { d with sampleAddr := 0xC000#16 + (data.setWidth 16 <<< 6) }
  | _ => { d with sampleLen := (data.setWidth 12 <<< 4) + 1#12 }

/-- $4015 write (48_apu.md R484). -/
def Apu.writeEnables (a : Apu) (data : Byte) : Apu :=
  { a with
    pulse0 := { a.pulse0 with
      enabled := data.getLsbD 0, length := if data.getLsbD 0 then a.pulse0.length else 0x00#8 }
    pulse1 := { a.pulse1 with
      enabled := data.getLsbD 1, length := if data.getLsbD 1 then a.pulse1.length else 0x00#8 }
    triangle := { a.triangle with
      enabled := data.getLsbD 2, length := if data.getLsbD 2 then a.triangle.length else 0x00#8 }
    noise := { a.noise with
      enabled := data.getLsbD 3, length := if data.getLsbD 3 then a.noise.length else 0x00#8 }
    dmc :=
      if !data.getLsbD 4 then { a.dmc with bytesRemaining := 0#12, irqFlag := false }
      else if a.dmc.bytesRemaining = 0#12 then
        { a.dmc with curAddr := a.dmc.sampleAddr, bytesRemaining := a.dmc.sampleLen, irqFlag := false }
      else { a.dmc with irqFlag := false } }

/-- $4017 write (48_apu.md R480). -/
def Apu.writeFrame (a : Apu) (data : Byte) : Apu :=
  let a' := { a with frame :=
    { mode := data.getLsbD 7, irqInhibit := data.getLsbD 6
      irqFlag := a.frame.irqFlag && !data.getLsbD 6, counter := 0#16 } }
  if data.getLsbD 7 then a'.quarterFrame.halfFrame else a'

/-- A CPU write to $4000 to $4013, $4015 or $4017 (20_memory.md R64; 48_apu.md R450 to R484). -/
def Apu.write (a : Apu) (addr : Nat) (data : Byte) : Apu :=
  let r := addr % 4
  if addr < 0x4004 then { a with pulse0 := a.pulse0.writeReg r data }
  else if addr < 0x4008 then { a with pulse1 := a.pulse1.writeReg r data }
  else if addr < 0x400C then { a with triangle := a.triangle.writeReg r data }
  else if addr < 0x4010 then { a with noise := a.noise.writeReg r data }
  else if addr < 0x4014 then { a with dmc := a.dmc.writeReg r data }
  else if addr = 0x4015 then a.writeEnables data
  else a.writeFrame data

/-- The byte a read of $4015 returns (48_apu.md R485). -/
def Apu.statusByte (a : Apu) : Byte :=
  (if a.pulse0.length = 0x00#8 then 0x00#8 else 0x01#8) |||
  (if a.pulse1.length = 0x00#8 then 0x00#8 else 0x02#8) |||
  (if a.triangle.length = 0x00#8 then 0x00#8 else 0x04#8) |||
  (if a.noise.length = 0x00#8 then 0x00#8 else 0x08#8) |||
  (if a.dmc.bytesRemaining = 0#12 then 0x00#8 else 0x10#8) |||
  (if a.frame.irqFlag then 0x40#8 else 0x00#8) |||
  (if a.dmc.irqFlag then 0x80#8 else 0x00#8)

/-- $4015 read (48_apu.md R485): clears the frame IRQ flag, not the delta-modulation one. -/
def Apu.readStatus (a : Apu) : Byte × Apu :=
  (a.statusByte, { a with frame := { a.frame with irqFlag := false } })

end Sys2Proof.Machine
end

