-- ==== Sys2Proof/Machine/Memory.lean ====
section
/-! DEFINITION. The storage arrays: reading and writing a canonical sparse list, and the canonical form itself. -/

namespace Sys2Proof.Machine

/-- What index `a` holds: the listed value, else `d`. -/
def Store.read {α : Type} (d : α) : List (Nat × α) → Nat → α
  | [], _ => d
  | (k, v) :: t, a => if a = k then v else Store.read d t a

/-- Adds an entry for index `a` in its place, before every higher index. -/
def Store.put {α : Type} (a : Nat) (v : α) : List (Nat × α) → List (Nat × α)
  | [] => [(a, v)]
  | (k, w) :: t => if a < k then (a, v) :: (k, w) :: t else (k, w) :: Store.put a v t

/-- Takes every entry for index `a` out. -/
def Store.drop {α : Type} (a : Nat) : List (Nat × α) → List (Nat × α)
  | [] => []
  | (k, w) :: t => if a = k then Store.drop a t else (k, w) :: Store.drop a t

/-- Makes index `a` hold `v`; writing what an unlisted index reads as takes the entry out, so the form stays canonical. -/
def Store.write {α : Type} [DecidableEq α] (d : α) (m : List (Nat × α)) (a : Nat) (v : α) : List (Nat × α) :=
  if v = d then Store.drop a m else Store.put a v (Store.drop a m)

/-- The canonical form of an array of `size` entries: indexes strictly rising and below `size`, no entry equal to `d`. -/
abbrev Store.wf {α : Type} [DecidableEq α] (d : α) (size : Nat) (m : List (Nat × α)) : Prop :=
  m.Pairwise (fun p q => p.1 < q.1) ∧ (∀ p ∈ m, p.1 < size ∧ p.2 ≠ d)

/-- The byte at index `a` of a storage array. -/
def Mem.read (m : Mem) (a : Nat) : Byte := Store.read Mem.unlisted m a

/-- Stores byte `v` at index `a` of a storage array. -/
def Mem.write (m : Mem) (a : Nat) (v : Byte) : Mem := Store.write Mem.unlisted m a v

/-- The canonical form of a storage array of `size` bytes. -/
abbrev Memory.wf (size : Nat) (m : Mem) : Prop := Store.wf Mem.unlisted size m

/-- The canonical array that holds the listed bytes from index `k` on. -/
def Mem.ofBytesFrom (k : Nat) : List Byte → Mem
  | [] => []
  | b :: t => if b = Mem.unlisted then Mem.ofBytesFrom (k + 1) t else (k, b) :: Mem.ofBytesFrom (k + 1) t

/-- The canonical array that holds the listed bytes from index 0 on. -/
def Mem.ofBytes (bs : List Byte) : Mem := Mem.ofBytesFrom 0 bs

/-- The first `n` bytes of an array. -/
def Mem.toBytes (n : Nat) (m : Mem) : List Byte := (List.range n).map m.read

/-- The pixel at column `x` of row `y` (index `y · SCREEN_W + x`, 10_state.md R34). -/
def Frame.read (f : Frame) (x y : Nat) : BitVec 32 := Store.read 0#32 (Store.read [] f y) x

/-- Writes the pixel at column `x` of row `y`. -/
def Frame.write (f : Frame) (x y : Nat) (p : BitVec 32) : Frame :=
  Store.write [] f y (Store.write 0#32 (Store.read [] f y) x p)

/-- The canonical form of a picture of SCREEN_W by SCREEN_H pixels. -/
abbrev Frame.wf (f : Frame) : Prop := Store.wf [] screenH f ∧ ∀ row ∈ f, Store.wf 0#32 screenW row.2

end Sys2Proof.Machine
end

