-- ==== Sys2Proof/Machine/MapperOps.lean ====
section
/-! DEFINITION. The cartridge mapper (46_mapper.md): `init`, `map_read`, `map_write`, `observe_ppu` for variants 0, 1 and 4.
Addresses are naturals, already reduced to their space. -/

namespace Sys2Proof.Machine

/-- Which address space an access belongs to (46_mapper.md R300). -/
inductive Device
  | cpu | ppu
  deriving DecidableEq, Repr

/-- The arrays an access can resolve to (46_mapper.md R301); `unmapped` is the spec's `None`. -/
inductive Target
  | prgRom | prgRam | chrRom | chrRam | unmapped
  deriving DecidableEq, Repr

/-- Number of bytes of PRG ROM (10_state.md R38). -/
def Cart.prgSize (c : Cart) : Nat := 16384 * c.prgBanks.toNat

/-- Number of bytes of CHR ROM (10_state.md R38). -/
def Cart.chrSize (c : Cart) : Nat := 8192 * c.chrBanks.toNat

/-- CHR ROM when the image has some, CHR RAM otherwise (46_mapper.md R312, R325, R346). -/
def Cart.chrTarget (c : Cart) : Target := if c.chrBanks = 0x00#8 then .chrRam else .chrRom

/-- Number of `unit`-byte banks of pattern memory: 8192 bytes of CHR RAM, or the CHR ROM (46_mapper.md R325, R346). -/
def Cart.chrUnits (c : Cart) (unit : Nat) : Nat :=
  if c.chrBanks = 0x00#8 then 8192 / unit else c.chrSize / unit

/-- `mir` (46_mapper.md R323): the mirroring of bits 1 to 0 of variant 1's control register. -/
def mirroringOfControl (control : BitVec 5) : Mirroring :=
  match (control &&& 3#5).toNat with
  | 0 => .oneScreenLow
  | 1 => .oneScreenHigh
  | 2 => .vertical
  | _ => .horizontal

/-- `init`, variant 1 (46_mapper.md R321). -/
def Mapper1.init : Mapper1 :=
  { shift := 0#5, shiftCount := 0, control := 0x0C#5, chr0 := 0#5, chr1 := 0#5, prg := 0#5 }

/-- `init`, variant 4 (46_mapper.md R331). -/
def Mapper4.init : Mapper4 :=
  { bankSelect := 0x00#8, r := Vector.replicate 8 0x00#8, ramProtect := 0x00#8, irqLatch := 0x00#8
    irqCounter := 0x00#8, irqReload := false, irqEnabled := false, a12Prev := false }

/-- The catalog (46_mapper.md R304) with the bank-count checks of R305: `none` when the id is not in the catalog, else
whether the counts pass. -/
def mapperChecks (id : Byte) (prgBanks chrBanks : Byte) : Option Bool :=
  match id.toNat with
  | 0 => some (decide (1 ≤ prgBanks.toNat ∧ prgBanks.toNat ≤ 2 ∧ chrBanks.toNat ≤ 1))
  | 1 => some (decide (1 ≤ prgBanks.toNat ∧ prgBanks.toNat ≤ 16 ∧ chrBanks.toNat ≤ 16))
  | 4 => some (decide (1 ≤ prgBanks.toNat ∧ prgBanks.toNat ≤ 32 ∧ chrBanks.toNat ≤ 32))
  | _ => none

/-- `init` (46_mapper.md R305, R311, R321, R331): the mapper of a cartridge right after `load`. -/
def Mapper.init (c : Cart) : Mapper :=
  match c.mapperId.toNat with
  | 1 => { mirroring := .oneScreenLow, irqFlag := false, variant := .v1 Mapper1.init }
  | 4 => { mirroring := c.mirroring, irqFlag := false, variant := .v4 Mapper4.init }
  | _ => { mirroring := c.mirroring, irqFlag := false, variant := .v0 }

/-- PRG mapping of variant 1 (46_mapper.md R324), for an address in $8000 to $FFFF. -/
def Mapper1.prgOffset (m : Mapper1) (prgBanks : Nat) (addr : Nat) : Nat :=
  let b := (m.prg &&& 0x0F#5).toNat
  let low := addr < 0xC000
  let bank := match ((m.control >>> 2) &&& 3#5).toNat with
    | 0 | 1 => (m.prg &&& 0x0E#5).toNat + if low then 0 else 1
    | 2 => if low then 0 else b
    | _ => if low then b else prgBanks - 1
  (bank % prgBanks) * 16384 + addr % 16384

/-- CHR mapping of variant 1 (46_mapper.md R325), for an address in $0000 to $1FFF. -/
def Mapper1.chrOffset (m : Mapper1) (units : Nat) (addr : Nat) : Nat :=
  let low := addr < 0x1000
  let bank := if m.control.getLsbD 4 then (if low then m.chr0.toNat else m.chr1.toNat)
    else (m.chr0 &&& 0x1E#5).toNat + if low then 0 else 1
  (bank % units) * 4096 + addr % 4096

/-- `r[i]` of variant 4 (46_mapper.md R330). -/
def Mapper4.bank (m : Mapper4) (i : Nat) : Nat := (m.r[i]?.getD 0x00#8).toNat

/-- PRG mapping of variant 4 (46_mapper.md R345), for an address in $8000 to $FFFF. -/
def Mapper4.prgOffset (m : Mapper4) (prgBanks : Nat) (addr : Nat) : Nat :=
  let n8 := 2 * prgBanks
  let swapped := m.bankSelect.getLsbD 6
  let bank := match addr / 8192 with
    | 4 => if swapped then n8 - 2 else m.bank 6
    | 5 => m.bank 7
    | 6 => if swapped then m.bank 6 else n8 - 2
    | _ => n8 - 1
  (bank % n8) * 8192 + addr % 8192

/-- The bank number a 1 KiB window of pattern memory shows, variant 4 (46_mapper.md R346). -/
def Mapper4.chrBank (m : Mapper4) (window : Nat) : Nat :=
  match window with
  | 0 => m.bank 0 / 2 * 2
  | 1 => m.bank 0 / 2 * 2 + 1
  | 2 => m.bank 1 / 2 * 2
  | 3 => m.bank 1 / 2 * 2 + 1
  | 4 => m.bank 2
  | 5 => m.bank 3
  | 6 => m.bank 4
  | _ => m.bank 5

/-- CHR mapping of variant 4 (46_mapper.md R346), for an address in $0000 to $1FFF. -/
def Mapper4.chrOffset (m : Mapper4) (units : Nat) (addr : Nat) : Nat :=
  let a := if m.bankSelect.getLsbD 7 then addr ^^^ 0x1000 else addr
  (m.chrBank (a / 1024) % units) * 1024 + addr % 1024

/-- PRG ROM offset of an address in $8000 to $FFFF (46_mapper.md R312, R324, R345). -/
def Variant.prgOffset (v : Variant) (c : Cart) (addr : Nat) : Nat :=
  match v with
  | .v0 => (addr - 0x8000) % c.prgSize
  | .v1 m => m.prgOffset c.prgBanks.toNat addr
  | .v4 m => m.prgOffset c.prgBanks.toNat addr

/-- Pattern-memory offset of an address in $0000 to $1FFF (46_mapper.md R312, R325, R346). -/
def Variant.chrOffset (v : Variant) (c : Cart) (addr : Nat) : Nat :=
  match v with
  | .v0 => addr
  | .v1 m => m.chrOffset (c.chrUnits 4096) addr
  | .v4 m => m.chrOffset (c.chrUnits 1024) addr

/-- `map_read` (46_mapper.md R301, R312, R324 to R326, R345 to R347): the array and the offset an address resolves to. -/
def mapRead (m : Mapper) (c : Cart) (addr : Nat) (dev : Device) : Target × Nat :=
  match dev with
  | .cpu =>
    if 0x6000 ≤ addr ∧ addr < 0x8000 then (.prgRam, addr - 0x6000)
    else if 0x8000 ≤ addr ∧ addr < 0x10000 then (.prgRom, m.variant.prgOffset c addr)
    else (.unmapped, 0)
  | .ppu =>
    if addr < 0x2000 then (c.chrTarget, m.variant.chrOffset c addr) else (.unmapped, 0)

/-- The register a completed serial sequence of variant 1 loads (46_mapper.md R322), chosen by the fifth write's address. -/
def Mapper1.load (m : Mapper1) (addr : Nat) (value : BitVec 5) : Mapper1 :=
  match addr / 8192 % 4 with
  | 0 => { m with control := value, shift := 0#5, shiftCount := 0 }
  | 1 => { m with chr0 := value, shift := 0#5, shiftCount := 0 }
  | 2 => { m with chr1 := value, shift := 0#5, shiftCount := 0 }
  | _ => { m with prg := value, shift := 0#5, shiftCount := 0 }

/-- The serial write of variant 1 (46_mapper.md R322), for an address in $8000 to $FFFF; the mirroring follows `control`
when a fifth write to register 0 completes. -/
def Mapper.write1 (g : Mapper) (m : Mapper1) (addr : Nat) (data : Byte) : Mapper :=
  if data.getLsbD 7 then
    { g with variant := .v1 { m with shift := 0#5, shiftCount := 0, control := m.control ||| 0x0C#5 } }
  else
    let shift := m.shift ||| ((data &&& 1#8).setWidth 5 <<< m.shiftCount)
    if m.shiftCount + 1 = 5 then
      { g with
        variant := .v1 (m.load addr shift)
        mirroring := if addr / 8192 % 4 = 0 then mirroringOfControl shift else g.mirroring }
    else { g with variant := .v1 { m with shift := shift, shiftCount := m.shiftCount + 1 } }

/-- The register writes of variant 4 (46_mapper.md R332 to R340), for an address in $8000 to $FFFF: `addr & $E001`. -/
def Mapper.write4 (g : Mapper) (c : Cart) (m : Mapper4) (addr : Nat) (data : Byte) : Mapper :=
  match addr / 8192, addr % 2 with
  | 4, 0 => { g with variant := .v4 { m with bankSelect := data } }
  | 4, _ => { g with variant := .v4 { m with r := m.r.setIfInBounds (m.bankSelect &&& 7#8).toNat data } }
  | 5, 0 =>
    if c.mirroring = .fourScreen then g
    else { g with mirroring := if data.getLsbD 0 then .horizontal else .vertical }
  | 5, _ => { g with variant := .v4 { m with ramProtect := data } }
  | 6, 0 => { g with variant := .v4 { m with irqLatch := data } }
  | 6, _ => { g with variant := .v4 { m with irqCounter := 0x00#8, irqReload := true } }
  | _, 0 => { g with irqFlag := false, variant := .v4 { m with irqEnabled := false } }
  | _, _ => { g with variant := .v4 { m with irqEnabled := true } }

/-- A CPU write to $8000 to $FFFF (46_mapper.md R313, R322, R332): a register write or nothing, never a store into ROM. -/
def Mapper.writeRegister (g : Mapper) (c : Cart) (addr : Nat) (data : Byte) : Mapper :=
  match g.variant with
  | .v0 => g
  | .v1 m => g.write1 m addr data
  | .v4 m => g.write4 c m addr data

/-- `map_write` (46_mapper.md R302, R313, R322, R326, R332, R347). -/
def mapWrite (s : State) (addr : Nat) (data : Byte) (dev : Device) : State :=
  match dev with
  | .cpu =>
    if 0x6000 ≤ addr ∧ addr < 0x8000 then
      { s with cart := { s.cart with prgRam := s.cart.prgRam.write (addr - 0x6000) data } }
    else if 0x8000 ≤ addr ∧ addr < 0x10000 then
      { s with mapper := s.mapper.writeRegister s.cart addr data }
    else s
  | .ppu =>
    match mapRead s.mapper s.cart addr .ppu with
    | (.chrRam, off) => { s with cart := { s.cart with chrRam := s.cart.chrRam.write off data } }
    | _ => s

/-- `ClockCounter` of variant 4 (46_mapper.md R342): the counter's next value, with the reload bit cleared on a reload. -/
def Mapper4.clockCounter (m : Mapper4) : Mapper4 :=
  if m.irqCounter = 0x00#8 ∨ m.irqReload then { m with irqCounter := m.irqLatch, irqReload := false }
  else { m with irqCounter := m.irqCounter - 1#8 }

/-- `observe_ppu` (46_mapper.md R303, R341): variant 4 clocks its counter on each rising edge of address bit 12. -/
def Mapper.observe (g : Mapper) (addr : Nat) : Mapper :=
  match g.variant with
  | .v0 | .v1 _ => g
  | .v4 m =>
    let a12 := decide (addr / 4096 % 2 = 1)
    if a12 && !m.a12Prev then
      let m' := m.clockCounter
      { g with
        variant := .v4 { m' with a12Prev := a12 }
        irqFlag := g.irqFlag || (decide (m'.irqCounter = 0x00#8) && m'.irqEnabled) }
    else { g with variant := .v4 { m with a12Prev := a12 } }

end Sys2Proof.Machine
end

