-- ==== Sys2Proof/Machine/PpuMem.lean ====
section
/-! DEFINITION. PPU-space accesses (20_memory.md R80 to R84): `PpuRead` and `PpuWrite`. -/

namespace Sys2Proof.Machine

/-- The physical nametable of a logical one (20_memory.md R82). -/
def physicalTable (mode : Mirroring) (table : Nat) : Nat :=
  match mode with
  | .horizontal => table / 2
  | .vertical => table % 2
  | .fourScreen => table
  | .oneScreenLow => 0
  | .oneScreenHigh => 1

/-- The index into `ppu.vram` of a nametable address (20_memory.md R82). -/
def vramIndex (mode : Mirroring) (addr : Nat) : Nat :=
  let n := addr % 4096
  physicalTable mode (n / 1024) * 1024 + n % 1024

/-- The index into `ppu.palette` of a palette address (20_memory.md R83): entries $10, $14, $18, $1C are $00, $04, $08, $0C. -/
def paletteIndex (addr : Nat) : Nat :=
  let i := addr % 32
  if 16 ≤ i ∧ i % 4 = 0 then i - 16 else i

/-- The byte a pattern-memory read returns (20_memory.md R81). -/
def patternByte (s : State) (addr : Nat) : Byte :=
  match mapRead s.mapper s.cart addr .ppu with
  | (.chrRom, off) => s.cart.chrRom.read off
  | (.chrRam, off) => s.cart.chrRam.read off
  | _ => s.params.openBus

/-- The colour index a palette read returns, greyscale applied (20_memory.md R83). -/
def paletteByte (p : Ppu) (addr : Nat) : Byte :=
  p.palette.read (paletteIndex addr) &&& (if p.mask.getLsbD 0 then 0x30#8 else 0x3F#8)

/-- Signals a pattern-memory access to the mapper (46_mapper.md R303). -/
def observePattern (s : State) (addr : Nat) : State := { s with mapper := s.mapper.observe addr }

/-- `PpuRead(addr)` (20_memory.md R80 to R84): the byte, and the state after the mapper has observed a pattern access. -/
def ppuRead (s : State) (addr : Nat) : Byte × State :=
  let a := addr % 0x4000
  if a < 0x2000 then (patternByte s a, observePattern s a)
  else if a < 0x3F00 then (s.ppu.vram.read (vramIndex s.mapper.mirroring a), s)
  else (paletteByte s.ppu a, s)

/-- `PpuWrite(addr, v)` (20_memory.md R80 to R84). -/
def ppuWrite (s : State) (addr : Nat) (v : Byte) : State :=
  let a := addr % 0x4000
  if a < 0x2000 then observePattern (mapWrite s a v .ppu) a
  else if a < 0x3F00 then
    { s with ppu := { s.ppu with vram := s.ppu.vram.write (vramIndex s.mapper.mirroring a) v } }
  else
    { s with ppu := { s.ppu with palette := s.ppu.palette.write (paletteIndex a) (v &&& 0x3F#8) } }

end Sys2Proof.Machine
end

