-- ==== Sys2Proof/Machine/PpuRegs.lean ====
section
/-! DEFINITION. The eight PPU registers the CPU sees at $2000 to $3FFF (47_ppu.md R380 to R389). -/

namespace Sys2Proof.Machine

/-- PPUCTRL write (47_ppu.md R380): enabling NMI while the VBlank flag is set raises an NMI at once. -/
def writePpuCtrl (s : State) (data : Byte) : State :=
  let p := s.ppu
  { s with
    ppu := { p with ctrl := data, t := (p.t &&& 0x73FF#15) ||| ((data &&& 3#8).setWidth 15 <<< 10) }
    cpu := { s.cpu with
      nmiPending := s.cpu.nmiPending || (!p.ctrl.getLsbD 7 && data.getLsbD 7 && p.status.getLsbD 7) } }

/-- PPUMASK write (47_ppu.md R381). -/
def writePpuMask (s : State) (data : Byte) : State := { s with ppu := { s.ppu with mask := data } }

/-- PPUSTATUS read (47_ppu.md R382): clears the VBlank flag and the write toggle. -/
def readPpuStatus (s : State) : Byte × State :=
  (s.ppu.status &&& 0xE0#8, { s with ppu := { s.ppu with status := s.ppu.status &&& 0x7F#8, w := false } })

/-- OAMADDR write (47_ppu.md R383). -/
def writeOamAddr (s : State) (data : Byte) : State := { s with ppu := { s.ppu with oamAddr := data } }

/-- OAMDATA read (47_ppu.md R384). -/
def readOamData (s : State) : Byte := s.ppu.oam.read s.ppu.oamAddr.toNat

/-- OAMDATA write (47_ppu.md R384): stores the byte and advances the address. -/
def writeOamData (s : State) (data : Byte) : State :=
  { s with ppu := { s.ppu with
      oam := s.ppu.oam.write s.ppu.oamAddr.toNat data
      oamAddr := s.ppu.oamAddr + 1#8 } }

/-- PPUSCROLL write (47_ppu.md R385): first coarse and fine X, then fine and coarse Y. -/
def writePpuScroll (s : State) (data : Byte) : State :=
  let p := s.ppu
  if p.w then
    { s with ppu := { p with
        t := (p.t &&& 0x0C1F#15) ||| ((data &&& 7#8).setWidth 15 <<< 12) ||| ((data >>> 3).setWidth 15 <<< 5)
        w := false } }
  else
    { s with ppu := { p with
        t := (p.t &&& 0x7FE0#15) ||| (data >>> 3).setWidth 15
        x := data.setWidth 3
        w := true } }

/-- PPUADDR write (47_ppu.md R386): first the high byte, then the low byte, which also sets `v`. -/
def writePpuAddr (s : State) (data : Byte) : State :=
  let p := s.ppu
  if p.w then
    let t := (p.t &&& 0x7F00#15) ||| data.setWidth 15
    { s with ppu := { p with t := t, v := t, w := false } }
  else
    { s with ppu := { p with
        t := (p.t &&& 0x00FF#15) ||| ((data &&& 0x3F#8).setWidth 15 <<< 8)
        w := true } }

/-- The increment of `ppu.v` after a data-port access (47_ppu.md R387, R388). -/
def advanceV (s : State) : State :=
  { s with ppu := { s.ppu with v := s.ppu.v + if s.ppu.ctrl.getLsbD 2 then 32#15 else 1#15 } }

/-- `ppu.buffer <- b` (47_ppu.md R387). -/
def setBuffer (s : State) (b : Byte) : State := { s with ppu := { s.ppu with buffer := b } }

/-- PPUDATA read (47_ppu.md R387): buffered below the palette, immediate in it. -/
def readPpuData (s : State) : Byte × State :=
  let a := s.ppu.v.toNat % 0x4000
  if a < 0x3F00 then
    let r := ppuRead s a
    (s.ppu.buffer, advanceV (setBuffer r.2 r.1))
  else
    let r := ppuRead s a
    let under := ppuRead r.2 (a - 0x1000)
    (r.1, advanceV (setBuffer under.2 under.1))

/-- PPUDATA write (47_ppu.md R388). -/
def writePpuData (s : State) (data : Byte) : State := advanceV (ppuWrite s (s.ppu.v.toNat % 0x4000) data)

/-- A CPU read of PPU register `r` (20_memory.md R63, 47_ppu.md R382, R384, R387, R389). -/
def readPpuReg (s : State) (r : Nat) : Byte × State :=
  match r with
  | 2 => readPpuStatus s
  | 4 => (readOamData s, s)
  | 7 => readPpuData s
  | _ => (s.params.openBus, s)

/-- A CPU write of PPU register `r` (20_memory.md R63, R72, 47_ppu.md R380 to R388). -/
def writePpuReg (s : State) (r : Nat) (data : Byte) : State :=
  match r with
  | 0 => writePpuCtrl s data
  | 1 => writePpuMask s data
  | 2 => s
  | 3 => writeOamAddr s data
  | 4 => writeOamData s data
  | 5 => writePpuScroll s data
  | 6 => writePpuAddr s data
  | _ => writePpuData s data

end Sys2Proof.Machine
end

