-- ==== Sys2Proof/Machine/BusOps.lean ====
section
/-! DEFINITION. The bus: CPU-space decode (20_memory.md R61 to R66), `MemRead`, `MemWrite`, OAM DMA (R73) and the
controllers (R74, R75). -/

namespace Sys2Proof.Machine

/-- The routing targets of CPU space (20_memory.md R61). -/
inductive Route
  | workRam | ppuReg | apuReg | oamDma | port0 | port1 | unmapped | cartridge
  deriving DecidableEq, Repr

/-- The routing target of an address (20_memory.md R61 to R66). -/
def route (addr : Word) : Route :=
  let a := addr.toNat
  if a < 0x2000 then .workRam
  else if a < 0x4000 then .ppuReg
  else if a = 0x4014 then .oamDma
  else if a = 0x4016 then .port0
  else if a = 0x4017 then .port1
  else if a < 0x4016 then .apuReg
  else if a < 0x4020 then .unmapped
  else .cartridge

/-- The work RAM cell of an address (20_memory.md R62). -/
def ramIndex (addr : Word) : Nat := addr.toNat % 2048

/-- The byte a cartridge-space read returns (20_memory.md R66). -/
def cartByte (s : State) (addr : Word) : Byte :=
  match mapRead s.mapper s.cart addr.toNat .cpu with
  | (.prgRom, off) => s.cart.prgRom.read off
  | (.prgRam, off) => s.cart.prgRam.read off
  | _ => s.params.openBus

/-- A read of one controller port (20_memory.md R75): the bit, and the port after the shift. -/
def Pad.read (p : Pad) (strobe : Bool) : Byte × Pad :=
  if strobe then (p.buttons &&& 1#8, p)
  else (p.shift &&& 1#8, { p with shift := (p.shift >>> 1) ||| 0x80#8 })

/-- `MemRead(addr, 1)` (20_memory.md R61 to R66, R68, R71): the byte, and the state after the read's side effects. -/
def memRead (s : State) (addr : Word) : Byte × State :=
  match route addr with
  | .workRam => (s.bus.ram.read (ramIndex addr), s)
  | .ppuReg => readPpuReg s (addr.toNat % 8)
  | .apuReg =>
    if addr = 0x4015#16 then
      let r := s.apu.readStatus
      (r.1, { s with apu := r.2 })
    else (s.params.openBus, s)
  | .port0 =>
    let r := s.bus.pad0.read s.bus.strobe
    (r.1, { s with bus := { s.bus with pad0 := r.2 } })
  | .port1 =>
    let r := s.bus.pad1.read s.bus.strobe
    (r.1, { s with bus := { s.bus with pad1 := r.2 } })
  | .oamDma | .unmapped => (s.params.openBus, s)
  | .cartridge => (cartByte s addr, s)

/-- One byte of the OAM DMA copy (20_memory.md R73): CPU byte `i` of page `p` into OAM. -/
def oamDmaByte (p : Byte) (s : State) (i : Nat) : State :=
  let r := memRead s (word p (BitVec.ofNat 8 i))
  { r.2 with ppu := { r.2.ppu with oam := r.2.ppu.oam.write ((r.2.ppu.oamAddr.toNat + i) % 256) r.1 } }

/-- OAM DMA from page `p` (20_memory.md R73): 256 reads and OAM writes in order; `oam_addr` is unchanged. -/
def oamDma (s : State) (p : Byte) : State := (List.range 256).foldl (oamDmaByte p) s

/-- The strobe's capture of a port's buttons (20_memory.md R74). -/
def Pad.capture (p : Pad) : Pad := { p with shift := p.buttons }

/-- $4016 write (20_memory.md R74): the snapshot is taken while the strobe is 1 and when it falls. -/
def Bus.writeStrobe (b : Bus) (data : Byte) : Bus :=
  if data.getLsbD 0 then { b with strobe := true, pad0 := b.pad0.capture, pad1 := b.pad1.capture }
  else if b.strobe then { b with strobe := false, pad0 := b.pad0.capture, pad1 := b.pad1.capture }
  else { b with strobe := false }

/-- `MemWrite(addr, 1, v)` (20_memory.md R61 to R66, R69, R72): the state after the write. -/
def memWrite (s : State) (addr : Word) (v : Byte) : State :=
  match route addr with
  | .workRam => { s with bus := { s.bus with ram := s.bus.ram.write (ramIndex addr) v } }
  | .ppuReg => writePpuReg s (addr.toNat % 8) v
  | .apuReg | .port1 => { s with apu := s.apu.write addr.toNat v }
  | .oamDma => oamDma s v
  | .port0 => { s with bus := s.bus.writeStrobe v }
  | .unmapped => s
  | .cartridge => mapWrite s addr.toNat v .cpu

/-- `MemRead16(a)` (00_scope.md R10): low byte first, at `a`, then the high byte at `a + 1` modulo 65536. -/
def memRead16 (s : State) (addr : Word) : Word × State :=
  let l := memRead s addr
  let h := memRead l.2 (addr + 1#16)
  (word h.1 l.1, h.2)

/-- `ZpRead16(z)` (00_scope.md R10): both bytes come from page zero. -/
def zpRead16 (s : State) (z : Byte) : Word × State :=
  let l := memRead s (word 0#8 z)
  let h := memRead l.2 (word 0#8 (z + 1#8))
  (word h.1 l.1, h.2)

end Sys2Proof.Machine
end

