-- ==== Sys2Proof/Machine/Flags.lean ====
section
/-! DEFINITION. Every flag computation (00_scope.md R12; 41_arithmetic_logic.md; 42_shift_rotate.md) and the status byte
(10_state.md R27). -/

namespace Sys2Proof.Machine

/-- The status byte `P(b)` (10_state.md R27). -/
def Cpu.status (p : Cpu) (b : Bool) : Byte :=
  bit1 p.n ++ bit1 p.v ++ 1#1 ++ bit1 b ++ bit1 p.d ++ bit1 p.i ++ bit1 p.z ++ bit1 p.c

/-- Pulling a byte into the flags (10_state.md R27): bits 5 and 4 are ignored. -/
def Cpu.withStatus (p : Cpu) (v : Byte) : Cpu :=
  { p with
    n := v.getLsbD 7, v := v.getLsbD 6, d := v.getLsbD 3, i := v.getLsbD 2, z := v.getLsbD 1, c := v.getLsbD 0 }

/-- `SetZN(v)` (00_scope.md R12). -/
def Cpu.setZN (p : Cpu) (v : Byte) : Cpu := { p with z := decide (v = 0x00#8), n := v.getLsbD 7 }

/-- The nine-bit sum of an addition with carry (41_arithmetic_logic.md R190). -/
def adcSum (a m : Byte) (c : Bool) : Nat := a.toNat + m.toNat + c.toNat

/-- The overflow of an addition (41_arithmetic_logic.md R190): equal signs in, the other sign out. -/
def adcOverflow (a m r : Byte) : Bool := (~~~(a ^^^ m) &&& (a ^^^ r)).getLsbD 7

/-- ADC on the registers (41_arithmetic_logic.md R190); `D` is not read (R211). -/
def Cpu.addWithCarry (p : Cpu) (m : Byte) : Cpu :=
  let sum := adcSum p.a m p.c
  let r := BitVec.ofNat 8 sum
  Cpu.setZN { p with v := adcOverflow p.a m r, c := decide (255 < sum), a := r } r

/-- SBC on the registers (41_arithmetic_logic.md R191): ADC of the complemented operand. -/
def Cpu.subWithBorrow (p : Cpu) (m : Byte) : Cpu := p.addWithCarry (m ^^^ 0xFF#8)

/-- The flags of a compare of register value `r` with `m` (41_arithmetic_logic.md R195 to R197). -/
def Cpu.compare (p : Cpu) (r m : Byte) : Cpu :=
  { p with c := decide (m.toNat ≤ r.toNat), z := decide (r = m), n := (r - m).getLsbD 7 }

/-- The flags of BIT (41_arithmetic_logic.md R198): `N` and `V` come from the memory byte. -/
def Cpu.bitTest (p : Cpu) (m : Byte) : Cpu :=
  { p with z := decide (p.a &&& m = 0x00#8), n := m.getLsbD 7, v := m.getLsbD 6 }

/-- A shift or rotate of one byte (42_shift_rotate.md): the carry out and the result, from the carry in and the operand. -/
abbrev ShiftOp := Bool → Byte → Bool × Byte

/-- ASL (42_shift_rotate.md R220). -/
def shiftAsl : ShiftOp := fun _ v => (v.getLsbD 7, v <<< 1)

/-- LSR (42_shift_rotate.md R221). -/
def shiftLsr : ShiftOp := fun _ v => (v.getLsbD 0, v >>> 1)

/-- ROL (42_shift_rotate.md R222). -/
def shiftRol : ShiftOp := fun c v => (v.getLsbD 7, (v <<< 1) ||| bitByte c)

/-- ROR (42_shift_rotate.md R223). -/
def shiftRor : ShiftOp := fun c v => (v.getLsbD 0, (v >>> 1) ||| (bitByte c <<< 7))

end Sys2Proof.Machine
end

