-- ==== Sys2Proof/Machine/Ops.lean ====
section
/-! DEFINITION. The operations the instruction meanings share: the stack (00_scope.md R11), the cycle count (R13), taking an
interrupt and returning from one (60_exceptions.md R587, 44_stack_flag_system.md R272, R273), the undefined-opcode
diagnostic (45_undefined_opcodes.md R290). -/

namespace Sys2Proof.Machine

/-- Changes the CPU's own registers and nothing else. -/
def State.withCpu (s : State) (f : Cpu → Cpu) : State := { s with cpu := f s.cpu }

/-- `pc <- target` (00_scope.md R13). -/
def State.jump (s : State) (target : Word) : State := s.withCpu fun p => { p with pc := target }

/-- `cycles <- n` (00_scope.md R13): the step consumes `n` CPU cycles (30_encoding.md R121 step 8). -/
def State.consume (s : State) (n : Nat) : State :=
  s.withCpu fun p => { p with cycles := p.cycles + BitVec.ofNat 64 n }

/-- The address of the stack cell `S` points at (00_scope.md R11). -/
def stackAddr (sp : Byte) : Word := word 0x01#8 sp

/-- `Push(v)` (00_scope.md R11). -/
def push (s : State) (v : Byte) : State :=
  (memWrite s (stackAddr s.cpu.s) v).withCpu fun p => { p with s := p.s - 1#8 }

/-- `Pull()` (00_scope.md R11): the byte, and the state after the read. -/
def pull (s : State) : Byte × State :=
  let s1 := s.withCpu fun p => { p with s := p.s + 1#8 }
  memRead s1 (stackAddr s1.cpu.s)

/-- `Push16(w)` (00_scope.md R11): the high byte first. -/
def push16 (s : State) (w : Word) : State := push (push s (hi w)) (lo w)

/-- `Pull16()` (00_scope.md R11): the low byte first. -/
def pull16 (s : State) : Word × State :=
  let l := pull s
  let h := pull l.2
  (word h.1 l.1, h.2)

/-- The interrupt vectors (20_memory.md R78, 60_exceptions.md R589). -/
def nmiVector : Word := 0xFFFA#16
def resetVector : Word := 0xFFFC#16
def irqVector : Word := 0xFFFE#16

/-- Taking an interrupt: pushes the return address and the status with break bit `b`, sets `I` and loads `PC` from the
vector, in 7 cycles. NMI and IRQ entry (60_exceptions.md R587, `b` = 0, the return address is `PC`) and BRK
(44_stack_flag_system.md R272, `b` = 1) are this one operation. -/
def enter (s : State) (ret : Word) (b : Bool) (vector : Word) : State :=
  let s1 := push16 s ret
  let s2 := push s1 (s1.cpu.status b)
  let s3 := s2.withCpu fun p => { p with i := true }
  let target := memRead16 s3 vector
  (target.2.jump target.1).consume 7

/-- Returning from an interrupt (44_stack_flag_system.md R273): pulls the status, then `PC`, in 6 cycles. -/
def returnFromInterrupt (s : State) : State :=
  let p := pull s
  let ret := pull16 (p.2.withCpu fun q => q.withStatus p.1)
  (ret.2.jump ret.1).consume 6

/-- `raise UnsupportedOpcode(op, at)` (45_undefined_opcodes.md R290): the sticky diagnostic keeps the first occurrence. -/
def raiseUnsupported (s : State) (op : Byte) (addr : Word) : State :=
  s.withCpu fun p =>
    if p.unsupportedSeen then p
    else { p with unsupportedSeen := true, unsupportedOpcode := op, unsupportedAt := addr }

/-- The cycles an OAM DMA adds to a step whose own count is `n` and which began at `cpu.cycles` = `c0` (20_memory.md R73),
none when the written address does not start one. -/
def dmaCycles (ea : Word) (c0 : BitVec 64) (n : Nat) : Nat :=
  if route ea = .oamDma then 513 + (c0.toNat + n) % 2 else 0

/-- One data write of the byte `v` at `ea` by an instruction of `n` cycles: the write, then the cycles of the step with those
of an OAM DMA the write started (30_encoding.md R121 step 8, 20_memory.md R73). -/
def State.store (s : State) (ea : Word) (v : Byte) (n : Nat) : State :=
  (memWrite s ea v).consume (n + dmaCycles ea s.cpu.cycles n)

end Sys2Proof.Machine
end

