-- ==== Sys2Proof/Machine/Operands.lean ====
section
/-! DEFINITION. Effective addresses and operand values of every addressing mode (30_encoding.md R123 to R136) and their
cycle counts (R137, R138). -/

namespace Sys2Proof.Machine

/-- An effective address and whether indexing changed its high byte (30_encoding.md R131, R132, R135). -/
structure EffAddr where
  addr : Word
  crossed : Bool
  deriving DecidableEq, Repr

/-- An address without indexing across pages. -/
def EffAddr.plain (a : Word) : EffAddr := { addr := a, crossed := false }

/-- `base` indexed by a register (30_encoding.md R131, R132, R135). -/
def EffAddr.indexed (base : Word) (index : Byte) : EffAddr :=
  let ea := base + index.setWidth 16
  { addr := ea, crossed := decide (hi ea ≠ hi base) }

/-- The effective address of a memory mode (30_encoding.md R127 to R135) and the state after the pointer reads. -/
def effAddr (s : State) : MemMode → EffAddr × State
  | .zp a => (.plain (word 0#8 a), s)
  | .zpx a => (.plain (word 0#8 (a + s.cpu.x)), s)
  | .zpy a => (.plain (word 0#8 (a + s.cpu.y)), s)
  | .abs a => (.plain a, s)
  | .abx a => (.indexed a s.cpu.x, s)
  | .aby a => (.indexed a s.cpu.y, s)
  | .izx a =>
    let ptr := zpRead16 s (a + s.cpu.x)
    (.plain ptr.1, ptr.2)
  | .izy a =>
    let base := zpRead16 s a
    (.indexed base.1 base.2.cpu.y, base.2)

/-- The cycles of an instruction that reads its operand, without the page-crossing cycle (30_encoding.md R138). -/
def readBase : MemMode → Nat
  | .zp _ => 3
  | .zpx _ | .zpy _ | .abs _ | .abx _ | .aby _ => 4
  | .izx _ => 6
  | .izy _ => 5

/-- The cycles of an instruction that writes its operand (30_encoding.md R137, R138). -/
def storeCycles : MemMode → Nat
  | .zp _ => 3
  | .zpx _ | .zpy _ | .abs _ => 4
  | .abx _ | .aby _ => 5
  | .izx _ | .izy _ => 6

/-- The cycles of an instruction that reads, modifies and writes its operand (30_encoding.md R137, R138). -/
def rmwCycles (m : MemMode) : Nat := storeCycles m + 2

/-- The operand value of a reading instruction, its cycle count, and the state after the reads (30_encoding.md R126 to R137;
one data read, 20_memory.md R70). -/
def readOperand (s : State) : ReadOp → Byte × Nat × State
  | .imm v => (v, 2, s)
  | .mem m =>
    let ea := effAddr s m
    let b := memRead ea.2 ea.1.addr
    (b.1, readBase m + ea.1.crossed.toNat, b.2)

/-- An instruction that reads its operand and changes only CPU registers (40, 41). -/
def readThen (s : State) (o : ReadOp) (f : Cpu → Byte → Cpu) : State :=
  let r := readOperand s o
  (r.2.2.withCpu fun p => f p r.1).consume r.2.1

/-- An instruction that stores a register (40_load_store_transfer.md R163 to R165). -/
def storeTo (s : State) (m : MemMode) (v : Byte) : State :=
  let ea := effAddr s m
  ea.2.store ea.1.addr v (storeCycles m)

/-- An instruction that reads a byte, computes a new one with the CPU's flags after it, and writes it back
(41_arithmetic_logic.md R199, R200, 42_shift_rotate.md): one read and one write (20_memory.md R70). -/
def modify (s : State) (m : MemMode) (f : Cpu → Byte → Byte × Cpu) : State :=
  let ea := effAddr s m
  let b := memRead ea.2 ea.1.addr
  let r := f b.2.cpu b.1
  ({ b.2 with cpu := r.2 }).store ea.1.addr r.1 (rmwCycles m)

/-- An instruction on CPU registers alone, mode imp or acc (30_encoding.md R124, R125), of two cycles. -/
def implied (s : State) (f : Cpu → Cpu) : State := (s.withCpu f).consume 2

/-- The branch target (30_encoding.md R136): `PC` already points after the instruction. -/
def branchTarget (pc : Word) (off : Byte) : Word := pc + sext16 off

/-- The cycles of a branch (43_control_transfer.md R234). -/
def branchCycles (taken : Bool) (pc target : Word) : Nat :=
  if taken then 3 + (decide (hi target ≠ hi pc)).toNat else 2

/-- The common branch rule (43_control_transfer.md R234). -/
def branch (s : State) (off : Byte) (taken : Bool) : State :=
  let target := branchTarget s.cpu.pc off
  let s1 := if taken then s.jump target else s
  s1.consume (branchCycles taken s.cpu.pc target)

/-- A shift or rotate (42_shift_rotate.md R220 to R223): of the accumulator in two cycles, or of a byte of memory. -/
def shiftThen (s : State) (o : RmwOp) (f : ShiftOp) : State :=
  match o with
  | .acc => implied s fun p =>
      let r := f p.c p.a
      Cpu.setZN { p with c := r.1, a := r.2 } r.2
  | .mem m => modify s m fun p b =>
      let r := f p.c b
      (r.2, Cpu.setZN { p with c := r.1 } r.2)

end Sys2Proof.Machine
end

