-- ==== Sys2Proof/Machine/Arith.lean ====
section
/-! DEFINITION. Arithmetic, logic, compare, increment and decrement instructions (41_arithmetic_logic.md R190 to R204, R210, R211). -/

namespace Sys2Proof.Machine

/-- ADC (41_arithmetic_logic.md R190). -/
def execAdc (o : ReadOp) (s : State) : Host.Outcome State Fault Refusal :=
  .next (readThen s o fun p m => p.addWithCarry m)

/-- SBC (41_arithmetic_logic.md R191). -/
def execSbc (o : ReadOp) (s : State) : Host.Outcome State Fault Refusal :=
  .next (readThen s o fun p m => p.subWithBorrow m)

/-- AND (41_arithmetic_logic.md R192). -/
def execAnd (o : ReadOp) (s : State) : Host.Outcome State Fault Refusal :=
  .next (readThen s o fun p m => Cpu.setZN { p with a := p.a &&& m } (p.a &&& m))

/-- ORA (41_arithmetic_logic.md R193). -/
def execOra (o : ReadOp) (s : State) : Host.Outcome State Fault Refusal :=
  .next (readThen s o fun p m => Cpu.setZN { p with a := p.a ||| m } (p.a ||| m))

/-- EOR (41_arithmetic_logic.md R194). -/
def execEor (o : ReadOp) (s : State) : Host.Outcome State Fault Refusal :=
  .next (readThen s o fun p m => Cpu.setZN { p with a := p.a ^^^ m } (p.a ^^^ m))

/-- CMP (41_arithmetic_logic.md R195). -/
def execCmp (o : ReadOp) (s : State) : Host.Outcome State Fault Refusal :=
  .next (readThen s o fun p m => p.compare p.a m)

/-- CPX (41_arithmetic_logic.md R196). -/
def execCpx (o : ReadOp) (s : State) : Host.Outcome State Fault Refusal :=
  .next (readThen s o fun p m => p.compare p.x m)

/-- CPY (41_arithmetic_logic.md R197). -/
def execCpy (o : ReadOp) (s : State) : Host.Outcome State Fault Refusal :=
  .next (readThen s o fun p m => p.compare p.y m)

/-- BIT (41_arithmetic_logic.md R198). -/
def execBit (m : MemMode) (s : State) : Host.Outcome State Fault Refusal :=
  .next (readThen s (.mem m) fun p b => p.bitTest b)

/-- INC (41_arithmetic_logic.md R199). -/
def execInc (m : MemMode) (s : State) : Host.Outcome State Fault Refusal :=
  .next (modify s m fun p b => (b + 1#8, p.setZN (b + 1#8)))

/-- DEC (41_arithmetic_logic.md R200). -/
def execDec (m : MemMode) (s : State) : Host.Outcome State Fault Refusal :=
  .next (modify s m fun p b => (b - 1#8, p.setZN (b - 1#8)))

/-- INX (41_arithmetic_logic.md R201). -/
def execInx (s : State) : Host.Outcome State Fault Refusal :=
  .next (implied s fun p => Cpu.setZN { p with x := p.x + 1#8 } (p.x + 1#8))

/-- INY (41_arithmetic_logic.md R202). -/
def execIny (s : State) : Host.Outcome State Fault Refusal :=
  .next (implied s fun p => Cpu.setZN { p with y := p.y + 1#8 } (p.y + 1#8))

/-- DEX (41_arithmetic_logic.md R203). -/
def execDex (s : State) : Host.Outcome State Fault Refusal :=
  .next (implied s fun p => Cpu.setZN { p with x := p.x - 1#8 } (p.x - 1#8))

/-- DEY (41_arithmetic_logic.md R204). -/
def execDey (s : State) : Host.Outcome State Fault Refusal :=
  .next (implied s fun p => Cpu.setZN { p with y := p.y - 1#8 } (p.y - 1#8))

end Sys2Proof.Machine
end

