-- ==== Sys2Proof/Machine/Control.lean ====
section
/-! DEFINITION. Jumps, subroutine calls and conditional branches (43_control_transfer.md R230 to R243). -/

namespace Sys2Proof.Machine

/-- Where JMP indirect reads the high byte of its target: the next byte of the SAME page (43_control_transfer.md R231). -/
def samePageNext (ptr : Word) : Word := word (hi ptr) (lo ptr + 1#8)

/-- JMP: absolute in 3 cycles (43_control_transfer.md R230), indirect in 5 (R231). -/
def execJmp (t : JmpOp) (s : State) : Host.Outcome State Fault Refusal :=
  match t with
  | .abs target => .next ((s.jump target).consume 3)
  | .ind ptr =>
    let l := memRead s ptr
    let h := memRead l.2 (samePageNext ptr)
    .next ((h.2.jump (word h.1 l.1)).consume 5)

/-- JSR (43_control_transfer.md R232): pushes the address of its own last byte. -/
def execJsr (target : Word) (s : State) : Host.Outcome State Fault Refusal :=
  .next (((push16 s (s.cpu.pc - 1#16)).jump target).consume 6)

/-- RTS (43_control_transfer.md R233): one past the pulled address. -/
def execRts (s : State) : Host.Outcome State Fault Refusal :=
  let ret := pull16 s
  .next ((ret.2.jump (ret.1 + 1#16)).consume 6)

/-- BCC (43_control_transfer.md R235). -/
def execBcc (off : Byte) (s : State) : Host.Outcome State Fault Refusal :=
  .next (branch s off (!s.cpu.c))

/-- BCS (43_control_transfer.md R236). -/
def execBcs (off : Byte) (s : State) : Host.Outcome State Fault Refusal :=
  .next (branch s off s.cpu.c)

/-- BEQ (43_control_transfer.md R237). -/
def execBeq (off : Byte) (s : State) : Host.Outcome State Fault Refusal :=
  .next (branch s off s.cpu.z)

/-- BMI (43_control_transfer.md R238). -/
def execBmi (off : Byte) (s : State) : Host.Outcome State Fault Refusal :=
  .next (branch s off s.cpu.n)

/-- BNE (43_control_transfer.md R239). -/
def execBne (off : Byte) (s : State) : Host.Outcome State Fault Refusal :=
  .next (branch s off (!s.cpu.z))

/-- BPL (43_control_transfer.md R240). -/
def execBpl (off : Byte) (s : State) : Host.Outcome State Fault Refusal :=
  .next (branch s off (!s.cpu.n))

/-- BVC (43_control_transfer.md R241). -/
def execBvc (off : Byte) (s : State) : Host.Outcome State Fault Refusal :=
  .next (branch s off (!s.cpu.v))

/-- BVS (43_control_transfer.md R242). -/
def execBvs (off : Byte) (s : State) : Host.Outcome State Fault Refusal :=
  .next (branch s off s.cpu.v)

end Sys2Proof.Machine
end

