-- ==== Sys2Proof/Machine/LoadStore.lean ====
section
/-! DEFINITION. Load, store and register-transfer instructions (40_load_store_transfer.md R160 to R171). -/

namespace Sys2Proof.Machine

/-- LDA (40_load_store_transfer.md R160). -/
def execLda (o : ReadOp) (s : State) : Host.Outcome State Fault Refusal :=
  .next (readThen s o fun p m => Cpu.setZN { p with a := m } m)

/-- LDX (40_load_store_transfer.md R161). -/
def execLdx (o : ReadOp) (s : State) : Host.Outcome State Fault Refusal :=
  .next (readThen s o fun p m => Cpu.setZN { p with x := m } m)

/-- LDY (40_load_store_transfer.md R162). -/
def execLdy (o : ReadOp) (s : State) : Host.Outcome State Fault Refusal :=
  .next (readThen s o fun p m => Cpu.setZN { p with y := m } m)

/-- STA (40_load_store_transfer.md R163). -/
def execSta (m : MemMode) (s : State) : Host.Outcome State Fault Refusal :=
  .next (storeTo s m s.cpu.a)

/-- STX (40_load_store_transfer.md R164). -/
def execStx (m : MemMode) (s : State) : Host.Outcome State Fault Refusal :=
  .next (storeTo s m s.cpu.x)

/-- STY (40_load_store_transfer.md R165). -/
def execSty (m : MemMode) (s : State) : Host.Outcome State Fault Refusal :=
  .next (storeTo s m s.cpu.y)

/-- TAX (40_load_store_transfer.md R166). -/
def execTax (s : State) : Host.Outcome State Fault Refusal :=
  .next (implied s fun p => Cpu.setZN { p with x := p.a } p.a)

/-- TAY (40_load_store_transfer.md R167). -/
def execTay (s : State) : Host.Outcome State Fault Refusal :=
  .next (implied s fun p => Cpu.setZN { p with y := p.a } p.a)

/-- TXA (40_load_store_transfer.md R168). -/
def execTxa (s : State) : Host.Outcome State Fault Refusal :=
  .next (implied s fun p => Cpu.setZN { p with a := p.x } p.x)

/-- TYA (40_load_store_transfer.md R169). -/
def execTya (s : State) : Host.Outcome State Fault Refusal :=
  .next (implied s fun p => Cpu.setZN { p with a := p.y } p.y)

/-- TSX (40_load_store_transfer.md R170). -/
def execTsx (s : State) : Host.Outcome State Fault Refusal :=
  .next (implied s fun p => Cpu.setZN { p with x := p.s } p.s)

/-- TXS (40_load_store_transfer.md R171): the one transfer that leaves `Z` and `N` alone. -/
def execTxs (s : State) : Host.Outcome State Fault Refusal :=
  .next (implied s fun p => { p with s := p.x })

end Sys2Proof.Machine
end

