-- ==== Sys2Proof/Machine/Shift.lean ====
section
/-! DEFINITION. Shift and rotate instructions (42_shift_rotate.md R220 to R223). -/

namespace Sys2Proof.Machine

/-- ASL (42_shift_rotate.md R220). -/
def execAsl (o : RmwOp) (s : State) : Host.Outcome State Fault Refusal :=
  .next (shiftThen s o shiftAsl)

/-- LSR (42_shift_rotate.md R221). -/
def execLsr (o : RmwOp) (s : State) : Host.Outcome State Fault Refusal :=
  .next (shiftThen s o shiftLsr)

/-- ROL (42_shift_rotate.md R222). -/
def execRol (o : RmwOp) (s : State) : Host.Outcome State Fault Refusal :=
  .next (shiftThen s o shiftRol)

/-- ROR (42_shift_rotate.md R223). -/
def execRor (o : RmwOp) (s : State) : Host.Outcome State Fault Refusal :=
  .next (shiftThen s o shiftRor)

end Sys2Proof.Machine
end

