-- ==== Sys2Proof/Machine/System.lean ====
section
/-! DEFINITION. Stack, flag and system instructions (44_stack_flag_system.md R260 to R274) and the undefined opcodes
(45_undefined_opcodes.md R290). -/

namespace Sys2Proof.Machine

/-- PHA (44_stack_flag_system.md R260). -/
def execPha (s : State) : Host.Outcome State Fault Refusal :=
  .next ((push s s.cpu.a).consume 3)

/-- PHP (44_stack_flag_system.md R261): the pushed byte has the break bit set. -/
def execPhp (s : State) : Host.Outcome State Fault Refusal :=
  .next ((push s (s.cpu.status true)).consume 3)

/-- PLA (44_stack_flag_system.md R262). -/
def execPla (s : State) : Host.Outcome State Fault Refusal :=
  let b := pull s
  .next ((b.2.withCpu fun p => Cpu.setZN { p with a := b.1 } b.1).consume 4)

/-- PLP (44_stack_flag_system.md R263). -/
def execPlp (s : State) : Host.Outcome State Fault Refusal :=
  let b := pull s
  .next ((b.2.withCpu fun p => p.withStatus b.1).consume 4)

/-- CLC (44_stack_flag_system.md R264). -/
def execClc (s : State) : Host.Outcome State Fault Refusal :=
  .next (implied s fun p => { p with c := false })

/-- SEC (44_stack_flag_system.md R265). -/
def execSec (s : State) : Host.Outcome State Fault Refusal :=
  .next (implied s fun p => { p with c := true })

/-- CLI (44_stack_flag_system.md R266). -/
def execCli (s : State) : Host.Outcome State Fault Refusal :=
  .next (implied s fun p => { p with i := false })

/-- SEI (44_stack_flag_system.md R267). -/
def execSei (s : State) : Host.Outcome State Fault Refusal :=
  .next (implied s fun p => { p with i := true })

/-- CLD (44_stack_flag_system.md R268). -/
def execCld (s : State) : Host.Outcome State Fault Refusal :=
  .next (implied s fun p => { p with d := false })

/-- SED (44_stack_flag_system.md R269). -/
def execSed (s : State) : Host.Outcome State Fault Refusal :=
  .next (implied s fun p => { p with d := true })

/-- CLV (44_stack_flag_system.md R270). -/
def execClv (s : State) : Host.Outcome State Fault Refusal :=
  .next (implied s fun p => { p with v := false })

/-- NOP (44_stack_flag_system.md R271). -/
def execNop (s : State) : Host.Outcome State Fault Refusal :=
  .next (implied s fun p => p)

/-- BRK (44_stack_flag_system.md R272): takes the interrupt with the break bit set; the return address skips the padding
byte. -/
def execBrk (s : State) : Host.Outcome State Fault Refusal :=
  .next (enter s (s.cpu.pc + 1#16) true irqVector)

/-- RTI (44_stack_flag_system.md R273). -/
def execRti (s : State) : Host.Outcome State Fault Refusal :=
  .next (returnFromInterrupt s)

/-- An undefined opcode (45_undefined_opcodes.md R290): the diagnostic, and a one-byte no-operation of 2 cycles. The address
is that of the opcode byte, one before `PC`. -/
def execUndefined (op : Byte) (s : State) : Host.Outcome State Fault Refusal :=
  .next ((raiseUnsupported s op (s.cpu.pc - 1#16)).consume 2)

end Sys2Proof.Machine
end

