-- ==== Sys2Proof/Machine/ApuTick.lean ====
section
/-! DEFINITION. One tick of the APU (48_apu.md R440 to R441): the frame sequencer, the channel timers, the delta-modulation
channel, the mixer (R490) and the decimator (R492). -/

namespace Sys2Proof.Machine

/-- `FrameSequencerTick` (48_apu.md R481). -/
def Apu.frameTick (a : Apu) : Apu :=
  let n := a.frame.counter.toNat + 1
  let b := { a with frame := { a.frame with counter := BitVec.ofNat 16 n } }
  if n = 7457 ∨ n = 22371 then b.quarterFrame
  else if n = 14913 then b.quarterFrame.halfFrame
  else if a.frame.mode then
    if n = 37281 then b.quarterFrame.halfFrame
    else if n = 37282 then { b with frame := { b.frame with counter := 0#16 } }
    else b
  else
    if n = 29829 then
      { b with frame := { b.frame with irqFlag := b.frame.irqFlag || !b.frame.irqInhibit } }.quarterFrame.halfFrame
    else if n = 29830 then { b with frame := { b.frame with counter := 0#16 } }
    else b

/-- `TriangleTimerTick` (48_apu.md R463). -/
def Triangle.timerTick (t : Triangle) : Triangle :=
  if t.timer = 0#11 then
    { t with
      timer := t.timerPeriod
      seqPos := if t.length ≠ 0x00#8 ∧ t.linear ≠ 0#7 then t.seqPos + 1#5 else t.seqPos }
  else { t with timer := t.timer - 1#11 }

/-- NOISE_PERIOD (48_apu.md R469). -/
def noisePeriods : List Nat := [4, 8, 16, 32, 64, 96, 128, 160, 202, 254, 380, 508, 762, 1016, 2034, 4068]

/-- `NoiseTimerTick` (48_apu.md R469). -/
def Noise.timerTick (n : Noise) : Noise :=
  if n.timer = 0#12 then
    let fb := n.lfsr.getLsbD 0 ^^ (if n.mode then n.lfsr.getLsbD 6 else n.lfsr.getLsbD 1)
    { n with
      timer := BitVec.ofNat 12 (noisePeriods.getD n.periodIndex.toNat 0 - 1)
      lfsr := (n.lfsr >>> 1) ||| (if fb then 0x4000#15 else 0#15) }
  else { n with timer := n.timer - 1#12 }

/-- `PulseTimerTick` (48_apu.md R454). -/
def Pulse.timerTick (p : Pulse) : Pulse :=
  if p.timer = 0#11 then { p with timer := p.timerPeriod, seqPos := p.seqPos + 1#3 }
  else { p with timer := p.timer - 1#11 }

/-- DMC_RATE (48_apu.md R478). -/
def dmcRates : List Nat := [428, 380, 340, 320, 286, 254, 226, 214, 190, 160, 142, 128, 106, 84, 72, 54]

/-- `SampleEnd` (48_apu.md R477). -/
def Dmc.sampleEnd (d : Dmc) : Dmc :=
  if d.loop then { d with curAddr := d.sampleAddr, bytesRemaining := d.sampleLen }
  else { d with irqFlag := d.irqFlag || d.irqEnabled }

/-- The channel after its reader took the byte `b` (48_apu.md R476). -/
def Dmc.fetched (d : Dmc) (b : Byte) : Dmc :=
  let d := { d with
    buffer := b, bufferFull := true
    curAddr := if d.curAddr = 0xFFFF#16 then 0x8000#16 else d.curAddr + 1#16
    bytesRemaining := d.bytesRemaining - 1#12 }
  if d.bytesRemaining = 0#12 then d.sampleEnd else d

/-- The memory reader (48_apu.md R476): an ordinary CPU-space read when the buffer is empty and bytes remain. -/
def dmcRead (s : State) : State :=
  if s.apu.dmc.bufferFull = false ∧ s.apu.dmc.bytesRemaining ≠ 0#12 then
    let b := memRead s s.apu.dmc.curAddr
    { b.2 with apu := { b.2.apu with dmc := b.2.apu.dmc.fetched b.1 } }
  else s

/-- The level after an output bit (48_apu.md R478). -/
def dmcLevel (up : Bool) (level : BitVec 7) : BitVec 7 :=
  if up then (if level.toNat ≤ 125 then level + 2#7 else level)
  else (if 2 ≤ level.toNat then level - 2#7 else level)

/-- One output bit (48_apu.md R478): level, shift register, and the next byte when the last bit is out. -/
def Dmc.outputBit (d : Dmc) : Dmc :=
  let d := { d with
    timer := BitVec.ofNat 9 (dmcRates.getD d.rateIndex.toNat 0 - 1)
    level := if d.silence then d.level else dmcLevel (d.shift.getLsbD 0) d.level
    shift := d.shift >>> 1
    bitsRemaining := d.bitsRemaining - 1 }
  if d.bitsRemaining = 0 then
    if d.bufferFull then { d with bitsRemaining := 8, silence := false, shift := d.buffer, bufferFull := false }
    else { d with bitsRemaining := 8, silence := true }
  else d

/-- The timer and output unit (48_apu.md R478). -/
def Dmc.timerTick (d : Dmc) : Dmc :=
  if d.timer = 0#9 then d.outputBit else { d with timer := d.timer - 1#9 }

/-- `DUTY[duty][pos]` (48_apu.md R454). -/
def dutyTable : List (List Bool) :=
  [[false, true, false, false, false, false, false, false],
   [false, true, true, false, false, false, false, false],
   [false, true, true, true, true, false, false, false],
   [true, false, false, true, true, true, true, true]]

/-- `PulseOut(k)` (48_apu.md R456). -/
def Pulse.out (p : Pulse) (k : Fin 2) : Nat :=
  if p.length = 0x00#8 ∨ (dutyTable.getD p.duty.toNat []).getD p.seqPos.toNat false = false ∨ p.sweepMute k then 0
  else (envelopeOut p.constant p.volume p.envDecay).toNat

/-- `TriangleOut` (48_apu.md R465): 15 down to 0, then 0 up to 15. -/
def Triangle.out (t : Triangle) : Nat := if t.seqPos.toNat < 16 then 15 - t.seqPos.toNat else t.seqPos.toNat - 16

/-- `NoiseOut` (48_apu.md R470). -/
def Noise.out (n : Noise) : Nat :=
  if n.lfsr.getLsbD 0 ∨ n.length = 0x00#8 then 0 else (envelopeOut n.constant n.volume n.envDecay).toNat

/-- The numerator of `Mix()` over 100000 (48_apu.md R490). -/
def Apu.mixNumerator (a : Apu) : Nat :=
  752 * (a.pulse0.out 0 + a.pulse1.out 1) + 851 * a.triangle.out + 494 * a.noise.out + 335 * a.dmc.level.toNat

/-- The least `k` from `k` on, at most `fuel` further, with `num · 2^k` at least `2^23 · den`. -/
def f32Scale (num den : Nat) : Nat → Nat → Nat
  | 0, k => k
  | fuel + 1, k => if 2 ^ 23 * den ≤ num * 2 ^ k then k else f32Scale num den fuel (k + 1)

/-- The binary32 word of `num / den`, rounded to nearest, ties to even (00_scope.md R7 F32_ROUND, 48_apu.md R490), for a
quotient that is 0 or at least 2^-40 and less than 1. -/
def f32OfRatio (num den : Nat) : BitVec 32 :=
  if num = 0 then 0#32
  else
    let k := f32Scale num den 64 0
    let q := num * 2 ^ k / den
    let r := num * 2 ^ k % den
    let up := if den < 2 * r ∨ (2 * r = den ∧ q % 2 = 1) then 1 else 0
    BitVec.ofNat 32 ((150 - k) * 2 ^ 23 + (q - 2 ^ 23) + up)

/-- `Mix()` (48_apu.md R490) as a binary32 word. -/
def Apu.mix (a : Apu) : BitVec 32 := f32OfRatio a.mixNumerator 100000

/-- `Decimate()` (48_apu.md R492). -/
def Apu.decimate (sampleRate : Nat) (a : Apu) : Apu :=
  let acc := a.decimAcc + BitVec.ofNat 32 sampleRate
  if nominalCpuHz ≤ acc.toNat then
    { a with decimAcc := acc - BitVec.ofNat 32 nominalCpuHz, samples := a.samples ++ [a.mix] }
  else { a with decimAcc := acc }

/-- The part of a tick before the delta-modulation channel (48_apu.md R441): sequencer and timers; the pulse timers only
every second tick. -/
def Apu.timersTick (a : Apu) : Apu :=
  let b := a.frameTick
  let c := { b with triangle := b.triangle.timerTick, noise := b.noise.timerTick }
  if c.odd then { c with pulse0 := c.pulse0.timerTick, pulse1 := c.pulse1.timerTick } else c

/-- The part of a tick after the memory reader (48_apu.md R441): output unit, decimator, parity. -/
def Apu.outputTick (sampleRate : Nat) (a : Apu) : Apu :=
  let b := Apu.decimate sampleRate { a with dmc := a.dmc.timerTick }
  { b with odd := !b.odd }

/-- `apu_tick()` (48_apu.md R441). -/
def apuTick (s : State) : State :=
  let s1 := dmcRead { s with apu := s.apu.timersTick }
  { s1 with apu := s1.apu.outputTick s1.params.sampleRate }

end Sys2Proof.Machine
end

