-- ==== Sys2Proof/Machine/PpuTick.lean ====
section
/-! DEFINITION. One dot of the PPU (47_ppu.md R360 to R412): position, VBlank, the background and sprite pipelines and the
pixel output. -/

namespace Sys2Proof.Machine

/-- Rendering enabled (47_ppu.md R363). -/
def Ppu.rendering (p : Ppu) : Bool := p.mask.getLsbD 3 || p.mask.getLsbD 4

/-- Changes the PPU's own registers and nothing else. -/
def State.withPpu (s : State) (f : Ppu → Ppu) : State := { s with ppu := f s.ppu }

/-- The advance of the position after a dot (47_ppu.md R361). -/
def Ppu.advance (p : Ppu) : Ppu :=
  if p.dot + 1 = 341 then
    { p with dot := 0, scanline := if p.scanline + 1 = 262 then 0 else p.scanline + 1 }
  else { p with dot := p.dot + 1 }

/-- `VBlankEntry` (47_ppu.md R372). -/
def vblankEntry (s : State) : State :=
  { s with
    ppu := { s.ppu with status := s.ppu.status ||| 0x80#8, frameComplete := true }
    cpu := { s.cpu with nmiPending := s.cpu.nmiPending || s.ppu.ctrl.getLsbD 7 } }

/-- `PreRenderClear` (47_ppu.md R373). -/
def Ppu.preRenderClear (p : Ppu) : Ppu :=
  { p with status := p.status &&& 0x1F#8, spriteCount := 0, sp0OnLine := false }

/-- `IncX` (47_ppu.md R391). -/
def Ppu.incX (p : Ppu) : Ppu :=
  { p with v := if p.v &&& 0x001F#15 = 31#15 then (p.v &&& 0x7FE0#15) ^^^ 0x0400#15 else p.v + 1#15 }

/-- `IncY` (47_ppu.md R392). -/
def Ppu.incY (p : Ppu) : Ppu :=
  if p.v &&& 0x7000#15 ≠ 0x7000#15 then { p with v := p.v + 0x1000#15 }
  else
    let v := p.v &&& 0x0FFF#15
    let y := (v >>> 5) &&& 31#15
    let v' := if y = 29#15 then v ^^^ 0x0800#15 else v
    let y' := if y = 29#15 ∨ y = 31#15 then 0#15 else y + 1#15
    { p with v := (v' &&& 0x7C1F#15) ||| (y' <<< 5) }

/-- `CopyHorizontal` (47_ppu.md R393). -/
def Ppu.copyHorizontal (p : Ppu) : Ppu := { p with v := (p.v &&& 0x7BE0#15) ||| (p.t &&& 0x041F#15) }

/-- `CopyVertical` (47_ppu.md R393). -/
def Ppu.copyVertical (p : Ppu) : Ppu := { p with v := (p.v &&& 0x041F#15) ||| (p.t &&& 0x7BE0#15) }

/-- `ShiftBackground` (47_ppu.md R396). -/
def Ppu.shiftBackground (p : Ppu) : Ppu :=
  { p with bgLo := p.bgLo <<< 1, bgHi := p.bgHi <<< 1, atLo := p.atLo <<< 1, atHi := p.atHi <<< 1 }

/-- `LoadShifters` (47_ppu.md R397). -/
def Ppu.loadShifters (p : Ppu) : Ppu :=
  { p with
    bgLo := (p.bgLo &&& 0xFF00#16) ||| p.loLatch.setWidth 16
    bgHi := (p.bgHi &&& 0xFF00#16) ||| p.hiLatch.setWidth 16
    atLo := (p.atLo &&& 0xFF00#16) ||| (if p.atLatch.getLsbD 0 then 0x00FF#16 else 0#16)
    atHi := (p.atHi &&& 0xFF00#16) ||| (if p.atLatch.getLsbD 1 then 0x00FF#16 else 0#16) }

/-- `FetchNT` (47_ppu.md R398). -/
def fetchNt (s : State) : State :=
  let b := ppuRead s (0x2000 + (s.ppu.v &&& 0x0FFF#15).toNat)
  b.2.withPpu fun p => { p with ntLatch := b.1 }

/-- The attribute address of `v` (47_ppu.md R399). -/
def attributeAddr (v : BitVec 15) : Nat :=
  (0x23C0#15 ||| (v &&& 0x0C00#15) ||| ((v >>> 4) &&& 0x38#15) ||| ((v >>> 2) &&& 0x07#15)).toNat

/-- The two attribute bits `v` selects from an attribute byte (47_ppu.md R399). -/
def attributeBits (v : BitVec 15) (b : Byte) : BitVec 2 :=
  let b := if v.getLsbD 6 then b >>> 4 else b
  let b := if v.getLsbD 1 then b >>> 2 else b
  b.setWidth 2

/-- `FetchAT` (47_ppu.md R399). -/
def fetchAt (s : State) : State :=
  let b := ppuRead s (attributeAddr s.ppu.v)
  b.2.withPpu fun p => { p with atLatch := attributeBits p.v b.1 }

/-- The address of a background pattern row's low plane (47_ppu.md R400). -/
def Ppu.patternAddr (p : Ppu) : Nat :=
  (if p.ctrl.getLsbD 4 then 4096 else 0) + p.ntLatch.toNat * 16 + (p.v >>> 12).toNat

/-- `FetchPatternLo` (47_ppu.md R400). -/
def fetchPatternLo (s : State) : State :=
  let b := ppuRead s s.ppu.patternAddr
  b.2.withPpu fun p => { p with loLatch := b.1 }

/-- `FetchPatternHi` (47_ppu.md R401). -/
def fetchPatternHi (s : State) : State :=
  let b := ppuRead s (s.ppu.patternAddr + 8)
  b.2.withPpu fun p => { p with hiLatch := b.1 }

/-- The sprite height (47_ppu.md R404, R406). -/
def Ppu.spriteHeight (p : Ppu) : Nat := if p.ctrl.getLsbD 5 then 16 else 8

/-- What the scan of sprite evaluation has found so far (47_ppu.md R404). -/
structure SpriteScan where
  sec : Vector Byte 32
  found : Nat
  zero : Bool
  overflow : Bool
  deriving DecidableEq, Repr

/-- One OAM entry of the scan (47_ppu.md R404): nothing more happens once a ninth sprite was found. -/
def SpriteScan.entry (oam : Mem) (sl h : Nat) (sc : SpriteScan) (n : Nat) : SpriteScan :=
  let y := (oam.read (4 * n)).toNat
  if sc.overflow = false ∧ y ≤ sl ∧ sl - y < h then
    if sc.found < 8 then
      { sc with
        sec := (((sc.sec.setIfInBounds (4 * sc.found) (oam.read (4 * n))).setIfInBounds
          (4 * sc.found + 1) (oam.read (4 * n + 1))).setIfInBounds
          (4 * sc.found + 2) (oam.read (4 * n + 2))).setIfInBounds
          (4 * sc.found + 3) (oam.read (4 * n + 3))
        zero := sc.zero || decide (n = 0)
        found := sc.found + 1 }
    else { sc with overflow := true }
  else sc

/-- The whole scan (47_ppu.md R404), entries 0 to 63 in order, over a cleared secondary OAM. -/
def spriteScan (oam : Mem) (sl h : Nat) : SpriteScan :=
  (List.range 64).foldl (SpriteScan.entry oam sl h)
    { sec := Vector.replicate 32 0xFF#8, found := 0, zero := false, overflow := false }

/-- `EvaluateSprites` (47_ppu.md R404). -/
def Ppu.evaluateSprites (sl : Nat) (p : Ppu) : Ppu :=
  let sc := spriteScan p.oam sl p.spriteHeight
  { p with
    secOam := sc.sec
    status := if sc.overflow then p.status ||| 0x20#8 else p.status
    spriteCount := sc.found
    sp0OnLine := sc.zero }

/-- Byte `k` of entry `i` of secondary OAM (47_ppu.md R405). -/
def Ppu.sec (p : Ppu) (i k : Nat) : Byte := p.secOam[4 * i + k]?.getD 0x00#8

/-- The pattern row of a selected sprite (47_ppu.md R406), an integer difference as in R404: the line within the sprite, counted
from below when it is flipped vertically. After a register change or disabled rendering between the evaluation and the fetch it can
lie outside the sprite; where it is negative it is a free value (log entry 10). -/
def spriteRow (h sl y : Nat) (flip : Bool) : Nat :=
  let line : Int := (sl : Int) - (y : Int)
  let row : Int := if flip then (h : Int) - 1 - line else line
  if 0 ≤ row then row.toNat else Config.spriteRow h sl y flip

/-- The pattern address of a tile row (47_ppu.md R406), 8×8 and 8×16. -/
def spritePattern (ctrl : Byte) (h : Nat) (tile : Byte) (row : Nat) : Nat :=
  if h = 8 then (if ctrl.getLsbD 3 then 4096 else 0) ||| (tile.toNat * 16) ||| row
  else (if tile.getLsbD 0 then 4096 else 0) ||| (((tile &&& 0xFE#8).toNat + row / 8) * 16) ||| (row % 8)

/-- `SpriteAddr(i, sl)` (47_ppu.md R406): an empty slot fetches tile $FF. -/
def Ppu.spriteAddr (p : Ppu) (i sl : Nat) : Nat :=
  let h := p.spriteHeight
  if i < p.spriteCount then
    spritePattern p.ctrl h (p.sec i 1) (spriteRow h sl (p.sec i 0).toNat ((p.sec i 2).getLsbD 7))
  else spritePattern p.ctrl h 0xFF#8 0

/-- A fetched pattern byte as the latch holds it (47_ppu.md R406): reversed when flipped horizontally. -/
def flipped (attr b : Byte) : Byte := if attr.getLsbD 6 then bitReverse8 b else b

/-- `FetchSpriteLo(i, sl)` (47_ppu.md R406). -/
def fetchSpriteLo (i sl : Nat) (s : State) : State :=
  let b := ppuRead s (s.ppu.spriteAddr i sl)
  b.2.withPpu fun p =>
    if i < p.spriteCount then
      { p with
        spAttr := p.spAttr.setIfInBounds i (p.sec i 2)
        spX := p.spX.setIfInBounds i (p.sec i 3)
        spLo := p.spLo.setIfInBounds i (flipped (p.sec i 2) b.1) }
    else { p with spLo := p.spLo.setIfInBounds i 0x00#8 }

/-- `FetchSpriteHi(i, sl)` (47_ppu.md R406). -/
def fetchSpriteHi (i sl : Nat) (s : State) : State :=
  let b := ppuRead s (s.ppu.spriteAddr i sl + 8)
  b.2.withPpu fun p =>
    if i < p.spriteCount then
      { p with spHi := p.spHi.setIfInBounds i (flipped (p.spAttr[i]?.getD 0x00#8) b.1) }
    else { p with spHi := p.spHi.setIfInBounds i 0x00#8 }

/-- The background part of a rendered dot, its fetch slot chosen by `(d - 1) mod 8` (47_ppu.md R370). -/
def backgroundDot (d : Nat) (s : State) : State :=
  if (2 ≤ d ∧ d ≤ 257) ∨ (321 ≤ d ∧ d ≤ 337) then
    let s := s.withPpu Ppu.shiftBackground
    match (d - 1) % 8 with
    | 0 => fetchNt (s.withPpu Ppu.loadShifters)
    | 2 => fetchAt s
    | 4 => fetchPatternLo s
    | 6 => fetchPatternHi s
    | 7 => s.withPpu Ppu.incX
    | _ => s
  else s

/-- The scroll updates and the two closing nametable fetches of a rendered line (47_ppu.md R370). -/
def scrollDot (sl d : Nat) (s : State) : State :=
  let s := if d = 256 then s.withPpu Ppu.incY else s
  let s := if d = 257 then s.withPpu Ppu.copyHorizontal else s
  let s := if d = 338 ∨ d = 340 then fetchNt s else s
  if sl = 261 ∧ 280 ≤ d ∧ d ≤ 304 then s.withPpu Ppu.copyVertical else s

/-- The sprite part of a rendered dot (47_ppu.md R370). -/
def spriteDot (sl d : Nat) (s : State) : State :=
  let s := if d = 257 ∧ sl ≤ 239 then s.withPpu (Ppu.evaluateSprites sl) else s
  if 261 ≤ d ∧ d ≤ 319 then
    let i := (d - 261) / 8
    match (d - 261) % 8 with
    | 0 => fetchSpriteLo i sl s
    | 2 => fetchSpriteHi i sl s
    | _ => s
  else s

/-- A two-bit value of the planes `hi` and `lo` at bit `b`. -/
def planeBits (hi lo : BitVec 16) (b : Nat) : Nat := 2 * (hi.getLsbD b).toNat + (lo.getLsbD b).toNat

/-- The background pixel and palette at column `x` (47_ppu.md R403). -/
def Ppu.bgPixel (p : Ppu) (x : Nat) : Nat × Nat :=
  if p.mask.getLsbD 3 = true ∧ (8 ≤ x ∨ p.mask.getLsbD 1 = true) then
    let b := 15 - p.x.toNat
    (planeBits p.bgHi p.bgLo b, planeBits p.atHi p.atLo b)
  else (0, 0)

/-- A sprite pixel (47_ppu.md R408): value, palette, behind the background, from sprite 0. -/
structure SpritePixel where
  pix : Nat
  pal : Nat
  behind : Bool
  isZero : Bool
  deriving DecidableEq, Repr

/-- No sprite pixel (47_ppu.md R408). -/
def SpritePixel.none : SpritePixel := { pix := 0, pal := 0, behind := false, isZero := false }

/-- The pixel slot `i` shows at column `x` (47_ppu.md R408), 0 where it shows none. -/
def Ppu.slotPixel (p : Ppu) (x i : Nat) : SpritePixel :=
  let sx := (p.spX[i]?.getD 0x00#8).toNat
  if sx ≤ x ∧ x - sx ≤ 7 then
    let b := 7 - (x - sx)
    let attr := p.spAttr[i]?.getD 0x00#8
    { pix := 2 * ((p.spHi[i]?.getD 0x00#8).getLsbD b).toNat + ((p.spLo[i]?.getD 0x00#8).getLsbD b).toNat
      pal := (attr &&& 3#8).toNat + 4
      behind := attr.getLsbD 5
      isZero := decide (i = 0) && p.sp0OnLine }
  else SpritePixel.none

/-- The first slot of `is` with a pixel that is not transparent (47_ppu.md R408). -/
def Ppu.firstPixel (p : Ppu) (x : Nat) : List Nat → SpritePixel
  | [] => SpritePixel.none
  | i :: is => if (p.slotPixel x i).pix ≠ 0 then p.slotPixel x i else p.firstPixel x is

/-- The sprite pixel at column `x` (47_ppu.md R408). -/
def Ppu.spritePixel (p : Ppu) (x : Nat) : SpritePixel :=
  if p.mask.getLsbD 4 = true ∧ (8 ≤ x ∨ p.mask.getLsbD 2 = true) then p.firstPixel x (List.range p.spriteCount)
  else SpritePixel.none

/-- Composition (47_ppu.md R409): pixel and palette of the dot. -/
def compose (bg : Nat × Nat) (sp : SpritePixel) : Nat × Nat :=
  if sp.pix ≠ 0 ∧ (bg.1 = 0 ∨ sp.behind = false) then (sp.pix, sp.pal)
  else if bg.1 ≠ 0 then bg
  else (0, 0)

/-- The palette address of a composed pixel (47_ppu.md R411). -/
def pixelAddr (px : Nat × Nat) : Nat := if px.1 = 0 then 0x3F00 else 0x3F00 + px.2 * 4 + px.1

/-- The sprite-0 hit of column `x` (47_ppu.md R410). -/
def Ppu.hits (p : Ppu) (x : Nat) : Bool :=
  decide ((p.bgPixel x).1 ≠ 0 ∧ (p.spritePixel x).pix ≠ 0 ∧ (p.spritePixel x).isZero = true ∧ x ≠ 255)

/-- The status bit of a sprite-0 hit (47_ppu.md R410). -/
def Ppu.markHit (x : Nat) (p : Ppu) : Ppu := { p with status := if p.hits x then p.status ||| 0x40#8 else p.status }

/-- One pixel of the frame buffer (47_ppu.md R411). -/
def Ppu.putPixel (x y : Nat) (colour : BitVec 32) (p : Ppu) : Ppu :=
  { p with framebuffer := p.framebuffer.write x y colour }

/-- `EmitPixel(x, y)` (47_ppu.md R403 to R411). -/
def emitPixel (x y : Nat) (s : State) : State :=
  let c := ppuRead (s.withPpu (Ppu.markHit x)) (pixelAddr (compose (s.ppu.bgPixel x) (s.ppu.spritePixel x)))
  c.2.withPpu (Ppu.putPixel x y (s.params.rgba c.1))

/-- The rendering work of a dot, in the order of 47_ppu.md R370. -/
def renderDot (sl d : Nat) (s : State) : State := spriteDot sl d (scrollDot sl d (backgroundDot d s))

/-- `ppu_tick()` (47_ppu.md R370). -/
def ppuTick (s : State) : State :=
  let sl := s.ppu.scanline
  let d := s.ppu.dot
  let rendering := s.ppu.rendering
  let s := if sl = 241 ∧ d = 1 then vblankEntry s else s
  let s := if sl = 261 ∧ d = 1 then s.withPpu Ppu.preRenderClear else s
  let s := if rendering = true ∧ (sl ≤ 239 ∨ sl = 261) then renderDot sl d s else s
  let s := if sl ≤ 239 ∧ 1 ≤ d ∧ d ≤ 256 then emitPixel (d - 1) sl s else s
  s.withPpu Ppu.advance

end Sys2Proof.Machine
end

