-- ==== Sys2Proof/Machine/FanOut.lean ====
section
/-! DEFINITION. The fan-out of CPU cycles (49_machine_and_savestate.md R541) and the end of a frame (R543). -/

namespace Sys2Proof.Machine

/-- The IRQ level the fan-out samples (10_state.md R28, 60_exceptions.md R582). -/
def irqLevel (s : State) : Bool := s.apu.frame.irqFlag || s.apu.dmc.irqFlag || s.mapper.irqFlag

/-- `cpu.irq_pending` takes the level (49_machine_and_savestate.md R541). -/
def sampleIrq (s : State) : State := { s with cpu := { s.cpu with irqPending := irqLevel s } }

/-- One CPU cycle of the fan-out: three dots, one APU tick, one IRQ sample (49_machine_and_savestate.md R541). -/
def fanOutCycle (s : State) : State := sampleIrq (apuTick (ppuTick (ppuTick (ppuTick s))))

/-- `FanOut(c)` (49_machine_and_savestate.md R541). -/
def fanOut : Nat → State → State
  | 0, s => s
  | c + 1, s => fanOut c (fanOutCycle s)

/-- `EndOfFrame()` (49_machine_and_savestate.md R543). -/
def endOfFrame (s : State) : State :=
  { s with
    ppu := { s.ppu with frameComplete := false }
    publishedFrame := s.ppu.framebuffer
    audioOut := s.audioOut ++ s.apu.samples
    apu := { s.apu with samples := [] } }

end Sys2Proof.Machine
end

