-- ==== Sys2Proof/Machine/CpuStep.lean ====
section
/-! DEFINITION. `cpu_step` (30_encoding.md R121, 60_exceptions.md R585): the interrupt poll, the fetch, and the step's fan-out;
and where an instruction is placed so that the next step runs it. -/

namespace Sys2Proof.Machine

/-- The fetch of one instruction byte (10_state.md R24): a read at `PC`, then `PC` one further. -/
def fetchByte (s : State) : Byte × State :=
  let b := memRead s s.cpu.pc
  (b.1, b.2.jump (b.2.cpu.pc + 1#16))

/-- The fetch and decode of one instruction (30_encoding.md R121 steps 2 to 4): the operand bytes the opcode's format has. -/
def fetchInstr (s : State) : Instr × State :=
  let op := fetchByte s
  match operandCount op.1 with
  | 0 => (decodeOp op.1 0#8 0#8, op.2)
  | 1 =>
    let b1 := fetchByte op.2
    (decodeOp op.1 b1.1 0#8, b1.2)
  | _ =>
    let b1 := fetchByte op.2
    let b2 := fetchByte b1.2
    (decodeOp op.1 b1.1 b2.1, b2.2)

/-- `cpu_step()` (60_exceptions.md R585): NMI entry, else unmasked IRQ entry, else one instruction. -/
def cpuStep (s : State) : Host.Outcome State Fault Refusal :=
  if s.cpu.nmiPending then
    .next (enter (s.withCpu fun p => { p with nmiPending := false }) s.cpu.pc false nmiVector)
  else if s.cpu.irqPending && !s.cpu.i then
    .next (enter s s.cpu.pc false irqVector)
  else
    let f := fetchInstr s
    exec f.1 f.2

/-- The cycle count a CPU step from `s` to `t` returned (30_encoding.md R121 step 8). -/
def stepCycles (s t : State) : Nat := (t.cpu.cycles - s.cpu.cycles).toNat

/-- One turn of the loop of `step_frame` (49_machine_and_savestate.md R542): a CPU step and the fan-out of its cycles. -/
def machineTurn (s : State) : Host.Outcome State Fault Refusal :=
  match cpuStep s with
  | .next t => .next (fanOut (stepCycles s t) t)
  | .fault f => .fault f
  | .refused r => .refused r

/-- The end of the frame when the turn completed one (49_machine_and_savestate.md R542, R543). -/
def closeFrame (s : State) : State := if s.ppu.frameComplete then endOfFrame s else s

/-- One step of the machine: a turn, with the end of the frame it completed (log entry 3); an empty machine's step is a no-op
(49_machine_and_savestate.md R542). -/
def stepMachine (s : State) : Host.Outcome State Fault Refusal :=
  if s.loaded then
    match machineTurn s with
    | .next t => .next (closeFrame t)
    | .fault f => .fault f
    | .refused r => .refused r
  else .next s

/-- Can the byte a fetch at this address reads be placed there: work RAM, PRG RAM or PRG ROM? -/
def storable (s : State) (addr : Word) : Bool :=
  match route addr with
  | .workRam => true
  | .cartridge => decide ((mapRead s.mapper s.cart addr.toNat .cpu).1 ≠ .unmapped)
  | .ppuReg | .apuReg | .oamDma | .port0 | .port1 | .unmapped => false

/-- Places a byte where a fetch at this address reads it (log entry 2). -/
def placeByte (s : State) (addr : Word) (b : Byte) : State :=
  match route addr with
  | .workRam => { s with bus := { s.bus with ram := s.bus.ram.write (ramIndex addr) b } }
  | _ =>
    match mapRead s.mapper s.cart addr.toNat .cpu with
    | (.prgRom, off) => { s with cart := { s.cart with prgRom := s.cart.prgRom.write off b } }
    | (.prgRam, off) => { s with cart := { s.cart with prgRam := s.cart.prgRam.write off b } }
    | _ => s

/-- Places bytes at consecutive addresses. -/
def placeBytes (s : State) (addr : Word) : List Byte → State
  | [] => s
  | b :: bs => placeBytes (placeByte s addr b) (addr + 1#16) bs

/-- A loaded machine whose next poll fetches at an address that holds bytes (log entry 2). An empty machine gets a variant-0
cartridge of one PRG bank and CHR RAM with the reset vector at $8000, as `load` of such an image leaves it; a `PC` that lies
on a register moves to work RAM; a pending interrupt is withdrawn. -/
def readyToFetch (s : State) : State :=
  let s1 :=
    if s.loaded then s
    else
      { s with
        loaded := true
        cart := { Cart.none with prgRom := [(0x3FFD, 0x80#8)], prgBanks := 0x01#8 }
        mapper := { mirroring := .horizontal, irqFlag := false, variant := .v0 }
        cpu := { s.cpu with pc := 0x8000#16 } }
  let pc := s1.cpu.pc
  let ok := storable s1 pc && storable s1 (pc + 1#16) && storable s1 (pc + 2#16)
  s1.withCpu fun p =>
    { p with nmiPending := false, irqPending := false, pc := if ok then p.pc else 0x0200#16 }

end Sys2Proof.Machine
end

