-- ==== Sys2Proof/Machine/Step.lean ====
section
/-! DEFINITION. One step of the machine, and the placing of an instruction word where the next step fetches it. -/

namespace Sys2Proof.Machine

/-- One step (49_machine_and_savestate.md R541 to R543). -/
def step (s : State) : Host.Outcome State Fault Refusal := stepMachine s

/-- The state with an instruction word of the opcode table stored where the next step fetches it (log entry 2). -/
def State.withFetchWord (s : State) (nbits w : Nat) : State :=
  placeBytes (readyToFetch s) (readyToFetch s).cpu.pc (tableBytes nbits w)

end Sys2Proof.Machine
end

