-- ==== Sys2Proof/Machine/HostOps.lean ====
section
/-! DEFINITION. The host's operations (49_machine_and_savestate.md R520 to R546): `new`, `load`, `reset`, `step_frame`,
`drain_audio_samples`, `set_state`, `frame`, `bus_read`, `diagnostic`. Each answers the machine after it and its result. -/

namespace Sys2Proof.Machine

/-- The error kinds (49_machine_and_savestate.md R528). -/
inductive HostError
  | malformedHeader
  | truncatedRom
  | unsupportedMapper
  | bankCountInvalid
  | stateVersionMismatch
  | stateCorrupt
  | stateCartridgeMismatch
  | ioError
  | notLoaded
  deriving DecidableEq, Repr

/-- The buttons (49_machine_and_savestate.md R524). -/
inductive Button
  | a | b | select | start | up | down | left | right
  deriving DecidableEq, Repr

/-- The bit of `buttons` a button has (10_state.md R32). -/
def Button.bit : Button → Nat
  | .a => 0
  | .b => 1
  | .select => 2
  | .start => 3
  | .up => 4
  | .down => 5
  | .left => 6
  | .right => 7

/-- The parameters `new(config)` may be given (00_scope.md R7, 48_apu.md R492). -/
def legalConfig (p : Params) : Prop :=
  1 ≤ p.sampleRate ∧ p.sampleRate ≤ nominalCpuHz ∧ Memory.wf 2048 p.ramInit

/-- `new(config)` (49_machine_and_savestate.md R521): an empty machine. -/
def machineNew (config : Params) : State := State.empty config

/-- What `load` reads from an image (49_machine_and_savestate.md R530). -/
structure Image where
  prgBanks : Byte
  chrBanks : Byte
  mapperId : Byte
  mirroring : Mirroring
  trainer : List Byte
  prg : List Byte
  chr : List Byte
  deriving DecidableEq, Repr

/-- The magic bytes of a ROM image (49_machine_and_savestate.md R530). -/
def imageMagic : List Byte := [0x4E#8, 0x45#8, 0x53#8, 0x1A#8]

/-- `mapper_id` (49_machine_and_savestate.md R530). -/
def imageMapperId (flags6 flags7 : Byte) : Byte := (flags7 &&& 0xF0#8) ||| (flags6 >>> 4)

/-- `cart.mirroring` (49_machine_and_savestate.md R530). -/
def imageMirroring (flags6 : Byte) : Mirroring :=
  if flags6.getLsbD 3 then .fourScreen else if flags6.getLsbD 0 then .vertical else .horizontal

/-- The checks of `load` in their order (49_machine_and_savestate.md R532), and the image's parts (R530). -/
def parseImage (bytes : List Byte) : Except HostError Image :=
  let prgBanks := bytes.getD 4 0x00#8
  let chrBanks := bytes.getD 5 0x00#8
  let flags6 := bytes.getD 6 0x00#8
  let id := imageMapperId flags6 (bytes.getD 7 0x00#8)
  let trainerSize := if flags6.getLsbD 2 then 512 else 0
  let prgSize := 16384 * prgBanks.toNat
  let chrSize := 8192 * chrBanks.toNat
  if bytes.length < 16 ∨ bytes.take 4 ≠ imageMagic ∨ prgBanks = 0x00#8 then .error .malformedHeader
  else
    match mapperChecks id prgBanks chrBanks with
    | none => .error .unsupportedMapper
    | some false => .error .bankCountInvalid
    | some true =>
      if bytes.length < 16 + trainerSize + prgSize + chrSize then .error .truncatedRom
      else
        .ok { prgBanks := prgBanks, chrBanks := chrBanks, mapperId := id, mirroring := imageMirroring flags6
              trainer := (bytes.drop 16).take trainerSize
              prg := (bytes.drop (16 + trainerSize)).take prgSize
              chr := (bytes.drop (16 + trainerSize + prgSize)).take chrSize }

/-- The 32-bit FNV-1a hash (49_machine_and_savestate.md R552). -/
def fnv1a (bytes : List Byte) : BitVec 32 :=
  bytes.foldl (fun h b => (h ^^^ b.setWidth 32) * 0x01000193#32) 0x811C9DC5#32

/-- The cartridge built from an image (49_machine_and_savestate.md R534, R535 step 1). -/
def Image.cart (im : Image) : Cart :=
  { prgRom := Mem.ofBytes im.prg
    chrRom := Mem.ofBytes im.chr
    chrRam := []
    prgRam := Mem.ofBytesFrom 0x1000 im.trainer
    mirroring := im.mirroring
    mapperId := im.mapperId
    prgBanks := im.prgBanks
    chrBanks := im.chrBanks
    fingerprint := fnv1a (im.prg ++ im.chr) }

/-- The CPU registers and `PC` of a machine all of whose other blocks are initialised (10_state.md R45, R46): the two vector
reads are the only accesses. -/
def resetCpu (s : State) : State :=
  let pc := memRead16 s resetVector
  { pc.2 with cpu := Cpu.reset pc.1 }

/-- The machine right after a successful `load` (49_machine_and_savestate.md R533, R535). -/
def powerOn (p : Params) (c : Cart) : State :=
  resetCpu { State.empty p with cart := c, mapper := Mapper.init c, loaded := true }

/-- `load(rom_bytes)` (49_machine_and_savestate.md R531 to R535): on an error the machine is as it was. -/
def load (s : State) (bytes : List Byte) : State × Except HostError Unit :=
  match parseImage bytes with
  | .error e => (s, .error e)
  | .ok im => (powerOn s.params im.cart, .ok ())

/-- `reset()` (49_machine_and_savestate.md R522, 10_state.md R46): PPU and APU registers and the CPU; memories, mapper,
controllers and what the host has not yet taken are kept. -/
def reset (s : State) : State :=
  if s.loaded then
    resetCpu { s with
      ppu := Ppu.reset s.ppu.vram s.ppu.oam s.ppu.palette s.ppu.framebuffer
      apu := Apu.reset }
  else s

/-- The loop of `step_frame` (49_machine_and_savestate.md R542) with a bound on its turns: `none` when the bound is passed or
a turn stops. -/
def frameLoop : Nat → State → Option State
  | 0, _ => none
  | n + 1, s =>
    match machineTurn s with
    | .next t => if t.ppu.frameComplete then some (endOfFrame t) else frameLoop n t
    | .fault _ => none
    | .refused _ => none

/-- The bound of 49_machine_and_savestate.md R544 on the steps of one `step_frame`. -/
def frameTurns : Nat := 14892

/-- `step_frame()` (49_machine_and_savestate.md R542). -/
def stepFrame (s : State) : Option State := if s.loaded then frameLoop frameTurns s else some s

/-- `drain_audio_samples()` (49_machine_and_savestate.md R545). -/
def drainAudio (s : State) : State × List (BitVec 32) := ({ s with audioOut := [] }, s.audioOut)

/-- A button's bit set or cleared (49_machine_and_savestate.md R524). -/
def Pad.press (p : Pad) (btn : Button) (pressed : Bool) : Pad :=
  { p with buttons := if pressed then p.buttons ||| (1#8 <<< btn.bit) else p.buttons &&& ~~~(1#8 <<< btn.bit) }

/-- `set_state(port, button, pressed)` (49_machine_and_savestate.md R524). -/
def setState (s : State) (port : Fin 2) (btn : Button) (pressed : Bool) : State :=
  if s.loaded then
    if port = 0 then { s with bus := { s.bus with pad0 := s.bus.pad0.press btn pressed } }
    else { s with bus := { s.bus with pad1 := s.bus.pad1.press btn pressed } }
  else s

/-- `frame()` (49_machine_and_savestate.md R525): the published picture, row by row. -/
def frame (s : State) : List (BitVec 32) :=
  (List.range (screenW * screenH)).map fun k => s.publishedFrame.read (k % screenW) (k / screenW)

/-- `bus_read(address)` (49_machine_and_savestate.md R526). -/
def busRead (s : State) (addr : Word) : State × Byte :=
  if s.loaded then ((memRead s addr).2, (memRead s addr).1) else (s, s.params.openBus)

/-- `diagnostic()` (49_machine_and_savestate.md R526). DESIGN CHOICE (log entry 24): the spec gives no answer on an empty machine, whose
only state is `loaded` (10_state.md R47); there it answers the three fields of `State.empty`: false, $00, $0000. -/
def diagnostic (s : State) : Bool × Byte × Word :=
  (s.cpu.unsupportedSeen, s.cpu.unsupportedOpcode, s.cpu.unsupportedAt)

end Sys2Proof.Machine
end

