-- ==== Sys2Proof/Machine/SaveState.lean ====
section
/-! DEFINITION. The save state (49_machine_and_savestate.md R550 to R563): the stream's sections, `save_state` and
`load_state`. Each section has a writer and a reader; a reader answers `none` where the stream is too short or a field lies
outside its range (R561 step 6). -/

namespace Sys2Proof.Machine

/-- A 16-bit integer, low byte first (49_machine_and_savestate.md R550). -/
def putU16 (w : Word) : List Byte := [lo w, hi w]

/-- A 32-bit integer, low byte first (49_machine_and_savestate.md R550). -/
def putU32 (w : BitVec 32) : List Byte := putU16 (w.setWidth 16) ++ putU16 (w.extractLsb' 16 16)

/-- A 64-bit integer, low byte first (49_machine_and_savestate.md R550). -/
def putU64 (w : BitVec 64) : List Byte := putU32 (w.setWidth 32) ++ putU32 (w.extractLsb' 32 32)

/-- A field of at most 16 bits in a 16-bit container (49_machine_and_savestate.md R550). -/
def putWide {n : Nat} (v : BitVec n) : List Byte := putU16 (v.setWidth 16)

/-- A field of at most 8 bits in a byte (49_machine_and_savestate.md R550). -/
def putNarrow {n : Nat} (v : BitVec n) : List Byte := [v.setWidth 8]

/-- A one-bit field (49_machine_and_savestate.md R550). -/
def putFlag (b : Bool) : List Byte := [bitByte b]

def getU8 : List Byte → Option (Byte × List Byte)
  | [] => none
  | b :: t => some (b, t)

def getU16 : List Byte → Option (Word × List Byte)
  | l :: h :: t => some (word h l, t)
  | _ => none

def getU32 (bs : List Byte) : Option (BitVec 32 × List Byte) := do
  let (l, bs) ← getU16 bs
  let (h, bs) ← getU16 bs
  return (h ++ l, bs)

def getU64 (bs : List Byte) : Option (BitVec 64 × List Byte) := do
  let (l, bs) ← getU32 bs
  let (h, bs) ← getU32 bs
  return (h ++ l, bs)

/-- A field of `n` bits from a 16-bit container; a value outside them is refused. -/
def getWide (n : Nat) (bs : List Byte) : Option (BitVec n × List Byte) := do
  let (w, bs) ← getU16 bs
  if w.toNat < 2 ^ n then return (w.setWidth n, bs) else none

/-- A field of `n` bits from a byte; a value outside them is refused. -/
def getNarrow (n : Nat) (bs : List Byte) : Option (BitVec n × List Byte) := do
  let (b, bs) ← getU8 bs
  if b.toNat < 2 ^ n then return (b.setWidth n, bs) else none

/-- A one-bit field: 0 or 1. -/
def getFlag (bs : List Byte) : Option (Bool × List Byte) := do
  let (b, bs) ← getU8 bs
  if b.toNat < 2 then return (decide (b = 1#8), bs) else none

/-- A number of `lower` to `upper` from a byte. -/
def getCount (lower upper : Nat) (bs : List Byte) : Option (Nat × List Byte) := do
  let (b, bs) ← getU8 bs
  if lower ≤ b.toNat ∧ b.toNat ≤ upper then return (b.toNat, bs) else none

/-- A number of at most `upper` from a 16-bit container. -/
def getPosition (upper : Nat) (bs : List Byte) : Option (Nat × List Byte) := do
  let (w, bs) ← getU16 bs
  if w.toNat ≤ upper then return (w.toNat, bs) else none

/-- The next `n` bytes. -/
def getBytes (n : Nat) (bs : List Byte) : Option (List Byte × List Byte) :=
  if n ≤ bs.length then some (bs.take n, bs.drop n) else none

/-- A memory of `n` bytes. -/
def getMem (n : Nat) (bs : List Byte) : Option (Mem × List Byte) := do
  let (m, bs) ← getBytes n bs
  return (Mem.ofBytes m, bs)

/-- A register array of `n` bytes. -/
def getArray (n : Nat) (bs : List Byte) : Option (Vector Byte n × List Byte) := do
  let (m, bs) ← getBytes n bs
  return (Vector.ofFn fun i => m.getD i 0x00#8, bs)

/-- The magic bytes of a save state (49_machine_and_savestate.md R551). -/
def saveMagic : List Byte := [0x50#8, 0x4E#8, 0x45#8, 0x53#8]

/-- The cartridge identity of section 0 (49_machine_and_savestate.md R551). -/
def putIdentity (c : Cart) : List Byte := [c.mapperId, c.prgBanks, c.chrBanks] ++ putU32 c.fingerprint

/-- Section 0 (49_machine_and_savestate.md R551). -/
def putTag (c : Cart) : List Byte := saveMagic ++ putU32 saveStateVersion ++ putIdentity c

/-- Section 1, the CPU (49_machine_and_savestate.md R553). -/
def putCpu (p : Cpu) : List Byte :=
  [p.a, p.x, p.y, p.s] ++ putU16 p.pc ++ [p.status false] ++ putFlag p.nmiPending ++ putFlag p.irqPending ++
  putU64 p.cycles

/-- Reads section 1 over the CPU `p`, whose diagnostic is kept (49_machine_and_savestate.md R553, R561). -/
def getCpu (p : Cpu) (bs : List Byte) : Option (Cpu × List Byte) := do
  let (a, bs) ← getU8 bs
  let (x, bs) ← getU8 bs
  let (y, bs) ← getU8 bs
  let (s, bs) ← getU8 bs
  let (pc, bs) ← getU16 bs
  let (flags, bs) ← getU8 bs
  if flags.getLsbD 5 = true ∧ flags.getLsbD 4 = false then
    let (nmi, bs) ← getFlag bs
    let (irq, bs) ← getFlag bs
    let (cycles, bs) ← getU64 bs
    return (Cpu.withStatus
      { p with a := a, x := x, y := y, s := s, pc := pc, nmiPending := nmi, irqPending := irq, cycles := cycles }
      flags, bs)
  else none

/-- Section 3, the registers of the PPU (49_machine_and_savestate.md R555), 94 bytes. -/
def putPpuRegs (p : Ppu) : List Byte :=
  [p.ctrl, p.mask, p.status, p.oamAddr] ++ putWide p.v ++ putWide p.t ++ putNarrow p.x ++ putFlag p.w ++ [p.buffer] ++
  putU16 (BitVec.ofNat 16 p.scanline) ++ putU16 (BitVec.ofNat 16 p.dot) ++ putFlag p.frameComplete ++
  [p.ntLatch] ++ putNarrow p.atLatch ++ [p.loLatch, p.hiLatch] ++
  putU16 p.bgLo ++ putU16 p.bgHi ++ putU16 p.atLo ++ putU16 p.atHi ++
  p.secOam.toList ++ [BitVec.ofNat 8 p.spriteCount] ++ p.spLo.toList ++ p.spHi.toList ++ p.spX.toList ++ p.spAttr.toList ++
  putFlag p.sp0OnLine

/-- Section 3, the memories of the PPU (49_machine_and_savestate.md R555), 4384 bytes. -/
def putPpuMemories (p : Ppu) : List Byte := p.vram.toBytes 4096 ++ p.oam.toBytes 256 ++ p.palette.toBytes 32

/-- Reads the registers of section 3 over the PPU `p` (49_machine_and_savestate.md R555, R561; 10_state.md R33, R35). -/
def getPpuRegs (p : Ppu) (bs : List Byte) : Option (Ppu × List Byte) := do
  let (ctrl, bs) ← getU8 bs
  let (mask, bs) ← getU8 bs
  let (status, bs) ← getU8 bs
  let (oamAddr, bs) ← getU8 bs
  let (v, bs) ← getWide 15 bs
  let (t, bs) ← getWide 15 bs
  let (x, bs) ← getNarrow 3 bs
  let (w, bs) ← getFlag bs
  let (buffer, bs) ← getU8 bs
  let (scanline, bs) ← getPosition 261 bs
  let (dot, bs) ← getPosition 340 bs
  let (frameComplete, bs) ← getFlag bs
  let (ntLatch, bs) ← getU8 bs
  let (atLatch, bs) ← getNarrow 2 bs
  let (loLatch, bs) ← getU8 bs
  let (hiLatch, bs) ← getU8 bs
  let (bgLo, bs) ← getU16 bs
  let (bgHi, bs) ← getU16 bs
  let (atLo, bs) ← getU16 bs
  let (atHi, bs) ← getU16 bs
  let (secOam, bs) ← getArray 32 bs
  let (spriteCount, bs) ← getCount 0 8 bs
  let (spLo, bs) ← getArray 8 bs
  let (spHi, bs) ← getArray 8 bs
  let (spX, bs) ← getArray 8 bs
  let (spAttr, bs) ← getArray 8 bs
  let (sp0OnLine, bs) ← getFlag bs
  if status &&& 0x1F#8 = 0x00#8 then
    return ({ p with
      ctrl := ctrl, mask := mask, status := status, oamAddr := oamAddr, v := v, t := t, x := x, w := w
      buffer := buffer, scanline := scanline, dot := dot, frameComplete := frameComplete, ntLatch := ntLatch
      atLatch := atLatch, loLatch := loLatch, hiLatch := hiLatch, bgLo := bgLo, bgHi := bgHi, atLo := atLo
      atHi := atHi, secOam := secOam, spriteCount := spriteCount, spLo := spLo, spHi := spHi, spX := spX
      spAttr := spAttr, sp0OnLine := sp0OnLine }, bs)
  else none

/-- Reads the memories of section 3 over the PPU `p`; a palette byte holds a 6-bit index (49_machine_and_savestate.md R555,
R561; 10_state.md R34). -/
def getPpuMemories (p : Ppu) (bs : List Byte) : Option (Ppu × List Byte) := do
  let (vram, bs) ← getMem 4096 bs
  let (oam, bs) ← getMem 256 bs
  let (palette, bs) ← getMem 32 bs
  if palette.all fun c => c.2.toNat < 64 then return ({ p with vram := vram, oam := oam, palette := palette }, bs)
  else none

/-- A pulse channel (49_machine_and_savestate.md R556), 20 bytes. -/
def putPulse (p : Pulse) : List Byte :=
  putFlag p.enabled ++ putNarrow p.duty ++ putFlag p.halt ++ putFlag p.constant ++ putNarrow p.volume ++
  putFlag p.sweepEnabled ++ putNarrow p.sweepPeriod ++ putFlag p.sweepNegate ++ putNarrow p.sweepShift ++
  putFlag p.sweepReload ++ putNarrow p.sweepDivider ++ putWide p.timerPeriod ++ putWide p.timer ++
  putNarrow p.seqPos ++ [p.length] ++ putFlag p.envStart ++ putNarrow p.envDivider ++ putNarrow p.envDecay

def getPulse (bs : List Byte) : Option (Pulse × List Byte) := do
  let (enabled, bs) ← getFlag bs
  let (duty, bs) ← getNarrow 2 bs
  let (halt, bs) ← getFlag bs
  let (constant, bs) ← getFlag bs
  let (volume, bs) ← getNarrow 4 bs
  let (sweepEnabled, bs) ← getFlag bs
  let (sweepPeriod, bs) ← getNarrow 3 bs
  let (sweepNegate, bs) ← getFlag bs
  let (sweepShift, bs) ← getNarrow 3 bs
  let (sweepReload, bs) ← getFlag bs
  let (sweepDivider, bs) ← getNarrow 3 bs
  let (timerPeriod, bs) ← getWide 11 bs
  let (timer, bs) ← getWide 11 bs
  let (seqPos, bs) ← getNarrow 3 bs
  let (length, bs) ← getU8 bs
  let (envStart, bs) ← getFlag bs
  let (envDivider, bs) ← getNarrow 4 bs
  let (envDecay, bs) ← getNarrow 4 bs
  return ({
    enabled := enabled, duty := duty, halt := halt, constant := constant, volume := volume
    sweepEnabled := sweepEnabled, sweepPeriod := sweepPeriod, sweepNegate := sweepNegate, sweepShift := sweepShift
    sweepReload := sweepReload, sweepDivider := sweepDivider, timerPeriod := timerPeriod, timer := timer
    seqPos := seqPos, length := length, envStart := envStart, envDivider := envDivider, envDecay := envDecay }, bs)

/-- The triangle channel (49_machine_and_savestate.md R556), 11 bytes. -/
def putTriangle (t : Triangle) : List Byte :=
  putFlag t.enabled ++ putFlag t.control ++ putNarrow t.linearLoad ++ putWide t.timerPeriod ++ putWide t.timer ++
  putNarrow t.seqPos ++ [t.length] ++ putNarrow t.linear ++ putFlag t.linearReload

def getTriangle (bs : List Byte) : Option (Triangle × List Byte) := do
  let (enabled, bs) ← getFlag bs
  let (control, bs) ← getFlag bs
  let (linearLoad, bs) ← getNarrow 7 bs
  let (timerPeriod, bs) ← getWide 11 bs
  let (timer, bs) ← getWide 11 bs
  let (seqPos, bs) ← getNarrow 5 bs
  let (length, bs) ← getU8 bs
  let (linear, bs) ← getNarrow 7 bs
  let (linearReload, bs) ← getFlag bs
  return ({
    enabled := enabled, control := control, linearLoad := linearLoad, timerPeriod := timerPeriod, timer := timer
    seqPos := seqPos, length := length, linear := linear, linearReload := linearReload }, bs)

/-- The noise channel (49_machine_and_savestate.md R556), 14 bytes. -/
def putNoise (n : Noise) : List Byte :=
  putFlag n.enabled ++ putFlag n.halt ++ putFlag n.constant ++ putNarrow n.volume ++ putFlag n.mode ++
  putNarrow n.periodIndex ++ putWide n.timer ++ putWide n.lfsr ++ [n.length] ++ putFlag n.envStart ++
  putNarrow n.envDivider ++ putNarrow n.envDecay

def getNoise (bs : List Byte) : Option (Noise × List Byte) := do
  let (enabled, bs) ← getFlag bs
  let (halt, bs) ← getFlag bs
  let (constant, bs) ← getFlag bs
  let (volume, bs) ← getNarrow 4 bs
  let (mode, bs) ← getFlag bs
  let (periodIndex, bs) ← getNarrow 4 bs
  let (timer, bs) ← getWide 12 bs
  let (lfsr, bs) ← getWide 15 bs
  let (length, bs) ← getU8 bs
  let (envStart, bs) ← getFlag bs
  let (envDivider, bs) ← getNarrow 4 bs
  let (envDecay, bs) ← getNarrow 4 bs
  if lfsr ≠ 0#15 then
    return ({
      enabled := enabled, halt := halt, constant := constant, volume := volume, mode := mode
      periodIndex := periodIndex, timer := timer, lfsr := lfsr, length := length, envStart := envStart
      envDivider := envDivider, envDecay := envDecay }, bs)
  else none

/-- The delta-modulation channel (49_machine_and_savestate.md R556), 20 bytes. -/
def putDmc (d : Dmc) : List Byte :=
  putFlag d.irqEnabled ++ putFlag d.loop ++ putNarrow d.rateIndex ++ putWide d.timer ++ putNarrow d.level ++
  putU16 d.sampleAddr ++ putWide d.sampleLen ++ putU16 d.curAddr ++ putWide d.bytesRemaining ++
  [d.buffer] ++ putFlag d.bufferFull ++ [d.shift] ++ [BitVec.ofNat 8 d.bitsRemaining] ++ putFlag d.silence ++
  putFlag d.irqFlag

def getDmc (bs : List Byte) : Option (Dmc × List Byte) := do
  let (irqEnabled, bs) ← getFlag bs
  let (loop, bs) ← getFlag bs
  let (rateIndex, bs) ← getNarrow 4 bs
  let (timer, bs) ← getWide 9 bs
  let (level, bs) ← getNarrow 7 bs
  let (sampleAddr, bs) ← getU16 bs
  let (sampleLen, bs) ← getWide 12 bs
  let (curAddr, bs) ← getU16 bs
  let (bytesRemaining, bs) ← getWide 12 bs
  let (buffer, bs) ← getU8 bs
  let (bufferFull, bs) ← getFlag bs
  let (shift, bs) ← getU8 bs
  let (bitsRemaining, bs) ← getCount 1 8 bs
  let (silence, bs) ← getFlag bs
  let (irqFlag, bs) ← getFlag bs
  return ({
    irqEnabled := irqEnabled, loop := loop, rateIndex := rateIndex, timer := timer, level := level
    sampleAddr := sampleAddr, sampleLen := sampleLen, curAddr := curAddr, bytesRemaining := bytesRemaining
    buffer := buffer, bufferFull := bufferFull, shift := shift, bitsRemaining := bitsRemaining, silence := silence
    irqFlag := irqFlag }, bs)

/-- Section 4, the APU (49_machine_and_savestate.md R556), 95 bytes; `apu.samples` is not saved. -/
def putApu (a : Apu) : List Byte :=
  putPulse a.pulse0 ++ putPulse a.pulse1 ++ putTriangle a.triangle ++ putNoise a.noise ++ putDmc a.dmc ++
  putFlag a.frame.mode ++ putFlag a.frame.irqInhibit ++ putFlag a.frame.irqFlag ++ putU16 a.frame.counter ++
  putFlag a.odd ++ putU32 a.decimAcc

/-- Reads section 4 over the APU `a`, whose samples are kept (49_machine_and_savestate.md R556, R561). -/
def getApu (a : Apu) (bs : List Byte) : Option (Apu × List Byte) := do
  let (pulse0, bs) ← getPulse bs
  let (pulse1, bs) ← getPulse bs
  let (triangle, bs) ← getTriangle bs
  let (noise, bs) ← getNoise bs
  let (dmc, bs) ← getDmc bs
  let (mode, bs) ← getFlag bs
  let (irqInhibit, bs) ← getFlag bs
  let (irqFlag, bs) ← getFlag bs
  let (counter, bs) ← getPosition 37281 bs
  let (odd, bs) ← getFlag bs
  let (decimAcc, bs) ← getU32 bs
  if decimAcc.toNat < nominalCpuHz then
    return ({ a with
      pulse0 := pulse0, pulse1 := pulse1, triangle := triangle, noise := noise, dmc := dmc
      frame := { mode := mode, irqInhibit := irqInhibit, irqFlag := irqFlag, counter := BitVec.ofNat 16 counter }
      odd := odd, decimAcc := decimAcc }, bs)
  else none

/-- Section 5, the controllers (49_machine_and_savestate.md R557), 5 bytes. -/
def putPads (b : Bus) : List Byte :=
  [b.pad0.buttons, b.pad0.shift, b.pad1.buttons, b.pad1.shift] ++ putFlag b.strobe

/-- Reads section 5 over the bus `b` (49_machine_and_savestate.md R557). -/
def getPads (b : Bus) (bs : List Byte) : Option (Bus × List Byte) := do
  let (buttons0, bs) ← getU8 bs
  let (shift0, bs) ← getU8 bs
  let (buttons1, bs) ← getU8 bs
  let (shift1, bs) ← getU8 bs
  let (strobe, bs) ← getFlag bs
  return ({ b with
    strobe := strobe, pad0 := { buttons := buttons0, shift := shift0 }
    pad1 := { buttons := buttons1, shift := shift1 } }, bs)

/-- The mirroring code (49_machine_and_savestate.md R558). -/
def putMirroring : Mirroring → List Byte
  | .horizontal => [0x00#8]
  | .vertical => [0x01#8]
  | .fourScreen => [0x02#8]
  | .oneScreenLow => [0x03#8]
  | .oneScreenHigh => [0x04#8]

def getMirroring (bs : List Byte) : Option (Mirroring × List Byte) := do
  let (b, bs) ← getU8 bs
  match b.toNat with
  | 0 => return (.horizontal, bs)
  | 1 => return (.vertical, bs)
  | 2 => return (.fourScreen, bs)
  | 3 => return (.oneScreenLow, bs)
  | 4 => return (.oneScreenHigh, bs)
  | _ => none

/-- A variant's own registers (49_machine_and_savestate.md R558). -/
def putVariant : Variant → List Byte
  | .v0 => []
  | .v1 m =>
    putNarrow m.shift ++ [BitVec.ofNat 8 m.shiftCount] ++ putNarrow m.control ++ putNarrow m.chr0 ++ putNarrow m.chr1 ++
    putNarrow m.prg
  | .v4 m =>
    [m.bankSelect] ++ m.r.toList ++ [m.ramProtect, m.irqLatch, m.irqCounter] ++ putFlag m.irqReload ++
    putFlag m.irqEnabled ++ putFlag m.a12Prev

/-- The length a variant's register block has (49_machine_and_savestate.md R558). -/
def Variant.blockLength : Variant → Nat
  | .v0 => 2
  | .v1 _ => 8
  | .v4 _ => 17

def getVariant1 (bs : List Byte) : Option (Variant × List Byte) := do
  let (shift, bs) ← getNarrow 5 bs
  let (shiftCount, bs) ← getCount 0 4 bs
  let (control, bs) ← getNarrow 5 bs
  let (chr0, bs) ← getNarrow 5 bs
  let (chr1, bs) ← getNarrow 5 bs
  let (prg, bs) ← getNarrow 5 bs
  return (.v1 { shift := shift, shiftCount := shiftCount, control := control, chr0 := chr0, chr1 := chr1, prg := prg }, bs)

def getVariant4 (bs : List Byte) : Option (Variant × List Byte) := do
  let (bankSelect, bs) ← getU8 bs
  let (r, bs) ← getArray 8 bs
  let (ramProtect, bs) ← getU8 bs
  let (irqLatch, bs) ← getU8 bs
  let (irqCounter, bs) ← getU8 bs
  let (irqReload, bs) ← getFlag bs
  let (irqEnabled, bs) ← getFlag bs
  let (a12Prev, bs) ← getFlag bs
  return (.v4 {
    bankSelect := bankSelect, r := r, ramProtect := ramProtect, irqLatch := irqLatch, irqCounter := irqCounter
    irqReload := irqReload, irqEnabled := irqEnabled, a12Prev := a12Prev }, bs)

/-- Reads the registers of the variant the loaded cartridge has. -/
def getVariant (v : Variant) (bs : List Byte) : Option (Variant × List Byte) :=
  match v with
  | .v0 => some (.v0, bs)
  | .v1 _ => getVariant1 bs
  | .v4 _ => getVariant4 bs

/-- Can this variant raise an IRQ (10_state.md R39)? -/
def Variant.hasIrq : Variant → Bool
  | .v0 | .v1 _ => false
  | .v4 _ => true

/-- Section 6, the mapper's register block (49_machine_and_savestate.md R558). -/
def putMapper (g : Mapper) : List Byte :=
  putU16 (BitVec.ofNat 16 g.variant.blockLength) ++ putMirroring g.mirroring ++ putFlag g.irqFlag ++ putVariant g.variant

/-- Reads section 6 for the loaded cartridge's variant (49_machine_and_savestate.md R558, R561); an IRQ flag of a variant
without an IRQ is 0 (10_state.md R39, log entry 12). -/
def getMapper (g : Mapper) (bs : List Byte) : Option (Mapper × List Byte) := do
  let (length, bs) ← getU16 bs
  let (mirroring, bs) ← getMirroring bs
  let (irqFlag, bs) ← getFlag bs
  let (variant, bs) ← getVariant g.variant bs
  if length.toNat = g.variant.blockLength ∧ (irqFlag = true → g.variant.hasIrq = true) then
    return ({ mirroring := mirroring, irqFlag := irqFlag, variant := variant }, bs)
  else none

/-- The length of CHR RAM (49_machine_and_savestate.md R559). -/
def Cart.chrRamSize (c : Cart) : Nat := if c.chrBanks = 0x00#8 then 8192 else 0

/-- Section 7, cartridge RAM (49_machine_and_savestate.md R559). -/
def putCartRam (c : Cart) : List Byte :=
  putU32 8192#32 ++ c.prgRam.toBytes 8192 ++ putU32 (BitVec.ofNat 32 c.chrRamSize) ++ c.chrRam.toBytes c.chrRamSize

/-- Reads section 7 over the loaded cartridge (49_machine_and_savestate.md R559, R561). -/
def getCartRam (c : Cart) (bs : List Byte) : Option (Cart × List Byte) := do
  let (prgLength, bs) ← getU32 bs
  let (prgRam, bs) ← getMem 8192 bs
  let (chrLength, bs) ← getU32 bs
  let (chrRam, bs) ← getMem c.chrRamSize bs
  if prgLength = 8192#32 ∧ chrLength.toNat = c.chrRamSize then
    return ({ c with prgRam := prgRam, chrRam := chrRam }, bs)
  else none

/-- Sections 1 to 7 (49_machine_and_savestate.md R553 to R559). -/
def putSections (s : State) : List Byte :=
  putCpu s.cpu ++ s.bus.ram.toBytes 2048 ++ putPpuRegs s.ppu ++ putPpuMemories s.ppu ++ putApu s.apu ++ putPads s.bus ++
  putMapper s.mapper ++ putCartRam s.cart

/-- Reads sections 1 to 7 over the machine `s`, which keeps what the stream does not hold (49_machine_and_savestate.md R561
step 6); bytes after section 7 are refused. -/
def getSections (s : State) (bs : List Byte) : Option State := do
  let (cpu, bs) ← getCpu s.cpu bs
  let (ram, bs) ← getMem 2048 bs
  let (ppu, bs) ← getPpuRegs s.ppu bs
  let (ppu, bs) ← getPpuMemories ppu bs
  let (apu, bs) ← getApu s.apu bs
  let (bus, bs) ← getPads s.bus bs
  let (mapper, bs) ← getMapper s.mapper bs
  let (cart, bs) ← getCartRam s.cart bs
  if bs = [] then
    return { s with
      cpu := cpu, bus := { bus with ram := ram }, ppu := ppu, apu := apu, mapper := mapper, cart := cart }
  else none

/-- The stream of a machine (49_machine_and_savestate.md R550). -/
def saveStream (s : State) : List Byte := putTag s.cart ++ putSections s

/-- `save_state(sink)` (49_machine_and_savestate.md R560), with whether the sink takes the stream. -/
def saveState (s : State) (sinkOk : Bool) : State × Except HostError (List Byte) :=
  if !s.loaded then (s, .error .notLoaded)
  else if sinkOk then (s, .ok (saveStream s))
  else (s, .error .ioError)

/-- The machine `load_state` restores from a buffer, or its error (49_machine_and_savestate.md R561 steps 3 to 7). -/
def restore (s : State) (bs : List Byte) : Except HostError State :=
  if bs.length < 8 ∨ bs.take 4 ≠ saveMagic then .error .stateCorrupt
  else if (bs.drop 4).take 4 ≠ putU32 saveStateVersion then .error .stateVersionMismatch
  else if bs.length < 15 then .error .stateCorrupt
  else if (bs.drop 8).take 7 ≠ putIdentity s.cart then .error .stateCartridgeMismatch
  else
    match getSections s (bs.drop 15) with
    | none => .error .stateCorrupt
    | some t => .ok t

/-- `load_state(source)` (49_machine_and_savestate.md R561); the source gives its bytes, or fails (`none`). -/
def loadState (s : State) (source : Option (List Byte)) : State × Except HostError Unit :=
  if !s.loaded then (s, .error .notLoaded)
  else
    match source with
    | none => (s, .error .ioError)
    | some bs =>
      match restore s bs with
      | .error e => (s, .error e)
      | .ok t => (t, .ok ())

end Sys2Proof.Machine
end

