-- ==== Sys2Proof/Safety.lean ====
section
/-! DEFINITION. The terms of the claims: one byte of storage, what a bus read may change and what a bus write may store to;
the invariant of the machine (every state element stays in the range 10_state.md declares for it and every storage array
keeps its canonical form); what counts as a run inside the specified envelope. -/

namespace Sys2Proof.Machine

/-- One byte of storage of the machine (20_memory.md R60; 10_state.md R31, R34, R38). -/
inductive Loc
  | ram (i : Nat)
  | prgRam (i : Nat)
  | prgRom (i : Nat)
  | chrRam (i : Nat)
  | chrRom (i : Nat)
  | vram (i : Nat)
  | oam (i : Nat)
  | palette (i : Nat)
  deriving DecidableEq, Repr

/-- The byte a location holds. -/
def State.byte (s : State) : Loc → Byte
  | .ram i => s.bus.ram.read i
  | .prgRam i => s.cart.prgRam.read i
  | .prgRom i => s.cart.prgRom.read i
  | .chrRam i => s.cart.chrRam.read i
  | .chrRom i => s.cart.chrRom.read i
  | .vram i => s.ppu.vram.read i
  | .oam i => s.ppu.oam.read i
  | .palette i => s.ppu.palette.read i

/-- Addresses whose read has a side effect (20_memory.md R68). -/
def readHasEffect (addr : Word) : Bool :=
  (route addr = .ppuReg && (addr.toNat % 8 = 2 || addr.toNat % 8 = 7)) ||
  addr = 0x4015#16 || addr = 0x4016#16 || addr = 0x4017#16

/-- `t` is `s` but for what reads of the addresses of 20_memory.md R68 change: the PPU's flags, toggle, buffer and address,
the mapper's observation, the frame IRQ flag, the controllers' shift registers. -/
def State.readEffect (s t : State) : Prop :=
  t = { s with
    ppu := { s.ppu with status := t.ppu.status, w := t.ppu.w, buffer := t.ppu.buffer, v := t.ppu.v }
    mapper := { s.mapper with irqFlag := t.mapper.irqFlag, variant := t.mapper.variant }
    apu := { s.apu with frame := { s.apu.frame with irqFlag := t.apu.frame.irqFlag } }
    bus := { s.bus with
      pad0 := { s.bus.pad0 with shift := t.bus.pad0.shift }
      pad1 := { s.bus.pad1 with shift := t.bus.pad1.shift } } }

/-- The location a PPU-space write at `a` stores to (20_memory.md R80 to R83). -/
def State.ppuLoc (s : State) (a : Nat) : Option Loc :=
  let a := a % 0x4000
  if a < 0x2000 then
    match mapRead s.mapper s.cart a .ppu with
    | (.chrRam, off) => some (.chrRam off)
    | _ => none
  else if a < 0x3F00 then some (.vram (vramIndex s.mapper.mirroring a))
  else some (.palette (paletteIndex a))

/-- The locations a CPU write at `addr` stores to (20_memory.md R61 to R66, R69, R73; 47_ppu.md R384, R388). -/
def State.storesTo (s : State) (addr : Word) (l : Loc) : Prop :=
  match route addr with
  | .workRam => l = .ram (ramIndex addr)
  | .ppuReg =>
    (addr.toNat % 8 = 4 ∧ l = .oam s.ppu.oamAddr.toNat) ∨ (addr.toNat % 8 = 7 ∧ some l = s.ppuLoc s.ppu.v.toNat)
  | .oamDma => ∃ i, l = .oam i
  | .cartridge => 0x6000 ≤ addr.toNat ∧ addr.toNat < 0x8000 ∧ l = .prgRam (addr.toNat - 0x6000)
  | .apuReg | .port0 | .port1 | .unmapped => False

/-- The state after an instruction that reads its operand and leaves the CPU registers `p`: what its reads changed, `p`, and
its cycles counted (30_encoding.md R121, R138). -/
def State.afterRead (s : State) (o : ReadOp) (p : Cpu) : State :=
  { (readOperand s o).2.2 with cpu := { p with cycles := p.cycles + BitVec.ofNat 64 (readOperand s o).2.1 } }

/-- Reading an operand changes no byte of storage, and nothing else but what 20_memory.md R68 lists. -/
def State.readFrame (s : State) (o : ReadOp) : Prop :=
  s.readEffect (readOperand s o).2.2 ∧ ∀ l, (readOperand s o).2.2.byte l = s.byte l

/-- The state after an instruction of `n` cycles wrote the byte `v` at `ea`: what the write changed, the CPU registers as
they were (but for an NMI the write raised, 47_ppu.md R380) and the cycles, those of an OAM DMA included (20_memory.md R73). -/
def State.afterWrite (s : State) (ea : Word) (v : Byte) (n : Nat) : State :=
  { memWrite s ea v with
    cpu := { s.cpu with
      nmiPending := (memWrite s ea v).cpu.nmiPending
      cycles := s.cpu.cycles + BitVec.ofNat 64 (n + dmaCycles ea s.cpu.cycles n) } }

/-- A write at `ea` changes no byte of storage but those it stores to. -/
def State.writeFrame (s : State) (ea : Word) (v : Byte) : Prop :=
  ∀ l, ¬ s.storesTo ea l → (memWrite s ea v).byte l = s.byte l

/-- Each listed instruction has the listed opcode byte and number of bytes (the forms of its rule; 30_encoding.md R138). -/
def formsOf (l : List (Byte × Nat × Instr)) : Prop := ∀ f ∈ l, (encode f.2.2).head? = some f.1 ∧ (encode f.2.2).length = f.2.1

/-- The CPU registers with `Z` and `N` as `SetZN(v)` leaves them (00_scope.md R12). -/
def Cpu.zn (p : Cpu) (v : Byte) : Cpu := { p with z := decide (v = 0x00#8), n := decide (0x80 ≤ v.toNat) }

/-- The CPU after `n` more cycles. -/
def Cpu.later (p : Cpu) (n : Nat) : Cpu := { p with cycles := p.cycles + BitVec.ofNat 64 n }

/-- The index in work RAM of the stack cell `$0100 + sp` (00_scope.md R11). -/
def stackCell (sp : Byte) : Nat := 256 + sp.toNat

/-- The position of the PPU as a dot number of its frame (47_ppu.md R361). -/
def Ppu.position (p : Ppu) : Nat := 341 * p.scanline + p.dot

/-- The ranges of the PPU (10_state.md R33 to R35). -/
structure Ppu.Inv (p : Ppu) : Prop where
  vram : Memory.wf 4096 p.vram
  oam : Memory.wf 256 p.oam
  palette : Memory.wf 32 p.palette
  colours : ∀ c ∈ p.palette, c.2.toNat < 64
  framebuffer : p.framebuffer.wf
  status : p.status &&& 0x1F#8 = 0x00#8
  scanline : p.scanline < 262
  dot : p.dot < 341
  spriteCount : p.spriteCount ≤ 8

/-- The frame counter's range in each mode (10_state.md R37, 48_apu.md R481). -/
def FrameSeq.Inv (f : FrameSeq) : Prop := f.counter.toNat < if f.mode then 37282 else 29830

/-- The ranges of the APU (10_state.md R36, R37; 48_apu.md R471, R492). -/
structure Apu.Inv (a : Apu) : Prop where
  lfsr : a.noise.lfsr ≠ 0#15
  bitsRemaining : 1 ≤ a.dmc.bitsRemaining ∧ a.dmc.bitsRemaining ≤ 8
  frame : a.frame.Inv
  decimAcc : a.decimAcc.toNat < nominalCpuHz

/-- The sizes of the cartridge's arrays (10_state.md R38). -/
structure Cart.Inv (c : Cart) : Prop where
  prgRom : Memory.wf c.prgSize c.prgRom
  chrRom : Memory.wf c.chrSize c.chrRom
  prgRam : Memory.wf 8192 c.prgRam
  chrRam : Memory.wf c.chrRamSize c.chrRam

/-- Does a cartridge of this mapper id have this variant (46_mapper.md R304)? -/
def Variant.fits (v : Variant) (id : Byte) : Prop :=
  match v with
  | .v0 => id.toNat ≠ 1 ∧ id.toNat ≠ 4
  | .v1 _ => id.toNat = 1
  | .v4 _ => id.toNat = 4

/-- The range of a variant's own registers (10_state.md R39). -/
def Variant.Inv : Variant → Prop
  | .v0 => True
  | .v1 m => m.shiftCount ≤ 4
  | .v4 _ => True

/-- The mapper of a cartridge (10_state.md R39, 46_mapper.md R304). -/
structure Mapper.Inv (g : Mapper) (c : Cart) : Prop where
  fits : g.variant.fits c.mapperId
  registers : g.variant.Inv
  irqFlag : g.irqFlag = true → g.variant.hasIrq = true

/-- The invariant of the machine. A loaded machine's cartridge passed the checks of `load` (46_mapper.md R304, R305). -/
structure State.Inv (s : State) : Prop where
  ram : Memory.wf 2048 s.bus.ram
  ppu : s.ppu.Inv
  apu : s.apu.Inv
  cart : s.cart.Inv
  mapper : s.mapper.Inv s.cart
  params : legalConfig s.params
  published : s.publishedFrame.wf
  checked : s.loaded = true → mapperChecks s.cart.mapperId s.cart.prgBanks s.cart.chrBanks = some true

/-- Inside the specified envelope: no undefined opcode was executed since `load` or `reset()` (45_undefined_opcodes.md R291,
93 U1). What the model says of a state outside it need not hold of the hardware (log entry 9). -/
def State.withinSpec (s : State) : Prop := s.cpu.unsupportedSeen = false

end Sys2Proof.Machine
end

