-- ==== Sys2Proof/Certificates/Slice0/Obligations.lean ====
section
/-! DEFINITION. The statements for the provers. Each docstring names the rules of spec/ it formalises; where a clause rests on a
choice of the model, the docstring names the log entry. -/

open Sys2Proof Sys2Proof.Machine

/-! ## Encoding -/

/-- 30_encoding.md R120, R138, R140: words written out from the table decode to their instructions, one or more of each family. -/
def Obligations.SpecWordsDecodeToTheirInstructions : Prop :=
  decode [0xA9#8, 0x80#8] = .ok (.lda (.imm 0x80#8), []) ∧
  decode [0xB1#8, 0x10#8] = .ok (.lda (.mem (.izy 0x10#8)), []) ∧
  decode [0xBE#8, 0xFF#8, 0x02#8] = .ok (.ldx (.mem (.aby 0x02FF#16)), []) ∧
  decode [0x8D#8, 0x14#8, 0x40#8] = .ok (.sta (.abs 0x4014#16), []) ∧
  decode [0x9A#8] = .ok (.txs, []) ∧
  decode [0x7D#8, 0x00#8, 0x03#8] = .ok (.adc (.mem (.abx 0x0300#16)), []) ∧
  decode [0xE1#8, 0x20#8] = .ok (.sbc (.mem (.izx 0x20#8)), []) ∧
  decode [0x2C#8, 0x02#8, 0x20#8] = .ok (.bit (.abs 0x2002#16), []) ∧
  decode [0xD6#8, 0x44#8] = .ok (.dec (.zpx 0x44#8), []) ∧
  decode [0x6A#8] = .ok (.ror .acc, []) ∧
  decode [0x1E#8, 0x34#8, 0x12#8] = .ok (.asl (.mem (.abx 0x1234#16)), []) ∧
  decode [0x6C#8, 0xFF#8, 0x02#8] = .ok (.jmp (.ind 0x02FF#16), []) ∧
  decode [0x20#8, 0x00#8, 0x90#8] = .ok (.jsr 0x9000#16, []) ∧
  decode [0xD0#8, 0xFD#8] = .ok (.bne 0xFD#8, []) ∧
  decode [0x00#8, 0xEA#8] = .ok (.brk, [0xEA#8]) ∧
  decode [0x40#8] = .ok (.rti, []) ∧
  decode [0x08#8] = .ok (.php, []) ∧
  decode [0x89#8, 0x01#8] = .ok (.undefined 0x89#8, [0x01#8])

/-- 30_encoding.md R120, R123, R138, R140: no bit of an encoding is dropped. -/
def Obligations.DecodingAnEncodedInstructionGivesItBack : Prop :=
  ∀ (i : Instr) (rest : List Byte), WellFormed i → decode (encode i ++ rest) = .ok (i, rest)

/-- 30_encoding.md R120, R140, R141: every opcode byte with two bytes after it decodes; what is decoded is well-formed, encodes
back to the bytes read, and has the length of its mode; and the undefined opcodes are exactly the 105 listed values. -/
def Obligations.EveryOpcodeDecodesAndEncodesBack : Prop :=
  (∀ op b1 b2 : Byte, ∃ i rest, decode [op, b1, b2] = .ok (i, rest)) ∧
  (∀ (bytes : List Byte) (i : Instr) (rest : List Byte), decode bytes = .ok (i, rest) →
    WellFormed i ∧ encode i ++ rest = bytes ∧ (encode i).length = i.size) ∧
  (∀ op b1 b2 : Byte, decodeOp op b1 b2 = .undefined op ↔ op.toNat ∈ undefinedOpcodes) ∧
  undefinedOpcodes.length = 105 ∧ undefinedOpcodes.Nodup

/-- 30_encoding.md R121, 60_exceptions.md R585, 49_machine_and_savestate.md R541 to R543: when no interrupt is taken and the
bytes at `PC` are read without side effects and decode to an instruction, a step of a loaded machine runs that instruction
with `PC` moved past it, then fans out the cycles it took, then ends the frame if it is complete. From any bytes at all the
fetch reads at `PC` and on, one byte after the other, as many as the opcode's format has. The grouping of a turn with the end
of its frame into one step is the model's own (log entry 3). -/
def Obligations.StepRunsTheDecodedInstruction : Prop :=
  (∀ (s : State) (i : Instr) (rest : List Byte),
    s.loaded = true → s.cpu.nmiPending = false → (s.cpu.irqPending = true → s.cpu.i = true) →
    (∀ k < i.size, readHasEffect (s.cpu.pc + BitVec.ofNat 16 k) = false) →
    decode [(memRead s s.cpu.pc).1, (memRead s (s.cpu.pc + 1#16)).1, (memRead s (s.cpu.pc + 2#16)).1] = .ok (i, rest) →
    WellFormed i ∧
    step s =
      match exec i (s.jump (s.cpu.pc + BitVec.ofNat 16 i.size)) with
      | .next t =>
        let u := fanOut (t.cpu.cycles - s.cpu.cycles).toNat t
        .next (if u.ppu.frameComplete then endOfFrame u else u)
      | .fault f => .fault f
      | .refused r => .refused r) ∧
  (∀ s : State,
    let op := memRead s s.cpu.pc
    let s1 := op.2.jump (s.cpu.pc + 1#16)
    let b1 := memRead s1 (s.cpu.pc + 1#16)
    let s2 := b1.2.jump (s.cpu.pc + 2#16)
    let b2 := memRead s2 (s.cpu.pc + 2#16)
    let s3 := b2.2.jump (s.cpu.pc + 3#16)
    fetchInstr s =
      (if (decodeOp op.1 0#8 0#8).size = 1 then (decodeOp op.1 0#8 0#8, s1)
       else if (decodeOp op.1 0#8 0#8).size = 2 then (decodeOp op.1 b1.1 0#8, s2)
       else (decodeOp op.1 b1.1 b2.1, s3)))

/-! ## Operands -/

/-- 30_encoding.md R127, R128, R130, R131, R132, R134, R135 (and R129): the effective address of every mode, whether it crossed a
page, the mode's length, and that computing it changes nothing. -/
def Obligations.EffectiveAddressesFollowTheModes : Prop :=
  ∀ (s : State) (a : Byte) (w : Word),
    (let e := (effAddr s (.zp a)).1;
      e.addr.toNat = a.toNat ∧ e.crossed = false ∧ (MemMode.zp a).mode.length = 2) ∧
    (let e := (effAddr s (.zpx a)).1;
      e.addr.toNat = (a.toNat + s.cpu.x.toNat) % 256 ∧ e.crossed = false ∧ (MemMode.zpx a).mode.length = 2) ∧
    (let e := (effAddr s (.zpy a)).1;
      e.addr.toNat = (a.toNat + s.cpu.y.toNat) % 256 ∧ e.crossed = false ∧ (MemMode.zpy a).mode.length = 2) ∧
    (let e := (effAddr s (.abs w)).1;
      e.addr = w ∧ e.crossed = false ∧ (MemMode.abs w).mode.length = 3) ∧
    (let e := (effAddr s (.abx w)).1;
      e.addr.toNat = (w.toNat + s.cpu.x.toNat) % 65536 ∧ (e.crossed = true ↔ e.addr.toNat / 256 ≠ w.toNat / 256) ∧
      (MemMode.abx w).mode.length = 3) ∧
    (let e := (effAddr s (.aby w)).1;
      e.addr.toNat = (w.toNat + s.cpu.y.toNat) % 65536 ∧ (e.crossed = true ↔ e.addr.toNat / 256 ≠ w.toNat / 256) ∧
      (MemMode.aby w).mode.length = 3) ∧
    (let z := (a.toNat + s.cpu.x.toNat) % 256;
      let e := (effAddr s (.izx a)).1;
      e.addr.toNat = (s.byte (.ram z)).toNat + 256 * (s.byte (.ram ((z + 1) % 256))).toNat ∧ e.crossed = false ∧
      (MemMode.izx a).mode.length = 2) ∧
    (let base := (s.byte (.ram a.toNat)).toNat + 256 * (s.byte (.ram ((a.toNat + 1) % 256))).toNat;
      let e := (effAddr s (.izy a)).1;
      e.addr.toNat = (base + s.cpu.y.toNat) % 65536 ∧ (e.crossed = true ↔ e.addr.toNat / 256 ≠ base / 256) ∧
      (MemMode.izy a).mode.length = 2) ∧
    ∀ m : MemMode, (effAddr s m).2 = s

/-- 30_encoding.md R126, R137, R138, 20_memory.md R70: the operand value of a reading instruction is the immediate, or the one
byte read at the effective address; its cycle count is the table's, one more in the indexed modes when a page is crossed; the
counts of the storing and the modifying instructions do not depend on a crossing. -/
def Obligations.OperandValuesAndCycleCounts : Prop :=
  (∀ (s : State) (v : Byte), readOperand s (.imm v) = (v, 2, s)) ∧
  (∀ (s : State) (m : MemMode),
    let ea := (effAddr s m).1
    readOperand s (.mem m) =
      ((memRead s ea.addr).1,
        (match m with
          | .zp _ => 3
          | .zpx _ | .zpy _ | .abs _ => 4
          | .abx _ | .aby _ => if ea.crossed then 5 else 4
          | .izx _ => 6
          | .izy _ => if ea.crossed then 6 else 5),
        (memRead s ea.addr).2)) ∧
  (∀ m : MemMode,
    storeCycles m =
      (match m with
        | .zp _ => 3
        | .zpx _ | .zpy _ | .abs _ => 4
        | .abx _ | .aby _ => 5
        | .izx _ | .izy _ => 6)) ∧
  (∀ (a : Byte) (w : Word),
    rmwCycles (.zp a) = 5 ∧ rmwCycles (.zpx a) = 6 ∧ rmwCycles (.abs w) = 6 ∧ rmwCycles (.abx w) = 7)

/-! ## Loads, stores, transfers -/

/-- 40_load_store_transfer.md R160, R161, R162: LDA, LDX and LDY complete, set their register to the operand value and `Z` and `N`
by it, and change nothing else but what the operand read changes. -/
def Obligations.LoadsSetTheirRegisterAndZN : Prop :=
  (∀ (b : Byte) (w : Word),
    formsOf [(0xA1#8, 2, .lda (.mem (.izx b))), (0xA5#8, 2, .lda (.mem (.zp b))), (0xA9#8, 2, .lda (.imm b)),
      (0xAD#8, 3, .lda (.mem (.abs w))), (0xB1#8, 2, .lda (.mem (.izy b))), (0xB5#8, 2, .lda (.mem (.zpx b))),
      (0xB9#8, 3, .lda (.mem (.aby w))), (0xBD#8, 3, .lda (.mem (.abx w))), (0xA2#8, 2, .ldx (.imm b)),
      (0xA6#8, 2, .ldx (.mem (.zp b))), (0xAE#8, 3, .ldx (.mem (.abs w))), (0xB6#8, 2, .ldx (.mem (.zpy b))),
      (0xBE#8, 3, .ldx (.mem (.aby w))), (0xA0#8, 2, .ldy (.imm b)), (0xA4#8, 2, .ldy (.mem (.zp b))),
      (0xAC#8, 3, .ldy (.mem (.abs w))), (0xB4#8, 2, .ldy (.mem (.zpx b))), (0xBC#8, 3, .ldy (.mem (.abx w)))]) ∧
  ∀ (s : State) (o : ReadOp),
    let m := (readOperand s o).1
    exec (.lda o) s = .next (s.afterRead o (Cpu.zn { s.cpu with a := m } m)) ∧
    exec (.ldx o) s = .next (s.afterRead o (Cpu.zn { s.cpu with x := m } m)) ∧
    exec (.ldy o) s = .next (s.afterRead o (Cpu.zn { s.cpu with y := m } m)) ∧
    s.readFrame o

/-- 40_load_store_transfer.md R163, R164, R165, 30_encoding.md R137: STA, STX and STY complete: one write of the register at the
effective address and no read before it, no CPU register or flag changed. A write to work RAM or PRG RAM changes that byte and
nothing else of the machine; at every address no byte of storage changes but those the address stores to. -/
def Obligations.StoresWriteTheirRegisterAtTheAddress : Prop :=
  (∀ (b : Byte) (w : Word),
    formsOf [(0x81#8, 2, .sta (.izx b)), (0x85#8, 2, .sta (.zp b)), (0x8D#8, 3, .sta (.abs w)),
      (0x91#8, 2, .sta (.izy b)), (0x95#8, 2, .sta (.zpx b)), (0x99#8, 3, .sta (.aby w)), (0x9D#8, 3, .sta (.abx w)),
      (0x86#8, 2, .stx (.zp b)), (0x8E#8, 3, .stx (.abs w)), (0x96#8, 2, .stx (.zpy b)), (0x84#8, 2, .sty (.zp b)),
      (0x8C#8, 3, .sty (.abs w)), (0x94#8, 2, .sty (.zpx b))]) ∧
  ∀ (s : State) (m : MemMode),
    let ea := (effAddr s m).1.addr
    let n := storeCycles m
    exec (.sta m) s = .next (s.afterWrite ea s.cpu.a n) ∧
    exec (.stx m) s = .next (s.afterWrite ea s.cpu.x n) ∧
    exec (.sty m) s = .next (s.afterWrite ea s.cpu.y n) ∧
    ∀ v : Byte,
      s.writeFrame ea v ∧
      (ea.toNat < 0x2000 → s.afterWrite ea v n =
        { s with
          bus := { s.bus with ram := s.bus.ram.write (ea.toNat % 2048) v }
          cpu := s.cpu.later n }) ∧
      (0x6000 ≤ ea.toNat → ea.toNat < 0x8000 → s.afterWrite ea v n =
        { s with
          cart := { s.cart with prgRam := s.cart.prgRam.write (ea.toNat - 0x6000) v }
          cpu := s.cpu.later n }) ∧
      (∀ l, s.storesTo ea l → ea.toNat < 0x2000 ∨ 0x6000 ≤ ea.toNat → (s.afterWrite ea v n).byte l = v)

/-- 40_load_store_transfer.md R166 to R171: the six transfers complete in 2 cycles and change the named register, `Z` and `N`
(TXS: neither), and nothing else. -/
def Obligations.TransfersCopyOneRegister : Prop :=
  formsOf [(0xAA#8, 1, .tax), (0xA8#8, 1, .tay), (0x8A#8, 1, .txa), (0x98#8, 1, .tya), (0xBA#8, 1, .tsx),
    (0x9A#8, 1, .txs)] ∧
  ∀ s : State,
    exec .tax s = .next { s with cpu := (Cpu.zn { s.cpu with x := s.cpu.a } s.cpu.a).later 2 } ∧
    exec .tay s = .next { s with cpu := (Cpu.zn { s.cpu with y := s.cpu.a } s.cpu.a).later 2 } ∧
    exec .txa s = .next { s with cpu := (Cpu.zn { s.cpu with a := s.cpu.x } s.cpu.x).later 2 } ∧
    exec .tya s = .next { s with cpu := (Cpu.zn { s.cpu with a := s.cpu.y } s.cpu.y).later 2 } ∧
    exec .tsx s = .next { s with cpu := (Cpu.zn { s.cpu with x := s.cpu.s } s.cpu.s).later 2 } ∧
    exec .txs s = .next { s with cpu := Cpu.later { s.cpu with s := s.cpu.x } 2 }

/-! ## Arithmetic and logic -/

/-- 41_arithmetic_logic.md R190, R191: ADC and SBC complete with the sum, carry, overflow, `Z` and `N` of the rule, computed from the
old `A`, and change nothing else but what the operand read changes. -/
def Obligations.AddAndSubtractSetAccumulatorAndFlags : Prop :=
  (∀ (b : Byte) (w : Word),
    formsOf [(0x61#8, 2, .adc (.mem (.izx b))), (0x65#8, 2, .adc (.mem (.zp b))), (0x69#8, 2, .adc (.imm b)),
      (0x6D#8, 3, .adc (.mem (.abs w))), (0x71#8, 2, .adc (.mem (.izy b))), (0x75#8, 2, .adc (.mem (.zpx b))),
      (0x79#8, 3, .adc (.mem (.aby w))), (0x7D#8, 3, .adc (.mem (.abx w))), (0xE1#8, 2, .sbc (.mem (.izx b))),
      (0xE5#8, 2, .sbc (.mem (.zp b))), (0xE9#8, 2, .sbc (.imm b)), (0xED#8, 3, .sbc (.mem (.abs w))),
      (0xF1#8, 2, .sbc (.mem (.izy b))), (0xF5#8, 2, .sbc (.mem (.zpx b))), (0xF9#8, 3, .sbc (.mem (.aby w))),
      (0xFD#8, 3, .sbc (.mem (.abx w)))]) ∧
  ∀ (s : State) (o : ReadOp),
    let a := s.cpu.a
    let m := (readOperand s o).1
    let mn := m ^^^ 0xFF#8
    let sum := a.toNat + m.toNat + (if s.cpu.c then 1 else 0)
    let diff := a.toNat + mn.toNat + (if s.cpu.c then 1 else 0)
    let r := BitVec.ofNat 8 sum
    let d := BitVec.ofNat 8 diff
    exec (.adc o) s = .next (s.afterRead o (Cpu.zn
      { s.cpu with a := r, c := decide (255 < sum), v := (~~~(a ^^^ m) &&& (a ^^^ r)).getLsbD 7 } r)) ∧
    exec (.sbc o) s = .next (s.afterRead o (Cpu.zn
      { s.cpu with a := d, c := decide (255 < diff), v := ((a ^^^ m) &&& (a ^^^ d)).getLsbD 7 } d)) ∧
    s.readFrame o

/-- 41_arithmetic_logic.md R210, R211: the integers behind ADC and SBC: the result is the exact sum or difference reduced modulo
256, `C` is the ninth bit (no borrow), `V` is set exactly when the exact signed result does not fit; and the decimal flag
changes nothing but itself. -/
def Obligations.CarryAndOverflowAreTheExactResults : Prop :=
  (∀ (p : Cpu) (m : Byte),
    let c : Nat := if p.c then 1 else 0
    let q := p.addWithCarry m
    q.a.toNat + (if q.c then 256 else 0) = p.a.toNat + m.toNat + c ∧
    (q.v = true ↔ p.a.toInt + m.toInt + c < -128 ∨ 127 < p.a.toInt + m.toInt + c)) ∧
  (∀ (p : Cpu) (m : Byte),
    let b : Nat := if p.c then 0 else 1
    let q := p.subWithBorrow m
    (q.a.toNat : Int) = p.a.toNat - m.toNat - b + (if q.c then 0 else 256) ∧
    (q.v = true ↔ p.a.toInt - m.toInt - b < -128 ∨ 127 < p.a.toInt - m.toInt - b)) ∧
  (∀ (s : State) (o : ReadOp) (d : Bool),
    (∃ t, exec (.adc o) s = .next t ∧
      exec (.adc o) (s.withCpu fun p => { p with d := d }) = .next (t.withCpu fun p => { p with d := d })) ∧
    (∃ t, exec (.sbc o) s = .next t ∧
      exec (.sbc o) (s.withCpu fun p => { p with d := d }) = .next (t.withCpu fun p => { p with d := d })))

/-- 41_arithmetic_logic.md R192, R193, R194: AND, ORA and EOR complete, set `A`, `Z` and `N`, and change nothing else but what the
operand read changes. -/
def Obligations.LogicSetsAccumulatorAndZN : Prop :=
  (∀ (b : Byte) (w : Word),
    formsOf [(0x21#8, 2, .and (.mem (.izx b))), (0x25#8, 2, .and (.mem (.zp b))), (0x29#8, 2, .and (.imm b)),
      (0x2D#8, 3, .and (.mem (.abs w))), (0x31#8, 2, .and (.mem (.izy b))), (0x35#8, 2, .and (.mem (.zpx b))),
      (0x39#8, 3, .and (.mem (.aby w))), (0x3D#8, 3, .and (.mem (.abx w))), (0x01#8, 2, .ora (.mem (.izx b))),
      (0x05#8, 2, .ora (.mem (.zp b))), (0x09#8, 2, .ora (.imm b)), (0x0D#8, 3, .ora (.mem (.abs w))),
      (0x11#8, 2, .ora (.mem (.izy b))), (0x15#8, 2, .ora (.mem (.zpx b))), (0x19#8, 3, .ora (.mem (.aby w))),
      (0x1D#8, 3, .ora (.mem (.abx w))), (0x41#8, 2, .eor (.mem (.izx b))), (0x45#8, 2, .eor (.mem (.zp b))),
      (0x49#8, 2, .eor (.imm b)), (0x4D#8, 3, .eor (.mem (.abs w))), (0x51#8, 2, .eor (.mem (.izy b))),
      (0x55#8, 2, .eor (.mem (.zpx b))), (0x59#8, 3, .eor (.mem (.aby w))), (0x5D#8, 3, .eor (.mem (.abx w)))]) ∧
  ∀ (s : State) (o : ReadOp),
    let m := (readOperand s o).1
    exec (.and o) s = .next (s.afterRead o (Cpu.zn { s.cpu with a := s.cpu.a &&& m } (s.cpu.a &&& m))) ∧
    exec (.ora o) s = .next (s.afterRead o (Cpu.zn { s.cpu with a := s.cpu.a ||| m } (s.cpu.a ||| m))) ∧
    exec (.eor o) s = .next (s.afterRead o (Cpu.zn { s.cpu with a := s.cpu.a ^^^ m } (s.cpu.a ^^^ m))) ∧
    s.readFrame o

/-- 41_arithmetic_logic.md R195, R196, R197, R198: CMP, CPX, CPY and BIT complete, write the flags of their rules and no register, and
change nothing else but what the operand read changes. -/
def Obligations.ComparesAndBitSetFlagsOnly : Prop :=
  (∀ (b : Byte) (w : Word),
    formsOf [(0xC1#8, 2, .cmp (.mem (.izx b))), (0xC5#8, 2, .cmp (.mem (.zp b))), (0xC9#8, 2, .cmp (.imm b)),
      (0xCD#8, 3, .cmp (.mem (.abs w))), (0xD1#8, 2, .cmp (.mem (.izy b))), (0xD5#8, 2, .cmp (.mem (.zpx b))),
      (0xD9#8, 3, .cmp (.mem (.aby w))), (0xDD#8, 3, .cmp (.mem (.abx w))), (0xE0#8, 2, .cpx (.imm b)),
      (0xE4#8, 2, .cpx (.mem (.zp b))), (0xEC#8, 3, .cpx (.mem (.abs w))), (0xC0#8, 2, .cpy (.imm b)),
      (0xC4#8, 2, .cpy (.mem (.zp b))), (0xCC#8, 3, .cpy (.mem (.abs w))), (0x24#8, 2, .bit (.zp b)),
      (0x2C#8, 3, .bit (.abs w))]) ∧
  ∀ (s : State),
    (∀ (o : ReadOp) (i : Instr) (r : Byte),
      (i = .cmp o ∧ r = s.cpu.a ∨ i = .cpx o ∧ r = s.cpu.x ∨ i = .cpy o ∧ r = s.cpu.y) →
      let m := (readOperand s o).1
      exec i s = .next (s.afterRead o { s.cpu with
        c := decide (m.toNat ≤ r.toNat)
        z := decide (r.toNat = m.toNat)
        n := decide (128 ≤ (r.toNat + 256 - m.toNat) % 256) }) ∧
      s.readFrame o) ∧
    (∀ m : MemMode,
      let b := (readOperand s (.mem m)).1
      exec (.bit m) s = .next (s.afterRead (.mem m) { s.cpu with
        z := decide (s.cpu.a &&& b = 0x00#8), n := decide (128 ≤ b.toNat), v := decide (64 ≤ b.toNat % 128) }) ∧
      s.readFrame (.mem m))

/-- 41_arithmetic_logic.md R199, R200: INC and DEC complete: one read and one write at the effective address, `Z` and `N` of the
byte written, no other register or flag. No byte of storage changes but those the address stores to. -/
def Obligations.IncrementAndDecrementMemory : Prop :=
  (∀ (b : Byte) (w : Word),
    formsOf [(0xE6#8, 2, .inc (.zp b)), (0xEE#8, 3, .inc (.abs w)), (0xF6#8, 2, .inc (.zpx b)),
      (0xFE#8, 3, .inc (.abx w)), (0xC6#8, 2, .dec (.zp b)), (0xCE#8, 3, .dec (.abs w)), (0xD6#8, 2, .dec (.zpx b)),
      (0xDE#8, 3, .dec (.abx w))]) ∧
  ∀ (s : State) (m : MemMode),
    let ea := (effAddr s m).1.addr
    let b := memRead s ea
    let n := rmwCycles m
    let up := BitVec.ofNat 8 ((b.1.toNat + 1) % 256)
    let down := BitVec.ofNat 8 ((b.1.toNat + 255) % 256)
    exec (.inc m) s = .next (State.afterWrite { b.2 with cpu := Cpu.zn s.cpu up } ea up n) ∧
    exec (.dec m) s = .next (State.afterWrite { b.2 with cpu := Cpu.zn s.cpu down } ea down n) ∧
    s.readEffect b.2 ∧ (∀ l, b.2.byte l = s.byte l) ∧ ∀ v, b.2.writeFrame ea v

/-- 41_arithmetic_logic.md R201 to R204: INX, INY, DEX and DEY complete in 2 cycles, wrap modulo 256, set `Z` and `N`, and change
nothing else. -/
def Obligations.IndexIncrementsAndDecrementsWrap : Prop :=
  formsOf [(0xE8#8, 1, .inx), (0xC8#8, 1, .iny), (0xCA#8, 1, .dex), (0x88#8, 1, .dey)] ∧
  ∀ s : State,
    let up (v : Byte) := BitVec.ofNat 8 ((v.toNat + 1) % 256)
    let down (v : Byte) := BitVec.ofNat 8 ((v.toNat + 255) % 256)
    exec .inx s = .next { s with cpu := (Cpu.zn { s.cpu with x := up s.cpu.x } (up s.cpu.x)).later 2 } ∧
    exec .iny s = .next { s with cpu := (Cpu.zn { s.cpu with y := up s.cpu.y } (up s.cpu.y)).later 2 } ∧
    exec .dex s = .next { s with cpu := (Cpu.zn { s.cpu with x := down s.cpu.x } (down s.cpu.x)).later 2 } ∧
    exec .dey s = .next { s with cpu := (Cpu.zn { s.cpu with y := down s.cpu.y } (down s.cpu.y)).later 2 }

/-! ## Shifts -/

/-- 42_shift_rotate.md R220 to R223: ASL, LSR, ROL and ROR complete. The accumulator form changes `A`, `C`, `Z` and `N` in 2 cycles;
the memory form reads and writes the byte at the effective address once each and changes `C`, `Z` and `N`. No byte of storage
changes but those the address stores to. -/
def Obligations.ShiftsAndRotatesMoveOneBit : Prop :=
  (∀ (b : Byte) (w : Word),
    formsOf [(0x06#8, 2, .asl (.mem (.zp b))), (0x0A#8, 1, .asl .acc), (0x0E#8, 3, .asl (.mem (.abs w))),
      (0x16#8, 2, .asl (.mem (.zpx b))), (0x1E#8, 3, .asl (.mem (.abx w))), (0x46#8, 2, .lsr (.mem (.zp b))),
      (0x4A#8, 1, .lsr .acc), (0x4E#8, 3, .lsr (.mem (.abs w))), (0x56#8, 2, .lsr (.mem (.zpx b))),
      (0x5E#8, 3, .lsr (.mem (.abx w))), (0x26#8, 2, .rol (.mem (.zp b))), (0x2A#8, 1, .rol .acc),
      (0x2E#8, 3, .rol (.mem (.abs w))), (0x36#8, 2, .rol (.mem (.zpx b))), (0x3E#8, 3, .rol (.mem (.abx w))),
      (0x66#8, 2, .ror (.mem (.zp b))), (0x6A#8, 1, .ror .acc), (0x6E#8, 3, .ror (.mem (.abs w))),
      (0x76#8, 2, .ror (.mem (.zpx b))), (0x7E#8, 3, .ror (.mem (.abx w)))]) ∧
  ∀ (s : State) (i : RmwOp → Instr) (f : Nat → Nat) (carry : Byte → Bool),
    let c : Nat := if s.cpu.c then 1 else 0
    ((i = .asl ∧ f = (fun v => 2 * v % 256) ∧ carry = fun v => decide (128 ≤ v.toNat)) ∨
      (i = .lsr ∧ f = (fun v => v / 2) ∧ carry = fun v => decide (v.toNat % 2 = 1)) ∨
      (i = .rol ∧ f = (fun v => 2 * v % 256 + c) ∧ carry = fun v => decide (128 ≤ v.toNat)) ∨
      (i = .ror ∧ f = (fun v => v / 2 + 128 * c) ∧ carry = fun v => decide (v.toNat % 2 = 1))) →
    (let r := BitVec.ofNat 8 (f s.cpu.a.toNat);
      exec (i .acc) s = .next { s with cpu := (Cpu.zn { s.cpu with a := r, c := carry s.cpu.a } r).later 2 }) ∧
    ∀ m : MemMode,
      let ea := (effAddr s m).1.addr
      let b := memRead s ea
      let r := BitVec.ofNat 8 (f b.1.toNat)
      exec (i (.mem m)) s =
        .next (State.afterWrite { b.2 with cpu := Cpu.zn { s.cpu with c := carry b.1 } r } ea r (rmwCycles m)) ∧
      s.readEffect b.2 ∧ (∀ l, b.2.byte l = s.byte l) ∧ ∀ v, b.2.writeFrame ea v

/-! ## Control transfer -/

/-- 43_control_transfer.md R230, R231: JMP completes in 3 cycles (absolute) or 5 (indirect) and writes `PC` alone; the indirect target's
high byte comes from the page of its low byte. -/
def Obligations.JumpsSetPcAlone : Prop :=
  (∀ (w : Word),
    formsOf [(0x4C#8, 3, .jmp (.abs w)), (0x6C#8, 3, .jmp (.ind w))]) ∧
  ∀ (s : State) (w : Word),
    exec (.jmp (.abs w)) s = .next { s with cpu := Cpu.later { s.cpu with pc := w } 3 } ∧
    (let next := BitVec.ofNat 16 (w.toNat / 256 * 256 + (w.toNat + 1) % 256);
      let l := memRead s w;
      let h := memRead l.2 next;
      exec (.jmp (.ind w)) s =
        .next { h.2 with cpu := Cpu.later { s.cpu with pc := BitVec.ofNat 16 (256 * h.1.toNat + l.1.toNat) } 5 } ∧
      s.readEffect h.2 ∧ ∀ loc, h.2.byte loc = s.byte loc)

/-- 43_control_transfer.md R232, R233: JSR pushes the address of its own last byte, high byte first, and jumps; RTS pulls an address,
low byte first, and goes one past it; 6 cycles each. Nothing else changes. So an RTS right after a JSR goes on after the JSR with
`S` as before, and only the two stack cells below the old `S` have changed. -/
def Obligations.CallAndReturnUseTheStack : Prop :=
  (∀ (w : Word),
    formsOf [(0x20#8, 3, .jsr w), (0x60#8, 1, .rts)]) ∧
  ∀ (s : State) (target : Word),
    (let ret := s.cpu.pc - 1#16;
      exec (.jsr target) s = .next { s with
        bus := { s.bus with
          ram := (s.bus.ram.write (stackCell s.cpu.s) (BitVec.ofNat 8 (ret.toNat / 256))).write
            (stackCell (s.cpu.s - 1#8)) (BitVec.ofNat 8 (ret.toNat % 256)) }
        cpu := Cpu.later { s.cpu with s := s.cpu.s - 2#8, pc := target } 6 }) ∧
    (let l := s.byte (.ram (stackCell (s.cpu.s + 1#8)));
      let h := s.byte (.ram (stackCell (s.cpu.s + 2#8)));
      exec .rts s = .next { s with
        cpu := Cpu.later
          { s.cpu with s := s.cpu.s + 2#8, pc := BitVec.ofNat 16 (256 * h.toNat + l.toNat + 1) } 6 }) ∧
    ∃ t u, exec (.jsr target) s = .next t ∧ exec .rts t = .next u ∧
      u.cpu = s.cpu.later 12 ∧
      (∀ l, l ≠ .ram (stackCell s.cpu.s) → l ≠ .ram (stackCell (s.cpu.s - 1#8)) → u.byte l = s.byte l) ∧
      u = { s with cpu := u.cpu, bus := { s.bus with ram := u.bus.ram } }

/-- 43_control_transfer.md R234 to R242: each branch completes; taken, it goes to the address after it plus the signed offset in 3
cycles, 4 when that is on another page; not taken, it takes 2 cycles and changes nothing else. -/
def Obligations.BranchesTestOneFlag : Prop :=
  (∀ (b : Byte),
    formsOf [(0x90#8, 2, .bcc b), (0xB0#8, 2, .bcs b), (0xF0#8, 2, .beq b), (0x30#8, 2, .bmi b), (0xD0#8, 2, .bne b),
      (0x10#8, 2, .bpl b), (0x50#8, 2, .bvc b), (0x70#8, 2, .bvs b)]) ∧
  ∀ (s : State) (off : Byte) (i : Byte → Instr) (cond : Bool),
    ((i = .bcc ∧ cond = !s.cpu.c) ∨ (i = .bcs ∧ cond = s.cpu.c) ∨ (i = .beq ∧ cond = s.cpu.z) ∨
      (i = .bmi ∧ cond = s.cpu.n) ∨ (i = .bne ∧ cond = !s.cpu.z) ∨ (i = .bpl ∧ cond = !s.cpu.n) ∨
      (i = .bvc ∧ cond = !s.cpu.v) ∨ (i = .bvs ∧ cond = s.cpu.v)) →
    let target := BitVec.ofInt 16 (s.cpu.pc.toNat + off.toInt)
    exec (i off) s = .next { s with
      cpu :=
        if cond then
          Cpu.later { s.cpu with pc := target } (if target.toNat / 256 = s.cpu.pc.toNat / 256 then 3 else 4)
        else s.cpu.later 2 }

/-! ## Stack, flags, system -/

/-- 44_stack_flag_system.md R260 to R263: PHA and PHP push `A` and `P(1)` in 3 cycles; PLA pulls `A` with `Z` and `N`, PLP the six flags,
in 4 cycles. Nothing else changes. -/
def Obligations.PushesAndPullsMoveOneByte : Prop :=
  formsOf [(0x48#8, 1, .pha), (0x08#8, 1, .php), (0x68#8, 1, .pla), (0x28#8, 1, .plp)] ∧
  ∀ s : State,
    (∀ (i : Instr) (v : Byte), (i = .pha ∧ v = s.cpu.a ∨ i = .php ∧ v = s.cpu.status true) →
      exec i s = .next { s with
        bus := { s.bus with ram := s.bus.ram.write (stackCell s.cpu.s) v }
        cpu := Cpu.later { s.cpu with s := s.cpu.s - 1#8 } 3 }) ∧
    (let b := s.byte (.ram (stackCell (s.cpu.s + 1#8)));
      exec .pla s = .next { s with
        cpu := (Cpu.zn { s.cpu with s := s.cpu.s + 1#8, a := b } b).later 4 } ∧
      exec .plp s = .next { s with
        cpu := Cpu.later { s.cpu with
          s := s.cpu.s + 1#8
          n := b.getLsbD 7, v := b.getLsbD 6, d := b.getLsbD 3, i := b.getLsbD 2, z := b.getLsbD 1, c := b.getLsbD 0 } 4 })

/-- 10_state.md R27: the status byte with break bit `b` is the sum of its weighted bits, bit 5 set; pulling it back gives the same six
flags whatever `b` was, and pulling ignores bits 5 and 4. -/
def Obligations.StatusByteHoldsTheSixFlags : Prop :=
  (∀ (p : Cpu) (b : Bool),
    (p.status b).toNat = 128 * p.n.toNat + 64 * p.v.toNat + 32 + 16 * b.toNat + 8 * p.d.toNat + 4 * p.i.toNat +
      2 * p.z.toNat + p.c.toNat) ∧
  (∀ (p q : Cpu) (b : Bool), q.withStatus (p.status b) =
    { q with n := p.n, v := p.v, d := p.d, i := p.i, z := p.z, c := p.c }) ∧
  (∀ (q : Cpu) (v : Byte), q.withStatus v =
    { q with
      n := v.getLsbD 7, v := v.getLsbD 6, d := v.getLsbD 3, i := v.getLsbD 2, z := v.getLsbD 1, c := v.getLsbD 0 } ∧
    q.withStatus v = q.withStatus (v &&& 0xCF#8))

/-- 44_stack_flag_system.md R264 to R271: each flag instruction writes its flag and nothing else in 2 cycles; NOP writes nothing. -/
def Obligations.FlagInstructionsWriteOneFlag : Prop :=
  formsOf [(0x18#8, 1, .clc), (0x38#8, 1, .sec), (0x58#8, 1, .cli), (0x78#8, 1, .sei), (0xD8#8, 1, .cld),
    (0xF8#8, 1, .sed), (0xB8#8, 1, .clv), (0xEA#8, 1, .nop)] ∧
  ∀ s : State,
    exec .clc s = .next { s with cpu := Cpu.later { s.cpu with c := false } 2 } ∧
    exec .sec s = .next { s with cpu := Cpu.later { s.cpu with c := true } 2 } ∧
    exec .cli s = .next { s with cpu := Cpu.later { s.cpu with i := false } 2 } ∧
    exec .sei s = .next { s with cpu := Cpu.later { s.cpu with i := true } 2 } ∧
    exec .cld s = .next { s with cpu := Cpu.later { s.cpu with d := false } 2 } ∧
    exec .sed s = .next { s with cpu := Cpu.later { s.cpu with d := true } 2 } ∧
    exec .clv s = .next { s with cpu := Cpu.later { s.cpu with v := false } 2 } ∧
    exec .nop s = .next { s with cpu := s.cpu.later 2 }

/-- 44_stack_flag_system.md R272, 20_memory.md R78: BRK completes: it pushes the address after its padding byte and `P(1)`, sets `I`, and
loads `PC` from $FFFE in 7 cycles. Nothing else changes. -/
def Obligations.BreakEntersThroughTheIrqVector : Prop :=
  formsOf [(0x00#8, 1, .brk)] ∧
  ∀ s : State,
    let ret := s.cpu.pc + 1#16
    exec .brk s = .next { s with
      bus := { s.bus with
        ram := ((s.bus.ram.write (stackCell s.cpu.s) (BitVec.ofNat 8 (ret.toNat / 256))).write
          (stackCell (s.cpu.s - 1#8)) (BitVec.ofNat 8 (ret.toNat % 256))).write
          (stackCell (s.cpu.s - 2#8)) (s.cpu.status true) }
      cpu := Cpu.later { s.cpu with
        s := s.cpu.s - 3#8
        i := true
        pc := BitVec.ofNat 16 ((cartByte s 0xFFFE#16).toNat + 256 * (cartByte s 0xFFFF#16).toNat) } 7 }

/-- 44_stack_flag_system.md R273: RTI completes: it pulls the six flags, then `PC`, low byte first and with nothing added, in 6 cycles.
Nothing else changes. -/
def Obligations.ReturnFromInterruptPullsStatusAndPc : Prop :=
  formsOf [(0x40#8, 1, .rti)] ∧
  ∀ s : State,
    let p := s.byte (.ram (stackCell (s.cpu.s + 1#8)))
    let l := s.byte (.ram (stackCell (s.cpu.s + 2#8)))
    let h := s.byte (.ram (stackCell (s.cpu.s + 3#8)))
    exec .rti s = .next { s with
      cpu := Cpu.later { s.cpu with
        s := s.cpu.s + 3#8
        n := p.getLsbD 7, v := p.getLsbD 6, d := p.getLsbD 3, i := p.getLsbD 2, z := p.getLsbD 1, c := p.getLsbD 0
        pc := BitVec.ofNat 16 (l.toNat + 256 * h.toNat) } 6 }

/-- 45_undefined_opcodes.md R290: an undefined opcode completes as a no-operation of 2 cycles; the diagnostic records the first one and
the address its opcode was fetched from, one before `PC`. Nothing else changes. -/
def Obligations.UndefinedOpcodesSignalAndGoOn : Prop :=
  (∀ op : Byte, op.toNat ∈ undefinedOpcodes → formsOf [(op, 1, .undefined op)]) ∧
  ∀ (s : State) (op : Byte),
    (s.cpu.unsupportedSeen = false → exec (.undefined op) s = .next { s with
      cpu := Cpu.later { s.cpu with
        unsupportedSeen := true, unsupportedOpcode := op, unsupportedAt := s.cpu.pc - 1#16 } 2 }) ∧
    (s.cpu.unsupportedSeen = true → exec (.undefined op) s = .next { s with cpu := s.cpu.later 2 })

/-! ## Interrupts -/

/-- 60_exceptions.md R585, R586, R587: the poll takes a pending NMI, else an unmasked pending IRQ, else runs the instruction
fetched. An entry pushes `PC` and `P(0)`, sets `I`, loads `PC` from the vector in 7 cycles, and changes nothing else, except that
the entry of an NMI clears its latch. -/
def Obligations.InterruptPollChoosesTheEntry : Prop :=
  ∀ s : State,
    let entered (vector : Word) : State :=
      { s with
        bus := { s.bus with
          ram := ((s.bus.ram.write (stackCell s.cpu.s) (BitVec.ofNat 8 (s.cpu.pc.toNat / 256))).write
            (stackCell (s.cpu.s - 1#8)) (BitVec.ofNat 8 (s.cpu.pc.toNat % 256))).write
            (stackCell (s.cpu.s - 2#8)) (s.cpu.status false) }
        cpu := Cpu.later { s.cpu with
          nmiPending := false
          s := s.cpu.s - 3#8
          i := true
          pc := BitVec.ofNat 16 ((cartByte s vector).toNat + 256 * (cartByte s (vector + 1#16)).toNat) } 7 }
    (s.cpu.nmiPending = true → cpuStep s = .next (entered 0xFFFA#16)) ∧
    (s.cpu.nmiPending = false → s.cpu.irqPending = true → s.cpu.i = false → cpuStep s = .next (entered 0xFFFE#16)) ∧
    (s.cpu.nmiPending = false → (s.cpu.irqPending = true → s.cpu.i = true) →
      cpuStep s = exec (fetchInstr s).1 (fetchInstr s).2)

/-- 60_exceptions.md R590: an RTI right after the entry of an NMI, of an IRQ or of a BRK goes on at the return address with the
flags and `S` as before the entry, after 13 cycles; only the three stack cells below the old `S` have changed, and no source
flag. -/
def Obligations.ReturnAfterEntryRestoresTheFlags : Prop :=
  ∀ (s : State) (ret : Word) (b : Bool) (vector : Word), 0x4020 ≤ vector.toNat → vector.toNat < 0xFFFF →
    ∃ u, exec .rti (enter s ret b vector) = .next u ∧
      u.cpu = Cpu.later { s.cpu with pc := ret } 13 ∧
      (∀ l, l ≠ .ram (stackCell s.cpu.s) → l ≠ .ram (stackCell (s.cpu.s - 1#8)) → l ≠ .ram (stackCell (s.cpu.s - 2#8)) →
        u.byte l = s.byte l) ∧
      u = { s with cpu := u.cpu, bus := { s.bus with ram := u.bus.ram } }

/-- 60_exceptions.md R583, R584: no instruction and no fan-out withdraws an NMI, and its entry does; a CPU step does not change the
IRQ latch, every cycle of the fan-out sets it to the OR of the three source flags, and so does the step of a loaded machine. -/
def Obligations.InterruptLatchesFollowTheirSources : Prop :=
  (∀ (i : Instr) (s t : State), exec i s = .next t → s.cpu.nmiPending = true → t.cpu.nmiPending = true) ∧
  (∀ (n : Nat) (s : State), s.cpu.nmiPending = true → (fanOut n s).cpu.nmiPending = true) ∧
  (∀ s : State, s.cpu.nmiPending = true → ∃ t, cpuStep s = .next t ∧ t.cpu.nmiPending = false) ∧
  (∀ s t : State, cpuStep s = .next t → t.cpu.irqPending = s.cpu.irqPending) ∧
  (∀ (n : Nat) (s : State),
    let t := fanOutCycle s
    t.cpu.irqPending = (t.apu.frame.irqFlag || t.apu.dmc.irqFlag || t.mapper.irqFlag) ∧ fanOut (n + 1) s = fanOut n t) ∧
  (∀ s t : State, s.loaded = true → step s = .next t →
    t.cpu.irqPending = (t.apu.frame.irqFlag || t.apu.dmc.irqFlag || t.mapper.irqFlag))

/-- 49_machine_and_savestate.md R540, R542, 60_exceptions.md R580, 70_reset_and_hazards.md R634 (derived): every CPU step answers a
next state after 2 to 521 cycles, every step of the machine answers a next state, and an empty machine's step is a no-op. -/
def Obligations.EveryStepGoesOnAfterTwoTo521Cycles : Prop :=
  (∀ s : State, ∃ t, cpuStep s = .next t ∧
    2 ≤ (t.cpu.cycles - s.cpu.cycles).toNat ∧ (t.cpu.cycles - s.cpu.cycles).toNat ≤ 521) ∧
  (∀ s : State, ∃ t, step s = .next t) ∧
  (∀ s : State, s.loaded = false → step s = .next s)

/-- 10_state.md R23, R26 (derived: their lists of writers): an instruction that changes a register or a flag is one the lists name. -/
def Obligations.OnlyNamedInstructionsWriteARegister : Prop :=
  ∀ (i : Instr) (s t : State), exec i s = .next t →
    (t.cpu.a ≠ s.cpu.a →
      (∃ o, i = .lda o ∨ i = .adc o ∨ i = .sbc o ∨ i = .and o ∨ i = .ora o ∨ i = .eor o) ∨
      i = .txa ∨ i = .tya ∨ i = .pla ∨ i = .asl .acc ∨ i = .lsr .acc ∨ i = .rol .acc ∨ i = .ror .acc) ∧
    (t.cpu.x ≠ s.cpu.x → (∃ o, i = .ldx o) ∨ i = .tax ∨ i = .tsx ∨ i = .inx ∨ i = .dex) ∧
    (t.cpu.y ≠ s.cpu.y → (∃ o, i = .ldy o) ∨ i = .tay ∨ i = .iny ∨ i = .dey) ∧
    (t.cpu.s ≠ s.cpu.s → (∃ a, i = .jsr a) ∨ i = .txs ∨ i = .pha ∨ i = .php ∨ i = .pla ∨ i = .plp ∨ i = .rts ∨ i = .brk ∨
      i = .rti) ∧
    (t.cpu.c ≠ s.cpu.c →
      (∃ o, i = .adc o ∨ i = .sbc o ∨ i = .cmp o ∨ i = .cpx o ∨ i = .cpy o) ∨
      (∃ o, i = .asl o ∨ i = .lsr o ∨ i = .rol o ∨ i = .ror o) ∨ i = .clc ∨ i = .sec ∨ i = .plp ∨ i = .rti) ∧
    (t.cpu.z ≠ s.cpu.z ∨ t.cpu.n ≠ s.cpu.n →
      (∃ o, i = .lda o ∨ i = .ldx o ∨ i = .ldy o ∨ i = .adc o ∨ i = .sbc o ∨ i = .and o ∨ i = .ora o ∨ i = .eor o ∨
        i = .cmp o ∨ i = .cpx o ∨ i = .cpy o) ∨
      (∃ m, i = .bit m ∨ i = .inc m ∨ i = .dec m) ∨
      (∃ o, i = .asl o ∨ i = .lsr o ∨ i = .rol o ∨ i = .ror o) ∨
      i = .tax ∨ i = .tay ∨ i = .txa ∨ i = .tya ∨ i = .tsx ∨ i = .pla ∨ i = .inx ∨ i = .iny ∨ i = .dex ∨ i = .dey ∨
      i = .plp ∨ i = .rti) ∧
    (t.cpu.i ≠ s.cpu.i → i = .sei ∨ i = .cli ∨ i = .plp ∨ i = .rti ∨ i = .brk) ∧
    (t.cpu.d ≠ s.cpu.d → i = .sed ∨ i = .cld ∨ i = .plp ∨ i = .rti) ∧
    (t.cpu.v ≠ s.cpu.v → (∃ o, i = .adc o ∨ i = .sbc o) ∨ (∃ m, i = .bit m) ∨ i = .clv ∨ i = .plp ∨ i = .rti)

/-! ## The buses -/

/-- 20_memory.md R61, R65, R71, 47_ppu.md R389: every CPU address has the one target of the table; a read with no data source gives
OPEN_BUS_VALUE, whatever value that parameter has, and changes nothing; a write to an unmapped address changes nothing. -/
def Obligations.EveryAddressHasOneRoute : Prop :=
  (∀ addr : Word,
    let a := addr.toNat
    (route addr = .workRam ↔ a ≤ 0x1FFF) ∧
    (a ≤ 0x1FFF → ramIndex addr = (addr &&& 0x07FF#16).toNat) ∧
    (route addr = .ppuReg ↔ 0x2000 ≤ a ∧ a ≤ 0x3FFF) ∧
    (route addr = .apuReg ↔ 0x4000 ≤ a ∧ a ≤ 0x4013 ∨ a = 0x4015) ∧
    (route addr = .oamDma ↔ a = 0x4014) ∧
    (route addr = .port0 ↔ a = 0x4016) ∧
    (route addr = .port1 ↔ a = 0x4017) ∧
    (route addr = .unmapped ↔ 0x4018 ≤ a ∧ a ≤ 0x401F) ∧
    (route addr = .cartridge ↔ 0x4020 ≤ a)) ∧
  (∀ (s : State) (addr : Word) (v : Byte), 0x2000 ≤ addr.toNat → addr.toNat ≤ 0x3FFF →
    memRead s addr = readPpuReg s (addr &&& 0x0007#16).toNat ∧ memWrite s addr v = writePpuReg s (addr &&& 0x0007#16).toNat v) ∧
  (∀ (s : State) (addr : Word),
    let a := addr.toNat
    ((0x2000 ≤ a ∧ a ≤ 0x3FFF ∧ (a % 8 = 0 ∨ a % 8 = 1 ∨ a % 8 = 3 ∨ a % 8 = 5 ∨ a % 8 = 6)) ∨
      (0x4000 ≤ a ∧ a ≤ 0x4014) ∨ (0x4018 ≤ a ∧ a ≤ 0x401F) ∨
      (0x4020 ≤ a ∧ (mapRead s.mapper s.cart a .cpu).1 = .unmapped)) →
    memRead s addr = (s.params.openBus, s)) ∧
  (∀ (s : State) (addr : Word) (v : Byte), 0x4018 ≤ addr.toNat → addr.toNat ≤ 0x401F → memWrite s addr v = s)

/-- 20_memory.md R62, R85: work RAM is 2048 bytes seen four times; a byte written to work RAM, to a nametable or (its low 6 bits, with
greyscale off) to the palette is read back at every address that resolves to the same cell, and at no other. -/
def Obligations.WritesReadBackThroughEveryMirror : Prop :=
  (∀ (s : State) (a : Word) (v : Byte), a.toNat ≤ 0x1FFF →
    memRead s a = (s.byte (.ram (a.toNat % 2048)), s) ∧
    memWrite s a v = { s with bus := { s.bus with ram := s.bus.ram.write (a.toNat % 2048) v } }) ∧
  (∀ (s : State) (a b : Word) (v : Byte), a.toNat ≤ 0x1FFF → b.toNat ≤ 0x1FFF →
    (memRead (memWrite s a v) b).1 = if b.toNat % 2048 = a.toNat % 2048 then v else (memRead s b).1) ∧
  (∀ (s : State) (a b : Nat) (v : Byte),
    0x2000 ≤ a → a < 0x3F00 → 0x2000 ≤ b → b < 0x3F00 →
    (ppuRead (ppuWrite s a v) b).1 =
      if vramIndex s.mapper.mirroring b = vramIndex s.mapper.mirroring a then v else (ppuRead s b).1) ∧
  (∀ (s : State) (a b : Nat) (v : Byte), s.ppu.mask.getLsbD 0 = false →
    0x3F00 ≤ a → a < 0x4000 → 0x3F00 ≤ b → b < 0x4000 →
    (ppuRead (ppuWrite s a v) b).1 = if paletteIndex b = paletteIndex a then v &&& 0x3F#8 else (ppuRead s b).1)

/-- 20_memory.md R80 to R83: a PPU-space address, reduced modulo $4000, is a pattern byte the mapper resolves and observes, a nametable
byte the mirroring selects, or a palette byte; a read changes nothing but what the mapper observes, a write that byte and what
the mapper observes. -/
def Obligations.PpuSpaceResolvesToItsCells : Prop :=
  ∀ (s : State) (addr : Nat) (v : Byte),
    let a := addr % 0x4000
    (let off := s.mapper.variant.chrOffset s.cart a;
      a < 0x2000 →
      ppuRead s addr =
        (if s.cart.chrBanks = 0x00#8 then s.byte (.chrRam off) else s.byte (.chrRom off),
          { s with mapper := s.mapper.observe a }) ∧
      ppuWrite s addr v =
        { s with
          cart := if s.cart.chrBanks = 0x00#8 then { s.cart with chrRam := s.cart.chrRam.write off v } else s.cart
          mapper := s.mapper.observe a }) ∧
    (let n := a % 0x1000;
      let physical :=
        match s.mapper.mirroring with
        | .horizontal => n / 2048
        | .vertical => n / 1024 % 2
        | .fourScreen => n / 1024
        | .oneScreenLow => 0
        | .oneScreenHigh => 1;
      let cell := physical * 1024 + n % 1024;
      0x2000 ≤ a → a < 0x3F00 →
      ppuRead s addr = (s.byte (.vram cell), s) ∧
      ppuWrite s addr v = { s with ppu := { s.ppu with vram := s.ppu.vram.write cell v } }) ∧
    (let i := a % 32;
      let cell := if i &&& 0x13 = 0x10 then i &&& 0x0F else i;
      0x3F00 ≤ a →
      ppuRead s addr = (s.byte (.palette cell) &&& (if s.ppu.mask.getLsbD 0 then 0x30#8 else 0x3F#8), s) ∧
      ppuWrite s addr v = { s with ppu := { s.ppu with palette := s.ppu.palette.write cell (v &&& 0x3F#8) } })

/-- 20_memory.md R68, 47_ppu.md R382, 48_apu.md R485: the only reads that change state are those of $2002, $2007, $4015, $4016, $4017
and their mirrors, and what each may change; no read changes a byte of storage. -/
def Obligations.ReadsChangeStateOnlyWhereListed : Prop :=
  ∀ (s : State) (addr : Word),
    let a := addr.toNat
    let t := (memRead s addr).2
    let flag (b : Bool) (weight : Nat) : Nat := if b then weight else 0
    let some8 (n : Byte) : Bool := decide (0 < n.toNat)
    (∀ l, t.byte l = s.byte l) ∧
    (¬ (0x2000 ≤ a ∧ a ≤ 0x3FFF ∧ (a % 8 = 2 ∨ a % 8 = 7)) → a ≠ 0x4015 → a ≠ 0x4016 → a ≠ 0x4017 → t = s) ∧
    (0x2000 ≤ a → a ≤ 0x3FFF → a % 8 = 2 →
      memRead s addr =
        (s.ppu.status &&& 0xE0#8, { s with ppu := { s.ppu with status := s.ppu.status &&& 0x7F#8, w := false } })) ∧
    (0x2000 ≤ a → a ≤ 0x3FFF → a % 8 = 7 →
      t = { s with
        ppu := { s.ppu with
          buffer := t.ppu.buffer, v := BitVec.ofNat 15 (s.ppu.v.toNat + if s.ppu.ctrl.getLsbD 2 then 32 else 1) }
        mapper := if s.ppu.v.toNat % 0x4000 < 0x2000 then s.mapper.observe (s.ppu.v.toNat % 0x4000) else s.mapper }) ∧
    (a = 0x4015 →
      memRead s addr =
        (BitVec.ofNat 8 (flag (some8 s.apu.pulse0.length) 1 + flag (some8 s.apu.pulse1.length) 2 +
          flag (some8 s.apu.triangle.length) 4 + flag (some8 s.apu.noise.length) 8 +
          flag (decide (0 < s.apu.dmc.bytesRemaining.toNat)) 16 + flag s.apu.frame.irqFlag 64 + flag s.apu.dmc.irqFlag 128),
        { s with apu := { s.apu with frame := { s.apu.frame with irqFlag := false } } })) ∧
    (a = 0x4016 → t = { s with bus := { s.bus with pad0 := { s.bus.pad0 with shift := t.bus.pad0.shift } } }) ∧
    (a = 0x4017 → t = { s with bus := { s.bus with pad1 := { s.bus.pad1 with shift := t.bus.pad1.shift } } })

/-- 20_memory.md R73: a write of p to $4014 reads the 256 bytes of page p in order, each with its side effects, into OAM from
`oam_addr` on, leaves `oam_addr` as it was, and adds 513 or 514 cycles to the step; a page read without side effects lands in OAM
byte by byte, and nothing else changes. -/
def Obligations.OamDmaCopiesOnePage : Prop :=
  (∀ (s : State) (p : Byte),
    memWrite s 0x4014#16 p =
      (List.range 256).foldl (fun u i =>
        let r := memRead u (BitVec.ofNat 16 (256 * p.toNat + i))
        { r.2 with ppu := { r.2.ppu with oam := r.2.ppu.oam.write ((s.ppu.oamAddr.toNat + i) % 256) r.1 } }) s ∧
    (memWrite s 0x4014#16 p).ppu.oamAddr = s.ppu.oamAddr) ∧
  (∀ (s : State) (p : Byte), p.toNat < 0x20 ∨ 0x41 ≤ p.toNat →
    memWrite s 0x4014#16 p = { s with ppu := { s.ppu with oam := (memWrite s 0x4014#16 p).ppu.oam } } ∧
    ∀ i < 256, (memWrite s 0x4014#16 p).byte (.oam ((s.ppu.oamAddr.toNat + i) % 256)) =
      (memRead s (BitVec.ofNat 16 (256 * p.toNat + i))).1) ∧
  (∀ (ea : Word) (c0 : BitVec 64) (n : Nat), dmaCycles ea c0 n = if ea = 0x4014#16 then 513 + (c0.toNat + n) % 2 else 0)

/-- 20_memory.md R74, R75: the strobe captures both ports' buttons while it is 1 and when it falls; a read gives bit 0, and shifts a one
in when the strobe is 0. So eight reads after a strobe give the eight buttons in order, and every later read 1. -/
def Obligations.ControllerPortsShiftTheSnapshot : Prop :=
  (∀ (s : State) (v : Byte),
    let captured (p : Pad) : Pad := if v.getLsbD 0 || s.bus.strobe then { p with shift := p.buttons } else p
    memWrite s 0x4016#16 v = { s with bus := { s.bus with
      strobe := v.getLsbD 0, pad0 := captured s.bus.pad0, pad1 := captured s.bus.pad1 } }) ∧
  (∀ s : State,
    let bit (p : Pad) : Byte := BitVec.ofNat 8 ((if s.bus.strobe then p.buttons.toNat else p.shift.toNat) % 2)
    let shifted (p : Pad) : Pad :=
      if s.bus.strobe then p else { p with shift := BitVec.ofNat 8 (p.shift.toNat / 2 + 128) }
    memRead s 0x4016#16 = (bit s.bus.pad0, { s with bus := { s.bus with pad0 := shifted s.bus.pad0 } }) ∧
    memRead s 0x4017#16 = (bit s.bus.pad1, { s with bus := { s.bus with pad1 := shifted s.bus.pad1 } })) ∧
  (∀ (s : State) (k : Nat),
    let t := memWrite (memWrite s 0x4016#16 0x01#8) 0x4016#16 0x00#8
    let after (port : Word) : State := (fun u : State => (memRead u port).2)^[k] t
    (memRead (after 0x4016#16) 0x4016#16).1 = (if k < 8 then bitByte (s.bus.pad0.buttons.getLsbD k) else 0x01#8) ∧
    (memRead (after 0x4017#16) 0x4017#16).1 = (if k < 8 then bitByte (s.bus.pad1.buttons.getLsbD k) else 0x01#8))

/-! ## The PPU -/

/-- 47_ppu.md R380, R381, R383 to R388: what each PPU register access does, at every mirror of its address; the scroll registers by the
fields of `ppu.t`. Nothing else changes. -/
def Obligations.PpuRegisterAccessesFollowTheirRules : Prop :=
  ∀ (s : State) (addr : Word) (d : Byte), 0x2000 ≤ addr.toNat → addr.toNat ≤ 0x3FFF →
    let r := addr.toNat % 8
    let p := s.ppu
    let t := p.t.toNat
    let a := p.v.toNat % 0x4000
    let v' : BitVec 15 := BitVec.ofNat 15 (p.v.toNat + if p.ctrl.getLsbD 2 then 32 else 1)
    (r = 0 → memWrite s addr d = { s with
      ppu := { p with ctrl := d, t := BitVec.ofNat 15 (t / 4096 * 4096 + d.toNat % 4 * 1024 + t % 1024) }
      cpu := { s.cpu with
        nmiPending := s.cpu.nmiPending || (!p.ctrl.getLsbD 7 && d.getLsbD 7 && p.status.getLsbD 7) } }) ∧
    (r = 1 → memWrite s addr d = { s with ppu := { p with mask := d } }) ∧
    (r = 2 → memWrite s addr d = s) ∧
    (r = 3 → memWrite s addr d = { s with ppu := { p with oamAddr := d } }) ∧
    (r = 4 → memRead s addr = (s.byte (.oam p.oamAddr.toNat), s) ∧
      memWrite s addr d = { s with ppu := { p with
        oam := p.oam.write p.oamAddr.toNat d, oamAddr := BitVec.ofNat 8 (p.oamAddr.toNat + 1) } }) ∧
    (r = 5 → p.w = false → memWrite s addr d = { s with ppu := { p with
      t := BitVec.ofNat 15 (t / 32 * 32 + d.toNat / 8), x := BitVec.ofNat 3 (d.toNat % 8), w := true } }) ∧
    (r = 5 → p.w = true → memWrite s addr d = { s with ppu := { p with
      t := BitVec.ofNat 15 (d.toNat % 8 * 4096 + t / 1024 % 4 * 1024 + d.toNat / 8 * 32 + t % 32), w := false } }) ∧
    (r = 6 → p.w = false → memWrite s addr d = { s with ppu := { p with
      t := BitVec.ofNat 15 (d.toNat % 64 * 256 + t % 256), w := true } }) ∧
    (r = 6 → p.w = true → memWrite s addr d = { s with ppu := { p with
      t := BitVec.ofNat 15 (t / 256 * 256 + d.toNat), v := BitVec.ofNat 15 (t / 256 * 256 + d.toNat), w := false } }) ∧
    (r = 7 → a < 0x3F00 → memRead s addr = (p.buffer,
      { (ppuRead s a).2 with ppu := { p with buffer := (ppuRead s a).1, v := v' } })) ∧
    (r = 7 → 0x3F00 ≤ a → memRead s addr = ((ppuRead s a).1,
      { s with ppu := { p with buffer := (ppuRead s (a - 0x1000)).1, v := v' } })) ∧
    (r = 7 → memWrite s addr d = { ppuWrite s a d with ppu := { (ppuWrite s a d).ppu with v := v' } })

/-- 47_ppu.md R372, R373, R412: the dot (241, 1) sets the VBlank flag, completes the frame and raises an enabled NMI; the dot (261, 1)
clears the three flags and the sprite count; with rendering disabled a visible dot writes the backdrop colour and no other dot does
anything; the lines 240 to 260 are idle in any case. -/
def Obligations.VblankPreRenderAndBlankedDots : Prop :=
  ∀ s : State,
    let p := s.ppu
    let off := p.mask.getLsbD 3 = false ∧ p.mask.getLsbD 4 = false
    (p.scanline = 241 → p.dot = 1 → ppuTick s = { s with
      ppu := { p with status := p.status ||| 0x80#8, frameComplete := true, dot := 2 }
      cpu := { s.cpu with nmiPending := s.cpu.nmiPending || p.ctrl.getLsbD 7 } }) ∧
    (p.scanline = 261 → p.dot = 1 → ppuTick s = { s with
      ppu := { p with status := p.status &&& 0x1F#8, spriteCount := 0, sp0OnLine := false, dot := 2 } }) ∧
    (240 ≤ p.scanline → p.scanline ≤ 260 → ¬ (p.scanline = 241 ∧ p.dot = 1) → ppuTick s = { s with ppu := p.advance }) ∧
    (off → p.scanline ≤ 239 → 1 ≤ p.dot → p.dot ≤ 256 → ppuTick s = { s with
      ppu := { p with
        framebuffer := p.framebuffer.write (p.dot - 1) p.scanline (s.params.rgba (ppuRead s 0x3F00).1)
        dot := p.dot + 1 } }) ∧
    (off → p.scanline ≤ 239 ∧ (p.dot = 0 ∨ 257 ≤ p.dot) ∨ p.scanline = 261 ∧ p.dot ≠ 1 →
      ppuTick s = { s with ppu := p.advance })

/-- 47_ppu.md R361, R371, R374 (derived): whatever is rendered, n ticks move the position n dots through the 89342 of a frame, so in any
89342 consecutive ticks exactly one is the VBlank entry (dot number 82182 of the frame); no other dot sets the VBlank flag or
completes a frame. -/
def Obligations.OneVblankEntryInEveryFrame : Prop :=
  ∀ s : State, s.ppu.scanline < 262 → s.ppu.dot < 341 →
    (∀ n, (ppuTick^[n] s).ppu.position = (s.ppu.position + n) % 89342) ∧
    (∃ k < 89342, (ppuTick^[k] s).ppu.scanline = 241 ∧ (ppuTick^[k] s).ppu.dot = 1 ∧
      ∀ j < 89342, (ppuTick^[j] s).ppu.scanline = 241 → (ppuTick^[j] s).ppu.dot = 1 → j = k) ∧
    (¬ (s.ppu.scanline = 241 ∧ s.ppu.dot = 1) →
      (ppuTick s).ppu.frameComplete = s.ppu.frameComplete ∧
      ((ppuTick s).ppu.status.getLsbD 7 = true → s.ppu.status.getLsbD 7 = true))

/-- 47_ppu.md R360, 48_apu.md R440, 49_machine_and_savestate.md R541 (derived): the fan-out of n cycles moves the PPU 3 n dots and the
APU n ticks (its parity) and does not change the cycle count; so a step moves the PPU three dots for every cycle it counts. -/
def Obligations.ThreeDotsAndOneTickForEveryCycle : Prop :=
  (∀ (n : Nat) (s : State), s.ppu.scanline < 262 → s.ppu.dot < 341 →
    (fanOut n s).ppu.position = (s.ppu.position + 3 * n) % 89342 ∧
    (fanOut n s).apu.odd = (s.apu.odd != decide (n % 2 = 1)) ∧
    (fanOut n s).cpu.cycles = s.cpu.cycles) ∧
  (∀ s t : State, s.loaded = true → s.ppu.scanline < 262 → s.ppu.dot < 341 → step s = .next t →
    t.ppu.position = (s.ppu.position + 3 * (t.cpu.cycles - s.cpu.cycles).toNat) % 89342)

/-- 47_ppu.md R409, R410, R411: a dot composes the background and sprite pixels, writes the colour of the palette byte at its address to
that one place of the picture, and sets the sprite-0 hit; nothing else changes. -/
def Obligations.OnePixelIsComposedAndMarked : Prop :=
  (∀ (p : Params) (c : Byte), (p.rgba c).setWidth 8 = 0xFF#8) ∧
  ∀ (s : State) (x y : Nat),
    let bg := s.ppu.bgPixel x
    let sp := s.ppu.spritePixel x
    let px : Nat × Nat :=
      if bg.1 = 0 ∧ sp.pix = 0 then (0, 0)
      else if bg.1 = 0 then (sp.pix, sp.pal)
      else if sp.pix = 0 then bg
      else if sp.behind = false then (sp.pix, sp.pal)
      else bg
    let a := if px.1 = 0 then 0x3F00 else 0x3F00 + 4 * px.2 + px.1
    let t := emitPixel x y s
    t = { s with ppu := { s.ppu with
      status :=
        if bg.1 ≠ 0 ∧ sp.pix ≠ 0 ∧ sp.isZero = true ∧ x ≠ 255 then s.ppu.status ||| 0x40#8 else s.ppu.status
      framebuffer := t.ppu.framebuffer } } ∧
    ∀ x' y', t.ppu.framebuffer.read x' y' =
      if x' = x ∧ y' = y then s.params.rgba (ppuRead s a).1 else s.ppu.framebuffer.read x' y'

/-- 47_ppu.md R404 (derived: the rule's dot is R370's): sprite evaluation takes the first eight OAM entries in range of the line, in
order, into secondary OAM, $FF elsewhere; counts them; says whether entry 0 is one; and sets the overflow flag exactly when there
is a ninth. -/
def Obligations.SpriteEvaluationSelectsTheFirstEight : Prop :=
  ∀ (p : Ppu) (sl : Nat),
    let height := if p.ctrl.getLsbD 5 then 16 else 8
    let top (n : Nat) : Nat := (p.oam.read (4 * n)).toNat
    let inRange := (List.range 64).filter fun n => decide (top n ≤ sl ∧ sl < top n + height)
    let q := p.evaluateSprites sl
    q.spriteCount = min 8 inRange.length ∧
    q.sp0OnLine = decide (top 0 ≤ sl ∧ sl < top 0 + height) ∧
    q.status = (if 8 < inRange.length then p.status ||| 0x20#8 else p.status) ∧
    (∀ k < 8, ∀ j < 4, q.sec k j = (inRange[k]?.elim 0xFF#8 fun n => p.oam.read (4 * n + j))) ∧
    q = { p with secOam := q.secOam, status := q.status, spriteCount := q.spriteCount, sp0OnLine := q.sp0OnLine }

/-- 47_ppu.md R391, R392, R393, in the fields of R390: coarse X wraps from 31 into the other horizontal nametable; fine Y carries into
coarse Y, which wraps from 29 into the other vertical nametable and from 31 without; the copies take their fields from `t`. -/
def Obligations.ScrollCountersWrapByTheirFields : Prop :=
  ∀ p : Ppu,
    let v := p.v.toNat
    let t := p.t.toNat
    let fields (x : Nat) : Ppu := { p with v := BitVec.ofNat 15 x }
    p.incX = fields (if v % 32 = 31 then v / 2048 * 2048 + (1 - v / 1024 % 2) * 1024 + v / 32 % 32 * 32 else v + 1) ∧
    p.incY = fields
      (if v / 4096 < 7 then v + 4096
        else if v / 32 % 32 = 29 then (1 - v / 2048 % 2) * 2048 + v / 1024 % 2 * 1024 + v % 32
        else if v / 32 % 32 = 31 then v / 1024 % 4 * 1024 + v % 32
        else v % 4096 + 32) ∧
    p.copyHorizontal = fields (v / 2048 * 2048 + t / 1024 % 2 * 1024 + v / 32 % 32 * 32 + t % 32) ∧
    p.copyVertical = fields (t / 2048 * 2048 + v / 1024 % 2 * 1024 + t / 32 % 32 * 32 + v % 32)

/-! ## The mapper -/

/-- 46_mapper.md R322, R323: a write with bit 7 set resets the serial port; another write below the fifth collects one bit; the fifth
loads the five bits, low bit first, into the register its own address selects, and the mirroring follows `control`. Nothing else
changes, so ROM does not. -/
def Obligations.SerialPortLoadsFiveBits : Prop :=
  (∀ (s : State) (m : Mapper1) (a : Word) (d : Byte), s.mapper.variant = .v1 m → 0x8000 ≤ a.toNat →
    (d.getLsbD 7 = true → memWrite s a d = { s with mapper := { s.mapper with
      variant := .v1 { m with shift := 0#5, shiftCount := 0, control := m.control ||| 0x0C#5 } } }) ∧
    (d.getLsbD 7 = false → m.shiftCount < 4 → memWrite s a d = { s with mapper := { s.mapper with
      variant := .v1 { m with
        shift := BitVec.ofNat 5 (m.shift.toNat ||| d.toNat % 2 * 2 ^ m.shiftCount), shiftCount := m.shiftCount + 1 } } })) ∧
  (∀ (s : State) (m : Mapper1) (a0 a1 a2 a3 a4 : Word) (d0 d1 d2 d3 d4 : Byte),
    s.mapper.variant = .v1 m → m.shift = 0#5 → m.shiftCount = 0 →
    (∀ a ∈ [a0, a1, a2, a3, a4], 0x8000 ≤ a.toNat) → (∀ d ∈ [d0, d1, d2, d3, d4], d.getLsbD 7 = false) →
    let value : BitVec 5 := BitVec.ofNat 5
      (d0.toNat % 2 + 2 * (d1.toNat % 2) + 4 * (d2.toNat % 2) + 8 * (d3.toNat % 2) + 16 * (d4.toNat % 2))
    memWrite (memWrite (memWrite (memWrite (memWrite s a0 d0) a1 d1) a2 d2) a3 d3) a4 d4 =
      { s with mapper := { s.mapper with
        variant := .v1
          (if a4.toNat < 0xA000 then { m with control := value }
            else if a4.toNat < 0xC000 then { m with chr0 := value }
            else if a4.toNat < 0xE000 then { m with chr1 := value }
            else { m with prg := value })
        mirroring :=
          if a4.toNat < 0xA000 then
            (match value.toNat % 4 with
              | 0 => .oneScreenLow
              | 1 => .oneScreenHigh
              | 2 => .vertical
              | _ => .horizontal)
          else s.mapper.mirroring } })

/-- 46_mapper.md R332 to R342: the eight registers of variant 4 by address range and parity; and its counter, clocked by each rising edge
of address bit 12 of the observed accesses, which reloads from the latch at 0 and raises the IRQ flag when it is 0 and enabled.
Nothing else changes. -/
def Obligations.Mapper4RegistersAndCounter : Prop :=
  (∀ (s : State) (m : Mapper4) (a : Word) (d : Byte), s.mapper.variant = .v4 m → 0x8000 ≤ a.toNat →
    let even := a.toNat % 2 = 0
    memWrite s a d = { s with mapper :=
      if a.toNat < 0xA000 then
        if even then { s.mapper with variant := .v4 { m with bankSelect := d } }
        else { s.mapper with variant := .v4 { m with
          r := Vector.ofFn fun i => if i.val = m.bankSelect.toNat % 8 then d else m.r[i] } }
      else if a.toNat < 0xC000 then
        if even then
          if s.cart.mirroring = .fourScreen then s.mapper
          else { s.mapper with mirroring := if d.toNat % 2 = 0 then .vertical else .horizontal }
        else { s.mapper with variant := .v4 { m with ramProtect := d } }
      else if a.toNat < 0xE000 then
        if even then { s.mapper with variant := .v4 { m with irqLatch := d } }
        else { s.mapper with variant := .v4 { m with irqCounter := 0x00#8, irqReload := true } }
      else
        if even then { s.mapper with irqFlag := false, variant := .v4 { m with irqEnabled := false } }
        else { s.mapper with variant := .v4 { m with irqEnabled := true } } }) ∧
  (∀ (g : Mapper) (m : Mapper4) (a : Nat), g.variant = .v4 m →
    let high := decide (a / 4096 % 2 = 1)
    let n := if m.irqCounter = 0x00#8 ∨ m.irqReload = true then m.irqLatch else BitVec.ofNat 8 (m.irqCounter.toNat - 1)
    g.observe a =
      if high = true ∧ m.a12Prev = false then
        { g with
          variant := .v4 { m with irqCounter := n, irqReload := false, a12Prev := true }
          irqFlag := g.irqFlag || (decide (n = 0x00#8) && m.irqEnabled) }
      else { g with variant := .v4 { m with a12Prev := high } })

/-- 46_mapper.md R312, R324, R325, R345, R346, and R306's bound: where every CPU and PPU address of the cartridge resolves, in each
variant, and that the offset lies inside the array for every register content. -/
def Obligations.BankWindowsStayInsideTheCartridge : Prop :=
  ∀ (g : Mapper) (c : Cart), g.Inv c → mapperChecks c.mapperId c.prgBanks c.chrBanks = some true → ∀ a : Nat,
    let n := c.prgBanks.toNat
    let chr := if c.chrBanks = 0x00#8 then 8192 else 8192 * c.chrBanks.toNat
    (a < 0x6000 ∨ 0x10000 ≤ a → mapRead g c a .cpu = (.unmapped, 0)) ∧
    (0x6000 ≤ a → a < 0x8000 → mapRead g c a .cpu = (.prgRam, a - 0x6000)) ∧
    (0x8000 ≤ a → a < 0x10000 → ∃ off, mapRead g c a .cpu = (.prgRom, off) ∧ off < 16384 * n ∧
      (g.variant = .v0 → off = (a - 0x8000) % (16384 * n)) ∧
      (∀ m, g.variant = .v1 m →
        let b := m.prg.toNat % 16
        let bank :=
          if m.control.toNat / 4 % 4 = 2 then (if a < 0xC000 then 0 else b)
          else if m.control.toNat / 4 % 4 = 3 then (if a < 0xC000 then b else n - 1)
          else (if a < 0xC000 then b / 2 * 2 else b / 2 * 2 + 1)
        off = bank % n * 16384 + a % 16384) ∧
      (∀ m, g.variant = .v4 m →
        let swapped := m.bankSelect.toNat / 64 % 2 = 1
        let bank :=
          if a < 0xA000 then (if swapped then 2 * n - 2 else m.r[6].toNat)
          else if a < 0xC000 then m.r[7].toNat
          else if a < 0xE000 then (if swapped then m.r[6].toNat else 2 * n - 2)
          else 2 * n - 1
        off = bank % (2 * n) * 8192 + a % 8192)) ∧
    (a < 0x2000 → ∃ off,
      mapRead g c a .ppu = (if c.chrBanks = 0x00#8 then .chrRam else .chrRom, off) ∧ off < chr ∧
      (g.variant = .v0 → off = a) ∧
      (∀ m, g.variant = .v1 m →
        let bank :=
          if m.control.toNat / 16 = 1 then (if a < 0x1000 then m.chr0.toNat else m.chr1.toNat)
          else (if a < 0x1000 then m.chr0.toNat / 2 * 2 else m.chr0.toNat / 2 * 2 + 1)
        off = bank % (chr / 4096) * 4096 + a % 4096) ∧
      (∀ m, g.variant = .v4 m →
        let slot := (if m.bankSelect.toNat / 128 = 1 then (a + 4096) % 8192 else a) / 1024
        let bank :=
          if slot < 4 then (m.bank (slot / 2)) / 2 * 2 + slot % 2 else m.bank (slot - 2)
        off = bank % (chr / 1024) * 1024 + a % 1024)) ∧
    (0x2000 ≤ a → mapRead g c a .ppu = (.unmapped, 0))

/-! ## The APU -/

/-- 48_apu.md R450 to R453, R460 to R462, R466 to R468: the register writes of the pulse, triangle and noise channels, field by field.
Nothing else changes. -/
def Obligations.ToneChannelRegisterWrites : Prop :=
  ∀ (s : State) (d : Byte),
    let n := d.toNat
    let low (old : BitVec 11) : BitVec 11 := BitVec.ofNat 11 (old.toNat / 256 * 256 + n)
    let high (old : BitVec 11) : BitVec 11 := BitVec.ofNat 11 (n % 8 * 256 + old.toNat % 256)
    let length (enabled : Bool) (old : Byte) : Byte :=
      if enabled then BitVec.ofNat 8 (lengthTable.getD (n / 8) 0) else old
    (∀ k : Fin 2,
      let p := s.apu.pulse k
      let port (r : Nat) : Word := BitVec.ofNat 16 (0x4000 + 4 * k.val + r)
      let put (q : Pulse) : State := { s with apu := s.apu.setPulse k q }
      memWrite s (port 0) d = put { p with
        duty := BitVec.ofNat 2 (n / 64), halt := d.getLsbD 5, constant := d.getLsbD 4, volume := BitVec.ofNat 4 (n % 16) } ∧
      memWrite s (port 1) d = put { p with
        sweepEnabled := d.getLsbD 7, sweepPeriod := BitVec.ofNat 3 (n / 16 % 8), sweepNegate := d.getLsbD 3
        sweepShift := BitVec.ofNat 3 (n % 8), sweepReload := true } ∧
      memWrite s (port 2) d = put { p with timerPeriod := low p.timerPeriod } ∧
      memWrite s (port 3) d = put { p with
        timerPeriod := high p.timerPeriod, length := length p.enabled p.length, seqPos := 0#3, envStart := true }) ∧
    (let t := s.apu.triangle;
      let put (q : Triangle) : State := { s with apu := { s.apu with triangle := q } };
      memWrite s 0x4008#16 d = put { t with control := d.getLsbD 7, linearLoad := BitVec.ofNat 7 (n % 128) } ∧
      memWrite s 0x4009#16 d = s ∧
      memWrite s 0x400A#16 d = put { t with timerPeriod := low t.timerPeriod } ∧
      memWrite s 0x400B#16 d = put { t with
        timerPeriod := high t.timerPeriod, length := length t.enabled t.length, linearReload := true }) ∧
    (let c := s.apu.noise;
      let put (q : Noise) : State := { s with apu := { s.apu with noise := q } };
      memWrite s 0x400C#16 d = put { c with
        halt := d.getLsbD 5, constant := d.getLsbD 4, volume := BitVec.ofNat 4 (n % 16) } ∧
      memWrite s 0x400D#16 d = s ∧
      memWrite s 0x400E#16 d = put { c with mode := d.getLsbD 7, periodIndex := BitVec.ofNat 4 (n % 16) } ∧
      memWrite s 0x400F#16 d = put { c with length := length c.enabled c.length, envStart := true })

/-- 48_apu.md R472 to R475, R480, R484: the register writes of the delta-modulation channel, the channel enables and the frame
sequencer. Nothing else changes. -/
def Obligations.SampleChannelAndControlRegisterWrites : Prop :=
  ∀ (s : State) (d : Byte),
    let n := d.toNat
    let a := s.apu
    let c := a.dmc
    memWrite s 0x4010#16 d = { s with apu := { a with dmc := { c with
      irqEnabled := d.getLsbD 7, loop := d.getLsbD 6, rateIndex := BitVec.ofNat 4 (n % 16)
      irqFlag := c.irqFlag && d.getLsbD 7 } } } ∧
    memWrite s 0x4011#16 d = { s with apu := { a with dmc := { c with level := BitVec.ofNat 7 (n % 128) } } } ∧
    memWrite s 0x4012#16 d = { s with apu := { a with dmc := { c with sampleAddr := BitVec.ofNat 16 (0xC000 + 64 * n) } } } ∧
    memWrite s 0x4013#16 d = { s with apu := { a with dmc := { c with sampleLen := BitVec.ofNat 12 (16 * n + 1) } } } ∧
    memWrite s 0x4015#16 d = { s with apu := { a with
      pulse0 := { a.pulse0 with enabled := d.getLsbD 0, length := if d.getLsbD 0 then a.pulse0.length else 0x00#8 }
      pulse1 := { a.pulse1 with enabled := d.getLsbD 1, length := if d.getLsbD 1 then a.pulse1.length else 0x00#8 }
      triangle := { a.triangle with enabled := d.getLsbD 2, length := if d.getLsbD 2 then a.triangle.length else 0x00#8 }
      noise := { a.noise with enabled := d.getLsbD 3, length := if d.getLsbD 3 then a.noise.length else 0x00#8 }
      dmc := { c with
        irqFlag := false
        curAddr := if d.getLsbD 4 = true ∧ c.bytesRemaining = 0#12 then c.sampleAddr else c.curAddr
        bytesRemaining :=
          if d.getLsbD 4 = false then 0#12 else if c.bytesRemaining = 0#12 then c.sampleLen else c.bytesRemaining } } } ∧
    (let b : Apu := { a with frame := {
        mode := d.getLsbD 7, irqInhibit := d.getLsbD 6, irqFlag := a.frame.irqFlag && !d.getLsbD 6, counter := 0#16 } };
      memWrite s 0x4017#16 d = { s with apu := if d.getLsbD 7 then b.quarterFrame.halfFrame else b })

/-- 48_apu.md R481: one tick of the frame sequencer: at which counts it clocks the quarter and half frames, wraps and raises the IRQ; and
that the counter runs through 29830 or 37282 counts. -/
def Obligations.FrameSequencerFollowsItsSchedule : Prop :=
  ∀ a : Apu, a.frame.Inv →
    let n := a.frame.counter.toNat + 1
    let four := a.frame.mode = false
    let half := n = 14913 ∨ n = (if four then 29829 else 37281)
    let quarter := n = 7457 ∨ n = 22371 ∨ half
    let period := if four then 29830 else 37282
    let b : Apu := { a with frame := { a.frame with
      counter := if n = period then 0#16 else BitVec.ofNat 16 n
      irqFlag := a.frame.irqFlag || decide (four ∧ n = 29829 ∧ a.frame.irqInhibit = false) } }
    let q := if quarter then b.quarterFrame else b
    a.frameTick = (if half then q.halfFrame else q) ∧
    ∀ k, (Apu.frameTick^[k] a).frame.counter.toNat = (a.frame.counter.toNat + k) % period

/-- 48_apu.md R490, R492 (derived): a tick adds SAMPLE_RATE to the accumulator and appends the mixer's value when it passes NOMINAL_CPU_HZ, so n
ticks append the whole part of (accumulator + n SAMPLE_RATE) / NOMINAL_CPU_HZ samples; and the mixer's binary32 word is the
quotient rounded to nearest, ties to even (F32_ROUND, 00_scope.md R7): its mantissa `q` over 2^`k` is within half a unit.
That the value 0 is the word of positive zero (`num = 0 → w = 0`) is the model's reading, DEDUCED (log entry 15). -/
def Obligations.SamplesAreTheRoundedMixAtTheRate : Prop :=
  (∀ (a : Apu) (rate : Nat), rate ≤ 1786840 → a.decimAcc.toNat < 1786840 →
    let sum := a.decimAcc.toNat + rate
    Apu.decimate rate a =
      if 1786840 ≤ sum then { a with decimAcc := BitVec.ofNat 32 (sum - 1786840), samples := a.samples ++ [a.mix] }
      else { a with decimAcc := BitVec.ofNat 32 sum }) ∧
  (∀ (n : Nat) (s : State), s.params.sampleRate ≤ 1786840 → s.apu.decimAcc.toNat < 1786840 →
    (apuTick^[n] s).apu.samples.length =
      s.apu.samples.length + (s.apu.decimAcc.toNat + n * s.params.sampleRate) / 1786840) ∧
  (∀ a : Apu,
    let num : Nat := a.mixNumerator
    let w : Nat := a.mix.toNat
    let k : Nat := 150 - w / 2 ^ 23
    let q : Nat := 2 ^ 23 + w % 2 ^ 23
    let error := ((q * 100000 : Nat) - (num * 2 ^ k : Nat) : Int).natAbs
    num = 752 * (a.pulse0.out 0 + a.pulse1.out 1) + 851 * a.triangle.out + 494 * a.noise.out + 335 * a.dmc.level.toNat ∧
    num ≤ 85280 ∧ (num = 0 → w = 0) ∧
    (0 < num → w / 2 ^ 23 ≤ 126 ∧ 2 * error ≤ 100000 ∧ (2 * error = 100000 → q % 2 = 0)))

/-! ## The machine and its host -/

/-- 70_reset_and_hazards.md R621: after a `load` that succeeds and after `reset()` of a loaded machine the CPU has its reset registers, a
cycle count of 0 and `PC` from the vector at $FFFC; and (10_state.md R46, the parts `reset()` keeps) the reset keeps every memory,
the mapper, the controllers, the cartridge and what the host has not yet taken. -/
def Obligations.ResetSequenceOfTheCpu : Prop :=
  (∀ s t : State,
    ((∃ bytes, load s bytes = (t, .ok ())) ∨ (s.loaded = true ∧ t = reset s)) →
    t.loaded = true ∧
    t.cpu = { a := 0x00#8, x := 0x00#8, y := 0x00#8, s := 0xFD#8
              pc := BitVec.ofNat 16 ((cartByte t 0xFFFC#16).toNat + 256 * (cartByte t 0xFFFD#16).toNat)
              c := false, z := false, i := true, d := false, v := false, n := false
              nmiPending := false, irqPending := false, cycles := 0#64
              unsupportedSeen := false, unsupportedOpcode := t.cpu.unsupportedOpcode
              unsupportedAt := t.cpu.unsupportedAt } ∧
    t.ppu.ctrl = 0x00#8 ∧ t.ppu.scanline = 241 ∧ t.ppu.dot = 2) ∧
  (∀ s : State, s.loaded = true →
    (∀ l, (reset s).byte l = s.byte l) ∧
    reset s = { s with cpu := (reset s).cpu, ppu := (reset s).ppu, apu := (reset s).apu } ∧
    (reset s).ppu.framebuffer = s.ppu.framebuffer ∧ (reset s).apu.samples = []) ∧
  (∀ s : State, s.loaded = false → reset s = s)

/-- 49_machine_and_savestate.md R531, R532: the checks of `load` in their order, the bank counts being those of 46_mapper.md R305, and
that a refused image leaves the machine as it was. -/
def Obligations.LoadChecksTheImageAndKeepsTheMachine : Prop :=
  ∀ (s : State) (bytes : List Byte),
    let prg := (bytes.getD 4 0x00#8).toNat
    let chr := (bytes.getD 5 0x00#8).toNat
    let flags6 := (bytes.getD 6 0x00#8).toNat
    let flags7 := (bytes.getD 7 0x00#8).toNat
    let id := flags7 / 16 * 16 + flags6 / 16
    let fits :=
      (id = 0 ∧ prg ≤ 2 ∧ chr ≤ 1) ∨ (id = 1 ∧ prg ≤ 16 ∧ chr ≤ 16) ∨ (id = 4 ∧ prg ≤ 32 ∧ chr ≤ 32)
    let size := 16 + (if flags6 / 4 % 2 = 1 then 512 else 0) + 16384 * prg + 8192 * chr
    (load s bytes).2 =
      (if bytes.length < 16 ∨ bytes.take 4 ≠ [0x4E#8, 0x45#8, 0x53#8, 0x1A#8] ∨ prg = 0 then .error .malformedHeader
        else if ¬ (id = 0 ∨ id = 1 ∨ id = 4) then .error .unsupportedMapper
        else if ¬ fits then .error .bankCountInvalid
        else if bytes.length < size then .error .truncatedRom
        else .ok ()) ∧
    ∀ e, (load s bytes).2 = .error e → (load s bytes).1 = s

/-- 49_machine_and_savestate.md R542, R543, R544 (derived): `step_frame` of a loaded machine runs turns (a CPU step and its fan-out) until
one completes a frame, at most as many as the bound of R544, and then ends the frame: just after the next VBlank entry (at most 521
cycles), with the picture published and the samples of the last turn's state, which begin with those the call found, appended to
what the host has not yet taken. -/
def Obligations.StepFrameEndsAfterTheNextVblank : Prop :=
  ∀ s : State, s.loaded = true → s.ppu.scanline < 262 → s.ppu.dot < 341 → s.ppu.frameComplete = false →
    ∃ (k : Nat) (run : Nat → State), 1 ≤ k ∧ k ≤ 14892 ∧ run 0 = s ∧
      (∀ j < k, machineTurn (run j) = .next (run (j + 1)) ∧ (run j).ppu.frameComplete = false) ∧
      (run k).ppu.frameComplete = true ∧
      ∃ t, stepFrame s = some t ∧
        t = { run k with
          ppu := { (run k).ppu with frameComplete := false }
          apu := { (run k).apu with samples := [] }
          publishedFrame := (run k).ppu.framebuffer
          audioOut := s.audioOut ++ (run k).apu.samples } ∧
        (∃ new, (run k).apu.samples = s.apu.samples ++ new) ∧
        t.loaded = true ∧ 82182 < t.ppu.position ∧ t.ppu.position ≤ 82182 + 3 * 521

/-- 49_machine_and_savestate.md R562 (derived), R550 to R561: a stream saved by one machine is restored by any machine with the same
cartridge identity to the saved state of every block; what the stream does not hold (R561's list) stays the restoring machine's.
That the samples of the unfinished frame stay too (`samples := u.apu.samples`) is the model's reading, DEDUCED (log entry 14). -/
def Obligations.SavedStatesRestoreExactly : Prop :=
  ∀ s u : State, s.Inv → u.Inv → s.loaded = true → u.loaded = true →
    u.cart.mapperId = s.cart.mapperId → u.cart.prgBanks = s.cart.prgBanks → u.cart.chrBanks = s.cart.chrBanks →
    u.cart.fingerprint = s.cart.fingerprint →
    saveState s true = (s, .ok (saveStream s)) ∧
    loadState u (some (saveStream s)) =
      ({ u with
        cpu := { s.cpu with
          unsupportedSeen := u.cpu.unsupportedSeen, unsupportedOpcode := u.cpu.unsupportedOpcode
          unsupportedAt := u.cpu.unsupportedAt }
        bus := s.bus
        ppu := { s.ppu with framebuffer := u.ppu.framebuffer }
        apu := { s.apu with samples := u.apu.samples }
        mapper := s.mapper
        cart := { u.cart with prgRam := s.cart.prgRam, chrRam := s.cart.chrRam } }, .ok ())

/-- 49_machine_and_savestate.md R560, R561 (derived: the field ranges of R561's step 6 are not repeated here): the errors of `load_state`
in their order, that an error leaves the machine as it was, and what a restore does not touch. That the samples of the unfinished
frame are among the latter (`samples := s.apu.samples`) is the model's reading, DEDUCED (log entry 14). -/
def Obligations.RestoreIsAllOrNothing : Prop :=
  (∀ (s : State) (source : Option (List Byte)),
    let bs := source.getD []
    (s.loaded = false → loadState s source = (s, .error .notLoaded)) ∧
    (s.loaded = true → source = none → loadState s source = (s, .error .ioError)) ∧
    (s.loaded = true → source ≠ none →
      (bs.length < 8 ∨ bs.take 4 ≠ [0x50#8, 0x4E#8, 0x45#8, 0x53#8] → loadState s source = (s, .error .stateCorrupt)) ∧
      (8 ≤ bs.length → bs.take 4 = [0x50#8, 0x4E#8, 0x45#8, 0x53#8] →
        ((bs.drop 4).take 4 ≠ [0x01#8, 0x00#8, 0x00#8, 0x00#8] → loadState s source = (s, .error .stateVersionMismatch)) ∧
        ((bs.drop 4).take 4 = [0x01#8, 0x00#8, 0x00#8, 0x00#8] → bs.length < 15 →
          loadState s source = (s, .error .stateCorrupt)) ∧
        ((bs.drop 4).take 4 = [0x01#8, 0x00#8, 0x00#8, 0x00#8] → 15 ≤ bs.length →
          (bs.drop 8).take 7 ≠ [s.cart.mapperId, s.cart.prgBanks, s.cart.chrBanks] ++ putU32 s.cart.fingerprint →
          loadState s source = (s, .error .stateCartridgeMismatch)))) ∧
    (∀ e, (loadState s source).2 = .error e → (loadState s source).1 = s) ∧
    (let t := (loadState s source).1;
      t = { s with
        cpu := { t.cpu with
          unsupportedSeen := s.cpu.unsupportedSeen, unsupportedOpcode := s.cpu.unsupportedOpcode
          unsupportedAt := s.cpu.unsupportedAt }
        bus := t.bus
        ppu := { t.ppu with framebuffer := s.ppu.framebuffer }
        apu := { t.apu with samples := s.apu.samples }
        mapper := t.mapper
        cart := { s.cart with prgRam := t.cart.prgRam, chrRam := t.cart.chrRam } })) ∧
  (∀ (s : State) (sinkOk : Bool), (saveState s sinkOk).1 = s ∧
    (saveState s sinkOk).2 =
      (if s.loaded = false then .error .notLoaded else if sinkOk then .ok (saveStream s) else .error .ioError))

/-- 49_machine_and_savestate.md R524, R526, R545, R525 (derived): `set_state` changes one button of one port and nothing else; `bus_read` is a bus
read; `drain_audio_samples` returns and clears the samples; `frame` gives the published picture row by row; and on an empty machine
they change nothing. What `diagnostic` answers on an empty machine is the model's choice,
DESIGN CHOICE (log entry 24). -/
def Obligations.HostCallsChangeOnlyWhatTheyName : Prop :=
  (∀ (s : State) (port : Fin 2) (btn : Button) (pressed : Bool),
    let t := setState s port btn pressed
    let pad (u : State) (k : Fin 2) : Pad := if k = 0 then u.bus.pad0 else u.bus.pad1
    (s.loaded = false → t = s) ∧
    (s.loaded = true →
      (∀ k < 8, (pad t port).buttons.getLsbD k = if k = btn.bit then pressed else (pad s port).buttons.getLsbD k) ∧
      (pad t port).shift = (pad s port).shift ∧ pad t (1 - port) = pad s (1 - port) ∧
      t = { s with bus := { s.bus with pad0 := t.bus.pad0, pad1 := t.bus.pad1 } })) ∧
  (∀ (s : State) (addr : Word),
    (s.loaded = true → busRead s addr = ((memRead s addr).2, (memRead s addr).1)) ∧
    (s.loaded = false → busRead s addr = (s, s.params.openBus)) ∧
    diagnostic s = (s.cpu.unsupportedSeen, s.cpu.unsupportedOpcode, s.cpu.unsupportedAt)) ∧
  (∀ s : State, drainAudio s = ({ s with audioOut := [] }, s.audioOut) ∧
    (frame s).length = 61440 ∧ ∀ x < 256, ∀ y < 240, (frame s)[y * 256 + x]? = some (s.publishedFrame.read x y)) ∧
  (∀ config : Params,
    let s := machineNew config
    s.loaded = false ∧ stepFrame s = some s ∧ drainAudio s = (s, []) ∧ reset s = s ∧ ∀ x y, s.publishedFrame.read x y = 0#32)

/-! ## Invariants -/

/-- 10_state.md R45, R47: the invariant of Safety.lean (the ranges of 10_state.md, the canonical form of every array) holds of the machine
at reset. That machine is empty; its registers are the model's choice (log entry 1). -/
def Obligations.InvariantHoldsAtReset : Prop := State.reset.Inv

/-- 10_state.md R33 to R39, 46_mapper.md R304, 48_apu.md R469 (derived): every step keeps the invariant: every element stays in the range
10_state.md declares for it, the noise register is never 0, every storage array keeps its canonical form, the mapper keeps the
variant of its cartridge. -/
def Obligations.InvariantIsKeptByEveryStep : Prop :=
  ∀ s t : State, s.Inv → step s = .next t → t.Inv

/-- 10_state.md R45, R46, 49_machine_and_savestate.md R531, R561 (derived): every operation of the host keeps the invariant, `new` and
`load` establish it. `load_state` takes any frame counter up to 37281 in either mode (R561), so it keeps the invariant where the
counter it restored lies in its mode's range, as in every stream a run saves (log entry 11). -/
def Obligations.InvariantIsKeptByTheHost : Prop :=
  (∀ config : Params, legalConfig config → (machineNew config).Inv) ∧
  (∀ (s : State) (bytes : List Byte), s.Inv → (load s bytes).1.Inv) ∧
  (∀ s : State, s.Inv → (reset s).Inv ∧ (drainAudio s).1.Inv ∧ ∀ t, stepFrame s = some t → t.Inv) ∧
  (∀ (s : State) (port : Fin 2) (btn : Button) (pressed : Bool), s.Inv → (setState s port btn pressed).Inv) ∧
  (∀ (s : State) (addr : Word), s.Inv → (busRead s addr).1.Inv) ∧
  (∀ (s : State) (source : Option (List Byte)),
    s.Inv → (loadState s source).1.apu.frame.Inv → (loadState s source).1.Inv)

/-- 10_state.md R21, R30, R38, 49_machine_and_savestate.md R524, R525, R543 (derived): no step changes a ROM byte, the mapper id, the bank
counts, the header's mirroring, the parameters or a button; no step clears or rewrites the diagnostic once it is set; the picture
and the samples the host sees change only in a step whose turn completed a frame, which publishes the picture and appends the
turn's samples to those not yet taken; and every other step only appends to the samples of the unfinished frame and leaves no completed frame behind. That the end of
the frame is part of the step that completed it is the model's own (log entry 3). -/
def Obligations.StepKeepsRomButtonsAndDiagnostic : Prop :=
  ∀ s t : State, step s = .next t →
    t.cart = { s.cart with prgRam := t.cart.prgRam, chrRam := t.cart.chrRam } ∧
    t.params = s.params ∧ t.loaded = s.loaded ∧
    t.bus.pad0.buttons = s.bus.pad0.buttons ∧ t.bus.pad1.buttons = s.bus.pad1.buttons ∧
    (s.cpu.unsupportedSeen = true → t.cpu.unsupportedSeen = true ∧
      t.cpu.unsupportedOpcode = s.cpu.unsupportedOpcode ∧ t.cpu.unsupportedAt = s.cpu.unsupportedAt) ∧
    ((t.publishedFrame = s.publishedFrame ∧ t.audioOut = s.audioOut ∧ s.apu.samples <+: t.apu.samples ∧
        (s.loaded = true → t.ppu.frameComplete = false)) ∨
      ∃ u, machineTurn s = .next u ∧ u.ppu.frameComplete = true ∧ s.apu.samples <+: u.apu.samples ∧
        t.publishedFrame = u.ppu.framebuffer ∧ t.audioOut = s.audioOut ++ u.apu.samples ∧ t.apu.samples = [] ∧
        t.ppu = { u.ppu with frameComplete := false })
end

