-- ==== Sys2Proof/Laws/Memory.lean ====
section
/-! SUPPORT. The storage arrays: read after write, the canonical form kept by every operation, and the bytes of an array
against a byte list. -/

namespace Sys2Proof.Machine

section Store

variable {α : Type} {d : α}

theorem Store.read_drop_same (m : List (Nat × α)) (a : Nat) : Store.read d (Store.drop a m) a = d := by
  induction m with
  | nil => rfl
  | cons p t ih =>
    obtain ⟨k, w⟩ := p
    by_cases h : a = k <;> simp [Store.drop, Store.read, h]
    · subst h; exact ih
    · exact ih

theorem Store.read_drop_other (m : List (Nat × α)) {a b : Nat} (h : b ≠ a) :
    Store.read d (Store.drop a m) b = Store.read d m b := by
  induction m with
  | nil => rfl
  | cons p t ih =>
    obtain ⟨k, w⟩ := p
    by_cases hk : a = k
    · subst hk; simp [Store.drop, Store.read, h, ih]
    · by_cases hb : b = k <;> simp [Store.drop, Store.read, hk, hb]
      exact ih

theorem Store.read_put_same (m : List (Nat × α)) (a : Nat) (v : α) (h : ∀ p ∈ m, p.1 ≠ a) :
    Store.read d (Store.put a v m) a = v := by
  induction m with
  | nil => simp [Store.put, Store.read]
  | cons p t ih =>
    obtain ⟨k, w⟩ := p
    have hk : a ≠ k := fun e => h (k, w) (by simp) e.symm
    by_cases hlt : a < k <;> simp [Store.put, Store.read, hlt, hk]
    exact ih fun p hp => h p (by simp [hp])

theorem Store.read_put_other (m : List (Nat × α)) {a b : Nat} (v : α) (h : b ≠ a) :
    Store.read d (Store.put a v m) b = Store.read d m b := by
  induction m with
  | nil => simp [Store.put, Store.read, h]
  | cons p t ih =>
    obtain ⟨k, w⟩ := p
    by_cases hlt : a < k
    · simp [Store.put, Store.read, hlt, h]
    · by_cases hb : b = k <;> simp [Store.put, Store.read, hlt, hb]
      exact ih

theorem Store.drop_no_key (m : List (Nat × α)) (a : Nat) : ∀ p ∈ Store.drop a m, p.1 ≠ a := by
  induction m with
  | nil => simp [Store.drop]
  | cons p t ih =>
    obtain ⟨k, w⟩ := p
    by_cases hk : a = k
    · simp only [Store.drop, hk, if_true]
      exact hk ▸ ih
    · intro q hq
      rcases List.mem_cons.mp (by simpa [Store.drop, hk] using hq) with rfl | hq
      · exact fun e => hk e.symm
      · exact ih q hq

theorem Store.drop_mem (m : List (Nat × α)) (a : Nat) : ∀ p ∈ Store.drop a m, p ∈ m := by
  induction m with
  | nil => simp [Store.drop]
  | cons p t ih =>
    obtain ⟨k, w⟩ := p
    intro q hq
    by_cases hk : a = k
    · exact List.mem_cons_of_mem _ (ih q (by simpa [Store.drop, hk] using hq))
    · rcases List.mem_cons.mp (by simpa [Store.drop, hk] using hq) with rfl | hq
      · simp
      · exact List.mem_cons_of_mem _ (ih q hq)

theorem Store.put_mem (m : List (Nat × α)) (a : Nat) (v : α) : ∀ p ∈ Store.put a v m, p = (a, v) ∨ p ∈ m := by
  induction m with
  | nil => simp [Store.put]
  | cons p t ih =>
    obtain ⟨k, w⟩ := p
    intro q hq
    by_cases hlt : a < k
    · simpa [Store.put, hlt] using hq
    · rcases List.mem_cons.mp (by simpa [Store.put, hlt] using hq) with rfl | hq
      · simp
      · rcases ih q hq with h | h <;> simp [h]

theorem Store.drop_sorted (m : List (Nat × α)) (a : Nat) (h : m.Pairwise fun p q => p.1 < q.1) :
    (Store.drop a m).Pairwise fun p q => p.1 < q.1 := by
  induction m with
  | nil => simp [Store.drop]
  | cons p t ih =>
    obtain ⟨k, w⟩ := p
    rw [List.pairwise_cons] at h
    by_cases hk : a = k
    · simpa [Store.drop, hk] using hk ▸ ih h.2
    · simp only [Store.drop, hk, if_false, List.pairwise_cons]
      exact ⟨fun q hq => h.1 q (Store.drop_mem t a q hq), ih h.2⟩

theorem Store.put_sorted (m : List (Nat × α)) (a : Nat) (v : α) (h : m.Pairwise fun p q => p.1 < q.1)
    (ha : ∀ p ∈ m, p.1 ≠ a) : (Store.put a v m).Pairwise fun p q => p.1 < q.1 := by
  induction m with
  | nil => simp [Store.put]
  | cons p t ih =>
    obtain ⟨k, w⟩ := p
    have hk : k ≠ a := ha (k, w) (by simp)
    have hc := List.pairwise_cons.mp h
    by_cases hlt : a < k
    · simp only [Store.put, hlt, if_true]
      refine List.pairwise_cons.mpr ⟨fun q hq => ?_, h⟩
      rcases List.mem_cons.mp hq with rfl | hq
      · exact hlt
      · exact Nat.lt_trans hlt (hc.1 q hq)
    · simp only [Store.put, hlt, if_false]
      refine List.pairwise_cons.mpr ⟨fun q hq => ?_, ih hc.2 fun p hp => ha p (by simp [hp])⟩
      rcases Store.put_mem t a v q hq with rfl | hq
      · exact Nat.lt_of_le_of_ne (Nat.le_of_not_lt hlt) hk
      · exact hc.1 q hq

/-- Below the first listed index every index reads as unlisted. -/
theorem Store.read_below {m : List (Nat × α)} {a : Nat} (h : ∀ p ∈ m, a < p.1) : Store.read d m a = d := by
  induction m with
  | nil => rfl
  | cons p t ih =>
    obtain ⟨k, w⟩ := p
    have hk : a ≠ k := Nat.ne_of_lt (h (k, w) (by simp))
    simp only [Store.read, hk, if_false]
    exact ih fun p hp => h p (by simp [hp])

variable [DecidableEq α]

/-- Reading the index just written gives the value written. -/
theorem Store.read_write_same (m : List (Nat × α)) (a : Nat) (v : α) : Store.read d (Store.write d m a v) a = v := by
  by_cases h : v = d
  · simp [Store.write, h, Store.read_drop_same]
  · simp only [Store.write, h, if_false]
    exact Store.read_put_same _ _ _ (Store.drop_no_key m a)

/-- A write leaves every other index alone. -/
theorem Store.read_write_other (m : List (Nat × α)) {a b : Nat} (v : α) (h : b ≠ a) :
    Store.read d (Store.write d m a v) b = Store.read d m b := by
  by_cases hv : v = d
  · simp [Store.write, hv, Store.read_drop_other _ h]
  · simp only [Store.write, hv, if_false]
    rw [Store.read_put_other _ _ h, Store.read_drop_other _ h]

theorem Store.read_write (m : List (Nat × α)) (a b : Nat) (v : α) :
    Store.read d (Store.write d m a v) b = if b = a then v else Store.read d m b := by
  by_cases h : b = a
  · simp [h, Store.read_write_same]
  · simp [h, Store.read_write_other]

/-- A write keeps the canonical form. -/
theorem Store.wf_write {size : Nat} {m : List (Nat × α)} {a : Nat} (v : α) (h : Store.wf d size m) (ha : a < size) :
    Store.wf d size (Store.write d m a v) := by
  have hd : Store.wf d size (Store.drop a m) :=
    ⟨Store.drop_sorted m a h.1, fun p hp => h.2 p (Store.drop_mem m a p hp)⟩
  by_cases hv : v = d
  · simpa [Store.write, hv] using hd
  · simp only [Store.write, hv, if_false]
    refine ⟨Store.put_sorted _ a v hd.1 (Store.drop_no_key m a), fun p hp => ?_⟩
    rcases Store.put_mem _ a v p hp with rfl | hp
    · exact ⟨ha, hv⟩
    · exact hd.2 p hp

theorem Store.wf_head {size : Nat} {k : Nat} {w : α} {t : List (Nat × α)} (h : Store.wf d size ((k, w) :: t)) :
    (∀ p ∈ t, k < p.1) ∧ w ≠ d ∧ Store.wf d size t :=
  ⟨(List.pairwise_cons.mp h.1).1, (h.2 (k, w) (by simp)).2,
    (List.pairwise_cons.mp h.1).2, fun p hp => h.2 p (by simp [hp])⟩

/-- Two canonical arrays that read alike are equal. -/
theorem Store.ext {size : Nat} {m n : List (Nat × α)} (hm : Store.wf d size m) (hn : Store.wf d size n)
    (h : ∀ a, Store.read d m a = Store.read d n a) : m = n := by
  induction m generalizing n with
  | nil =>
    cases n with
    | nil => rfl
    | cons q u =>
      obtain ⟨l, x⟩ := q
      have := h l
      simp only [Store.read, if_true] at this
      exact absurd this.symm (Store.wf_head hn).2.1
  | cons p t ih =>
    obtain ⟨k, w⟩ := p
    obtain ⟨hkt, hwd, hwt⟩ := Store.wf_head hm
    cases n with
    | nil =>
      have := h k
      simp only [Store.read, if_true] at this
      exact absurd this hwd
    | cons q u =>
      obtain ⟨l, x⟩ := q
      obtain ⟨hlu, hxd, hwu⟩ := Store.wf_head hn
      have hkl : k = l := by
        rcases Nat.lt_trichotomy k l with hlt | heq | hgt
        · have hk := h k
          have : Store.read d ((l, x) :: u) k = d := Store.read_below fun p hp => by
            rcases List.mem_cons.mp hp with rfl | hp
            · exact hlt
            · exact Nat.lt_trans hlt (hlu p hp)
          rw [this] at hk
          simp only [Store.read, if_true] at hk
          exact absurd hk hwd
        · exact heq
        · have hl := h l
          have : Store.read d ((k, w) :: t) l = d := Store.read_below fun p hp => by
            rcases List.mem_cons.mp hp with rfl | hp
            · exact hgt
            · exact Nat.lt_trans hgt (hkt p hp)
          rw [this] at hl
          simp only [Store.read, if_true] at hl
          exact absurd hl.symm hxd
      subst hkl
      have hwx : w = x := by simpa [Store.read] using h k
      subst hwx
      congr 1
      refine ih hwt hwu fun a => ?_
      by_cases ha : a = k
      · subst ha
        rw [Store.read_below hkt, Store.read_below hlu]
      · simpa [Store.read, ha] using h a

end Store

theorem Mem.read_write (m : Mem) (a b : Nat) (v : Byte) : (m.write a v).read b = if b = a then v else m.read b :=
  Store.read_write m a b v

@[simp] theorem Mem.read_write_same (m : Mem) (a : Nat) (v : Byte) : (m.write a v).read a = v :=
  Store.read_write_same m a v

theorem Mem.read_write_other (m : Mem) {a b : Nat} (v : Byte) (h : b ≠ a) : (m.write a v).read b = m.read b :=
  Store.read_write_other m v h

theorem Memory.wf_write {size : Nat} {m : Mem} {a : Nat} (v : Byte) (h : Memory.wf size m) (ha : a < size) :
    Memory.wf size (m.write a v) := Store.wf_write v h ha

theorem Memory.wf_nil (size : Nat) : Memory.wf size [] := ⟨List.Pairwise.nil, by simp⟩

/-- What holds of every listed byte and of the byte written holds of every listed byte after the write. -/
theorem Mem.write_forall {P : Byte → Prop} {m : Mem} {a : Nat} {v : Byte} (h : ∀ c ∈ m, P c.2) (hv : P v) :
    ∀ c ∈ m.write a v, P c.2 := by
  intro c hc
  unfold Mem.write Store.write at hc
  split at hc
  · exact h c (Store.drop_mem m a c hc)
  · rcases Store.put_mem _ a v c hc with rfl | hc
    · exact hv
    · exact h c (Store.drop_mem m a c hc)

theorem Mem.ofBytesFrom_bounds (bs : List Byte) (k : Nat) :
    ∀ p ∈ Mem.ofBytesFrom k bs, k ≤ p.1 ∧ p.1 < k + bs.length ∧ p.2 ≠ Mem.unlisted := by
  induction bs generalizing k with
  | nil => simp [Mem.ofBytesFrom]
  | cons b t ih =>
    intro p hp
    by_cases hb : b = Mem.unlisted
    · obtain ⟨h1, h2, h3⟩ := ih (k + 1) p (by simpa [Mem.ofBytesFrom, hb] using hp)
      simp only [List.length_cons]
      exact ⟨by omega, by omega, h3⟩
    · rcases List.mem_cons.mp (by simpa [Mem.ofBytesFrom, hb] using hp) with rfl | hp
      · simp [hb]
      · obtain ⟨h1, h2, h3⟩ := ih (k + 1) p hp
        simp only [List.length_cons]
        exact ⟨by omega, by omega, h3⟩

/-- Listing bytes gives a canonical array. -/
theorem Memory.wf_ofBytesFrom (bs : List Byte) (k : Nat) {size : Nat} (h : k + bs.length ≤ size) :
    Memory.wf size (Mem.ofBytesFrom k bs) := by
  refine ⟨?_, fun p hp => ⟨by have := Mem.ofBytesFrom_bounds bs k p hp; omega, (Mem.ofBytesFrom_bounds bs k p hp).2.2⟩⟩
  induction bs generalizing k with
  | nil => simp [Mem.ofBytesFrom]
  | cons b t ih =>
    have ht : (k + 1) + t.length ≤ size := by simp only [List.length_cons] at h; omega
    by_cases hb : b = Mem.unlisted
    · simpa [Mem.ofBytesFrom, hb] using ih (k + 1) ht
    · simp only [Mem.ofBytesFrom, hb, if_false, List.pairwise_cons]
      exact ⟨fun p hp => (Mem.ofBytesFrom_bounds t (k + 1) p hp).1, ih (k + 1) ht⟩

theorem Memory.wf_ofBytes (bs : List Byte) {size : Nat} (h : bs.length ≤ size) : Memory.wf size (Mem.ofBytes bs) :=
  Memory.wf_ofBytesFrom bs 0 (by omega)

theorem Mem.read_ofBytesFrom (bs : List Byte) (k a : Nat) :
    (Mem.ofBytesFrom k bs).read a = if k ≤ a then bs.getD (a - k) 0x00#8 else 0x00#8 := by
  induction bs generalizing k with
  | nil => simp [Mem.ofBytesFrom, Mem.read, Store.read]
  | cons b t ih =>
    by_cases hb : b = Mem.unlisted
    · simp only [Mem.ofBytesFrom, hb, if_true, ih]
      rcases Nat.lt_trichotomy a k with h | h | h
      · simp [Nat.not_le.mpr h, Nat.not_le.mpr (Nat.lt_succ_of_lt h)]
      · subst h; simp
      · have : a - k = (a - (k + 1)) + 1 := by omega
        simp [Nat.le_of_lt h, Nat.succ_le_of_lt h, this]
    · simp only [Mem.ofBytesFrom, hb, if_false]
      rcases Nat.lt_trichotomy a k with h | h | h
      · have hne : a ≠ k := by omega
        have := ih (k + 1)
        simp only [Mem.read, Store.read, hne, if_false] at this ⊢
        rw [this]; simp [Nat.not_le.mpr h, Nat.not_le.mpr (Nat.lt_succ_of_lt h)]
      · subst h; simp [Mem.read, Store.read]
      · have hne : a ≠ k := by omega
        have hs : a - k = (a - (k + 1)) + 1 := by omega
        have := ih (k + 1)
        simp only [Mem.read, Store.read, hne, if_false] at this ⊢
        rw [this]; simp [Nat.le_of_lt h, Nat.succ_le_of_lt h, hs]

theorem Mem.read_ofBytes (bs : List Byte) (a : Nat) : (Mem.ofBytes bs).read a = bs.getD a 0x00#8 := by
  simp [Mem.ofBytes, Mem.read_ofBytesFrom]

@[simp] theorem Mem.toBytes_length (n : Nat) (m : Mem) : (m.toBytes n).length = n := by simp [Mem.toBytes]

/-- Above its size a canonical array reads as unlisted. -/
theorem Mem.read_outside {size : Nat} {m : Mem} (h : Memory.wf size m) {a : Nat} (ha : size ≤ a) :
    m.read a = 0x00#8 := by
  have hne : ∀ p ∈ m, p.1 < size := fun p hp => (h.2 p hp).1
  clear h
  induction m with
  | nil => rfl
  | cons p t ih =>
    obtain ⟨k, w⟩ := p
    have hk : a ≠ k := by have := hne (k, w) (by simp); simp only at this; omega
    simp only [Mem.read, Store.read, hk, if_false]
    exact ih fun p hp => hne p (by simp [hp])

/-- A canonical array is the array of its bytes. -/
theorem Mem.ofBytes_toBytes {n : Nat} {m : Mem} (h : Memory.wf n m) : Mem.ofBytes (m.toBytes n) = m := by
  refine Store.ext (Memory.wf_ofBytes _ (by simp)) h fun a => ?_
  have := Mem.read_ofBytes (m.toBytes n) a
  rw [Mem.read] at this
  rw [this]
  by_cases ha : a < n
  · simp [Mem.toBytes, List.getD, ha, Mem.read]
  · have h0 := Mem.read_outside h (Nat.le_of_not_lt ha)
    rw [Mem.read] at h0
    simp [Mem.toBytes, List.getD, ha, h0]

theorem Frame.read_write (f : Frame) (x y x' y' : Nat) (p : BitVec 32) :
    (f.write x y p).read x' y' = if x' = x ∧ y' = y then p else f.read x' y' := by
  by_cases hy : y' = y
  · subst hy
    simp [Frame.read, Frame.write, Store.read_write]
  · simp [Frame.read, Frame.write, Store.read_write, hy]

theorem Frame.wf_nil : Frame.wf [] := ⟨⟨List.Pairwise.nil, by simp⟩, by simp⟩

theorem Frame.row_wf {f : Frame} (h : f.wf) (y : Nat) : Store.wf 0#32 screenW (Store.read [] f y) := by
  replace h := h.2
  induction f with
  | nil => exact ⟨List.Pairwise.nil, by simp [Store.read]⟩
  | cons p t ih =>
    obtain ⟨k, w⟩ := p
    by_cases hy : y = k
    · simpa [Store.read, hy] using h (k, w) (by simp)
    · simp only [Store.read, hy, if_false]
      exact ih fun row hr => h row (by simp [hr])

/-- Writing a pixel of the picture keeps its canonical form. -/
theorem Frame.wf_write {f : Frame} {x y : Nat} (p : BitVec 32) (h : f.wf) (hx : x < screenW) (hy : y < screenH) :
    (f.write x y p).wf := by
  refine ⟨Store.wf_write _ h.1 hy, fun row hr => ?_⟩
  have hw := Store.wf_write p (Frame.row_wf h y) hx
  rw [Frame.write] at hr
  generalize Store.write 0#32 (Store.read [] f y) x p = w at hr hw
  rw [Store.write] at hr
  split at hr
  · exact h.2 row (Store.drop_mem f y row hr)
  · rcases Store.put_mem _ y w row hr with rfl | hr
    · exact hw
    · exact h.2 row (Store.drop_mem f y row hr)

end Sys2Proof.Machine
end

