-- ==== Sys2Proof/Laws/State.lean ====
section
/-! SUPPORT. One lemma per field for each named update of State, so that no later proof unfolds a record update. -/

namespace Sys2Proof.Machine

@[simp] theorem withCpu_cpu (s : State) (f : Cpu → Cpu) : (s.withCpu f).cpu = f s.cpu := rfl
@[simp] theorem withCpu_bus (s : State) (f : Cpu → Cpu) : (s.withCpu f).bus = s.bus := rfl
@[simp] theorem withCpu_ppu (s : State) (f : Cpu → Cpu) : (s.withCpu f).ppu = s.ppu := rfl
@[simp] theorem withCpu_apu (s : State) (f : Cpu → Cpu) : (s.withCpu f).apu = s.apu := rfl
@[simp] theorem withCpu_cart (s : State) (f : Cpu → Cpu) : (s.withCpu f).cart = s.cart := rfl
@[simp] theorem withCpu_mapper (s : State) (f : Cpu → Cpu) : (s.withCpu f).mapper = s.mapper := rfl
@[simp] theorem withCpu_loaded (s : State) (f : Cpu → Cpu) : (s.withCpu f).loaded = s.loaded := rfl
@[simp] theorem withCpu_publishedFrame (s : State) (f : Cpu → Cpu) : (s.withCpu f).publishedFrame = s.publishedFrame := rfl
@[simp] theorem withCpu_audioOut (s : State) (f : Cpu → Cpu) : (s.withCpu f).audioOut = s.audioOut := rfl
@[simp] theorem withCpu_params (s : State) (f : Cpu → Cpu) : (s.withCpu f).params = s.params := rfl

@[simp] theorem withPpu_ppu (s : State) (f : Ppu → Ppu) : (s.withPpu f).ppu = f s.ppu := rfl
@[simp] theorem withPpu_cpu (s : State) (f : Ppu → Ppu) : (s.withPpu f).cpu = s.cpu := rfl
@[simp] theorem withPpu_bus (s : State) (f : Ppu → Ppu) : (s.withPpu f).bus = s.bus := rfl
@[simp] theorem withPpu_apu (s : State) (f : Ppu → Ppu) : (s.withPpu f).apu = s.apu := rfl
@[simp] theorem withPpu_cart (s : State) (f : Ppu → Ppu) : (s.withPpu f).cart = s.cart := rfl
@[simp] theorem withPpu_mapper (s : State) (f : Ppu → Ppu) : (s.withPpu f).mapper = s.mapper := rfl
@[simp] theorem withPpu_loaded (s : State) (f : Ppu → Ppu) : (s.withPpu f).loaded = s.loaded := rfl
@[simp] theorem withPpu_publishedFrame (s : State) (f : Ppu → Ppu) : (s.withPpu f).publishedFrame = s.publishedFrame := rfl
@[simp] theorem withPpu_audioOut (s : State) (f : Ppu → Ppu) : (s.withPpu f).audioOut = s.audioOut := rfl
@[simp] theorem withPpu_params (s : State) (f : Ppu → Ppu) : (s.withPpu f).params = s.params := rfl

@[simp] theorem jump_cpu (s : State) (pc : Word) : (s.jump pc).cpu = { s.cpu with pc := pc } := rfl
@[simp] theorem jump_bus (s : State) (pc : Word) : (s.jump pc).bus = s.bus := rfl
@[simp] theorem jump_ppu (s : State) (pc : Word) : (s.jump pc).ppu = s.ppu := rfl
@[simp] theorem jump_apu (s : State) (pc : Word) : (s.jump pc).apu = s.apu := rfl
@[simp] theorem jump_cart (s : State) (pc : Word) : (s.jump pc).cart = s.cart := rfl
@[simp] theorem jump_mapper (s : State) (pc : Word) : (s.jump pc).mapper = s.mapper := rfl
@[simp] theorem jump_loaded (s : State) (pc : Word) : (s.jump pc).loaded = s.loaded := rfl
@[simp] theorem jump_publishedFrame (s : State) (pc : Word) : (s.jump pc).publishedFrame = s.publishedFrame := rfl
@[simp] theorem jump_audioOut (s : State) (pc : Word) : (s.jump pc).audioOut = s.audioOut := rfl
@[simp] theorem jump_params (s : State) (pc : Word) : (s.jump pc).params = s.params := rfl

@[simp] theorem consume_cpu (s : State) (n : Nat) :
    (s.consume n).cpu = { s.cpu with cycles := s.cpu.cycles + BitVec.ofNat 64 n } := rfl
@[simp] theorem consume_bus (s : State) (n : Nat) : (s.consume n).bus = s.bus := rfl
@[simp] theorem consume_ppu (s : State) (n : Nat) : (s.consume n).ppu = s.ppu := rfl
@[simp] theorem consume_apu (s : State) (n : Nat) : (s.consume n).apu = s.apu := rfl
@[simp] theorem consume_cart (s : State) (n : Nat) : (s.consume n).cart = s.cart := rfl
@[simp] theorem consume_mapper (s : State) (n : Nat) : (s.consume n).mapper = s.mapper := rfl
@[simp] theorem consume_loaded (s : State) (n : Nat) : (s.consume n).loaded = s.loaded := rfl
@[simp] theorem consume_publishedFrame (s : State) (n : Nat) : (s.consume n).publishedFrame = s.publishedFrame := rfl
@[simp] theorem consume_audioOut (s : State) (n : Nat) : (s.consume n).audioOut = s.audioOut := rfl
@[simp] theorem consume_params (s : State) (n : Nat) : (s.consume n).params = s.params := rfl

@[simp] theorem observePattern_mapper (s : State) (a : Nat) : (observePattern s a).mapper = s.mapper.observe a := rfl
@[simp] theorem observePattern_cpu (s : State) (a : Nat) : (observePattern s a).cpu = s.cpu := rfl
@[simp] theorem observePattern_bus (s : State) (a : Nat) : (observePattern s a).bus = s.bus := rfl
@[simp] theorem observePattern_ppu (s : State) (a : Nat) : (observePattern s a).ppu = s.ppu := rfl
@[simp] theorem observePattern_apu (s : State) (a : Nat) : (observePattern s a).apu = s.apu := rfl
@[simp] theorem observePattern_cart (s : State) (a : Nat) : (observePattern s a).cart = s.cart := rfl
@[simp] theorem observePattern_loaded (s : State) (a : Nat) : (observePattern s a).loaded = s.loaded := rfl
@[simp] theorem observePattern_publishedFrame (s : State) (a : Nat) : (observePattern s a).publishedFrame = s.publishedFrame := rfl
@[simp] theorem observePattern_audioOut (s : State) (a : Nat) : (observePattern s a).audioOut = s.audioOut := rfl
@[simp] theorem observePattern_params (s : State) (a : Nat) : (observePattern s a).params = s.params := rfl

@[simp] theorem advanceV_ppu (s : State) :
    (advanceV s).ppu = { s.ppu with v := s.ppu.v + if s.ppu.ctrl.getLsbD 2 then 32#15 else 1#15 } := rfl
@[simp] theorem advanceV_cpu (s : State)  : (advanceV s).cpu = s.cpu := rfl
@[simp] theorem advanceV_bus (s : State)  : (advanceV s).bus = s.bus := rfl
@[simp] theorem advanceV_apu (s : State)  : (advanceV s).apu = s.apu := rfl
@[simp] theorem advanceV_cart (s : State)  : (advanceV s).cart = s.cart := rfl
@[simp] theorem advanceV_mapper (s : State)  : (advanceV s).mapper = s.mapper := rfl
@[simp] theorem advanceV_loaded (s : State)  : (advanceV s).loaded = s.loaded := rfl
@[simp] theorem advanceV_publishedFrame (s : State)  : (advanceV s).publishedFrame = s.publishedFrame := rfl
@[simp] theorem advanceV_audioOut (s : State)  : (advanceV s).audioOut = s.audioOut := rfl
@[simp] theorem advanceV_params (s : State)  : (advanceV s).params = s.params := rfl

@[simp] theorem sampleIrq_cpu (s : State) : (sampleIrq s).cpu = { s.cpu with irqPending := irqLevel s } := rfl
@[simp] theorem sampleIrq_bus (s : State)  : (sampleIrq s).bus = s.bus := rfl
@[simp] theorem sampleIrq_ppu (s : State)  : (sampleIrq s).ppu = s.ppu := rfl
@[simp] theorem sampleIrq_apu (s : State)  : (sampleIrq s).apu = s.apu := rfl
@[simp] theorem sampleIrq_cart (s : State)  : (sampleIrq s).cart = s.cart := rfl
@[simp] theorem sampleIrq_mapper (s : State)  : (sampleIrq s).mapper = s.mapper := rfl
@[simp] theorem sampleIrq_loaded (s : State)  : (sampleIrq s).loaded = s.loaded := rfl
@[simp] theorem sampleIrq_publishedFrame (s : State)  : (sampleIrq s).publishedFrame = s.publishedFrame := rfl
@[simp] theorem sampleIrq_audioOut (s : State)  : (sampleIrq s).audioOut = s.audioOut := rfl
@[simp] theorem sampleIrq_params (s : State)  : (sampleIrq s).params = s.params := rfl

@[simp] theorem endOfFrame_ppu (s : State) : (endOfFrame s).ppu = { s.ppu with frameComplete := false } := rfl
@[simp] theorem endOfFrame_apu (s : State) : (endOfFrame s).apu = { s.apu with samples := [] } := rfl
@[simp] theorem endOfFrame_publishedFrame (s : State) : (endOfFrame s).publishedFrame = s.ppu.framebuffer := rfl
@[simp] theorem endOfFrame_audioOut (s : State) : (endOfFrame s).audioOut = s.audioOut ++ s.apu.samples := rfl
@[simp] theorem endOfFrame_cpu (s : State) : (endOfFrame s).cpu = s.cpu := rfl
@[simp] theorem endOfFrame_bus (s : State) : (endOfFrame s).bus = s.bus := rfl
@[simp] theorem endOfFrame_cart (s : State) : (endOfFrame s).cart = s.cart := rfl
@[simp] theorem endOfFrame_mapper (s : State) : (endOfFrame s).mapper = s.mapper := rfl
@[simp] theorem endOfFrame_loaded (s : State) : (endOfFrame s).loaded = s.loaded := rfl
@[simp] theorem endOfFrame_params (s : State) : (endOfFrame s).params = s.params := rfl

@[simp] theorem setZN_a (p : Cpu) (v : Byte) : (p.setZN v).a = p.a := rfl
@[simp] theorem setZN_x (p : Cpu) (v : Byte) : (p.setZN v).x = p.x := rfl
@[simp] theorem setZN_y (p : Cpu) (v : Byte) : (p.setZN v).y = p.y := rfl
@[simp] theorem setZN_s (p : Cpu) (v : Byte) : (p.setZN v).s = p.s := rfl
@[simp] theorem setZN_pc (p : Cpu) (v : Byte) : (p.setZN v).pc = p.pc := rfl
@[simp] theorem setZN_i (p : Cpu) (v : Byte) : (p.setZN v).i = p.i := rfl
@[simp] theorem setZN_d (p : Cpu) (v : Byte) : (p.setZN v).d = p.d := rfl
@[simp] theorem setZN_v (p : Cpu) (v : Byte) : (p.setZN v).v = p.v := rfl
@[simp] theorem setZN_c (p : Cpu) (v : Byte) : (p.setZN v).c = p.c := rfl
@[simp] theorem setZN_nmiPending (p : Cpu) (v : Byte) : (p.setZN v).nmiPending = p.nmiPending := rfl
@[simp] theorem setZN_irqPending (p : Cpu) (v : Byte) : (p.setZN v).irqPending = p.irqPending := rfl
@[simp] theorem setZN_cycles (p : Cpu) (v : Byte) : (p.setZN v).cycles = p.cycles := rfl
@[simp] theorem setZN_unsupportedSeen (p : Cpu) (v : Byte) : (p.setZN v).unsupportedSeen = p.unsupportedSeen := rfl
@[simp] theorem setZN_unsupportedOpcode (p : Cpu) (v : Byte) : (p.setZN v).unsupportedOpcode = p.unsupportedOpcode := rfl
@[simp] theorem setZN_unsupportedAt (p : Cpu) (v : Byte) : (p.setZN v).unsupportedAt = p.unsupportedAt := rfl
@[simp] theorem setZN_z (p : Cpu) (v : Byte) : (p.setZN v).z = decide (v = 0x00#8) := rfl
@[simp] theorem setZN_n (p : Cpu) (v : Byte) : (p.setZN v).n = v.getLsbD 7 := rfl

@[simp] theorem withStatus_a (p : Cpu) (v : Byte) : (p.withStatus v).a = p.a := rfl
@[simp] theorem withStatus_x (p : Cpu) (v : Byte) : (p.withStatus v).x = p.x := rfl
@[simp] theorem withStatus_y (p : Cpu) (v : Byte) : (p.withStatus v).y = p.y := rfl
@[simp] theorem withStatus_s (p : Cpu) (v : Byte) : (p.withStatus v).s = p.s := rfl
@[simp] theorem withStatus_pc (p : Cpu) (v : Byte) : (p.withStatus v).pc = p.pc := rfl
@[simp] theorem withStatus_nmiPending (p : Cpu) (v : Byte) : (p.withStatus v).nmiPending = p.nmiPending := rfl
@[simp] theorem withStatus_irqPending (p : Cpu) (v : Byte) : (p.withStatus v).irqPending = p.irqPending := rfl
@[simp] theorem withStatus_cycles (p : Cpu) (v : Byte) : (p.withStatus v).cycles = p.cycles := rfl
@[simp] theorem withStatus_unsupportedSeen (p : Cpu) (v : Byte) : (p.withStatus v).unsupportedSeen = p.unsupportedSeen := rfl
@[simp] theorem withStatus_unsupportedOpcode (p : Cpu) (v : Byte) : (p.withStatus v).unsupportedOpcode = p.unsupportedOpcode := rfl
@[simp] theorem withStatus_unsupportedAt (p : Cpu) (v : Byte) : (p.withStatus v).unsupportedAt = p.unsupportedAt := rfl
@[simp] theorem withStatus_n (p : Cpu) (v : Byte) : (p.withStatus v).n = v.getLsbD 7 := rfl
@[simp] theorem withStatus_v (p : Cpu) (v : Byte) : (p.withStatus v).v = v.getLsbD 6 := rfl
@[simp] theorem withStatus_d (p : Cpu) (v : Byte) : (p.withStatus v).d = v.getLsbD 3 := rfl
@[simp] theorem withStatus_i (p : Cpu) (v : Byte) : (p.withStatus v).i = v.getLsbD 2 := rfl
@[simp] theorem withStatus_z (p : Cpu) (v : Byte) : (p.withStatus v).z = v.getLsbD 1 := rfl
@[simp] theorem withStatus_c (p : Cpu) (v : Byte) : (p.withStatus v).c = v.getLsbD 0 := rfl

end Sys2Proof.Machine
end

