-- ==== Sys2Proof/Laws/Bus.lean ====
section
/-! SUPPORT. What a bus read and a bus write can change (20_memory.md R61 to R75, R80 to R84), and what they leave. -/

namespace Sys2Proof.Machine

theorem State.readEffect.refl (s : State) : s.readEffect s := rfl

theorem State.readEffect.trans {s t u : State} (h1 : s.readEffect t) (h2 : t.readEffect u) : s.readEffect u := by
  unfold State.readEffect at *
  conv_lhs => rw [h2]
  rw [h1]

theorem State.readEffect.cpu {s t : State} (h : s.readEffect t) : t.cpu = s.cpu := by
  rw [State.readEffect] at h; rw [h]
theorem State.readEffect.cart {s t : State} (h : s.readEffect t) : t.cart = s.cart := by
  rw [State.readEffect] at h; rw [h]
theorem State.readEffect.loaded {s t : State} (h : s.readEffect t) : t.loaded = s.loaded := by
  rw [State.readEffect] at h; rw [h]
theorem State.readEffect.params {s t : State} (h : s.readEffect t) : t.params = s.params := by
  rw [State.readEffect] at h; rw [h]
theorem State.readEffect.published {s t : State} (h : s.readEffect t) : t.publishedFrame = s.publishedFrame := by
  rw [State.readEffect] at h; rw [h]
theorem State.readEffect.audioOut {s t : State} (h : s.readEffect t) : t.audioOut = s.audioOut := by
  rw [State.readEffect] at h; rw [h]
theorem State.readEffect.ram {s t : State} (h : s.readEffect t) : t.bus.ram = s.bus.ram := by
  rw [State.readEffect] at h; rw [h]
theorem State.readEffect.mirroring {s t : State} (h : s.readEffect t) : t.mapper.mirroring = s.mapper.mirroring := by
  rw [State.readEffect] at h; rw [h]

/-- A read changes no byte of storage. -/
theorem State.readEffect.byte {s t : State} (h : s.readEffect t) (l : Loc) : t.byte l = s.byte l := by
  unfold State.readEffect at h
  rw [h]
  cases l <;> rfl

theorem Mapper.observe_mirroring (g : Mapper) (a : Nat) : (g.observe a).mirroring = g.mirroring := by
  unfold Mapper.observe
  split <;> try rfl
  dsimp only
  split <;> rfl

/-- What observing a pattern access keeps of the mapper. -/
theorem Mapper.observe_frame (g : Mapper) (a : Nat) :
    g.observe a = { g with irqFlag := (g.observe a).irqFlag, variant := (g.observe a).variant } := by
  have := Mapper.observe_mirroring g a
  cases h : g.observe a
  rw [h] at this
  simp only at this ⊢
  rw [this]

theorem ppuRead_state (s : State) (a : Nat) :
    (ppuRead s a).2 = s ∨ (ppuRead s a).2 = observePattern s (a % 0x4000) := by
  unfold ppuRead
  dsimp only
  split
  · exact .inr rfl
  · split <;> exact .inl rfl

theorem observePattern_effect (s : State) (a : Nat) : s.readEffect (observePattern s a) := by
  unfold State.readEffect observePattern
  conv_lhs => rw [Mapper.observe_frame]

theorem ppuRead_effect (s : State) (a : Nat) : s.readEffect (ppuRead s a).2 := by
  rcases ppuRead_state s a with h | h <;> rw [h]
  · exact .refl s
  · exact observePattern_effect s _

theorem advanceV_effect (s : State) (b : Byte) : s.readEffect (advanceV (setBuffer s b)) := rfl

theorem readPpuData_effect (s : State) : s.readEffect (readPpuData s).2 := by
  unfold readPpuData
  dsimp only
  split
  · exact (ppuRead_effect s _).trans (advanceV_effect _ _)
  · exact ((ppuRead_effect s _).trans (ppuRead_effect _ _)).trans (advanceV_effect _ _)

theorem readPpuReg_effect (s : State) (r : Nat) : s.readEffect (readPpuReg s r).2 := by
  unfold readPpuReg
  split
  · rfl
  · rfl
  · exact readPpuData_effect s
  · rfl

/-- A bus read changes only what 20_memory.md R68 lists. -/
theorem memRead_effect (s : State) (addr : Word) : s.readEffect (memRead s addr).2 := by
  unfold memRead
  split
  · rfl
  · exact readPpuReg_effect s _
  · split <;> rfl
  · unfold Pad.read; dsimp only; split <;> rfl
  · unfold Pad.read; dsimp only; split <;> rfl
  · rfl
  · rfl
  · rfl

/-- A bus read of an address without a side effect changes nothing. -/
theorem memRead_pure {s : State} {addr : Word} (h : readHasEffect addr = false) : (memRead s addr).2 = s := by
  unfold readHasEffect at h
  simp only [Bool.or_eq_false_iff, Bool.and_eq_false_iff, decide_eq_false_iff_not] at h
  obtain ⟨⟨⟨h1, h2⟩, h3⟩, h4⟩ := h
  unfold memRead
  split
  · rfl
  · rename_i hr
    unfold readPpuReg
    split <;> simp_all
  · simp [h2]
  · rename_i hr
    exfalso; apply h3
    unfold route at hr
    dsimp only at hr
    repeat' split at hr
    all_goals first | bv_omega | cases hr
  · rename_i hr
    exfalso; apply h4
    unfold route at hr
    dsimp only at hr
    repeat' split at hr
    all_goals first | bv_omega | cases hr
  · rfl
  · rfl
  · rfl

/-- Work RAM is read without a side effect (20_memory.md R62). -/
theorem memRead_workRam (s : State) {addr : Word} (h : addr.toNat < 0x2000) :
    memRead s addr = (s.bus.ram.read (ramIndex addr), s) := by
  simp [memRead, route, h]

theorem memWrite_workRam (s : State) {addr : Word} (v : Byte) (h : addr.toNat < 0x2000) :
    memWrite s addr v = { s with bus := { s.bus with ram := s.bus.ram.write (ramIndex addr) v } } := by
  simp [memWrite, route, h]

/-- What a bus write keeps of everything but the devices it writes: `cpu` but for a raised NMI, what the host sees, the samples
of the unfinished frame and the buttons. -/
structure State.writeEffect (s t : State) : Prop where
  cpu : t.cpu = { s.cpu with nmiPending := t.cpu.nmiPending }
  nmi : s.cpu.nmiPending = true → t.cpu.nmiPending = true
  loaded : t.loaded = s.loaded
  params : t.params = s.params
  published : t.publishedFrame = s.publishedFrame
  audioOut : t.audioOut = s.audioOut
  prgRom : t.cart = { s.cart with prgRam := t.cart.prgRam, chrRam := t.cart.chrRam }
  samples : t.apu.samples = s.apu.samples
  buttons0 : t.bus.pad0.buttons = s.bus.pad0.buttons
  buttons1 : t.bus.pad1.buttons = s.bus.pad1.buttons

theorem State.writeEffect.refl (s : State) : s.writeEffect s := ⟨rfl, id, rfl, rfl, rfl, rfl, rfl, rfl, rfl, rfl⟩

theorem State.writeEffect.trans {s t u : State} (h1 : s.writeEffect t) (h2 : t.writeEffect u) : s.writeEffect u where
  cpu := by conv_lhs => rw [h2.cpu, h1.cpu]
  nmi h := h2.nmi (h1.nmi h)
  loaded := h2.loaded.trans h1.loaded
  params := h2.params.trans h1.params
  published := h2.published.trans h1.published
  audioOut := h2.audioOut.trans h1.audioOut
  prgRom := by conv_lhs => rw [h2.prgRom, h1.prgRom]
  samples := h2.samples.trans h1.samples
  buttons0 := h2.buttons0.trans h1.buttons0
  buttons1 := h2.buttons1.trans h1.buttons1

theorem State.readEffect.toWrite {s t : State} (h : s.readEffect t) : s.writeEffect t :=
  ⟨by rw [h.cpu], by rw [h.cpu]; exact id, h.loaded, h.params, h.published, h.audioOut, by rw [h.cart],
    by rw [h], by rw [h], by rw [h]⟩

theorem writePpuCtrl_effect (s : State) (v : Byte) : s.writeEffect (writePpuCtrl s v) :=
  ⟨rfl, fun h => by simp [writePpuCtrl, h], rfl, rfl, rfl, rfl, rfl, rfl, rfl, rfl⟩

theorem mapWrite_effect (s : State) (a : Nat) (v : Byte) (dev : Device) : s.writeEffect (mapWrite s a v dev) := by
  unfold mapWrite
  split
  · split
    · exact ⟨rfl, id, rfl, rfl, rfl, rfl, rfl, rfl, rfl, rfl⟩
    · split <;> exact ⟨rfl, id, rfl, rfl, rfl, rfl, rfl, rfl, rfl, rfl⟩
  · split <;> exact ⟨rfl, id, rfl, rfl, rfl, rfl, rfl, rfl, rfl, rfl⟩

theorem observePattern_writeEffect (s : State) (a : Nat) : s.writeEffect (observePattern s a) :=
  ⟨rfl, id, rfl, rfl, rfl, rfl, rfl, rfl, rfl, rfl⟩

theorem ppuWrite_effect (s : State) (a : Nat) (v : Byte) : s.writeEffect (ppuWrite s a v) := by
  unfold ppuWrite
  dsimp only
  split
  · exact (mapWrite_effect s _ v .ppu).trans (observePattern_writeEffect _ _)
  · split <;> exact ⟨rfl, id, rfl, rfl, rfl, rfl, rfl, rfl, rfl, rfl⟩

theorem writePpuData_effect (s : State) (v : Byte) : s.writeEffect (writePpuData s v) :=
  (ppuWrite_effect s _ v).trans ⟨rfl, id, rfl, rfl, rfl, rfl, rfl, rfl, rfl, rfl⟩

theorem writePpuReg_effect (s : State) (r : Nat) (v : Byte) : s.writeEffect (writePpuReg s r v) := by
  unfold writePpuReg
  split
  · exact writePpuCtrl_effect s v
  · exact ⟨rfl, id, rfl, rfl, rfl, rfl, rfl, rfl, rfl, rfl⟩
  · exact .refl s
  · exact ⟨rfl, id, rfl, rfl, rfl, rfl, rfl, rfl, rfl, rfl⟩
  · exact ⟨rfl, id, rfl, rfl, rfl, rfl, rfl, rfl, rfl, rfl⟩
  · unfold writePpuScroll; dsimp only; split <;> exact ⟨rfl, id, rfl, rfl, rfl, rfl, rfl, rfl, rfl, rfl⟩
  · unfold writePpuAddr; dsimp only; split <;> exact ⟨rfl, id, rfl, rfl, rfl, rfl, rfl, rfl, rfl, rfl⟩
  · exact writePpuData_effect s v

theorem oamDmaByte_effect (p : Byte) (s : State) (i : Nat) : s.writeEffect (oamDmaByte p s i) :=
  (memRead_effect s _).toWrite.trans ⟨rfl, id, rfl, rfl, rfl, rfl, rfl, rfl, rfl, rfl⟩

theorem oamDma_effect (s : State) (p : Byte) : s.writeEffect (oamDma s p) := by
  unfold oamDma
  generalize List.range 256 = l
  induction l generalizing s with
  | nil => exact .refl s
  | cons i t ih => exact (oamDmaByte_effect p s i).trans (ih _)

theorem Apu.write_samples (a : Apu) (addr : Nat) (d : Byte) : (a.write addr d).samples = a.samples := by
  simp only [Apu.write, Apu.writeEnables, Apu.writeFrame]
  split_ifs <;> rfl

theorem Bus.writeStrobe_buttons (b : Bus) (d : Byte) :
    (b.writeStrobe d).pad0.buttons = b.pad0.buttons ∧ (b.writeStrobe d).pad1.buttons = b.pad1.buttons := by
  unfold Bus.writeStrobe
  split_ifs <;> exact ⟨rfl, rfl⟩

/-- A bus write changes no CPU register; it can only raise an NMI. It changes no ROM and nothing the host sees. -/
theorem memWrite_effect (s : State) (addr : Word) (v : Byte) : s.writeEffect (memWrite s addr v) := by
  unfold memWrite
  split
  · exact ⟨rfl, id, rfl, rfl, rfl, rfl, rfl, rfl, rfl, rfl⟩
  · exact writePpuReg_effect s _ v
  · exact ⟨rfl, id, rfl, rfl, rfl, rfl, rfl, Apu.write_samples _ _ _, rfl, rfl⟩
  · exact ⟨rfl, id, rfl, rfl, rfl, rfl, rfl, Apu.write_samples _ _ _, rfl, rfl⟩
  · exact oamDma_effect s v
  · exact ⟨rfl, id, rfl, rfl, rfl, rfl, rfl, rfl, (Bus.writeStrobe_buttons _ _).1, (Bus.writeStrobe_buttons _ _).2⟩
  · exact .refl s
  · exact mapWrite_effect s _ v .cpu

/-- OAM DMA stores to OAM alone. -/
theorem oamDma_byte (s : State) (p : Byte) (l : Loc) (h : ∀ i, l ≠ .oam i) : (oamDma s p).byte l = s.byte l := by
  unfold oamDma
  generalize List.range 256 = is
  induction is generalizing s with
  | nil => rfl
  | cons i t ih =>
    refine (ih _).trans ?_
    have hr := (memRead_effect s (word p (BitVec.ofNat 8 i))).byte l
    rw [← hr]
    cases l <;> first | rfl | exact absurd rfl (h _)

theorem ppuWrite_byte (s : State) (a : Nat) (v : Byte) (l : Loc) (h : s.ppuLoc a ≠ some l) :
    (ppuWrite s a v).byte l = s.byte l := by
  have hobs : ∀ (u : State) (b : Nat), (observePattern u b).byte l = u.byte l := fun u b => by cases l <;> rfl
  unfold ppuWrite State.ppuLoc at *
  dsimp only at *
  split
  · rename_i hp
    simp only [hp, if_true] at h
    rw [hobs]
    unfold mapWrite
    dsimp only
    split
    · rename_i off hm
      simp only [hm] at h
      cases l <;> try rfl
      rename_i i
      refine Mem.read_write_other _ _ fun e => h (by rw [e])
    · rfl
  · rename_i hp
    simp only [hp, if_false] at h
    split
    · rename_i hq
      simp only [hq, if_true] at h
      cases l <;> try rfl
      refine Mem.read_write_other _ _ fun e => h (by rw [e])
    · rename_i hq
      simp only [hq, if_false] at h
      cases l <;> try rfl
      refine Mem.read_write_other _ _ fun e => h (by rw [e])

theorem writePpuReg_byte (s : State) {r : Nat} (v : Byte) (l : Loc) (hr : r < 8)
    (h4 : r = 4 → l ≠ .oam s.ppu.oamAddr.toNat) (h7 : r = 7 → s.ppuLoc s.ppu.v.toNat ≠ some l) :
    (writePpuReg s r v).byte l = s.byte l := by
  interval_cases r
  · cases l <;> rfl
  · cases l <;> rfl
  · rfl
  · cases l <;> rfl
  · cases l <;> try rfl
    refine Mem.read_write_other _ _ fun e => h4 rfl (by rw [e])
  · simp only [writePpuReg, writePpuScroll]; split <;> cases l <;> rfl
  · simp only [writePpuReg, writePpuAddr]; split <;> cases l <;> rfl
  · have hp : s.ppuLoc (s.ppu.v.toNat % 0x4000) ≠ some l := fun e => h7 rfl (by
      rw [← e]; simp [State.ppuLoc])
    rw [← ppuWrite_byte s _ v l hp]
    cases l <;> rfl

/-- A CPU write changes no byte of storage but those it stores to. -/
theorem memWrite_byte (s : State) (addr : Word) (v : Byte) (l : Loc) (h : ¬ s.storesTo addr l) :
    (memWrite s addr v).byte l = s.byte l := by
  unfold memWrite State.storesTo at *
  split
  · rename_i hr
    simp only [hr] at h
    cases l <;> try rfl
    refine Mem.read_write_other _ _ fun e => h (by rw [e])
  · rename_i hr
    simp only [hr] at h
    exact writePpuReg_byte s v l (Nat.mod_lt _ (by decide)) (fun h4 e => h (.inl ⟨h4, e⟩))
      fun h7 e => h (.inr ⟨h7, e.symm⟩)
  · cases l <;> rfl
  · cases l <;> rfl
  · rename_i hr
    simp only [hr] at h
    exact oamDma_byte s v l fun i e => h ⟨i, e⟩
  · have hb : (s.bus.writeStrobe v).ram = s.bus.ram := by
      unfold Bus.writeStrobe; split
      · rfl
      · split <;> rfl
    cases l <;> try rfl
    simp [State.byte, hb]
  · rfl
  · rename_i hr
    simp only [hr] at h
    unfold mapWrite
    dsimp only
    split
    · rename_i hb
      cases l <;> try rfl
      refine Mem.read_write_other _ _ fun e => h ⟨hb.1, hb.2, by rw [e]⟩
    · split
      · cases l <;> rfl
      · rfl

end Sys2Proof.Machine
end

