-- ==== Sys2Proof/Laws/Ops.lean ====
section
/-! SUPPORT. The shared operations of the meanings: the stack, zero-page pointers, effective addresses, operands, stores,
interrupt entry; and that every instruction answers a next state. -/

namespace Sys2Proof.Machine

theorem word_zero_toNat (z : Byte) : (word 0#8 z).toNat = z.toNat := by
  have := z.isLt
  simp only [word, BitVec.toNat_append, BitVec.toNat_ofNat, Nat.zero_mod, Nat.zero_shiftLeft, Nat.zero_or]

theorem stackAddr_toNat (sp : Byte) : (stackAddr sp).toNat = 256 + sp.toNat := by
  have := sp.isLt
  simp only [stackAddr, word, BitVec.toNat_append, BitVec.toNat_ofNat]
  rw [← Nat.shiftLeft_add_eq_or_of_lt this]
  rfl

theorem ramIndex_stackAddr (sp : Byte) : ramIndex (stackAddr sp) = 256 + sp.toNat := by
  have := sp.isLt
  rw [ramIndex, stackAddr_toNat]; omega

theorem ramIndex_zeroPage (z : Byte) : ramIndex (word 0#8 z) = z.toNat := by
  have := z.isLt
  rw [ramIndex, word_zero_toNat]; omega

theorem memRead_zeroPage (s : State) (z : Byte) : memRead s (word 0#8 z) = (s.bus.ram.read z.toNat, s) := by
  have := z.isLt
  rw [memRead_workRam s (by rw [word_zero_toNat]; omega), ramIndex_zeroPage]

/-- The byte of the stack cell `$0100 + sp`. -/
def stackByte (s : State) (sp : Byte) : Byte := s.bus.ram.read (256 + sp.toNat)

/-- Work RAM with one stack cell written. -/
def stackWrite (s : State) (sp v : Byte) : State :=
  { s with bus := { s.bus with ram := s.bus.ram.write (256 + sp.toNat) v } }

theorem memRead_stack (s : State) (sp : Byte) : memRead s (stackAddr sp) = (stackByte s sp, s) := by
  have := sp.isLt
  rw [memRead_workRam s (by rw [stackAddr_toNat]; omega), ramIndex_stackAddr, stackByte]

theorem memWrite_stack (s : State) (sp v : Byte) : memWrite s (stackAddr sp) v = stackWrite s sp v := by
  have := sp.isLt
  rw [memWrite_workRam s v (by rw [stackAddr_toNat]; omega), ramIndex_stackAddr, stackWrite]

/-- `Push(v)`: one cell of page one, and `S` one lower. -/
theorem push_eq (s : State) (v : Byte) :
    push s v = { stackWrite s s.cpu.s v with cpu := { s.cpu with s := s.cpu.s - 1#8 } } := by
  rw [push, memWrite_stack]; rfl

/-- `Pull()`: the cell above `S`, and `S` one higher. -/
theorem pull_eq (s : State) :
    pull s = (stackByte s (s.cpu.s + 1#8), { s with cpu := { s.cpu with s := s.cpu.s + 1#8 } }) := by
  rw [pull, memRead_stack]; rfl

/-- `Push16(w)`: the high byte at `S`, the low byte below it. -/
theorem push16_eq (s : State) (w : Word) :
    push16 s w = { stackWrite (stackWrite s s.cpu.s (hi w)) (s.cpu.s - 1#8) (lo w) with
      cpu := { s.cpu with s := s.cpu.s - 1#8 - 1#8 } } := by
  rw [push16, push_eq, push_eq]; rfl

/-- `Pull16()`: the low byte above `S`, the high byte above that. -/
theorem pull16_eq (s : State) :
    pull16 s = (word (stackByte s (s.cpu.s + 1#8 + 1#8)) (stackByte s (s.cpu.s + 1#8)),
      { s with cpu := { s.cpu with s := s.cpu.s + 1#8 + 1#8 } }) := by
  rw [pull16, pull_eq]
  dsimp only
  rw [pull_eq]
  rfl

/-- `ZpRead16(z)`: both bytes from page zero, nothing changed. -/
theorem zpRead16_eq (s : State) (z : Byte) :
    zpRead16 s z = (word (s.bus.ram.read (z + 1#8).toNat) (s.bus.ram.read z.toNat), s) := by
  rw [zpRead16, memRead_zeroPage]
  dsimp only
  rw [memRead_zeroPage]

/-- Computing an effective address changes nothing: pointers lie in work RAM. -/
@[simp] theorem effAddr_state (s : State) (m : MemMode) : (effAddr s m).2 = s := by
  cases m <;> simp [effAddr, zpRead16_eq]

theorem effAddr_izx (s : State) (a : Byte) :
    (effAddr s (.izx a)).1 = .plain
      (word (s.bus.ram.read (a + s.cpu.x + 1#8).toNat) (s.bus.ram.read (a + s.cpu.x).toNat)) := by
  simp [effAddr, zpRead16_eq]

theorem effAddr_izy (s : State) (a : Byte) :
    (effAddr s (.izy a)).1 = .indexed
      (word (s.bus.ram.read (a + 1#8).toNat) (s.bus.ram.read a.toNat)) s.cpu.y := by
  simp [effAddr, zpRead16_eq]

/-- Reading an operand changes only what the data read changes. -/
theorem readOperand_effect (s : State) (o : ReadOp) : s.readEffect (readOperand s o).2.2 := by
  cases o with
  | imm v => rfl
  | mem m => simpa [readOperand] using memRead_effect s _

/-- A reading instruction changes the CPU registers its meaning names, the cycle count, and what its read changes. -/
theorem readThen_eq (s : State) (o : ReadOp) (f : Cpu → Byte → Cpu) :
    readThen s o f = { (readOperand s o).2.2 with
      cpu := { f s.cpu (readOperand s o).1 with
        cycles := (f s.cpu (readOperand s o).1).cycles + BitVec.ofNat 64 (readOperand s o).2.1 } } := by
  have h := (readOperand_effect s o).cpu
  simp only [readThen, State.consume, State.withCpu, h]

/-- A store: the write, and the cycles with those of an OAM DMA. -/
theorem storeTo_eq (s : State) (m : MemMode) (v : Byte) :
    storeTo s m v = (memWrite s (effAddr s m).1.addr v).consume
      (storeCycles m + dmaCycles (effAddr s m).1.addr s.cpu.cycles (storeCycles m)) := by
  simp [storeTo, State.store]

theorem modify_eq (s : State) (m : MemMode) (f : Cpu → Byte → Byte × Cpu) :
    modify s m f =
      let b := memRead s (effAddr s m).1.addr
      State.store { b.2 with cpu := (f s.cpu b.1).2 } (effAddr s m).1.addr (f s.cpu b.1).1 (rmwCycles m) := by
  have h := (memRead_effect s (effAddr s m).1.addr).cpu
  simp only [modify, effAddr_state, h]

theorem exec_next (i : Instr) (s : State) : ∃ t, exec i s = .next t := by
  cases i with
  | jmp t => cases t <;> exact ⟨_, rfl⟩
  | _ => exact ⟨_, rfl⟩

/-- A CPU step never stops: the CPU has no fault (60_exceptions.md R580). -/
theorem cpuStep_next (s : State) : ∃ t, cpuStep s = .next t := by
  unfold cpuStep
  split
  · exact ⟨_, rfl⟩
  · split
    · exact ⟨_, rfl⟩
    · exact exec_next _ _

end Sys2Proof.Machine
end

