-- ==== Sys2Proof/Laws/Exec.lean ====
section
/-! SUPPORT. What the shared operations compute, in the numbers and the terms of Safety.lean: words and their halves, the
status byte, branches, data writes, interrupt entry and return, and that a bus read does not look at the CPU registers. -/

namespace Sys2Proof.Machine

theorem word_eq (h l : Byte) : word h l = BitVec.ofNat 16 (256 * h.toNat + l.toNat) := by
  apply BitVec.eq_of_toNat_eq
  have := h.isLt; have := l.isLt
  simp only [word, BitVec.toNat_append, BitVec.toNat_ofNat]
  rw [← Nat.shiftLeft_add_eq_or_of_lt l.isLt, Nat.shiftLeft_eq]; omega

theorem word_toNat (h l : Byte) : (word h l).toNat = 256 * h.toNat + l.toNat := by
  have := h.isLt; have := l.isLt
  rw [word_eq, BitVec.toNat_ofNat]; omega

theorem hi_eq (w : Word) : hi w = BitVec.ofNat 8 (w.toNat / 256) := by
  apply BitVec.eq_of_toNat_eq
  simp [hi, BitVec.extractLsb'_toNat, Nat.shiftRight_eq_div_pow]

theorem lo_eq (w : Word) : lo w = BitVec.ofNat 8 (w.toNat % 256) := by
  apply BitVec.eq_of_toNat_eq
  simp [lo]

theorem hi_ne (a b : Word) : hi a ≠ hi b ↔ a.toNat / 256 ≠ b.toNat / 256 := by
  rw [hi_eq, hi_eq, ne_eq, ne_eq, not_iff_not, ← BitVec.toNat_inj]
  have := a.isLt; have := b.isLt
  simp only [BitVec.toNat_ofNat]
  omega

theorem Cpu.zn_eq_setZN (p : Cpu) (v : Byte) : p.zn v = p.setZN v := by
  have h : decide (0x80 ≤ v.toNat) = v.getLsbD 7 := by revert v; decide +kernel
  simp only [Cpu.zn, Cpu.setZN, h]

theorem status_toNat (p : Cpu) (b : Bool) :
    (p.status b).toNat = 128 * p.n.toNat + 64 * p.v.toNat + 32 + 16 * b.toNat + 8 * p.d.toNat + 4 * p.i.toNat +
      2 * p.z.toNat + p.c.toNat := by
  unfold Cpu.status
  cases p.n <;> cases p.v <;> cases b <;> cases p.d <;> cases p.i <;> cases p.z <;> cases p.c <;> rfl

theorem withStatus_status (p q : Cpu) (b : Bool) :
    q.withStatus (p.status b) = { q with n := p.n, v := p.v, d := p.d, i := p.i, z := p.z, c := p.c } := by
  unfold Cpu.status Cpu.withStatus
  cases p.n <;> cases p.v <;> cases b <;> cases p.d <;> cases p.i <;> cases p.z <;> cases p.c <;> rfl

theorem State.store_eq (s : State) (ea : Word) (v : Byte) (n : Nat) : s.store ea v n = s.afterWrite ea v n := by
  have h := (memWrite_effect s ea v).cpu
  unfold State.store State.afterWrite State.consume State.withCpu
  rw [h]

theorem branchTarget_eq (pc : Word) (off : Byte) : branchTarget pc off = BitVec.ofInt 16 (pc.toNat + off.toInt) := by
  simp only [branchTarget, sext16]
  apply BitVec.eq_of_toInt_eq
  rw [BitVec.toInt_add, BitVec.toInt_ofInt, BitVec.toInt_signExtend_of_le (by decide)]
  have h : (pc.toNat : Int).bmod (2 ^ 16) = pc.toInt := by rw [BitVec.toInt_eq_toNat_bmod]
  rw [← h]
  simp

/-- The stack cells below `S` are three different ones. -/
theorem stackCell_ne {v w : Byte} (h : v ≠ w) : stackCell v ≠ stackCell w := by
  simp only [stackCell]
  intro e
  exact h (BitVec.eq_of_toNat_eq (by omega))

theorem route_cartridge {a : Word} (h : 0x4020 ≤ a.toNat) : route a = .cartridge := by
  unfold route
  dsimp only
  repeat' split
  all_goals first | rfl | omega

/-- Taking an interrupt whose vector lies in the cartridge. -/
theorem enter_eq (s : State) (ret : Word) (b : Bool) (vector : Word) (h : 0x4020 ≤ vector.toNat)
    (h' : vector.toNat < 65535) :
    enter s ret b vector = { s with
      bus := { s.bus with
        ram := ((s.bus.ram.write (stackCell s.cpu.s) (BitVec.ofNat 8 (ret.toNat / 256))).write
          (stackCell (s.cpu.s - 1#8)) (BitVec.ofNat 8 (ret.toNat % 256))).write
          (stackCell (s.cpu.s - 2#8)) (s.cpu.status b) }
      cpu := Cpu.later { s.cpu with
        s := s.cpu.s - 3#8
        i := true
        pc := BitVec.ofNat 16 ((cartByte s vector).toNat + 256 * (cartByte s (vector + 1#16)).toNat) } 7 } := by
  have hr := route_cartridge h
  have hr' : route (vector + 1#16) = .cartridge := route_cartridge (by bv_omega)
  have s2 : s.cpu.s - 1#8 - 1#8 = s.cpu.s - 2#8 := by bv_omega
  have s3 : s.cpu.s - 2#8 - 1#8 = s.cpu.s - 3#8 := by bv_omega
  have hc : ∀ (u : State) (a : Word), u.mapper = s.mapper → u.cart = s.cart → u.params = s.params →
      cartByte u a = cartByte s a := by
    intro u a h1 h2 h3; simp only [cartByte, h1, h2, h3]
  simp only [enter, push16_eq, push_eq, memRead16, memRead, hr, hr', State.withCpu, State.jump, State.consume, word_eq,
    hi_eq, lo_eq, s2, s3]
  rw [hc _ _ rfl rfl rfl, hc _ _ rfl rfl rfl, Nat.add_comm (256 * _)]
  rfl

/-- Returning from an interrupt. -/
theorem returnFromInterrupt_eq (s : State) :
    let p := s.byte (.ram (stackCell (s.cpu.s + 1#8)))
    let l := s.byte (.ram (stackCell (s.cpu.s + 2#8)))
    let h := s.byte (.ram (stackCell (s.cpu.s + 3#8)))
    returnFromInterrupt s = { s with
      cpu := Cpu.later { s.cpu with
        s := s.cpu.s + 3#8
        n := p.getLsbD 7, v := p.getLsbD 6, d := p.getLsbD 3, i := p.getLsbD 2, z := p.getLsbD 1, c := p.getLsbD 0
        pc := BitVec.ofNat 16 (l.toNat + 256 * h.toNat) } 6 } := by
  have s2 : s.cpu.s + 1#8 + 1#8 = s.cpu.s + 2#8 := by bv_omega
  have s3 : s.cpu.s + 2#8 + 1#8 = s.cpu.s + 3#8 := by bv_omega
  simp only [returnFromInterrupt, pull_eq, pull16_eq, State.withCpu, State.jump, State.consume, s2, s3, word_eq,
    Cpu.withStatus]
  rw [Nat.add_comm (256 * _)]
  rfl

theorem ppuRead_cpu (s : State) (p : Cpu) (a : Nat) :
    ppuRead { s with cpu := p } a = ((ppuRead s a).1, { (ppuRead s a).2 with cpu := p }) := by
  unfold ppuRead
  dsimp only
  split
  · rfl
  · split <;> rfl

/-- A data-port read below the palette. -/
theorem readPpuData_low {s : State} (h : s.ppu.v.toNat % 0x4000 < 0x3F00) :
    readPpuData s =
      (s.ppu.buffer, advanceV (setBuffer (ppuRead s (s.ppu.v.toNat % 0x4000)).2 (ppuRead s (s.ppu.v.toNat % 0x4000)).1)) :=
  if_pos h

/-- A data-port read of the palette. -/
theorem readPpuData_high {s : State} (h : ¬ s.ppu.v.toNat % 0x4000 < 0x3F00) :
    readPpuData s =
      ((ppuRead s (s.ppu.v.toNat % 0x4000)).1,
        advanceV (setBuffer
          (ppuRead (ppuRead s (s.ppu.v.toNat % 0x4000)).2 (s.ppu.v.toNat % 0x4000 - 0x1000)).2
          (ppuRead (ppuRead s (s.ppu.v.toNat % 0x4000)).2 (s.ppu.v.toNat % 0x4000 - 0x1000)).1)) :=
  if_neg h

/-- The data port's accesses at `a` and, below the palette, at `b`. -/
def dataPort (s : State) (a b : Nat) : Byte × State :=
  if a < 0x3F00 then (s.ppu.buffer, advanceV (setBuffer (ppuRead s a).2 (ppuRead s a).1))
  else
    ((ppuRead s a).1, advanceV (setBuffer (ppuRead (ppuRead s a).2 b).2 (ppuRead (ppuRead s a).2 b).1))

theorem dataPort_cpu (s : State) (p : Cpu) (a b : Nat) :
    dataPort { s with cpu := p } a b = ((dataPort s a b).1, { (dataPort s a b).2 with cpu := p }) := by
  have e : ∀ (u : State) (b : Byte),
      advanceV (setBuffer { u with cpu := p } b) = { advanceV (setBuffer u b) with cpu := p } := fun _ _ => rfl
  unfold dataPort
  have h1 := ppuRead_cpu s p a
  have h2 := ppuRead_cpu (ppuRead s a).2 p b
  split
  · rw [h1, e]
  · rw [h1, h2, e]

theorem readPpuData_eq (s : State) :
    readPpuData s = dataPort s (s.ppu.v.toNat % 0x4000) (s.ppu.v.toNat % 0x4000 - 0x1000) := rfl

theorem readPpuData_cpu (s : State) (p : Cpu) :
    readPpuData { s with cpu := p } = ((readPpuData s).1, { (readPpuData s).2 with cpu := p }) := by
  rw [readPpuData_eq s]
  exact (readPpuData_eq _).trans (dataPort_cpu s p _ _)

/-- A bus read depends on no CPU register and changes none. -/
theorem memRead_cpu (s : State) (p : Cpu) (a : Word) :
    memRead { s with cpu := p } a = ((memRead s a).1, { (memRead s a).2 with cpu := p }) := by
  unfold memRead
  split
  · rfl
  · unfold readPpuReg
    split
    · rfl
    · rfl
    · exact readPpuData_cpu s p
    · rfl
  · split <;> rfl
  all_goals rfl

end Sys2Proof.Machine
end

