-- ==== Sys2Proof/Laws/Invariant.lean ====
section
/-! SUPPORT. Every operation of the buses, the PPU and the APU keeps the invariant of Safety.lean; and the offsets the mapper
answers lie inside its arrays (46_mapper.md R306). -/

namespace Sys2Proof.Machine

/-- The invariant does not speak of the CPU. -/
theorem State.Inv.cpu {s : State} (h : s.Inv) (p : Cpu) : State.Inv { s with cpu := p } :=
  ⟨h.ram, h.ppu, h.apu, h.cart, h.mapper, h.params, h.published, h.checked⟩

theorem State.Inv.audioOut {s : State} (h : s.Inv) (l : List (BitVec 32)) : State.Inv { s with audioOut := l } :=
  ⟨h.ram, h.ppu, h.apu, h.cart, h.mapper, h.params, h.published, h.checked⟩

theorem State.Inv.setPpu {s : State} (h : s.Inv) {p : Ppu} (hp : p.Inv) : State.Inv { s with ppu := p } :=
  ⟨h.ram, hp, h.apu, h.cart, h.mapper, h.params, h.published, h.checked⟩

theorem State.Inv.setApu {s : State} (h : s.Inv) {a : Apu} (ha : a.Inv) : State.Inv { s with apu := a } :=
  ⟨h.ram, h.ppu, ha, h.cart, h.mapper, h.params, h.published, h.checked⟩

theorem State.Inv.setMapper {s : State} (h : s.Inv) {g : Mapper} (hg : g.Inv s.cart) : State.Inv { s with mapper := g } :=
  ⟨h.ram, h.ppu, h.apu, h.cart, hg, h.params, h.published, h.checked⟩

theorem State.Inv.setRam {s : State} (h : s.Inv) {b : Bus} (hb : Memory.wf 2048 b.ram) : State.Inv { s with bus := b } :=
  ⟨hb, h.ppu, h.apu, h.cart, h.mapper, h.params, h.published, h.checked⟩

/-! ## The mapper -/

theorem Mapper4.clockCounter_fits (m : Mapper4) (id : Byte) (b : Bool) :
    (Variant.v4 { m.clockCounter with a12Prev := b }).fits id = (Variant.v4 m).fits id := rfl

theorem Mapper.observe_inv {g : Mapper} {c : Cart} (a : Nat) (h : g.Inv c) : (g.observe a).Inv c := by
  obtain ⟨hf, hr, hi⟩ := h
  unfold Mapper.observe
  split
  · exact ⟨hf, hr, hi⟩
  · exact ⟨hf, hr, hi⟩
  · rename_i m hv
    rw [hv] at hf
    dsimp only
    split
    · exact ⟨hf, trivial, fun _ => rfl⟩
    · exact ⟨hf, trivial, fun _ => rfl⟩

theorem observePattern_inv {s : State} (a : Nat) (h : s.Inv) : (observePattern s a).Inv :=
  h.setMapper (Mapper.observe_inv a h.mapper)

theorem Mapper1.load_shiftCount (m : Mapper1) (addr : Nat) (v : BitVec 5) : (m.load addr v).shiftCount = 0 := by
  unfold Mapper1.load; split <;> rfl

/-- A bank number reduced modulo the number of banks gives an offset inside the array (46_mapper.md R306). -/
theorem bank_offset_lt (b a : Nat) {n u : Nat} (hn : 0 < n) (hu : 0 < u) : (b % n) * u + a % u < n * u := by
  have h1 := Nat.mod_lt b hn
  have h2 := Nat.mod_lt a hu
  calc (b % n) * u + a % u < (b % n) * u + u := by omega
    _ = (b % n + 1) * u := by rw [Nat.add_mul, Nat.one_mul]
    _ ≤ n * u := Nat.mul_le_mul_right u h1

theorem Mapper.write1_inv {g : Mapper} {c : Cart} {m : Mapper1} (addr : Nat) (d : Byte) (h : g.Inv c)
    (hv : g.variant = .v1 m) : (g.write1 m addr d).Inv c := by
  obtain ⟨hf, hr, hi⟩ := h
  rw [hv] at hf hr hi
  unfold Mapper.write1
  split
  · exact ⟨hf, Nat.zero_le _, hi⟩
  · dsimp only
    split
    · refine ⟨?_, ?_, ?_⟩
      · unfold Mapper1.load; split <;> exact hf
      · exact Nat.le_trans (Nat.le_of_eq (Mapper1.load_shiftCount _ _ _)) (Nat.zero_le _)
      · intro h1
        exact absurd (hi h1) (by simp [Variant.hasIrq])
    · rename_i hc
      refine ⟨hf, ?_, hi⟩
      simp only [Variant.Inv] at hr ⊢
      omega

theorem Mapper.write4_inv {g : Mapper} {c : Cart} {m : Mapper4} (addr : Nat) (d : Byte) (h : g.Inv c)
    (hv : g.variant = .v4 m) : (g.write4 c m addr d).Inv c := by
  obtain ⟨hf, hr, hi⟩ := h
  have hg : g.Inv c := ⟨hf, hr, hi⟩
  rw [hv] at hf
  unfold Mapper.write4
  split <;> try exact ⟨hf, trivial, fun _ => rfl⟩
  split
  · exact hg
  · exact ⟨by rw [hv]; exact hf, by rw [hv]; trivial, fun _ => by rw [hv]; rfl⟩

theorem Mapper.writeRegister_inv {g : Mapper} {c : Cart} (addr : Nat) (d : Byte) (h : g.Inv c) :
    (g.writeRegister c addr d).Inv c := by
  unfold Mapper.writeRegister
  split
  · exact h
  · rename_i m hv; exact Mapper.write1_inv addr d h hv
  · rename_i m hv; exact Mapper.write4_inv addr d h hv

/-- A pattern-memory offset lies inside 8 KiB of CHR RAM. -/
theorem mapRead_chrRam {g : Mapper} {c : Cart} {a off : Nat} (h : mapRead g c a .ppu = (.chrRam, off)) :
    off < 8192 ∧ c.chrBanks = 0x00#8 := by
  unfold mapRead at h
  dsimp only at h
  split at h
  · rename_i ha
    obtain ⟨ht, ho⟩ := Prod.mk.injEq .. ▸ h
    have hc : c.chrBanks = 0x00#8 := by
      unfold Cart.chrTarget at ht
      split at ht
      · assumption
      · cases ht
    refine ⟨?_, hc⟩
    rw [← ho]
    unfold Variant.chrOffset Cart.chrUnits
    split
    · exact ha
    · simp only [hc, if_true, Mapper1.chrOffset]
      exact bank_offset_lt _ a (n := 2) (u := 4096) (by decide) (by decide)
    · simp only [hc, if_true, Mapper4.chrOffset]
      exact bank_offset_lt _ a (n := 8) (u := 1024) (by decide) (by decide)
  · cases h

theorem mapWrite_inv {s : State} (a : Nat) (v : Byte) (dev : Device) (h : s.Inv) : (mapWrite s a v dev).Inv := by
  unfold mapWrite
  split
  · split
    · rename_i ha
      exact ⟨h.ram, h.ppu, h.apu,
        ⟨h.cart.prgRom, h.cart.chrRom, Memory.wf_write v h.cart.prgRam (by omega), h.cart.chrRam⟩,
        ⟨h.mapper.fits, h.mapper.registers, h.mapper.irqFlag⟩, h.params, h.published, h.checked⟩
    · split
      · exact h.setMapper (Mapper.writeRegister_inv a v h.mapper)
      · exact h
  · split
    · rename_i off hm
      obtain ⟨ho, hc⟩ := mapRead_chrRam hm
      exact ⟨h.ram, h.ppu, h.apu,
        ⟨h.cart.prgRom, h.cart.chrRom, h.cart.prgRam, Memory.wf_write v h.cart.chrRam (by simpa [Cart.chrRamSize, hc] using ho)⟩,
        ⟨h.mapper.fits, h.mapper.registers, h.mapper.irqFlag⟩, h.params, h.published, h.checked⟩
    · exact h

/-! ## The PPU -/

theorem vramIndex_lt (mode : Mirroring) (a : Nat) : vramIndex mode a < 4096 := by
  unfold vramIndex physicalTable
  have := Nat.mod_lt a (show 0 < 4096 by decide)
  dsimp only
  split <;> omega

theorem paletteIndex_lt (a : Nat) : paletteIndex a < 32 := by
  unfold paletteIndex
  have := Nat.mod_lt a (show 0 < 32 by decide)
  dsimp only
  split <;> omega

theorem and_3F_lt (v : Byte) : (v &&& 0x3F#8).toNat < 64 := by
  have : (v &&& 0x3F#8).toNat ≤ (0x3F#8).toNat := by
    simpa using Nat.and_le_right
  exact Nat.lt_of_le_of_lt this (by decide)

theorem ppuRead_inv {s : State} (a : Nat) (h : s.Inv) : (ppuRead s a).2.Inv := by
  rcases ppuRead_state s a with e | e <;> rw [e]
  · exact h
  · exact observePattern_inv _ h

theorem ppuWrite_inv {s : State} (a : Nat) (v : Byte) (h : s.Inv) : (ppuWrite s a v).Inv := by
  unfold ppuWrite
  dsimp only
  split
  · exact observePattern_inv _ (mapWrite_inv _ _ _ h)
  · split
    · exact h.setPpu { h.ppu with vram := Memory.wf_write v h.ppu.vram (vramIndex_lt _ _) }
    · exact h.setPpu { h.ppu with
        palette := Memory.wf_write _ h.ppu.palette (paletteIndex_lt _)
        colours := Mem.write_forall (P := fun b => b.toNat < 64) h.ppu.colours (and_3F_lt v) }

/-- The PPU's invariant looks at its memories, picture, status, position and sprite count alone. -/
theorem Ppu.Inv.of_eq {p q : Ppu} (h : p.Inv) (h1 : q.vram = p.vram) (h2 : q.oam = p.oam) (h3 : q.palette = p.palette)
    (h4 : q.framebuffer = p.framebuffer) (h5 : q.status = p.status) (h6 : q.scanline = p.scanline) (h7 : q.dot = p.dot)
    (h8 : q.spriteCount = p.spriteCount) : q.Inv :=
  ⟨h1 ▸ h.vram, h2 ▸ h.oam, h3 ▸ h.palette, h3 ▸ h.colours, h4 ▸ h.framebuffer, h5 ▸ h.status, h6 ▸ h.scanline, h7 ▸ h.dot,
    h8 ▸ h.spriteCount⟩

theorem advanceV_inv {s : State} (h : s.Inv) : (advanceV s).Inv :=
  h.setPpu (h.ppu.of_eq rfl rfl rfl rfl rfl rfl rfl rfl)

theorem setBuffer_inv {s : State} (b : Byte) (h : s.Inv) : (setBuffer s b).Inv :=
  h.setPpu (h.ppu.of_eq rfl rfl rfl rfl rfl rfl rfl rfl)

theorem Ppu.Inv.setStatus {p : Ppu} (h : p.Inv) {v : Byte} (hv : v &&& 0x1F#8 = 0x00#8) :
    Ppu.Inv { p with status := v } := { h with status := hv }

theorem readPpuReg_inv {s : State} (r : Nat) (h : s.Inv) : (readPpuReg s r).2.Inv := by
  unfold readPpuReg
  split
  · refine h.setPpu ((h.ppu.setStatus (v := s.ppu.status &&& 0x7F#8) ?_).of_eq rfl rfl rfl rfl rfl rfl rfl rfl)
    have := h.ppu.status
    rw [show s.ppu.status &&& 0x7F#8 &&& 0x1F#8 = (s.ppu.status &&& 0x1F#8) &&& 0x7F#8 by ac_rfl, this]
    rfl
  · exact h
  · unfold readPpuData
    dsimp only
    split
    · exact advanceV_inv (setBuffer_inv _ (ppuRead_inv _ h))
    · exact advanceV_inv (setBuffer_inv _ (ppuRead_inv _ (ppuRead_inv _ h)))
  · exact h

theorem writePpuReg_inv {s : State} (r : Nat) (v : Byte) (h : s.Inv) : (writePpuReg s r v).Inv := by
  unfold writePpuReg
  split
  · exact State.Inv.cpu (h.setPpu (p := { s.ppu with ctrl := v, t := _ })
      (h.ppu.of_eq rfl rfl rfl rfl rfl rfl rfl rfl)) _
  · exact h.setPpu (h.ppu.of_eq rfl rfl rfl rfl rfl rfl rfl rfl)
  · exact h
  · exact h.setPpu (h.ppu.of_eq rfl rfl rfl rfl rfl rfl rfl rfl)
  · exact h.setPpu { h.ppu with oam := Memory.wf_write v h.ppu.oam s.ppu.oamAddr.isLt }
  · unfold writePpuScroll
    dsimp only
    split <;> exact h.setPpu (h.ppu.of_eq rfl rfl rfl rfl rfl rfl rfl rfl)
  · unfold writePpuAddr
    dsimp only
    split <;> exact h.setPpu (h.ppu.of_eq rfl rfl rfl rfl rfl rfl rfl rfl)
  · exact advanceV_inv (ppuWrite_inv _ _ h)

/-! ## The APU's registers -/

/-- The APU's invariant looks at the shift register, the output unit, the sequencer and the decimator alone. -/
theorem Apu.Inv.of_eq {a b : Apu} (h : a.Inv) (h1 : b.noise.lfsr = a.noise.lfsr)
    (h2 : b.dmc.bitsRemaining = a.dmc.bitsRemaining) (h3 : b.frame = a.frame) (h4 : b.decimAcc = a.decimAcc) : b.Inv :=
  ⟨h1 ▸ h.lfsr, h2 ▸ h.bitsRemaining, h3 ▸ h.frame, h4 ▸ h.decimAcc⟩

theorem Noise.writeReg_lfsr (n : Noise) (r : Nat) (d : Byte) : (n.writeReg r d).lfsr = n.lfsr := by
  unfold Noise.writeReg; split <;> rfl

theorem Dmc.writeReg_bits (m : Dmc) (r : Nat) (d : Byte) : (m.writeReg r d).bitsRemaining = m.bitsRemaining := by
  unfold Dmc.writeReg; split <;> rfl

theorem Apu.quarterFrame_inv {a : Apu} (h : a.Inv) : a.quarterFrame.Inv := h.of_eq rfl rfl rfl rfl

theorem Apu.halfFrame_inv {a : Apu} (h : a.Inv) : a.halfFrame.Inv := h.of_eq rfl rfl rfl rfl

theorem Apu.write_inv {a : Apu} (addr : Nat) (d : Byte) (h : a.Inv) : (a.write addr d).Inv := by
  unfold Apu.write
  dsimp only
  split
  · exact h.of_eq rfl rfl rfl rfl
  split
  · exact h.of_eq rfl rfl rfl rfl
  split
  · exact h.of_eq rfl rfl rfl rfl
  split
  · exact h.of_eq (Noise.writeReg_lfsr _ _ _) rfl rfl rfl
  split
  · exact h.of_eq rfl (Dmc.writeReg_bits _ _ _) rfl rfl
  split
  · refine h.of_eq rfl ?_ rfl rfl
    unfold Apu.writeEnables
    dsimp only
    split
    · rfl
    · split <;> rfl
  · have h0 : Apu.Inv { a with frame := { mode := d.getLsbD 7, irqInhibit := d.getLsbD 6
                                          irqFlag := a.frame.irqFlag && !d.getLsbD 6, counter := 0#16 } } :=
      ⟨h.lfsr, h.bitsRemaining, by unfold FrameSeq.Inv; dsimp only; split <;> decide, h.decimAcc⟩
    unfold Apu.writeFrame
    dsimp only
    split
    · exact Apu.halfFrame_inv (Apu.quarterFrame_inv h0)
    · exact h0

theorem Apu.readStatus_inv {a : Apu} (h : a.Inv) : a.readStatus.2.Inv :=
  ⟨h.lfsr, h.bitsRemaining, h.frame, h.decimAcc⟩

/-! ## The bus -/

/-- A bus read keeps the invariant. -/
theorem memRead_inv {s : State} (addr : Word) (h : s.Inv) : (memRead s addr).2.Inv := by
  unfold memRead
  split
  · exact h
  · exact readPpuReg_inv _ h
  · split
    · exact h.setApu (Apu.readStatus_inv h.apu)
    · exact h
  · exact h.setRam h.ram
  · exact h.setRam h.ram
  · exact h
  · exact h
  · exact h

theorem oamDmaByte_inv {s : State} (p : Byte) (i : Nat) (h : s.Inv) : (oamDmaByte p s i).Inv := by
  have hr := memRead_inv (word p (BitVec.ofNat 8 i)) h
  exact hr.setPpu { hr.ppu with oam := Memory.wf_write _ hr.ppu.oam (Nat.mod_lt _ (by decide)) }

theorem oamDma_inv {s : State} (p : Byte) (h : s.Inv) : (oamDma s p).Inv := by
  unfold oamDma
  generalize List.range 256 = l
  induction l generalizing s with
  | nil => exact h
  | cons i t ih => exact ih (oamDmaByte_inv p i h)

theorem Bus.writeStrobe_ram (b : Bus) (v : Byte) : (b.writeStrobe v).ram = b.ram := by
  unfold Bus.writeStrobe
  split
  · rfl
  · split <;> rfl

/-- A bus write keeps the invariant. -/
theorem memWrite_inv {s : State} (addr : Word) (v : Byte) (h : s.Inv) : (memWrite s addr v).Inv := by
  unfold memWrite
  split
  · exact h.setRam (Memory.wf_write v h.ram (Nat.mod_lt _ (by decide)))
  · exact writePpuReg_inv _ v h
  · exact h.setApu (Apu.write_inv _ v h.apu)
  · exact h.setApu (Apu.write_inv _ v h.apu)
  · exact oamDma_inv v h
  · exact h.setRam (by rw [Bus.writeStrobe_ram]; exact h.ram)
  · exact h
  · exact mapWrite_inv _ v .cpu h

end Sys2Proof.Machine
end

