-- ==== Sys2Proof/Laws/PerInstr.lean ====
section
/-! SUPPORT. The statement family Encoding: an instruction that has an encoding is encoded in as many bytes as its mode
says (30_encoding.md R120), one lemma per constructor. -/

namespace Sys2Proof.Laws.Encoding

/-- The encoding of a well-formed instruction has the length of its mode. -/
def Statement (i : Instr) : Prop := WellFormed i → (encode i).length = i.size

theorem lda (o : ReadOp) : Statement (.lda o) := by
  intro h
  cases o with
  | imm v => rfl
  | mem m => cases m <;> first | rfl | exact absurd h (by simp [WellFormed, Instr.wf, ReadOp.mode, MemMode.mode, aluModes])

theorem ldx (o : ReadOp) : Statement (.ldx o) := by
  intro h
  cases o with
  | imm v => rfl
  | mem m => cases m <;> first | rfl | exact absurd h (by simp [WellFormed, Instr.wf, ReadOp.mode, MemMode.mode])

theorem ldy (o : ReadOp) : Statement (.ldy o) := by
  intro h
  cases o with
  | imm v => rfl
  | mem m => cases m <;> first | rfl | exact absurd h (by simp [WellFormed, Instr.wf, ReadOp.mode, MemMode.mode])

theorem sta (m : MemMode) : Statement (.sta m) := by
  intro h
  cases m <;> first | rfl | exact absurd h (by simp [WellFormed, Instr.wf, MemMode.mode])

theorem stx (m : MemMode) : Statement (.stx m) := by
  intro h
  cases m <;> first | rfl | exact absurd h (by simp [WellFormed, Instr.wf, MemMode.mode])

theorem sty (m : MemMode) : Statement (.sty m) := by
  intro h
  cases m <;> first | rfl | exact absurd h (by simp [WellFormed, Instr.wf, MemMode.mode])

theorem tax : Statement .tax := fun _ => rfl

theorem tay : Statement .tay := fun _ => rfl

theorem txa : Statement .txa := fun _ => rfl

theorem tya : Statement .tya := fun _ => rfl

theorem tsx : Statement .tsx := fun _ => rfl

theorem txs : Statement .txs := fun _ => rfl

theorem adc (o : ReadOp) : Statement (.adc o) := by
  intro h
  cases o with
  | imm v => rfl
  | mem m => cases m <;> first | rfl | exact absurd h (by simp [WellFormed, Instr.wf, ReadOp.mode, MemMode.mode, aluModes])

theorem sbc (o : ReadOp) : Statement (.sbc o) := by
  intro h
  cases o with
  | imm v => rfl
  | mem m => cases m <;> first | rfl | exact absurd h (by simp [WellFormed, Instr.wf, ReadOp.mode, MemMode.mode, aluModes])

theorem and (o : ReadOp) : Statement (.and o) := by
  intro h
  cases o with
  | imm v => rfl
  | mem m => cases m <;> first | rfl | exact absurd h (by simp [WellFormed, Instr.wf, ReadOp.mode, MemMode.mode, aluModes])

theorem ora (o : ReadOp) : Statement (.ora o) := by
  intro h
  cases o with
  | imm v => rfl
  | mem m => cases m <;> first | rfl | exact absurd h (by simp [WellFormed, Instr.wf, ReadOp.mode, MemMode.mode, aluModes])

theorem eor (o : ReadOp) : Statement (.eor o) := by
  intro h
  cases o with
  | imm v => rfl
  | mem m => cases m <;> first | rfl | exact absurd h (by simp [WellFormed, Instr.wf, ReadOp.mode, MemMode.mode, aluModes])

theorem cmp (o : ReadOp) : Statement (.cmp o) := by
  intro h
  cases o with
  | imm v => rfl
  | mem m => cases m <;> first | rfl | exact absurd h (by simp [WellFormed, Instr.wf, ReadOp.mode, MemMode.mode, aluModes])

theorem cpx (o : ReadOp) : Statement (.cpx o) := by
  intro h
  cases o with
  | imm v => rfl
  | mem m => cases m <;> first | rfl | exact absurd h (by simp [WellFormed, Instr.wf, ReadOp.mode, MemMode.mode])

theorem cpy (o : ReadOp) : Statement (.cpy o) := by
  intro h
  cases o with
  | imm v => rfl
  | mem m => cases m <;> first | rfl | exact absurd h (by simp [WellFormed, Instr.wf, ReadOp.mode, MemMode.mode])

theorem bit (m : MemMode) : Statement (.bit m) := by
  intro h
  cases m <;> first | rfl | exact absurd h (by simp [WellFormed, Instr.wf, MemMode.mode])

theorem inc (m : MemMode) : Statement (.inc m) := by
  intro h
  cases m <;> first | rfl | exact absurd h (by simp [WellFormed, Instr.wf, MemMode.mode, rmwModes])

theorem dec (m : MemMode) : Statement (.dec m) := by
  intro h
  cases m <;> first | rfl | exact absurd h (by simp [WellFormed, Instr.wf, MemMode.mode, rmwModes])

theorem inx : Statement .inx := fun _ => rfl

theorem iny : Statement .iny := fun _ => rfl

theorem dex : Statement .dex := fun _ => rfl

theorem dey : Statement .dey := fun _ => rfl

theorem asl (o : RmwOp) : Statement (.asl o) := by
  intro h
  cases o with
  | acc => rfl
  | mem m => cases m <;> first | rfl | exact absurd h (by simp [WellFormed, Instr.wf, RmwOp.mode, MemMode.mode, rmwModes])

theorem lsr (o : RmwOp) : Statement (.lsr o) := by
  intro h
  cases o with
  | acc => rfl
  | mem m => cases m <;> first | rfl | exact absurd h (by simp [WellFormed, Instr.wf, RmwOp.mode, MemMode.mode, rmwModes])

theorem rol (o : RmwOp) : Statement (.rol o) := by
  intro h
  cases o with
  | acc => rfl
  | mem m => cases m <;> first | rfl | exact absurd h (by simp [WellFormed, Instr.wf, RmwOp.mode, MemMode.mode, rmwModes])

theorem ror (o : RmwOp) : Statement (.ror o) := by
  intro h
  cases o with
  | acc => rfl
  | mem m => cases m <;> first | rfl | exact absurd h (by simp [WellFormed, Instr.wf, RmwOp.mode, MemMode.mode, rmwModes])

theorem jmp (t : JmpOp) : Statement (.jmp t) := by
  intro _
  cases t <;> rfl

theorem jsr (a : Word) : Statement (.jsr a) := fun _ => rfl

theorem rts : Statement .rts := fun _ => rfl

theorem bcc (off : Byte) : Statement (.bcc off) := fun _ => rfl

theorem bcs (off : Byte) : Statement (.bcs off) := fun _ => rfl

theorem beq (off : Byte) : Statement (.beq off) := fun _ => rfl

theorem bmi (off : Byte) : Statement (.bmi off) := fun _ => rfl

theorem bne (off : Byte) : Statement (.bne off) := fun _ => rfl

theorem bpl (off : Byte) : Statement (.bpl off) := fun _ => rfl

theorem bvc (off : Byte) : Statement (.bvc off) := fun _ => rfl

theorem bvs (off : Byte) : Statement (.bvs off) := fun _ => rfl

theorem pha : Statement .pha := fun _ => rfl

theorem php : Statement .php := fun _ => rfl

theorem pla : Statement .pla := fun _ => rfl

theorem plp : Statement .plp := fun _ => rfl

theorem clc : Statement .clc := fun _ => rfl

theorem sec : Statement .sec := fun _ => rfl

theorem cli : Statement .cli := fun _ => rfl

theorem sei : Statement .sei := fun _ => rfl

theorem cld : Statement .cld := fun _ => rfl

theorem sed : Statement .sed := fun _ => rfl

theorem clv : Statement .clv := fun _ => rfl

theorem nop : Statement .nop := fun _ => rfl

theorem brk : Statement .brk := fun _ => rfl

theorem rti : Statement .rti := fun _ => rfl

theorem undefined (op : Byte) : Statement (.undefined op) := by
  intro h
  have hm : op.toNat ∈ undefinedOpcodes := by simpa [WellFormed, Instr.wf] using h
  simp only [encode, opcode, if_pos hm]
  rfl

end Sys2Proof.Laws.Encoding
end

