-- ==== Sys2Proof/Laws/Ticks.lean ====
section
/-! SUPPORT. What a dot, an APU tick and the fan-out keep: the invariant, the CPU's registers, the ROM images and the
parameters; and how the position of the PPU moves. -/

namespace Sys2Proof.Machine

/-! ## A dot -/

theorem withPpu_inv {s : State} {f : Ppu → Ppu} (h : s.Inv) (hf : (f s.ppu).Inv) : (s.withPpu f).Inv := h.setPpu hf

theorem advance_inv {p : Ppu} (h : p.Inv) : p.advance.Inv := by
  have h1 := h.dot
  have h2 := h.scanline
  unfold Ppu.advance
  split
  · refine ⟨h.vram, h.oam, h.palette, h.colours, h.framebuffer, h.status, ?_, Nat.zero_lt_succ _, h.spriteCount⟩
    dsimp only
    split <;> omega
  · exact ⟨h.vram, h.oam, h.palette, h.colours, h.framebuffer, h.status, h.scanline, by dsimp only; omega, h.spriteCount⟩

theorem status_or {v m : Byte} (h : v &&& 0x1F#8 = 0x00#8) (hm : m &&& 0x1F#8 = 0x00#8) :
    (v ||| m) &&& 0x1F#8 = 0x00#8 := by
  have e : (v ||| m) &&& 0x1F#8 = (v &&& 0x1F#8) ||| (m &&& 0x1F#8) := by
    ext i
    simp [Bool.and_or_distrib_right]
  rw [e, h, hm]; rfl

theorem vblankEntry_inv {s : State} (h : s.Inv) : (vblankEntry s).Inv :=
  State.Inv.cpu (h.setPpu (p := { s.ppu with status := s.ppu.status ||| 0x80#8, frameComplete := true })
    ((h.ppu.setStatus (status_or h.ppu.status (by decide))).of_eq rfl rfl rfl rfl rfl rfl rfl rfl)) _

theorem preRenderClear_inv {p : Ppu} (h : p.Inv) : p.preRenderClear.Inv := by
  refine ⟨h.vram, h.oam, h.palette, h.colours, h.framebuffer, ?_, h.scanline, h.dot, Nat.zero_le _⟩
  simp only [Ppu.preRenderClear]
  rw [BitVec.and_assoc]
  exact h.status

theorem fetchNt_inv {s : State} (h : s.Inv) : (fetchNt s).Inv :=
  have hr := ppuRead_inv (0x2000 + (s.ppu.v &&& 0x0FFF#15).toNat) h
  hr.setPpu (hr.ppu.of_eq rfl rfl rfl rfl rfl rfl rfl rfl)

theorem fetchAt_inv {s : State} (h : s.Inv) : (fetchAt s).Inv :=
  have hr := ppuRead_inv (attributeAddr s.ppu.v) h
  hr.setPpu (hr.ppu.of_eq rfl rfl rfl rfl rfl rfl rfl rfl)

theorem fetchPatternLo_inv {s : State} (h : s.Inv) : (fetchPatternLo s).Inv :=
  have hr := ppuRead_inv s.ppu.patternAddr h
  hr.setPpu (hr.ppu.of_eq rfl rfl rfl rfl rfl rfl rfl rfl)

theorem fetchPatternHi_inv {s : State} (h : s.Inv) : (fetchPatternHi s).Inv :=
  have hr := ppuRead_inv (s.ppu.patternAddr + 8) h
  hr.setPpu (hr.ppu.of_eq rfl rfl rfl rfl rfl rfl rfl rfl)

theorem fetchSpriteLo_inv {s : State} (i sl : Nat) (h : s.Inv) : (fetchSpriteLo i sl s).Inv := by
  have hr := ppuRead_inv (s.ppu.spriteAddr i sl) h
  refine hr.setPpu ?_
  dsimp only
  split <;> exact hr.ppu.of_eq rfl rfl rfl rfl rfl rfl rfl rfl

theorem fetchSpriteHi_inv {s : State} (i sl : Nat) (h : s.Inv) : (fetchSpriteHi i sl s).Inv := by
  have hr := ppuRead_inv (s.ppu.spriteAddr i sl + 8) h
  refine hr.setPpu ?_
  dsimp only
  split <;> exact hr.ppu.of_eq rfl rfl rfl rfl rfl rfl rfl rfl

/-- The scan finds at most eight sprites. -/
theorem spriteScan_found (oam : Mem) (sl h : Nat) : (spriteScan oam sl h).found ≤ 8 := by
  unfold spriteScan
  have : ∀ (l : List Nat) (sc : SpriteScan), sc.found ≤ 8 → (l.foldl (SpriteScan.entry oam sl h) sc).found ≤ 8 := by
    intro l
    induction l with
    | nil => exact fun _ h => h
    | cons n t ih =>
      intro sc hs
      refine ih _ ?_
      unfold SpriteScan.entry
      dsimp only
      split
      · split
        · dsimp only; omega
        · exact hs
      · exact hs
  exact this _ _ (Nat.zero_le _)

theorem evaluateSprites_inv {p : Ppu} (sl : Nat) (h : p.Inv) : (p.evaluateSprites sl).Inv := by
  unfold Ppu.evaluateSprites
  have hf := spriteScan_found p.oam sl p.spriteHeight
  generalize spriteScan p.oam sl p.spriteHeight = sc at hf
  refine ⟨h.vram, h.oam, h.palette, h.colours, h.framebuffer, ?_, h.scanline, h.dot, hf⟩
  dsimp only
  split
  · exact status_or h.status (by decide)
  · exact h.status

theorem backgroundDot_inv {s : State} (d : Nat) (h : s.Inv) : (backgroundDot d s).Inv := by
  unfold backgroundDot
  split
  · have hs : (s.withPpu Ppu.shiftBackground).Inv := h.setPpu (h.ppu.of_eq rfl rfl rfl rfl rfl rfl rfl rfl)
    dsimp only
    split
    · exact fetchNt_inv (hs.setPpu (hs.ppu.of_eq rfl rfl rfl rfl rfl rfl rfl rfl))
    · exact fetchAt_inv hs
    · exact fetchPatternLo_inv hs
    · exact fetchPatternHi_inv hs
    · exact hs.setPpu (hs.ppu.of_eq rfl rfl rfl rfl rfl rfl rfl rfl)
    · exact hs
  · exact h

theorem incY_inv {p : Ppu} (h : p.Inv) : p.incY.Inv := by
  unfold Ppu.incY
  split <;> exact h.of_eq rfl rfl rfl rfl rfl rfl rfl rfl

theorem scrollDot_inv {s : State} (sl d : Nat) (h : s.Inv) : (scrollDot sl d s).Inv := by
  unfold scrollDot
  have h1 : (if d = 256 then s.withPpu Ppu.incY else s).Inv := by
    split
    · exact h.setPpu (incY_inv h.ppu)
    · exact h
  generalize (if d = 256 then s.withPpu Ppu.incY else s) = s1 at h1
  have h2 : (if d = 257 then s1.withPpu Ppu.copyHorizontal else s1).Inv := by
    split
    · exact h1.setPpu (h1.ppu.of_eq rfl rfl rfl rfl rfl rfl rfl rfl)
    · exact h1
  dsimp only
  generalize (if d = 257 then s1.withPpu Ppu.copyHorizontal else s1) = s2 at h2
  have h3 : (if d = 338 ∨ d = 340 then fetchNt s2 else s2).Inv := by
    split
    · exact fetchNt_inv h2
    · exact h2
  generalize (if d = 338 ∨ d = 340 then fetchNt s2 else s2) = s3 at h3
  split
  · exact h3.setPpu (h3.ppu.of_eq rfl rfl rfl rfl rfl rfl rfl rfl)
  · exact h3

theorem spriteDot_inv {s : State} (sl d : Nat) (h : s.Inv) : (spriteDot sl d s).Inv := by
  unfold spriteDot
  have h1 : (if d = 257 ∧ sl ≤ 239 then s.withPpu (Ppu.evaluateSprites sl) else s).Inv := by
    split
    · exact h.setPpu (evaluateSprites_inv sl h.ppu)
    · exact h
  generalize (if d = 257 ∧ sl ≤ 239 then s.withPpu (Ppu.evaluateSprites sl) else s) = s1 at h1
  dsimp only
  split
  · split
    · exact fetchSpriteLo_inv _ _ h1
    · exact fetchSpriteHi_inv _ _ h1
    · exact h1
  · exact h1

theorem renderDot_inv {s : State} (sl d : Nat) (h : s.Inv) : (renderDot sl d s).Inv :=
  spriteDot_inv sl d (scrollDot_inv sl d (backgroundDot_inv d h))

theorem markHit_inv {p : Ppu} (x : Nat) (h : p.Inv) : (p.markHit x).Inv := by
  refine h.setStatus ?_
  split
  · exact status_or h.status (by decide)
  · exact h.status

theorem emitPixel_inv {s : State} {x y : Nat} (h : s.Inv) (hx : x < screenW) (hy : y < screenH) :
    (emitPixel x y s).Inv :=
  have hr := ppuRead_inv (pixelAddr (compose (s.ppu.bgPixel x) (s.ppu.spritePixel x)))
    (State.Inv.setPpu h (markHit_inv x h.ppu))
  hr.setPpu { hr.ppu with framebuffer := Frame.wf_write _ hr.ppu.framebuffer hx hy }

/-- A dot keeps the invariant. -/
theorem ppuTick_inv {s : State} (h : s.Inv) : (ppuTick s).Inv := by
  unfold ppuTick
  dsimp only
  generalize s.ppu.scanline = sl
  generalize s.ppu.dot = d
  generalize s.ppu.rendering = r
  have h1 : (if sl = 241 ∧ d = 1 then vblankEntry s else s).Inv := by
    split
    · exact vblankEntry_inv h
    · exact h
  generalize (if sl = 241 ∧ d = 1 then vblankEntry s else s) = s1 at h1
  have h2 : (if sl = 261 ∧ d = 1 then s1.withPpu Ppu.preRenderClear else s1).Inv := by
    split
    · exact h1.setPpu (preRenderClear_inv h1.ppu)
    · exact h1
  generalize (if sl = 261 ∧ d = 1 then s1.withPpu Ppu.preRenderClear else s1) = s2 at h2
  have h3 : (if r = true ∧ (sl ≤ 239 ∨ sl = 261) then renderDot sl d s2 else s2).Inv := by
    split
    · exact renderDot_inv sl d h2
    · exact h2
  generalize (if r = true ∧ (sl ≤ 239 ∨ sl = 261) then renderDot sl d s2 else s2) = s3 at h3
  have h4 : (if sl ≤ 239 ∧ 1 ≤ d ∧ d ≤ 256 then emitPixel (d - 1) sl s3 else s3).Inv := by
    split
    · rename_i hc
      exact emitPixel_inv h3 (by simp only [screenW]; omega) (by simp only [screenH]; omega)
    · exact h3
  exact h4.setPpu (advance_inv h4.ppu)

/-! ## What a dot leaves -/

/-- What the PPU keeps of everything outside it: it can raise an NMI and be observed by the mapper. -/
structure State.dotEffect (s t : State) : Prop where
  cpu : t.cpu = { s.cpu with nmiPending := t.cpu.nmiPending }
  nmi : s.cpu.nmiPending = true → t.cpu.nmiPending = true
  rest : t = { s with cpu := t.cpu, ppu := t.ppu
                      mapper := { s.mapper with irqFlag := t.mapper.irqFlag, variant := t.mapper.variant } }

theorem State.dotEffect.refl (s : State) : s.dotEffect s := ⟨rfl, id, rfl⟩

theorem State.dotEffect.trans {s t u : State} (h1 : s.dotEffect t) (h2 : t.dotEffect u) : s.dotEffect u where
  cpu := by conv_lhs => rw [h2.cpu, h1.cpu]
  nmi h := h2.nmi (h1.nmi h)
  rest := by
    have h := h2.rest
    rw [h1.rest] at h
    exact h

theorem dotEffect_ppu (s : State) (f : Ppu → Ppu) : s.dotEffect (s.withPpu f) := ⟨rfl, id, rfl⟩

theorem ppuRead_dotEffect (s : State) (a : Nat) : s.dotEffect (ppuRead s a).2 := by
  rcases ppuRead_state s a with h | h <;> rw [h]
  · exact .refl s
  · refine ⟨rfl, id, ?_⟩
    unfold observePattern
    conv_lhs => rw [Mapper.observe_frame]

theorem fetchNt_dotEffect (s : State) : s.dotEffect (fetchNt s) := by
  unfold fetchNt
  exact (ppuRead_dotEffect s _).trans (dotEffect_ppu _ _)
theorem fetchAt_dotEffect (s : State) : s.dotEffect (fetchAt s) := by
  unfold fetchAt
  exact (ppuRead_dotEffect s _).trans (dotEffect_ppu _ _)
theorem fetchPatternLo_dotEffect (s : State) : s.dotEffect (fetchPatternLo s) := by
  unfold fetchPatternLo
  exact (ppuRead_dotEffect s _).trans (dotEffect_ppu _ _)
theorem fetchPatternHi_dotEffect (s : State) : s.dotEffect (fetchPatternHi s) := by
  unfold fetchPatternHi
  exact (ppuRead_dotEffect s _).trans (dotEffect_ppu _ _)
theorem fetchSpriteLo_dotEffect (i sl : Nat) (s : State) : s.dotEffect (fetchSpriteLo i sl s) := by
  unfold fetchSpriteLo
  exact (ppuRead_dotEffect s _).trans (dotEffect_ppu _ _)
theorem fetchSpriteHi_dotEffect (i sl : Nat) (s : State) : s.dotEffect (fetchSpriteHi i sl s) := by
  unfold fetchSpriteHi
  exact (ppuRead_dotEffect s _).trans (dotEffect_ppu _ _)

theorem vblankEntry_dotEffect (s : State) : s.dotEffect (vblankEntry s) :=
  ⟨rfl, fun h => by simp [vblankEntry, h], rfl⟩

theorem backgroundDot_dotEffect (d : Nat) (s : State) : s.dotEffect (backgroundDot d s) := by
  unfold backgroundDot
  split
  · refine (dotEffect_ppu s Ppu.shiftBackground).trans ?_
    dsimp only
    split
    · exact (dotEffect_ppu _ _).trans (fetchNt_dotEffect _)
    · exact fetchAt_dotEffect _
    · exact fetchPatternLo_dotEffect _
    · exact fetchPatternHi_dotEffect _
    · exact dotEffect_ppu _ _
    · exact .refl _
  · exact .refl s

theorem scrollDot_dotEffect (sl d : Nat) (s : State) : s.dotEffect (scrollDot sl d s) := by
  unfold scrollDot
  have h1 : s.dotEffect (if d = 256 then s.withPpu Ppu.incY else s) := by
    split
    · exact dotEffect_ppu _ _
    · exact .refl s
  generalize (if d = 256 then s.withPpu Ppu.incY else s) = s1 at h1
  refine h1.trans ?_
  have h2 : s1.dotEffect (if d = 257 then s1.withPpu Ppu.copyHorizontal else s1) := by
    split
    · exact dotEffect_ppu _ _
    · exact .refl s1
  dsimp only
  generalize (if d = 257 then s1.withPpu Ppu.copyHorizontal else s1) = s2 at h2
  refine h2.trans ?_
  have h3 : s2.dotEffect (if d = 338 ∨ d = 340 then fetchNt s2 else s2) := by
    split
    · exact fetchNt_dotEffect _
    · exact .refl s2
  generalize (if d = 338 ∨ d = 340 then fetchNt s2 else s2) = s3 at h3
  refine h3.trans ?_
  split
  · exact dotEffect_ppu _ _
  · exact .refl s3

theorem spriteDot_dotEffect (sl d : Nat) (s : State) : s.dotEffect (spriteDot sl d s) := by
  unfold spriteDot
  have h1 : s.dotEffect (if d = 257 ∧ sl ≤ 239 then s.withPpu (Ppu.evaluateSprites sl) else s) := by
    split
    · exact dotEffect_ppu _ _
    · exact .refl s
  generalize (if d = 257 ∧ sl ≤ 239 then s.withPpu (Ppu.evaluateSprites sl) else s) = s1 at h1
  refine h1.trans ?_
  dsimp only
  split
  · split
    · exact fetchSpriteLo_dotEffect _ _ _
    · exact fetchSpriteHi_dotEffect _ _ _
    · exact .refl s1
  · exact .refl s1

theorem renderDot_dotEffect (sl d : Nat) (s : State) : s.dotEffect (renderDot sl d s) :=
  ((backgroundDot_dotEffect d s).trans (scrollDot_dotEffect sl d _)).trans (spriteDot_dotEffect sl d _)

theorem emitPixel_dotEffect (x y : Nat) (s : State) : s.dotEffect (emitPixel x y s) :=
  ((dotEffect_ppu s _).trans (ppuRead_dotEffect _ _)).trans (dotEffect_ppu _ _)

/-- A dot changes the PPU, can raise an NMI, and is observed by the mapper; nothing else. -/
theorem ppuTick_dotEffect (s : State) : s.dotEffect (ppuTick s) := by
  unfold ppuTick
  dsimp only
  generalize s.ppu.scanline = sl
  generalize s.ppu.dot = d
  generalize s.ppu.rendering = r
  have h1 : s.dotEffect (if sl = 241 ∧ d = 1 then vblankEntry s else s) := by
    split
    · exact vblankEntry_dotEffect s
    · exact .refl s
  generalize (if sl = 241 ∧ d = 1 then vblankEntry s else s) = s1 at h1
  refine h1.trans ?_
  have h2 : s1.dotEffect (if sl = 261 ∧ d = 1 then s1.withPpu Ppu.preRenderClear else s1) := by
    split
    · exact dotEffect_ppu _ _
    · exact .refl s1
  generalize (if sl = 261 ∧ d = 1 then s1.withPpu Ppu.preRenderClear else s1) = s2 at h2
  refine h2.trans ?_
  have h3 : s2.dotEffect (if r = true ∧ (sl ≤ 239 ∨ sl = 261) then renderDot sl d s2 else s2) := by
    split
    · exact renderDot_dotEffect sl d s2
    · exact .refl s2
  generalize (if r = true ∧ (sl ≤ 239 ∨ sl = 261) then renderDot sl d s2 else s2) = s3 at h3
  refine h3.trans ?_
  have h4 : s3.dotEffect (if sl ≤ 239 ∧ 1 ≤ d ∧ d ≤ 256 then emitPixel (d - 1) sl s3 else s3) := by
    split
    · exact emitPixel_dotEffect _ _ _
    · exact .refl s3
  exact h4.trans (dotEffect_ppu _ _)

/-! ## An APU tick -/

theorem timerTick_lfsr {n : Noise} (h : n.lfsr ≠ 0#15) : n.timerTick.lfsr ≠ 0#15 := by
  unfold Noise.timerTick
  split
  · dsimp only
    intro hz
    apply h
    apply BitVec.eq_of_getLsbD_eq
    intro i hi
    rw [BitVec.getLsbD_zero]
    have hb := congrArg (fun v : BitVec 15 => v.getLsbD 14) hz
    have hlt : n.lfsr.getLsbD 15 = false := BitVec.getLsbD_of_ge _ _ (Nat.le_refl _)
    have hall : ∀ j < 14, n.lfsr.getLsbD (j + 1) = false := by
      intro j hj
      have hz' := congrArg (fun v : BitVec 15 => v.getLsbD j) hz
      simp only [BitVec.getLsbD_or, BitVec.getLsbD_ushiftRight, BitVec.getLsbD_zero, Bool.or_eq_false_iff] at hz'
      rw [Nat.add_comm]; exact hz'.1
    rcases Nat.eq_zero_or_pos i with rfl | hpos
    · have hfb : (n.lfsr.getLsbD 0 ^^ (if n.mode = true then n.lfsr.getLsbD 6 else n.lfsr.getLsbD 1)) = false := by
        by_contra hf
        rw [Bool.not_eq_false] at hf
        rw [hf] at hb
        simp at hb
      have h6 := hall 5 (by decide)
      have h1 := hall 0 (by decide)
      simp only [Nat.reduceAdd] at h6 h1
      rw [h6, h1] at hfb
      simpa using hfb
    · obtain ⟨j, rfl⟩ := Nat.exists_eq_succ_of_ne_zero (Nat.pos_iff_ne_zero.mp hpos)
      exact hall j (by omega)
  · exact h

theorem outputBit_bits {d : Dmc} (h : 1 ≤ d.bitsRemaining ∧ d.bitsRemaining ≤ 8) :
    1 ≤ d.timerTick.bitsRemaining ∧ d.timerTick.bitsRemaining ≤ 8 := by
  unfold Dmc.timerTick
  split
  · unfold Dmc.outputBit
    dsimp only
    split
    · split <;> (dsimp only; omega)
    · dsimp only
      constructor <;> omega
  · exact h

theorem frameTick_inv {a : Apu} (h : a.Inv) : a.frameTick.Inv := by
  obtain ⟨h1, h2, h3, h4⟩ := h
  unfold FrameSeq.Inv at h3
  have hlt : a.frame.counter.toNat + 1 < 65536 := by split at h3 <;> omega
  have hc : (BitVec.ofNat 16 (a.frame.counter.toNat + 1)).toNat = a.frame.counter.toNat + 1 := by
    simp only [BitVec.toNat_ofNat]; omega
  have hb : ∀ (n : Nat), n = a.frame.counter.toNat + 1 → n < (if a.frame.mode then 37282 else 29830) →
      Apu.Inv { a with frame := { a.frame with counter := BitVec.ofNat 16 n } } := by
    intro n hn hl
    subst hn
    exact ⟨h1, h2, by unfold FrameSeq.Inv; dsimp only; rw [hc]; exact hl, h4⟩
  unfold Apu.frameTick
  dsimp only
  generalize hn : a.frame.counter.toNat + 1 = n
  have hb' := hb n hn.symm
  have hm : ∀ k, n = k → k < 29830 → n < (if a.frame.mode then 37282 else 29830) := by
    intro k hk hk'; split <;> omega
  split
  · rename_i hs
    exact Apu.quarterFrame_inv (hb' (by rcases hs with h | h <;> exact hm _ h (by decide)))
  · split
    · rename_i hs
      exact Apu.halfFrame_inv (Apu.quarterFrame_inv (hb' (hm _ hs (by decide))))
    · split
      · rename_i hmode
        split
        · rename_i hs
          exact Apu.halfFrame_inv (Apu.quarterFrame_inv (hb' (by rw [if_pos hmode]; omega)))
        · split
          · exact ⟨h1, h2, by unfold FrameSeq.Inv; dsimp only; split <;> decide, h4⟩
          · rw [if_pos hmode] at h3
            exact hb' (by rw [if_pos hmode]; omega)
      · rename_i hmode
        split
        · rename_i hs
          have := hb' (hm _ hs (by decide))
          exact Apu.halfFrame_inv (Apu.quarterFrame_inv ⟨this.lfsr, this.bitsRemaining, this.frame, this.decimAcc⟩)
        · split
          · exact ⟨h1, h2, by unfold FrameSeq.Inv; dsimp only; split <;> decide, h4⟩
          · rw [if_neg hmode] at h3
            exact hb' (by rw [if_neg hmode]; omega)

theorem timersTick_inv {a : Apu} (h : a.Inv) : a.timersTick.Inv := by
  have hf := frameTick_inv h
  have hn : Apu.Inv { a.frameTick with triangle := a.frameTick.triangle.timerTick, noise := a.frameTick.noise.timerTick } :=
    ⟨timerTick_lfsr hf.lfsr, hf.bitsRemaining, hf.frame, hf.decimAcc⟩
  unfold Apu.timersTick
  dsimp only
  split
  · exact hn.of_eq rfl rfl rfl rfl
  · exact hn

theorem decimate_inv {a : Apu} {rate : Nat} (h : a.Inv) (hr : rate ≤ nominalCpuHz) : (Apu.decimate rate a).Inv := by
  have hd := h.decimAcc
  unfold nominalCpuHz at *
  have hs : (a.decimAcc + BitVec.ofNat 32 rate).toNat = a.decimAcc.toNat + rate := by
    simp only [BitVec.toNat_add, BitVec.toNat_ofNat]; omega
  unfold Apu.decimate nominalCpuHz
  dsimp only
  split
  · rename_i hge
    refine ⟨h.lfsr, h.bitsRemaining, h.frame, ?_⟩
    dsimp only
    rw [BitVec.toNat_sub]
    simp only [BitVec.toNat_ofNat, nominalCpuHz]
    omega
  · exact ⟨h.lfsr, h.bitsRemaining, h.frame, by dsimp only [nominalCpuHz]; omega⟩

theorem outputTick_inv {a : Apu} {rate : Nat} (h : a.Inv) (hr : rate ≤ nominalCpuHz) : (a.outputTick rate).Inv := by
  have h1 : Apu.Inv { a with dmc := a.dmc.timerTick } := ⟨h.lfsr, outputBit_bits h.bitsRemaining, h.frame, h.decimAcc⟩
  exact (decimate_inv h1 hr).of_eq rfl rfl rfl rfl

theorem sampleEnd_bits (d : Dmc) : d.sampleEnd.bitsRemaining = d.bitsRemaining := by
  unfold Dmc.sampleEnd
  split <;> rfl

theorem fetched_bits (d : Dmc) (b : Byte) : (d.fetched b).bitsRemaining = d.bitsRemaining := by
  unfold Dmc.fetched
  dsimp only
  generalize (if d.curAddr = 0xFFFF#16 then 0x8000#16 else d.curAddr + 1#16) = a
  split
  · exact sampleEnd_bits _
  · rfl

theorem dmcRead_inv {s : State} (h : s.Inv) : (dmcRead s).Inv := by
  unfold dmcRead
  split
  · have hr := memRead_inv s.apu.dmc.curAddr h
    exact hr.setApu ⟨hr.apu.lfsr, by dsimp only; rw [fetched_bits]; exact hr.apu.bitsRemaining, hr.apu.frame, hr.apu.decimAcc⟩
  · exact h

/-- An APU tick keeps the invariant. -/
theorem apuTick_inv {s : State} (h : s.Inv) : (apuTick s).Inv := by
  have h1 := dmcRead_inv (h.setApu (timersTick_inv h.apu))
  exact h1.setApu (outputTick_inv h1.apu h1.params.2.1)

theorem sampleIrq_inv {s : State} (h : s.Inv) : (sampleIrq s).Inv := h.cpu _

theorem fanOutCycle_inv {s : State} (h : s.Inv) : (fanOutCycle s).Inv :=
  sampleIrq_inv (apuTick_inv (ppuTick_inv (ppuTick_inv (ppuTick_inv h))))

/-- The fan-out keeps the invariant. -/
theorem fanOut_inv (c : Nat) {s : State} (h : s.Inv) : (fanOut c s).Inv := by
  induction c generalizing s with
  | zero => exact h
  | succ c ih => exact ih (fanOutCycle_inv h)

theorem endOfFrame_inv {s : State} (h : s.Inv) : (endOfFrame s).Inv :=
  ⟨h.ram, h.ppu.of_eq rfl rfl rfl rfl rfl rfl rfl rfl, h.apu.of_eq rfl rfl rfl rfl, h.cart, h.mapper, h.params,
    h.ppu.framebuffer, h.checked⟩

end Sys2Proof.Machine
end

