-- ==== Sys2Proof/Laws/Turn.lean ====
section
/-! SUPPORT. What a turn of the machine keeps: the host's side of the state, the ROM images, the buttons; and that the samples of
the unfinished frame only grow (49_machine_and_savestate.md R541 to R543). -/

namespace Sys2Proof.Machine

/-- What no instruction and no interrupt entry changes: everything the host sees or set, the ROM images and the samples. -/
structure State.hostSide (s t : State) : Prop where
  loaded : t.loaded = s.loaded
  params : t.params = s.params
  published : t.publishedFrame = s.publishedFrame
  audioOut : t.audioOut = s.audioOut
  prgRom : t.cart = { s.cart with prgRam := t.cart.prgRam, chrRam := t.cart.chrRam }
  samples : t.apu.samples = s.apu.samples
  buttons0 : t.bus.pad0.buttons = s.bus.pad0.buttons
  buttons1 : t.bus.pad1.buttons = s.bus.pad1.buttons

theorem State.hostSide.refl (s : State) : s.hostSide s := ⟨rfl, rfl, rfl, rfl, rfl, rfl, rfl, rfl⟩

theorem State.hostSide.trans {s t u : State} (h1 : s.hostSide t) (h2 : t.hostSide u) : s.hostSide u where
  loaded := h2.loaded.trans h1.loaded
  params := h2.params.trans h1.params
  published := h2.published.trans h1.published
  audioOut := h2.audioOut.trans h1.audioOut
  prgRom := by conv_lhs => rw [h2.prgRom, h1.prgRom]
  samples := h2.samples.trans h1.samples
  buttons0 := h2.buttons0.trans h1.buttons0
  buttons1 := h2.buttons1.trans h1.buttons1

theorem State.writeEffect.hostSide {s t : State} (h : s.writeEffect t) : s.hostSide t :=
  ⟨h.loaded, h.params, h.published, h.audioOut, h.prgRom, h.samples, h.buttons0, h.buttons1⟩

theorem State.readEffect.hostSide {s t : State} (h : s.readEffect t) : s.hostSide t := h.toWrite.hostSide

/-- The CPU registers are not on the host's side. -/
theorem State.hostSide.cpu {s t : State} (h : s.hostSide t) (p : Cpu) : s.hostSide { t with cpu := p } :=
  h.trans ⟨rfl, rfl, rfl, rfl, rfl, rfl, rfl, rfl⟩

theorem withCpu_hostSide (s : State) (f : Cpu → Cpu) : s.hostSide (s.withCpu f) := (State.hostSide.refl s).cpu _

theorem memRead_hostSide (s : State) (a : Word) : s.hostSide (memRead s a).2 := (memRead_effect s a).hostSide

theorem store_hostSide (s : State) (ea : Word) (v : Byte) (n : Nat) : s.hostSide (s.store ea v n) :=
  (memWrite_effect s ea v).hostSide.cpu _

theorem readThen_hostSide (s : State) (o : ReadOp) (f : Cpu → Byte → Cpu) : s.hostSide (readThen s o f) := by
  rw [readThen_eq]
  exact (readOperand_effect s o).hostSide.cpu _

theorem storeTo_hostSide (s : State) (m : MemMode) (v : Byte) : s.hostSide (storeTo s m v) := by
  rw [storeTo_eq]
  exact (memWrite_effect s _ v).hostSide.cpu _

theorem modify_hostSide (s : State) (m : MemMode) (f : Cpu → Byte → Byte × Cpu) : s.hostSide (modify s m f) := by
  rw [modify_eq]
  exact ((memRead_hostSide s _).cpu _).trans (store_hostSide _ _ _ _)

theorem push_hostSide (s : State) (v : Byte) : s.hostSide (push s v) := (memWrite_effect s _ v).hostSide.cpu _

theorem pull_hostSide (s : State) : s.hostSide (pull s).2 := (withCpu_hostSide s _).trans (memRead_hostSide _ _)

theorem push16_hostSide (s : State) (w : Word) : s.hostSide (push16 s w) := (push_hostSide s _).trans (push_hostSide _ _)

theorem pull16_hostSide (s : State) : s.hostSide (pull16 s).2 := (pull_hostSide s).trans (pull_hostSide _)

theorem enter_hostSide (s : State) (ret : Word) (b : Bool) (vector : Word) : s.hostSide (enter s ret b vector) :=
  ((((push16_hostSide s ret).trans (push_hostSide _ _)).cpu _).trans
    ((memRead_hostSide _ vector).trans (memRead_hostSide _ _))).cpu _

theorem branch_hostSide (s : State) (off : Byte) (c : Bool) : s.hostSide (branch s off c) := by
  unfold branch
  dsimp only
  split_ifs <;> exact (State.hostSide.refl s).cpu _

theorem implied_hostSide (s : State) (f : Cpu → Cpu) : s.hostSide (implied s f) := (State.hostSide.refl s).cpu _

theorem shiftThen_hostSide (s : State) (o : RmwOp) (f : ShiftOp) : s.hostSide (shiftThen s o f) := by
  cases o
  · exact implied_hostSide s _
  · simp only [shiftThen]
    exact modify_hostSide s _ _

theorem returnFromInterrupt_hostSide (s : State) : s.hostSide (returnFromInterrupt s) :=
  (((pull_hostSide s).cpu _).trans (pull16_hostSide _)).cpu _

theorem raiseUnsupported_hostSide (s : State) (op : Byte) (a : Word) : s.hostSide (raiseUnsupported s op a) :=
  withCpu_hostSide s _

/-- No instruction changes what the host sees or set, a ROM byte, or the samples of the unfinished frame. -/
theorem exec_hostSide {i : Instr} {s t : State} (h : exec i s = .next t) : s.hostSide t := by
  cases i with
  | jmp o =>
    cases o
    · obtain rfl := Host.Outcome.next.inj h
      exact (State.hostSide.refl s).cpu _
    · obtain rfl := Host.Outcome.next.inj h
      exact ((memRead_hostSide s _).trans (memRead_hostSide _ _)).cpu _
  | lda o | ldx o | ldy o | adc o | sbc o | and o | ora o | eor o | cmp o | cpx o | cpy o =>
    obtain rfl := Host.Outcome.next.inj h
    exact readThen_hostSide s _ _
  | bit m =>
    obtain rfl := Host.Outcome.next.inj h
    exact readThen_hostSide s _ _
  | sta m | stx m | sty m =>
    obtain rfl := Host.Outcome.next.inj h
    exact storeTo_hostSide s _ _
  | inc m | dec m =>
    obtain rfl := Host.Outcome.next.inj h
    exact modify_hostSide s _ _
  | asl o | lsr o | rol o | ror o =>
    obtain rfl := Host.Outcome.next.inj h
    exact shiftThen_hostSide s _ _
  | tax | tay | txa | tya | tsx | txs | inx | iny | dex | dey | clc | sec | cli | sei | cld | sed | clv | nop =>
    obtain rfl := Host.Outcome.next.inj h
    exact implied_hostSide s _
  | bcc o | bcs o | beq o | bmi o | bne o | bpl o | bvc o | bvs o =>
    obtain rfl := Host.Outcome.next.inj h
    exact branch_hostSide s _ _
  | pha | php =>
    obtain rfl := Host.Outcome.next.inj h
    exact (push_hostSide s _).cpu _
  | pla | plp =>
    obtain rfl := Host.Outcome.next.inj h
    exact ((pull_hostSide s).cpu _).cpu _
  | jsr a =>
    obtain rfl := Host.Outcome.next.inj h
    exact ((push16_hostSide s _).cpu _).cpu _
  | rts =>
    obtain rfl := Host.Outcome.next.inj h
    exact ((pull16_hostSide s).cpu _).cpu _
  | brk =>
    obtain rfl := Host.Outcome.next.inj h
    exact enter_hostSide s _ _ _
  | rti =>
    obtain rfl := Host.Outcome.next.inj h
    exact returnFromInterrupt_hostSide s
  | undefined op =>
    obtain rfl := Host.Outcome.next.inj h
    exact (raiseUnsupported_hostSide s _ _).cpu _

theorem fetchByte_hostSide (s : State) : s.hostSide (fetchByte s).2 := (memRead_hostSide s _).cpu _

theorem fetchInstr_hostSide (s : State) : s.hostSide (fetchInstr s).2 := by
  unfold fetchInstr
  dsimp only
  split
  · exact fetchByte_hostSide s
  · exact (fetchByte_hostSide s).trans (fetchByte_hostSide _)
  · exact ((fetchByte_hostSide s).trans (fetchByte_hostSide _)).trans (fetchByte_hostSide _)

/-- A CPU step, entry or instruction, changes nothing on the host's side. -/
theorem cpuStep_hostSide {s t : State} (h : cpuStep s = .next t) : s.hostSide t := by
  unfold cpuStep at h
  split at h
  · obtain rfl := Host.Outcome.next.inj h
    exact (withCpu_hostSide s _).trans (enter_hostSide _ _ _ _)
  · split at h
    · obtain rfl := Host.Outcome.next.inj h
      exact enter_hostSide s _ _ _
    · exact (fetchInstr_hostSide s).trans (exec_hostSide h)

/-- What a turn keeps: the host's side, but that samples are appended to those of the unfinished frame. -/
structure State.turnSide (s t : State) : Prop where
  loaded : t.loaded = s.loaded
  params : t.params = s.params
  published : t.publishedFrame = s.publishedFrame
  audioOut : t.audioOut = s.audioOut
  prgRom : t.cart = { s.cart with prgRam := t.cart.prgRam, chrRam := t.cart.chrRam }
  samples : s.apu.samples <+: t.apu.samples
  buttons0 : t.bus.pad0.buttons = s.bus.pad0.buttons
  buttons1 : t.bus.pad1.buttons = s.bus.pad1.buttons

theorem State.turnSide.trans {s t u : State} (h1 : s.turnSide t) (h2 : t.turnSide u) : s.turnSide u where
  loaded := h2.loaded.trans h1.loaded
  params := h2.params.trans h1.params
  published := h2.published.trans h1.published
  audioOut := h2.audioOut.trans h1.audioOut
  prgRom := by conv_lhs => rw [h2.prgRom, h1.prgRom]
  samples := h1.samples.trans h2.samples
  buttons0 := h2.buttons0.trans h1.buttons0
  buttons1 := h2.buttons1.trans h1.buttons1

theorem State.hostSide.turn {s t : State} (h : s.hostSide t) : s.turnSide t :=
  ⟨h.loaded, h.params, h.published, h.audioOut, h.prgRom, by rw [h.samples], h.buttons0, h.buttons1⟩

theorem State.dotEffect.hostSide {s t : State} (h : s.dotEffect t) : s.hostSide t := by
  constructor <;> rw [h.rest]

theorem frameTick_samples (a : Apu) : a.frameTick.samples = a.samples := by
  simp only [Apu.frameTick, Apu.quarterFrame, Apu.halfFrame]
  split_ifs <;> rfl

theorem timersTick_samples (a : Apu) : a.timersTick.samples = a.samples := by
  unfold Apu.timersTick
  dsimp only
  split <;> exact frameTick_samples a

theorem decimate_samples (rate : Nat) (a : Apu) : a.samples <+: (Apu.decimate rate a).samples := by
  unfold Apu.decimate
  dsimp only
  split
  · exact List.prefix_append _ _
  · exact List.prefix_refl _

theorem outputTick_samples (rate : Nat) (a : Apu) : a.samples <+: (a.outputTick rate).samples :=
  decimate_samples rate { a with dmc := a.dmc.timerTick }

theorem dmcRead_hostSide (s : State) : s.hostSide (dmcRead s) := by
  unfold dmcRead
  split
  · exact (memRead_hostSide s _).trans ⟨rfl, rfl, rfl, rfl, rfl, rfl, rfl, rfl⟩
  · exact .refl s

/-- An APU tick can append samples, and changes nothing else on the host's side. -/
theorem apuTick_turnSide (s : State) : s.turnSide (apuTick s) := by
  have h1 : s.hostSide { s with apu := s.apu.timersTick } :=
    ⟨rfl, rfl, rfl, rfl, rfl, timersTick_samples _, rfl, rfl⟩
  have h2 := h1.trans (dmcRead_hostSide _)
  exact h2.turn.trans ⟨rfl, rfl, rfl, rfl, rfl, outputTick_samples _ _, rfl, rfl⟩

theorem fanOutCycle_turnSide (s : State) : s.turnSide (fanOutCycle s) :=
  ((((ppuTick_dotEffect s).trans (ppuTick_dotEffect _)).trans (ppuTick_dotEffect _)).hostSide.turn.trans
    (apuTick_turnSide _)).trans ((State.hostSide.refl _).cpu _).turn

theorem fanOut_turnSide (n : Nat) (s : State) : s.turnSide (fanOut n s) := by
  induction n generalizing s with
  | zero => exact (State.hostSide.refl s).turn
  | succ n ih => exact (fanOutCycle_turnSide s).trans (ih _)

/-- A turn answers the fan-out of the CPU step it makes. -/
theorem machineTurn_eq (s : State) : ∃ t, cpuStep s = .next t ∧ machineTurn s = .next (fanOut (stepCycles s t) t) := by
  obtain ⟨t, ht⟩ := cpuStep_next s
  exact ⟨t, ht, by simp [machineTurn, ht]⟩

/-- A turn can append samples, and changes nothing else on the host's side. -/
theorem machineTurn_turnSide {s u : State} (h : machineTurn s = .next u) : s.turnSide u := by
  obtain ⟨t, ht, h'⟩ := machineTurn_eq s
  obtain rfl := Host.Outcome.next.inj (h'.symm.trans h)
  exact (cpuStep_hostSide ht).turn.trans (fanOut_turnSide _ _)

/-- A step of a loaded machine is a turn, and the end of the frame when the turn completed it. -/
theorem step_cases {s t : State} (h : step s = .next t) :
    (s.loaded = false ∧ t = s) ∨
      ∃ u, s.loaded = true ∧ machineTurn s = .next u ∧
        (u.ppu.frameComplete = false ∧ t = u ∨ u.ppu.frameComplete = true ∧ t = endOfFrame u) := by
  unfold step stepMachine at h
  split at h
  · rename_i hl
    obtain ⟨u, -, hu⟩ := machineTurn_eq s
    rw [hu] at h
    obtain rfl := Host.Outcome.next.inj h
    refine .inr ⟨_, hl, hu, ?_⟩
    unfold closeFrame
    split
    · exact .inr ⟨‹_›, rfl⟩
    · exact .inl ⟨Bool.eq_false_of_not_eq_true ‹_›, rfl⟩
  · exact .inl ⟨Bool.eq_false_of_not_eq_true ‹_›, (Host.Outcome.next.inj h).symm⟩

/-- The loop of `step_frame` runs turns until one completes a frame, and then ends the frame. -/
theorem frameLoop_run {n : Nat} {s t : State} (h : frameLoop n s = some t) :
    ∃ (k : Nat) (run : Nat → State), k < n ∧ run 0 = s ∧
      (∀ j ≤ k, machineTurn (run j) = .next (run (j + 1))) ∧ (∀ j < k, (run (j + 1)).ppu.frameComplete = false) ∧
      (run (k + 1)).ppu.frameComplete = true ∧ t = endOfFrame (run (k + 1)) := by
  induction n generalizing s with
  | zero => cases h
  | succ n ih =>
    obtain ⟨v, -, hv⟩ := machineTurn_eq s
    generalize fanOut (stepCycles s v) v = u at hv
    simp only [frameLoop, hv] at h
    split at h
    · refine ⟨0, fun j => if j = 0 then s else u, Nat.succ_pos n, rfl, ?_, fun j hj => absurd hj (Nat.not_lt_zero j), ‹_›,
        (Option.some.inj h).symm⟩
      intro j hj
      obtain rfl := Nat.le_zero.mp hj
      exact hv
    · rename_i hc
      obtain ⟨k, run, hk, h0, hs, hf, hd, ht⟩ := ih h
      refine ⟨k + 1, fun j => if j = 0 then s else run (j - 1), Nat.succ_lt_succ hk, rfl, ?_, ?_, hd, ht⟩
      · intro j hj
        cases j with
        | zero => simpa [h0] using hv
        | succ j => simpa using hs j (Nat.le_of_succ_le_succ hj)
      · intro j hj
        cases j with
        | zero => simpa [h0] using hc
        | succ j => simpa using hf j (Nat.lt_of_succ_lt_succ hj)

/-- Over a run of turns the host's side changes as over one turn. -/
theorem run_turnSide {run : Nat → State} {k : Nat} (h : ∀ j < k, machineTurn (run j) = .next (run (j + 1))) :
    (run 0).turnSide (run k) := by
  induction k with
  | zero => exact (State.hostSide.refl _).turn
  | succ k ih => exact (ih fun j hj => h j (Nat.lt_succ_of_lt hj)).trans (machineTurn_turnSide (h k (Nat.lt_succ_self k)))

end Sys2Proof.Machine
end

