-- ==== Sys2Proof/Tests/Slice0.lean ====
section
/-! SUPPORT. The model's own tests. Expected results come from 95_test_vectors.md and the examples of the rules, worked out by
hand where no vector exists; the words of the decode tests from 30_encoding.md R138 and R140. Each `test_witness_…` shows a
concrete state and operands that meet the hypotheses of the obligation it names, clause by clause at a boundary of its range. -/

set_option Elab.async false

namespace Sys2Proof.Tests

open Sys2Proof Sys2Proof.Machine

/-! ## Helpers -/

/-- A next state was answered and it has this property. -/
def nextIs (o : Host.Outcome State Fault Refusal) (f : State → Bool) : Bool :=
  match o with
  | .next t => f t
  | .fault _ => false
  | .refused _ => false

/-- A variant-0 cartridge of one PRG bank with CHR RAM: NMI and IRQ vectors $9000, reset vector $8000. -/
def cart0 : Cart :=
  { Cart.none with prgRom := [(0x3FFB, 0x90#8), (0x3FFD, 0x80#8), (0x3FFF, 0x90#8)], prgBanks := 0x01#8 }

/-- The machine right after a `load` of that cartridge: "power-on" of 95_test_vectors.md. -/
def mini : State := powerOn Params.standard cart0

/-- Power-on with code at an address, CPU registers set and work RAM filled. -/
def start (pc : Word) (code : List Byte) (setup : Cpu → Cpu) (ram : Mem) : State :=
  let s := placeBytes mini pc code
  { s with cpu := setup { s.cpu with pc := pc }, bus := { s.bus with ram := ram } }

/-- The CPU and work RAM after one CPU step from there. -/
def cpuAfter (pc : Word) (code : List Byte) (setup : Cpu → Cpu) (ram : Mem) : Option (Cpu × Mem) :=
  match cpuStep (start pc code setup ram) with
  | .next t => some (t.cpu, t.bus.ram)
  | .fault _ => none
  | .refused _ => none

/-- Power-on with a mapper of variant 1 or 4 and eight PRG banks. -/
def banked (id : Byte) (v : Variant) : State :=
  { mini with
    cart := { cart0 with mapperId := id, prgBanks := 0x08#8 }
    mapper := { mirroring := .oneScreenLow, irqFlag := false, variant := v } }

/-! ## Well-formedness: one ill-formed term for each check -/

theorem test_illformed_alu_zpy : ¬ WellFormed (.lda (.mem (.zpy 0x10#8))) := by decide
theorem test_illformed_ldx_zpx : ¬ WellFormed (.ldx (.mem (.zpx 0x10#8))) := by decide
theorem test_illformed_ldy_zpy : ¬ WellFormed (.ldy (.mem (.zpy 0x10#8))) := by decide
theorem test_illformed_sta_zpy : ¬ WellFormed (.sta (.zpy 0x10#8)) := by decide
theorem test_illformed_stx_zpx : ¬ WellFormed (.stx (.zpx 0x10#8)) := by decide
theorem test_illformed_sty_abx : ¬ WellFormed (.sty (.abx 0x1234#16)) := by decide
theorem test_illformed_cpx_zpx : ¬ WellFormed (.cpx (.mem (.zpx 0x10#8))) := by decide
theorem test_illformed_bit_abx : ¬ WellFormed (.bit (.abx 0x1234#16)) := by decide
theorem test_illformed_inc_aby : ¬ WellFormed (.inc (.aby 0x1234#16)) := by decide
theorem test_illformed_asl_izx : ¬ WellFormed (.asl (.mem (.izx 0x10#8))) := by decide
theorem test_illformed_undefined_nop : ¬ WellFormed (.undefined 0xEA#8) := by decide
theorem test_wellformed_some :
    WellFormed (.lda (.mem (.izy 0x10#8))) ∧ WellFormed (.ldx (.mem (.zpy 0x10#8))) ∧ WellFormed (.asl .acc) ∧
      WellFormed (.undefined 0x02#8) := by decide

/-! ## Decoding: every constructor by a word written out from its encoding (the later bytes stand above the first) -/

theorem test_decode_load_store :
    decodeTableWord 16 0x80A9 = some (.lda (.imm 0x80#8)) ∧ decodeTableWord 16 0x10B6 = some (.ldx (.mem (.zpy 0x10#8))) ∧
      decodeTableWord 24 0x0280BC = some (.ldy (.mem (.abx 0x0280#16))) ∧
      decodeTableWord 24 0x40148D = some (.sta (.abs 0x4014#16)) ∧ decodeTableWord 16 0x1096 = some (.stx (.zpy 0x10#8)) ∧
      decodeTableWord 24 0x20078C = some (.sty (.abs 0x2007#16)) := by decide +kernel
theorem test_decode_transfers :
    decodeTableWord 8 0xAA = some .tax ∧ decodeTableWord 8 0xA8 = some .tay ∧ decodeTableWord 8 0x8A = some .txa ∧
      decodeTableWord 8 0x98 = some .tya ∧ decodeTableWord 8 0xBA = some .tsx ∧
      decodeTableWord 8 0x9A = some .txs := by decide +kernel
theorem test_decode_arithmetic :
    decodeTableWord 24 0x02007D = some (.adc (.mem (.abx 0x0200#16))) ∧
      decodeTableWord 16 0x20E1 = some (.sbc (.mem (.izx 0x20#8))) ∧ decodeTableWord 16 0x0F29 = some (.and (.imm 0x0F#8)) ∧
      decodeTableWord 16 0x4415 = some (.ora (.mem (.zpx 0x44#8))) ∧
      decodeTableWord 24 0x123459 = some (.eor (.mem (.aby 0x1234#16))) ∧
      decodeTableWord 16 0x20D1 = some (.cmp (.mem (.izy 0x20#8))) ∧ decodeTableWord 16 0x10E4 = some (.cpx (.mem (.zp 0x10#8))) ∧
      decodeTableWord 24 0x0200CC = some (.cpy (.mem (.abs 0x0200#16))) ∧
      decodeTableWord 24 0x20022C = some (.bit (.abs 0x2002#16)) := by decide +kernel
theorem test_decode_increment :
    decodeTableWord 16 0x10E6 = some (.inc (.zp 0x10#8)) ∧ decodeTableWord 24 0x0200DE = some (.dec (.abx 0x0200#16)) ∧
      decodeTableWord 8 0xE8 = some .inx ∧ decodeTableWord 8 0xC8 = some .iny ∧ decodeTableWord 8 0xCA = some .dex ∧
      decodeTableWord 8 0x88 = some .dey := by decide +kernel
theorem test_decode_shift :
    decodeTableWord 8 0x0A = some (.asl .acc) ∧ decodeTableWord 16 0x1056 = some (.lsr (.mem (.zpx 0x10#8))) ∧
      decodeTableWord 24 0x02002E = some (.rol (.mem (.abs 0x0200#16))) ∧
      decodeTableWord 24 0x02007E = some (.ror (.mem (.abx 0x0200#16))) := by decide +kernel
theorem test_decode_control :
    decodeTableWord 24 0x92344C = some (.jmp (.abs 0x9234#16)) ∧ decodeTableWord 24 0x02FF6C = some (.jmp (.ind 0x02FF#16)) ∧
      decodeTableWord 24 0x900020 = some (.jsr 0x9000#16) ∧ decodeTableWord 8 0x60 = some .rts := by decide +kernel
theorem test_decode_branches :
    decodeTableWord 16 0xFC90 = some (.bcc 0xFC#8) ∧ decodeTableWord 16 0x10B0 = some (.bcs 0x10#8) ∧
      decodeTableWord 16 0xFEF0 = some (.beq 0xFE#8) ∧ decodeTableWord 16 0x7F30 = some (.bmi 0x7F#8) ∧
      decodeTableWord 16 0x05D0 = some (.bne 0x05#8) ∧ decodeTableWord 16 0x8010 = some (.bpl 0x80#8) ∧
      decodeTableWord 16 0x1050 = some (.bvc 0x10#8) ∧ decodeTableWord 16 0x0270 = some (.bvs 0x02#8) := by decide +kernel
theorem test_decode_stack_flags :
    decodeTableWord 8 0x48 = some .pha ∧ decodeTableWord 8 0x08 = some .php ∧ decodeTableWord 8 0x68 = some .pla ∧
      decodeTableWord 8 0x28 = some .plp ∧ decodeTableWord 8 0x18 = some .clc ∧ decodeTableWord 8 0x38 = some .sec ∧
      decodeTableWord 8 0x58 = some .cli ∧ decodeTableWord 8 0x78 = some .sei ∧ decodeTableWord 8 0xD8 = some .cld ∧
      decodeTableWord 8 0xF8 = some .sed ∧ decodeTableWord 8 0xB8 = some .clv := by decide +kernel
theorem test_decode_system :
    decodeTableWord 8 0xEA = some .nop ∧ decodeTableWord 8 0x00 = some .brk ∧ decodeTableWord 8 0x40 = some .rti ∧
      decodeTableWord 8 0x89 = some (.undefined 0x89#8) := by decide +kernel

/-! ## Instructions: the vectors of 95_test_vectors.md, at most two each -/

theorem test_lda_abx_page_crossed :
    cpuAfter 0x8000#16 [0xBD#8, 0xFF#8, 0x02#8] (fun p => { p with x := 0x01#8 }) [(0x0300, 0x7F#8)] =
      some ({ Cpu.reset 0x8003#16 with a := 0x7F#8, x := 0x01#8, cycles := 5#64 }, [(0x0300, 0x7F#8)]) := by
  decide +kernel
theorem test_lda_izy_wraps_and_crosses :
    cpuAfter 0x8000#16 [0xB1#8, 0xFF#8] (fun p => { p with y := 0x10#8 }) [(0x0000, 0x02#8), (0x00FF, 0xF8#8), (0x0308, 0xC3#8)] =
      some ({ Cpu.reset 0x8002#16 with a := 0xC3#8, y := 0x10#8, n := true, cycles := 6#64 }, [(0x0000, 0x02#8), (0x00FF, 0xF8#8), (0x0308, 0xC3#8)]) := by
  decide +kernel
theorem test_ldx_zpy_wraps_in_page_zero :
    cpuAfter 0x8000#16 [0xB6#8, 0xF0#8] (fun p => { p with y := 0x20#8 }) [(0x0010, 0x0F#8), (0x0110, 0xEE#8)] =
      some ({ Cpu.reset 0x8002#16 with x := 0x0F#8, y := 0x20#8, cycles := 4#64 }, [(0x0010, 0x0F#8), (0x0110, 0xEE#8)]) := by
  decide +kernel
theorem test_ldy_abx :
    cpuAfter 0x8000#16 [0xBC#8, 0x80#8, 0x02#8] (fun p => { p with x := 0x80#8 }) [] =
      some ({ Cpu.reset 0x8003#16 with x := 0x80#8, z := true, cycles := 5#64 }, []) := by
  decide +kernel
theorem test_sta_abx :
    cpuAfter 0x8000#16 [0x9D#8, 0xFF#8, 0x02#8] (fun p => { p with a := 0xAB#8, x := 0x01#8 }) [] =
      some ({ Cpu.reset 0x8003#16 with a := 0xAB#8, x := 0x01#8, cycles := 5#64 }, [(0x0300, 0xAB#8)]) := by
  decide +kernel
theorem test_sta_to_ram_mirror_0800_reaches_cell_0000 :
    cpuAfter 0x8000#16 [0x8D#8, 0x00#8, 0x08#8] (fun p => { p with a := 0x77#8 }) [] =
      some ({ Cpu.reset 0x8003#16 with a := 0x77#8, cycles := 4#64 }, [(0x0000, 0x77#8)]) := by
  decide +kernel
theorem test_stx_zpy :
    cpuAfter 0x8000#16 [0x96#8, 0x10#8] (fun p => { p with x := 0x12#8, y := 0x05#8 }) [] =
      some ({ Cpu.reset 0x8002#16 with x := 0x12#8, y := 0x05#8, cycles := 4#64 }, [(0x0015, 0x12#8)]) := by
  decide +kernel
theorem test_txs_sets_no_flag :
    cpuAfter 0x8000#16 [0x9A#8] (fun p => { p with n := true }) [] =
      some ({ Cpu.reset 0x8001#16 with s := 0x00#8, n := true, cycles := 2#64 }, []) := by
  decide +kernel
theorem test_tsx_sets_flags :
    cpuAfter 0x8000#16 [0xBA#8] (fun p => { p with s := 0x80#8 }) [] =
      some ({ Cpu.reset 0x8001#16 with x := 0x80#8, s := 0x80#8, n := true, cycles := 2#64 }, []) := by
  decide +kernel
theorem test_tax_zero :
    cpuAfter 0x8000#16 [0xAA#8] (fun p => { p with x := 0x33#8 }) [] =
      some ({ Cpu.reset 0x8001#16 with z := true, cycles := 2#64 }, []) := by
  decide +kernel
theorem test_tya :
    cpuAfter 0x8000#16 [0x98#8] (fun p => { p with y := 0xF0#8 }) [] =
      some ({ Cpu.reset 0x8001#16 with a := 0xF0#8, y := 0xF0#8, n := true, cycles := 2#64 }, []) := by
  decide +kernel
theorem test_adc_with_d_1_stays_binary :
    cpuAfter 0x8000#16 [0x69#8, 0x01#8] (fun p => { p with a := 0x09#8, d := true }) [] =
      some ({ Cpu.reset 0x8002#16 with a := 0x0A#8, d := true, cycles := 2#64 }, []) := by
  decide +kernel
theorem test_adc_80_80 :
    cpuAfter 0x8000#16 [0x69#8, 0x80#8] (fun p => { p with a := 0x80#8 }) [] =
      some ({ Cpu.reset 0x8002#16 with c := true, z := true, v := true, cycles := 2#64 }, []) := by
  decide +kernel
theorem test_sbc_with_borrow_in :
    cpuAfter 0x8000#16 [0xE9#8, 0x00#8] id [] =
      some ({ Cpu.reset 0x8002#16 with a := 0xFF#8, n := true, cycles := 2#64 }, []) := by
  decide +kernel
theorem test_sbc_overflow :
    cpuAfter 0x8000#16 [0xE9#8, 0xB0#8] (fun p => { p with a := 0x50#8, c := true }) [] =
      some ({ Cpu.reset 0x8002#16 with a := 0xA0#8, v := true, n := true, cycles := 2#64 }, []) := by
  decide +kernel
theorem test_and :
    cpuAfter 0x8000#16 [0x29#8, 0x0F#8] (fun p => { p with a := 0xF0#8 }) [] =
      some ({ Cpu.reset 0x8002#16 with z := true, cycles := 2#64 }, []) := by
  decide +kernel
theorem test_ora :
    cpuAfter 0x8000#16 [0x09#8, 0x80#8] (fun p => { p with a := 0x01#8 }) [] =
      some ({ Cpu.reset 0x8002#16 with a := 0x81#8, n := true, cycles := 2#64 }, []) := by
  decide +kernel
theorem test_eor :
    cpuAfter 0x8000#16 [0x49#8, 0xFF#8] (fun p => { p with a := 0xFF#8 }) [] =
      some ({ Cpu.reset 0x8002#16 with z := true, cycles := 2#64 }, []) := by
  decide +kernel
theorem test_cmp_less :
    cpuAfter 0x8000#16 [0xC9#8, 0x41#8] (fun p => { p with a := 0x40#8 }) [] =
      some ({ Cpu.reset 0x8002#16 with a := 0x40#8, n := true, cycles := 2#64 }, []) := by
  decide +kernel
theorem test_cmp_80_with_01_n_from_difference :
    cpuAfter 0x8000#16 [0xC9#8, 0x01#8] (fun p => { p with a := 0x80#8 }) [] =
      some ({ Cpu.reset 0x8002#16 with a := 0x80#8, c := true, cycles := 2#64 }, []) := by
  decide +kernel
theorem test_cpx_greater :
    cpuAfter 0x8000#16 [0xE0#8, 0x10#8] (fun p => { p with x := 0x20#8 }) [] =
      some ({ Cpu.reset 0x8002#16 with x := 0x20#8, c := true, cycles := 2#64 }, []) := by
  decide +kernel
theorem test_cpy :
    cpuAfter 0x8000#16 [0xC0#8, 0x01#8] id [] =
      some ({ Cpu.reset 0x8002#16 with n := true, cycles := 2#64 }, []) := by
  decide +kernel
theorem test_bit_zp :
    cpuAfter 0x8000#16 [0x24#8, 0x10#8] (fun p => { p with a := 0x01#8 }) [(0x0010, 0xC0#8)] =
      some ({ Cpu.reset 0x8002#16 with a := 0x01#8, z := true, v := true, n := true, cycles := 3#64 }, [(0x0010, 0xC0#8)]) := by
  decide +kernel
theorem test_bit_abs_non_zero_and :
    cpuAfter 0x8000#16 [0x2C#8, 0x00#8, 0x02#8] (fun p => { p with a := 0xFF#8 }) [(0x0200, 0x3F#8)] =
      some ({ Cpu.reset 0x8003#16 with a := 0xFF#8, cycles := 4#64 }, [(0x0200, 0x3F#8)]) := by
  decide +kernel
theorem test_inc_wraps :
    cpuAfter 0x8000#16 [0xE6#8, 0x10#8] id [(0x0010, 0xFF#8)] =
      some ({ Cpu.reset 0x8002#16 with z := true, cycles := 5#64 }, []) := by
  decide +kernel
theorem test_inc_abx :
    cpuAfter 0x8000#16 [0xFE#8, 0xFF#8, 0x02#8] (fun p => { p with x := 0x01#8 }) [(0x0300, 0x7F#8)] =
      some ({ Cpu.reset 0x8003#16 with x := 0x01#8, n := true, cycles := 7#64 }, [(0x0300, 0x80#8)]) := by
  decide +kernel
theorem test_dec_to_zero :
    cpuAfter 0x8000#16 [0xC6#8, 0x10#8] id [(0x0010, 0x01#8)] =
      some ({ Cpu.reset 0x8002#16 with z := true, cycles := 5#64 }, []) := by
  decide +kernel
theorem test_dec_wraps :
    cpuAfter 0x8000#16 [0xCE#8, 0x00#8, 0x02#8] id [] =
      some ({ Cpu.reset 0x8003#16 with n := true, cycles := 6#64 }, [(0x0200, 0xFF#8)]) := by
  decide +kernel
theorem test_inx_wraps :
    cpuAfter 0x8000#16 [0xE8#8] (fun p => { p with x := 0xFF#8 }) [] =
      some ({ Cpu.reset 0x8001#16 with z := true, cycles := 2#64 }, []) := by
  decide +kernel
theorem test_dey_wraps :
    cpuAfter 0x8000#16 [0x88#8] id [] =
      some ({ Cpu.reset 0x8001#16 with y := 0xFF#8, n := true, cycles := 2#64 }, []) := by
  decide +kernel
theorem test_iny :
    cpuAfter 0x8000#16 [0xC8#8] (fun p => { p with y := 0x7F#8 }) [] =
      some ({ Cpu.reset 0x8001#16 with y := 0x80#8, n := true, cycles := 2#64 }, []) := by
  decide +kernel
theorem test_dex :
    cpuAfter 0x8000#16 [0xCA#8] (fun p => { p with x := 0x01#8 }) [] =
      some ({ Cpu.reset 0x8001#16 with z := true, cycles := 2#64 }, []) := by
  decide +kernel
theorem test_asl_a :
    cpuAfter 0x8000#16 [0x0A#8] (fun p => { p with a := 0x80#8 }) [] =
      some ({ Cpu.reset 0x8001#16 with c := true, z := true, cycles := 2#64 }, []) := by
  decide +kernel
theorem test_asl_zpx :
    cpuAfter 0x8000#16 [0x16#8, 0x10#8] (fun p => { p with x := 0x05#8 }) [(0x0015, 0x55#8)] =
      some ({ Cpu.reset 0x8002#16 with x := 0x05#8, n := true, cycles := 6#64 }, [(0x0015, 0xAA#8)]) := by
  decide +kernel
theorem test_lsr_a :
    cpuAfter 0x8000#16 [0x4A#8] (fun p => { p with a := 0x01#8 }) [] =
      some ({ Cpu.reset 0x8001#16 with c := true, z := true, cycles := 2#64 }, []) := by
  decide +kernel
theorem test_lsr_abs :
    cpuAfter 0x8000#16 [0x4E#8, 0x00#8, 0x02#8] id [(0x0200, 0x02#8)] =
      some ({ Cpu.reset 0x8003#16 with cycles := 6#64 }, [(0x0200, 0x01#8)]) := by
  decide +kernel
theorem test_rol_a :
    cpuAfter 0x8000#16 [0x2A#8] (fun p => { p with a := 0x80#8, c := true }) [] =
      some ({ Cpu.reset 0x8001#16 with a := 0x01#8, c := true, cycles := 2#64 }, []) := by
  decide +kernel
theorem test_rol_zp :
    cpuAfter 0x8000#16 [0x26#8, 0x10#8] id [(0x0010, 0xC0#8)] =
      some ({ Cpu.reset 0x8002#16 with c := true, n := true, cycles := 5#64 }, [(0x0010, 0x80#8)]) := by
  decide +kernel
theorem test_ror_a :
    cpuAfter 0x8000#16 [0x6A#8] (fun p => { p with a := 0x01#8, c := true }) [] =
      some ({ Cpu.reset 0x8001#16 with a := 0x80#8, c := true, n := true, cycles := 2#64 }, []) := by
  decide +kernel
theorem test_ror_abx :
    cpuAfter 0x8000#16 [0x7E#8, 0x00#8, 0x02#8] (fun p => { p with x := 0x10#8, c := true }) [(0x0210, 0x02#8)] =
      some ({ Cpu.reset 0x8003#16 with x := 0x10#8, n := true, cycles := 7#64 }, [(0x0210, 0x81#8)]) := by
  decide +kernel
theorem test_jmp_abs :
    cpuAfter 0x8000#16 [0x4C#8, 0x34#8, 0x92#8] id [] =
      some ({ Cpu.reset 0x9234#16 with cycles := 3#64 }, []) := by
  decide +kernel
theorem test_jmp_ind_pointer_at_page_end :
    cpuAfter 0x8000#16 [0x6C#8, 0xFF#8, 0x02#8] id [(0x0200, 0x12#8), (0x02FF, 0x34#8), (0x0300, 0x56#8)] =
      some ({ Cpu.reset 0x1234#16 with cycles := 5#64 }, [(0x0200, 0x12#8), (0x02FF, 0x34#8), (0x0300, 0x56#8)]) := by
  decide +kernel
theorem test_jsr :
    cpuAfter 0x8000#16 [0x20#8, 0x00#8, 0x90#8] id [] =
      some ({ Cpu.reset 0x9000#16 with s := 0xFB#8, cycles := 6#64 }, [(0x01FC, 0x02#8), (0x01FD, 0x80#8)]) := by
  decide +kernel
theorem test_rts :
    cpuAfter 0x8000#16 [0x60#8] (fun p => { p with s := 0xFB#8 }) [(0x01FC, 0x02#8), (0x01FD, 0x80#8)] =
      some ({ Cpu.reset 0x8003#16 with cycles := 6#64 }, [(0x01FC, 0x02#8), (0x01FD, 0x80#8)]) := by
  decide +kernel
theorem test_rts_s_wraps :
    cpuAfter 0x8000#16 [0x60#8] (fun p => { p with s := 0xFF#8 }) [(0x0100, 0xFF#8), (0x0101, 0x8F#8)] =
      some ({ Cpu.reset 0x9000#16 with s := 0x01#8, cycles := 6#64 }, [(0x0100, 0xFF#8), (0x0101, 0x8F#8)]) := by
  decide +kernel
theorem test_bne_taken_same_page :
    cpuAfter 0x8000#16 [0xD0#8, 0x05#8] id [] =
      some ({ Cpu.reset 0x8007#16 with cycles := 3#64 }, []) := by
  decide +kernel
theorem test_bne_not_taken :
    cpuAfter 0x8000#16 [0xD0#8, 0x05#8] (fun p => { p with z := true }) [] =
      some ({ Cpu.reset 0x8002#16 with z := true, cycles := 2#64 }, []) := by
  decide +kernel
theorem test_beq_taken_backward_same_page :
    cpuAfter 0x8010#16 [0xF0#8, 0xFE#8] (fun p => { p with z := true }) [] =
      some ({ Cpu.reset 0x8010#16 with z := true, cycles := 3#64 }, []) := by
  decide +kernel
theorem test_bcc_taken_backward_across_a_page :
    cpuAfter 0x8000#16 [0x90#8, 0xFC#8] id [] =
      some ({ Cpu.reset 0x7FFE#16 with cycles := 4#64 }, []) := by
  decide +kernel
theorem test_bcs_taken_forward_across_a_page :
    cpuAfter 0x80F0#16 [0xB0#8, 0x10#8] (fun p => { p with c := true }) [] =
      some ({ Cpu.reset 0x8102#16 with c := true, cycles := 4#64 }, []) := by
  decide +kernel
theorem test_bmi_taken :
    cpuAfter 0x8000#16 [0x30#8, 0x7F#8] (fun p => { p with n := true }) [] =
      some ({ Cpu.reset 0x8081#16 with n := true, cycles := 3#64 }, []) := by
  decide +kernel
theorem test_bpl_taken_offset_80 :
    cpuAfter 0x8100#16 [0x10#8, 0x80#8] id [] =
      some ({ Cpu.reset 0x8082#16 with cycles := 4#64 }, []) := by
  decide +kernel
theorem test_bvc_not_taken :
    cpuAfter 0x8000#16 [0x50#8, 0x10#8] (fun p => { p with v := true }) [] =
      some ({ Cpu.reset 0x8002#16 with v := true, cycles := 2#64 }, []) := by
  decide +kernel
theorem test_bvs_taken :
    cpuAfter 0x8000#16 [0x70#8, 0x02#8] (fun p => { p with v := true }) [] =
      some ({ Cpu.reset 0x8004#16 with v := true, cycles := 3#64 }, []) := by
  decide +kernel
theorem test_pha :
    cpuAfter 0x8000#16 [0x48#8] (fun p => { p with a := 0x99#8 }) [] =
      some ({ Cpu.reset 0x8001#16 with a := 0x99#8, s := 0xFC#8, cycles := 3#64 }, [(0x01FD, 0x99#8)]) := by
  decide +kernel
theorem test_pha_s_wraps :
    cpuAfter 0x8000#16 [0x48#8] (fun p => { p with a := 0x12#8, s := 0x00#8 }) [] =
      some ({ Cpu.reset 0x8001#16 with a := 0x12#8, s := 0xFF#8, cycles := 3#64 }, [(0x0100, 0x12#8)]) := by
  decide +kernel
theorem test_php :
    cpuAfter 0x8000#16 [0x08#8] (fun p => { p with c := true, n := true }) [] =
      some ({ Cpu.reset 0x8001#16 with s := 0xFC#8, c := true, n := true, cycles := 3#64 }, [(0x01FD, 0xB5#8)]) := by
  decide +kernel
theorem test_php_all_flags_clear :
    cpuAfter 0x8000#16 [0x08#8] (fun p => { p with i := false }) [] =
      some ({ Cpu.reset 0x8001#16 with s := 0xFC#8, i := false, cycles := 3#64 }, [(0x01FD, 0x30#8)]) := by
  decide +kernel
theorem test_pla :
    cpuAfter 0x8000#16 [0x68#8] (fun p => { p with s := 0xFC#8 }) [] =
      some ({ Cpu.reset 0x8001#16 with z := true, cycles := 4#64 }, []) := by
  decide +kernel
theorem test_pla_s_wraps :
    cpuAfter 0x8000#16 [0x68#8] (fun p => { p with s := 0xFF#8 }) [(0x0100, 0x80#8)] =
      some ({ Cpu.reset 0x8001#16 with a := 0x80#8, s := 0x00#8, n := true, cycles := 4#64 }, [(0x0100, 0x80#8)]) := by
  decide +kernel
theorem test_plp_ignores_bits_5_and_4 :
    cpuAfter 0x8000#16 [0x28#8] (fun p => { p with s := 0xFC#8 }) [(0x01FD, 0xFF#8)] =
      some ({ Cpu.reset 0x8001#16 with c := true, z := true, d := true, v := true, n := true, cycles := 4#64 }, [(0x01FD, 0xFF#8)]) := by
  decide +kernel
theorem test_plp_00 :
    cpuAfter 0x8000#16 [0x28#8] (fun p => { p with s := 0xFC#8, c := true }) [] =
      some ({ Cpu.reset 0x8001#16 with i := false, cycles := 4#64 }, []) := by
  decide +kernel
theorem test_clc :
    cpuAfter 0x8000#16 [0x18#8] (fun p => { p with c := true }) [] =
      some ({ Cpu.reset 0x8001#16 with cycles := 2#64 }, []) := by
  decide +kernel
theorem test_sec :
    cpuAfter 0x8000#16 [0x38#8] id [] =
      some ({ Cpu.reset 0x8001#16 with c := true, cycles := 2#64 }, []) := by
  decide +kernel
theorem test_cli :
    cpuAfter 0x8000#16 [0x58#8] id [] =
      some ({ Cpu.reset 0x8001#16 with i := false, cycles := 2#64 }, []) := by
  decide +kernel
theorem test_sei :
    cpuAfter 0x8000#16 [0x78#8] (fun p => { p with i := false }) [] =
      some ({ Cpu.reset 0x8001#16 with cycles := 2#64 }, []) := by
  decide +kernel
theorem test_cld :
    cpuAfter 0x8000#16 [0xD8#8] (fun p => { p with d := true }) [] =
      some ({ Cpu.reset 0x8001#16 with cycles := 2#64 }, []) := by
  decide +kernel
theorem test_sed :
    cpuAfter 0x8000#16 [0xF8#8] id [] =
      some ({ Cpu.reset 0x8001#16 with d := true, cycles := 2#64 }, []) := by
  decide +kernel
theorem test_clv :
    cpuAfter 0x8000#16 [0xB8#8] (fun p => { p with v := true }) [] =
      some ({ Cpu.reset 0x8001#16 with cycles := 2#64 }, []) := by
  decide +kernel
theorem test_nop :
    cpuAfter 0x8000#16 [0xEA#8] id [] =
      some ({ Cpu.reset 0x8001#16 with cycles := 2#64 }, []) := by
  decide +kernel
theorem test_brk :
    cpuAfter 0x8000#16 [0x00#8, 0xEA#8] (fun p => { p with c := true, i := false }) [] =
      some ({ Cpu.reset 0x9000#16 with s := 0xFA#8, c := true, cycles := 7#64 }, [(0x01FB, 0x31#8), (0x01FC, 0x02#8), (0x01FD, 0x80#8)]) := by
  decide +kernel
theorem test_rti :
    cpuAfter 0x8000#16 [0x40#8] (fun p => { p with s := 0xFA#8 }) [(0x01FB, 0xC3#8), (0x01FC, 0x34#8), (0x01FD, 0x92#8)] =
      some ({ Cpu.reset 0x9234#16 with c := true, z := true, i := false, v := true, n := true, cycles := 6#64 }, [(0x01FB, 0xC3#8), (0x01FC, 0x34#8), (0x01FD, 0x92#8)]) := by
  decide +kernel
theorem test_rti_with_bits_5_4_set_in_the_pulled_byte :
    cpuAfter 0x8000#16 [0x40#8] (fun p => { p with s := 0xFA#8 }) [(0x01FB, 0x30#8), (0x01FD, 0x80#8)] =
      some ({ Cpu.reset 0x8000#16 with i := false, cycles := 6#64 }, [(0x01FB, 0x30#8), (0x01FD, 0x80#8)]) := by
  decide +kernel
/-- 40_load_store_transfer.md R167 and R168. -/
theorem test_tay :
    cpuAfter 0x8000#16 [0xA8#8] (fun p => { p with a := 0xFF#8 }) [] =
      some ({ Cpu.reset 0x8001#16 with a := 0xFF#8, y := 0xFF#8, n := true, cycles := 2#64 }, []) := by
  decide +kernel
theorem test_txa :
    cpuAfter 0x8000#16 [0x8A#8] (fun p => { p with x := 0x10#8 }) [] =
      some ({ Cpu.reset 0x8001#16 with a := 0x10#8, x := 0x10#8, cycles := 2#64 }, []) := by
  decide +kernel
/-- 40_load_store_transfer.md R165, to a nametable byte through the data port. -/
theorem test_sty_data_port :
    nextIs (cpuStep (let s := start 0x8000#16 [0x8C#8, 0x07#8, 0x20#8] (fun p => { p with y := 0x3F#8 }) [];
      { s with ppu := { s.ppu with v := 0x2108#15 } }))
      (fun t => t.ppu.vram = [(0x0108, 0x3F#8)] && t.ppu.v = 0x2109#15 && t.cpu.cycles = 4#64) = true := by
  decide +kernel
theorem test_undefined_02 :
    cpuAfter 0x8000#16 [0x02#8, 0x11#8, 0x22#8] id [] =
      some ({ Cpu.reset 0x8001#16 with
        cycles := 2#64, unsupportedSeen := true, unsupportedOpcode := 0x02#8, unsupportedAt := 0x8000#16 }, []) := by
  decide +kernel

/-! ## Interrupts and reset (95_test_vectors.md 2.7) -/

theorem test_nmi_entry :
    cpuAfter 0x8004#16 [] (fun p => { p with z := true, nmiPending := true }) [] =
      some ({ Cpu.reset 0x9000#16 with s := 0xFA#8, z := true, cycles := 7#64 },
        [(0x01FB, 0x26#8), (0x01FC, 0x04#8), (0x01FD, 0x80#8)]) := by
  decide +kernel
theorem test_irq_entry :
    cpuAfter 0x8001#16 [0xEA#8] (fun p => { p with i := false, irqPending := true }) [] =
      some ({ Cpu.reset 0x9000#16 with s := 0xFA#8, irqPending := true, cycles := 7#64 },
        [(0x01FB, 0x20#8), (0x01FC, 0x01#8), (0x01FD, 0x80#8)]) := by
  decide +kernel
theorem test_irq_masked :
    cpuAfter 0x8000#16 [0xEA#8] (fun p => { p with irqPending := true }) [] =
      some ({ Cpu.reset 0x8001#16 with irqPending := true, cycles := 2#64 }, []) := by
  decide +kernel
theorem test_reset :
    (reset { start 0x8123#16 [] (fun p => { p with a := 0x11#8, s := 0x22#8, i := false, cycles := 9#64 }) [(5, 0x77#8)] with
      ppu := { Ppu.powerOn with ctrl := 0x80#8, scanline := 3 } }) =
      { mini with bus := { mini.bus with ram := [(5, 0x77#8)] } } := by
  decide +kernel

/-! ## Mappers (95_test_vectors.md 2.8) -/

theorem test_mapper0_windows :
    mapRead mini.mapper cart0 0x8000 .cpu = (.prgRom, 0) ∧ mapRead mini.mapper cart0 0xC000 .cpu = (.prgRom, 0) ∧
      mapRead mini.mapper cart0 0xFFFC .cpu = (.prgRom, 0x3FFC) ∧ memWrite mini 0x8000#16 0x5A#8 = mini ∧
      (mapWrite mini 0x0123 0x5A#8 .ppu).cart.chrRam = [(0x0123, 0x5A#8)] := by decide +kernel

/-- Variant 1 after the serial writes 1, 1, 0, 0, 0 to $E000. -/
def serial3 : State :=
  [0x01#8, 0x01#8, 0x00#8, 0x00#8, 0x00#8].foldl (fun s d => memWrite s 0xE000#16 d) (banked 0x01#8 (.v1 Mapper1.init))

theorem test_mapper1_serial :
    serial3.mapper.variant = .v1 { Mapper1.init with prg := 3#5 } ∧
      mapRead serial3.mapper serial3.cart 0x8000 .cpu = (.prgRom, 0x0C000) ∧
      mapRead serial3.mapper serial3.cart 0xBFFF .cpu = (.prgRom, 0x0FFFF) ∧
      mapRead serial3.mapper serial3.cart 0xC000 .cpu = (.prgRom, 0x1C000) := by decide +kernel

/-- Variant 4 after $06 to $8000 and $05 to $8001. -/
def bank5 : State :=
  memWrite (memWrite (banked 0x04#8 (.v4 Mapper4.init)) 0x8000#16 0x06#8) 0x8001#16 0x05#8

theorem test_mapper4_banks :
    mapRead bank5.mapper bank5.cart 0x9FFF .cpu = (.prgRom, 0x0BFFF) ∧
      mapRead bank5.mapper bank5.cart 0xC000 .cpu = (.prgRom, 0x1C000) ∧
      mapRead bank5.mapper bank5.cart 0xE000 .cpu = (.prgRom, 0x1E000) ∧
      (let s := memWrite bank5 0x8000#16 0x46#8;
        mapRead s.mapper s.cart 0x8000 .cpu = (.prgRom, 0x1C000) ∧
          mapRead s.mapper s.cart 0xC000 .cpu = (.prgRom, 0x0A000)) := by decide +kernel

/-- Variant 4 after $03 to $C000 and any value to $C001 and $E001. -/
def armed : State :=
  memWrite (memWrite (memWrite (banked 0x04#8 (.v4 Mapper4.init)) 0xC000#16 0x03#8) 0xC001#16 0x00#8) 0xE001#16 0x00#8

theorem test_mapper4_irq :
    (let edge (g : Mapper) : Mapper := (g.observe 0x1000).observe 0x0000;
      (edge (edge (edge armed.mapper))).irqFlag = false ∧ (edge (edge (edge (edge armed.mapper)))).irqFlag = true ∧
        (memWrite { armed with mapper := edge (edge (edge (edge armed.mapper))) } 0xE000#16 0x00#8).mapper.irqFlag = false) := by
  decide +kernel

/-! ## PPU (95_test_vectors.md 2.9, T3) -/

theorem test_ppu_scroll_pair :
    (memWrite (memWrite mini 0x2005#16 0x7D#8) 0x2005#16 0x5E#8).ppu = { mini.ppu with x := 5#3, t := 0x616F#15 } := by
  decide +kernel
theorem test_ppu_address_pair :
    (memWrite (memWrite mini 0x2006#16 0x21#8) 0x2006#16 0x08#8).ppu = { mini.ppu with t := 0x2108#15, v := 0x2108#15 } := by
  decide +kernel
theorem test_ppu_status_read :
    (let s := { mini with ppu := { mini.ppu with status := 0xE0#8, w := true } };
      (memRead s 0x2002#16).1 = 0xE0#8 ∧ (memRead s 0x2002#16).2.ppu.w = false ∧
        (memRead (memRead s 0x2002#16).2 0x3FFA#16).1 = 0x60#8) := by
  decide +kernel
theorem test_ppu_buffered_read :
    (let s := { mini with ppu := { mini.ppu with v := 0x2000#15, vram := [(0, 0xAA#8), (1, 0xBB#8)] } };
      let r1 := memRead s 0x2007#16;
      let r2 := memRead r1.2 0x2007#16;
      (r1.1, r2.1, (memRead r2.2 0x2007#16).1) = (0x00#8, 0xAA#8, 0xBB#8)) := by
  decide +kernel
theorem test_ppu_palette_read :
    (let s := { mini with ppu := { mini.ppu with v := 0x3F00#15, palette := [(0, 0x0F#8)], vram := [(0x700, 0x5C#8)] } };
      (memRead s 0x2007#16).1 = 0x0F#8 ∧ (memRead s 0x2007#16).2.ppu.buffer = 0x5C#8 ∧
        (memRead s 0x2007#16).2.ppu.v = 0x3F01#15) := by
  decide +kernel
theorem test_ppu_palette_mirror :
    (ppuRead (ppuWrite mini 0x3F10 0x2A#8) 0x3F20).1 = 0x2A#8 ∧ (ppuRead (ppuWrite mini 0x3F01 0xFF#8) 0x3F01).1 = 0x3F#8 := by
  decide +kernel
theorem test_ppu_attribute_address : attributeAddr 0x2108#15 = 0x23D2 := by decide
theorem test_ppu_scroll_counters :
    ({ mini.ppu with v := 0x001F#15 } : Ppu).incX.v = 0x0400#15 ∧ ({ mini.ppu with v := 0x73A0#15 } : Ppu).incY.v = 0x0800#15 ∧
      ({ mini.ppu with v := 0x73E0#15 } : Ppu).incY.v = 0x0000#15 := by decide +kernel
theorem test_ppu_nmi_on_enable :
    (memWrite { mini with ppu := { mini.ppu with status := 0x80#8 } } 0x2000#16 0x80#8).cpu.nmiPending = true := by
  decide +kernel
theorem test_ppu_vblank_entry :
    (let t := ppuTick { mini with ppu := { mini.ppu with dot := 1, ctrl := 0x80#8 } };
      t.ppu.status = 0x80#8 ∧ t.ppu.frameComplete = true ∧ t.cpu.nmiPending = true ∧ t.ppu.dot = 2) := by
  decide +kernel
theorem test_ppu_prerender_and_wrap :
    (ppuTick { mini with ppu := { mini.ppu with scanline := 261, dot := 1, status := 0xE0#8 } }).ppu.status = 0x00#8 ∧
      (ppuTick { mini with ppu := { mini.ppu with scanline := 261, dot := 340 } }).ppu.position = 0 := by
  decide +kernel
/-- 20_memory.md R73: the parity of the cycle count. -/
theorem test_dma_cycles :
    4 + dmaCycles 0x4014#16 100#64 4 = 517 ∧ 4 + dmaCycles 0x4014#16 101#64 4 = 518 ∧ dmaCycles 0x4015#16 101#64 4 = 0 := by
  decide

/-! ## APU (95_test_vectors.md 2.10) -/

theorem test_apu_length_load :
    (let s := memWrite (memWrite mini 0x4015#16 0x01#8) 0x4003#16 0xF8#8;
      s.apu.pulse0.length = 30#8 ∧ s.apu.pulse0.envStart = true ∧
        (memWrite mini 0x4003#16 0xF8#8).apu.pulse0.length = 0#8 ∧ (memWrite s 0x4015#16 0x00#8).apu.pulse0.length = 0#8) := by
  decide +kernel
theorem test_apu_status_read :
    (let s := { mini with apu := { mini.apu with
        pulse0 := { mini.apu.pulse0 with length := 1#8 }, frame := { mini.apu.frame with irqFlag := true } } };
      (memRead s 0x4015#16).1 = 0x41#8 ∧ (memRead (memRead s 0x4015#16).2 0x4015#16).1 = 0x01#8) := by
  decide +kernel
theorem test_apu_frame_irq :
    ({ mini.apu with frame := { mini.apu.frame with counter := 29828#16 } } : Apu).frameTick.frame =
      { mini.apu.frame with counter := 29829#16, irqFlag := true } := by
  decide +kernel
theorem test_apu_mixer :
    mini.apu.mix = 0x3E02B6AE#32 ∧ f32OfRatio 85280 100000 = 0x3F5A511A#32 ∧ f32OfRatio 752 100000 = 0x3BF66A55#32 := by
  decide +kernel
theorem test_apu_first_sample :
    (let a := (Apu.decimate 44100)^[40] mini.apu;
      a.samples.length = 0 ∧ (Apu.decimate 44100 a).samples.length = 1 ∧ (Apu.decimate 44100 a).decimAcc = 21260#32) := by
  decide +kernel

/-! ## Controllers (95_test_vectors.md 2.11) -/

/-- Port 0 with A and Start held, after a strobe. -/
def strobed : State :=
  memWrite (memWrite (setState (setState mini 0 .a true) 0 .start true) 0x4016#16 0x01#8) 0x4016#16 0x00#8

theorem test_controller_reads :
    (List.range 10).map (fun k => (memRead ((fun u : State => (memRead u 0x4016#16).2)^[k] strobed) 0x4016#16).1) =
      [1#8, 0#8, 0#8, 1#8, 0#8, 0#8, 0#8, 0#8, 1#8, 1#8] := by
  decide +kernel
theorem test_controller_buttons : (setState strobed 0 .right true).bus.pad0.buttons = 0x89#8 := by decide +kernel

/-! ## The host (95_test_vectors.md 2.12) -/

theorem test_fingerprint : fnv1a [] = 0x811C9DC5#32 ∧ fnv1a [0x61#8] = 0xE40C292C#32 := by decide +kernel
theorem test_mapper_split : imageMapperId 0x40#8 0x00#8 = 4#8 ∧ imageMapperId 0x10#8 0x10#8 = 17#8 := by decide
theorem test_image_mirroring :
    imageMirroring 0x08#8 = .fourScreen ∧ imageMirroring 0x09#8 = .fourScreen ∧ imageMirroring 0x01#8 = .vertical := by
  decide

/-- The header of the minimal image. -/
def header : List Byte := [0x4E#8, 0x45#8, 0x53#8, 0x1A#8, 0x01#8, 0x01#8] ++ List.replicate 10 0x00#8

theorem test_load_errors :
    (load mini (0x4D#8 :: header.tail)).2 = .error .malformedHeader ∧
      (load mini (header.set 4 0x00#8)).2 = .error .malformedHeader ∧
      (load mini ((header.set 6 0x10#8).set 7 0x10#8)).2 = .error .unsupportedMapper ∧
      (load mini (header.set 4 0x03#8)).2 = .error .bankCountInvalid ∧ (load mini header).2 = .error .truncatedRom :=
  ⟨rfl, rfl, rfl, rfl, rfl⟩

/-- The minimal image of 24592 bytes loads. -/
theorem test_load_minimal (body : List Byte) (h : body.length = 24576) :
    (load mini (header ++ body)).2 = .ok () ∧ (load mini (header ++ body)).1.loaded = true := by
  have hl : (header ++ body).length = 24592 := by rw [List.length_append, h]; rfl
  have e : (header ++ body).take 4 = imageMagic := rfl
  have g4 : (header ++ body).getD 4 0x00#8 = 0x01#8 := rfl
  have g5 : (header ++ body).getD 5 0x00#8 = 0x01#8 := rfl
  have g6 : (header ++ body).getD 6 0x00#8 = 0x00#8 := rfl
  have g7 : (header ++ body).getD 7 0x00#8 = 0x00#8 := rfl
  have m : mapperChecks (imageMapperId 0x00#8 0x00#8) 0x01#8 0x01#8 = some true := by decide
  have d : (0x00#8 : Byte).getLsbD 2 = false := by decide
  simp only [load, parseImage, g4, g5, g6, g7, e, hl, m, d]
  exact ⟨rfl, rfl⟩

/-! ## Witnesses for the hypotheses of the obligations -/

/-- Power-on with `LDA #$80` at $8000. -/
def ready : State := start 0x8000#16 [0xA9#8, 0x80#8] id []

theorem mini_cart : mini.cart.Inv :=
  ⟨by decide +kernel, by decide +kernel, by decide +kernel, by decide +kernel⟩

theorem mini_ppu : mini.ppu.Inv :=
  ⟨by decide +kernel, by decide +kernel, by decide +kernel, by decide +kernel, Frame.wf_nil, by decide +kernel,
    by decide +kernel, by decide +kernel, by decide +kernel⟩

theorem mini_apu : mini.apu.Inv :=
  ⟨by decide +kernel, by decide +kernel, show (0 : Nat) < 29830 by decide, by decide +kernel⟩

theorem mini_mapper : mini.mapper.Inv mini.cart :=
  ⟨show ((0x00#8 : Byte).toNat ≠ 1 ∧ (0x00#8 : Byte).toNat ≠ 4) by decide, trivial, fun h => absurd h (by decide +kernel)⟩

theorem standard_legal : legalConfig Params.standard := ⟨by decide, by decide, Memory.wf_nil _⟩

/-- Obligations about every state that meets the invariant: power-on meets it, and it is loaded. -/
theorem test_witness_invariant : mini.Inv ∧ mini.loaded = true :=
  ⟨⟨Memory.wf_nil _, mini_ppu, mini_apu, mini_cart, mini_mapper, standard_legal, Frame.wf_nil, fun _ => by decide +kernel⟩,
    by decide +kernel⟩

theorem test_witness_DecodingAnEncodedInstructionGivesItBack :
    WellFormed (.lda (.mem (.abx 0xFFFF#16))) ∧ WellFormed (.undefined 0xFF#8) := by decide

theorem test_witness_EveryOpcodeDecodesAndEncodesBack :
    decode [0xFF#8] = .ok (.undefined 0xFF#8, []) ∧ decode [0x4C#8, 0xFF#8, 0xFF#8] = .ok (.jmp (.abs 0xFFFF#16), []) :=
  ⟨rfl, rfl⟩

theorem test_witness_StepRunsTheDecodedInstruction :
    ready.loaded = true ∧ ready.cpu.nmiPending = false ∧ ready.cpu.irqPending = false ∧
      (∀ k < 2, readHasEffect (ready.cpu.pc + BitVec.ofNat 16 k) = false) ∧
      decodeTableWord 24 ((memRead ready ready.cpu.pc).1.toNat + 256 * (memRead ready (ready.cpu.pc + 1#16)).1.toNat +
        65536 * (memRead ready (ready.cpu.pc + 2#16)).1.toNat) = some (.lda (.imm 0x80#8)) ∧
      nextIs (step ready) (fun t => t.cpu.a = 0x80#8 && t.cpu.pc = 0x8002#16 && t.ppu.dot = 8) = true := by
  decide +kernel

theorem test_witness_ComparesAndBitSetFlagsOnly (s : State) (o : ReadOp) :
    (Instr.cpy o = .cmp o ∧ s.cpu.y = s.cpu.a ∨ Instr.cpy o = .cpx o ∧ s.cpu.y = s.cpu.x ∨
      Instr.cpy o = .cpy o ∧ s.cpu.y = s.cpu.y) := .inr (.inr ⟨rfl, rfl⟩)

theorem test_witness_StoresWriteTheirRegisterAtTheAddress :
    (effAddr mini (.abs 0x1FFF#16)).1.addr.toNat < 0x2000 ∧ mini.storesTo 0x1FFF#16 (.ram 0x7FF) ∧
      0x6000 ≤ (effAddr mini (.abs 0x7FFF#16)).1.addr.toNat ∧ (effAddr mini (.abs 0x7FFF#16)).1.addr.toNat < 0x8000 ∧
      mini.storesTo 0x7FFF#16 (.prgRam 0x1FFF) :=
  ⟨by decide +kernel, rfl, by decide +kernel, by decide +kernel, ⟨by decide, by decide, rfl⟩⟩

theorem test_witness_ShiftsAndRotatesMoveOneBit :
    ∃ (i : RmwOp → Instr) (f : Nat → Nat) (carry : Byte → Bool),
      i = .ror ∧ f = (fun v => v / 2 + 128 * 1) ∧ carry = fun v => decide (v.toNat % 2 = 1) := ⟨_, _, _, rfl, rfl, rfl⟩

theorem test_witness_BranchesTestOneFlag : (Instr.bcc 0x80#8 ≠ Instr.bcs 0x80#8) ∧ (!mini.cpu.c) = true := by
  decide +kernel

theorem test_witness_PushesAndPullsMoveOneByte :
    (Instr.pha = .pha ∧ mini.cpu.a = mini.cpu.a) ∧ (Instr.php = .php ∧ mini.cpu.status true = mini.cpu.status true) :=
  ⟨⟨rfl, rfl⟩, ⟨rfl, rfl⟩⟩

theorem test_witness_UndefinedOpcodesSignalAndGoOn :
    0xFF ∈ undefinedOpcodes ∧ mini.cpu.unsupportedSeen = false ∧
      nextIs (exec (.undefined 0xFF#8) mini) (fun t => t.cpu.unsupportedSeen) = true := by
  decide +kernel

theorem test_witness_InterruptPollChoosesTheEntry :
    ready.cpu.nmiPending = false ∧ ready.cpu.irqPending = false ∧
      (let s := ready.withCpu fun p => { p with nmiPending := true };
        s.cpu.nmiPending = true ∧ nextIs (cpuStep s) (fun t => t.cpu.pc = 0x9000#16) = true) ∧
      (let s := ready.withCpu fun p => { p with irqPending := true, i := false };
        s.cpu.nmiPending = false ∧ s.cpu.irqPending = true ∧ s.cpu.i = false ∧
          nextIs (cpuStep s) (fun t => t.cpu.pc = 0x9000#16) = true) := by
  decide +kernel

theorem test_witness_ReturnAfterEntryRestoresTheFlags :
    0x4020 ≤ irqVector.toNat ∧ irqVector.toNat < 0xFFFF ∧ 0x4020 ≤ (0x4020#16 : Word).toNat := by decide

theorem test_witness_InterruptLatchesFollowTheirSources :
    (let s := ready.withCpu fun p => { p with nmiPending := true };
      nextIs (exec .nop s) (fun t => t.cpu.nmiPending) = true ∧ (fanOut 1 s).cpu.nmiPending = true) ∧
      (let s := { ready with apu := { ready.apu with frame := { ready.apu.frame with irqFlag := true } } };
        s.loaded = true ∧ nextIs (step s) (fun t => t.cpu.irqPending) = true) := by
  decide +kernel

theorem test_witness_EmptyMachine :
    State.reset.loaded = false ∧ nextIs (step State.reset) (fun t => t = State.reset) = true := by
  decide +kernel

theorem test_witness_OnlyNamedInstructionsWriteARegister :
    nextIs (exec .pla (ready.withCpu fun p => { p with a := 0x01#8 })) (fun t =>
      t.cpu.a ≠ 0x01#8 && t.cpu.s ≠ ready.cpu.s && t.cpu.z ≠ ready.cpu.z) = true ∧
      nextIs (exec .tsx ready) (fun t => t.cpu.x ≠ ready.cpu.x && t.cpu.n ≠ ready.cpu.n) = true ∧
      nextIs (exec .dey ready) (fun t => t.cpu.y ≠ ready.cpu.y) = true ∧
      nextIs (exec .sec ready) (fun t => t.cpu.c ≠ ready.cpu.c) = true ∧
      nextIs (exec .cli ready) (fun t => t.cpu.i ≠ ready.cpu.i) = true ∧
      nextIs (exec .sed ready) (fun t => t.cpu.d ≠ ready.cpu.d) = true ∧
      nextIs (exec (.adc (.imm 0x7F#8)) (ready.withCpu fun p => { p with a := 0x01#8 })) (fun t => t.cpu.v) = true := by
  decide +kernel

/-- The bounds of every range of the address map (95_test_vectors.md T2). -/
theorem test_witness_EveryAddressHasOneRoute :
    [0x0000#16, 0x1FFF#16, 0x2000#16, 0x3FFF#16, 0x4000#16, 0x4013#16, 0x4014#16, 0x4015#16].map route =
      [.workRam, .workRam, .ppuReg, .ppuReg, .apuReg, .apuReg, .oamDma, .apuReg] ∧
      [0x4016#16, 0x4017#16, 0x4018#16, 0x401F#16, 0x4020#16, 0xFFFF#16].map route =
        [.port0, .port1, .unmapped, .unmapped, .cartridge, .cartridge] ∧
      ramIndex 0x1FFF#16 = 0x7FF ∧ ramIndex 0x0800#16 = 0 ∧
      (mapRead mini.mapper mini.cart 0x4020 .cpu).1 = .unmapped ∧ (mapRead mini.mapper mini.cart 0x5FFF .cpu).1 = .unmapped ∧
      [0x2000#16, 0x3FFE#16, 0x4000#16, 0x4014#16, 0x4018#16, 0x401F#16, 0x5FFF#16].map (fun a =>
        (memRead { mini with params := { mini.params with openBus := 0x5A#8 } } a).1) = List.replicate 7 0x5A#8 := by
  decide +kernel

theorem test_witness_WritesReadBackThroughEveryMirror :
    (memRead (memWrite mini 0x0800#16 0x77#8) 0x1800#16).1 = 0x77#8 ∧ (0x1FFF#16 : Word).toNat ≤ 0x1FFF ∧
      mini.ppu.mask.getLsbD 0 = false ∧ (ppuRead (ppuWrite mini 0x3EFF 0xAB#8) 0x2EFF).1 = 0xAB#8 ∧
      (ppuRead (ppuWrite mini 0x2000 0xAB#8) 0x2400).1 = 0xAB#8 ∧ (ppuRead (ppuWrite mini 0x3FFF 0x2A#8) 0x3F1F).1 = 0x2A#8 ∧
      (ppuRead (ppuWrite mini 0x2005 0xAB#8) 0x2805).1 = 0x00#8 := by
  decide +kernel

theorem test_witness_PpuSpaceResolvesToItsCells :
    (ppuRead { mini with cart := { cart0 with chrRam := [(0x1FFF, 0x11#8)] } } 0x1FFF).1 = 0x11#8 ∧
      (ppuWrite mini 0x2000 0x22#8).ppu.vram = [(0, 0x22#8)] ∧ (ppuWrite mini 0x3EFF 0x22#8).ppu.vram = [(0x6FF, 0x22#8)] ∧
      (ppuWrite mini 0x7F10 0xFF#8).ppu.palette = [(0, 0x3F#8)] ∧ (ppuWrite mini 0x3F14 0x22#8).ppu.palette = [(4, 0x22#8)] := by
  decide +kernel

theorem test_witness_ReadsChangeStateOnlyWhereListed :
    (let s := { mini with ppu := { mini.ppu with status := 0x80#8, w := true, v := 0x1FFF#15 } };
      (memRead s 0x3FFA#16).2.ppu.status = 0x00#8 ∧ (memRead s 0x3FFF#16).2.ppu.v = 0x2000#15 ∧
        (memRead s 0x4015#16).1 = 0x00#8 ∧ (memRead s 0x4016#16).2.bus.pad0.shift = 0x80#8 ∧
        (memRead s 0x4017#16).2.bus.pad1.shift = 0x80#8 ∧ (memRead s 0x2004#16).2 = s ∧ (memRead s 0xFFFF#16).2 = s) := by
  decide +kernel

/-- One byte of the copy of page 2, and the bounds of the pages without side effects. -/
theorem test_witness_OamDmaCopiesOnePage :
    (oamDmaByte 0x02#8 { mini with bus := { mini.bus with ram := [(0x02FF, 0x5C#8)] }, ppu := { mini.ppu with oamAddr := 1#8 } }
      255).ppu.oam = [(0, 0x5C#8)] ∧ (0x1F#8 : Byte).toNat < 0x20 ∧ 0x41 ≤ (0x41#8 : Byte).toNat := by
  decide +kernel

theorem test_witness_ControllerPortsShiftTheSnapshot :
    (0 < 8 ∧ 7 < 8 ∧ ¬ 8 < 8) ∧ strobed.bus.strobe = false ∧ (memWrite mini 0x4016#16 0x01#8).bus.strobe = true := by
  decide +kernel

/-- A write to each PPU register at its first and last address changes what its clause says. -/
theorem test_witness_PpuRegisterAccessesFollowTheirRules :
    (memWrite mini 0x2000#16 0x83#8).ppu.t = 0x0C00#15 ∧ (memWrite mini 0x3FF9#16 0x1E#8).ppu.mask = 0x1E#8 ∧
      memWrite mini 0x3FFA#16 0xFF#8 = mini ∧ (memWrite mini 0x3FFB#16 0xFF#8).ppu.oamAddr = 0xFF#8 ∧
      (memWrite (memWrite mini 0x2003#16 0xFF#8) 0x2004#16 0x12#8).ppu.oam = [(255, 0x12#8)] ∧
      (memWrite mini 0x2005#16 0xFF#8).ppu.x = 7#3 ∧ (memWrite mini 0x2006#16 0xFF#8).ppu.t = 0x3F00#15 ∧
      (memWrite { mini with ppu := { mini.ppu with w := true } } 0x2005#16 0xFF#8).ppu.t = 0x73E0#15 ∧
      (memWrite { mini with ppu := { mini.ppu with w := true } } 0x2006#16 0xFF#8).ppu.v = 0x00FF#15 ∧
      (memWrite { mini with ppu := { mini.ppu with v := 0x3EFF#15, ctrl := 4#8 } } 0x2007#16 0x12#8).ppu.v = 0x3F1F#15 ∧
      (memRead { mini with ppu := { mini.ppu with v := 0x3EFF#15, buffer := 0x34#8 } } 0x2007#16).1 = 0x34#8 ∧
      (memRead { mini with ppu := { mini.ppu with v := 0x3FFF#15, buffer := 0x34#8 } } 0x2007#16).1 = 0x00#8 := by
  decide +kernel

/-- The dots at the bounds of the clauses: a visible dot writes the backdrop, the others only advance. -/
theorem test_witness_VblankPreRenderAndBlankedDots :
    (let at' (sl d : Nat) : State := { mini with ppu := { mini.ppu with scanline := sl, dot := d } };
      (mini.ppu.mask.getLsbD 3 = false ∧ mini.ppu.mask.getLsbD 4 = false) ∧
        (ppuTick (at' 239 256)).ppu.position = 239 * 341 + 257 ∧ (ppuTick (at' 0 1)).ppu.position = 2 ∧
        ppuTick (at' 0 0) = at' 0 1 ∧ ppuTick (at' 239 257) = at' 239 258 ∧ ppuTick (at' 240 0) = at' 240 1 ∧
        ppuTick (at' 260 340) = at' 261 0 ∧ ppuTick (at' 241 0) = at' 241 1 ∧ ppuTick (at' 261 340) = at' 0 0 ∧
        (ppuTick (at' 241 1)).ppu.frameComplete = true ∧ (ppuTick (at' 261 1)).ppu.position = 261 * 341 + 2) := by
  decide +kernel

theorem test_witness_positions :
    mini.ppu.scanline < 262 ∧ mini.ppu.dot < 341 ∧ mini.ppu.frameComplete = false ∧ mini.ppu.position = 82183 ∧
      ¬ (mini.ppu.scanline = 241 ∧ mini.ppu.dot = 1) ∧ mini.loaded = true := by
  decide +kernel

/-- 47_ppu.md R406: `row <- sl - Y`, and `h - 1 - row` when flipped, also for an entry below the line (8 - 1 - (10 - 12) = 9). -/
theorem test_sprite_row :
    spriteRow 8 10 9 false = 1 ∧ spriteRow 16 10 9 true = 14 ∧ spriteRow 8 10 12 true = 9 ∧ spriteRow 8 10 1 false = 9 := by
  decide

theorem test_witness_SerialPortLoadsFiveBits :
    (banked 0x01#8 (.v1 Mapper1.init)).mapper.variant = .v1 Mapper1.init ∧ Mapper1.init.shift = 0#5 ∧
      Mapper1.init.shiftCount = 0 ∧ 0x8000 ≤ (0x8000#16 : Word).toNat ∧ (0x80#8 : Byte).getLsbD 7 = true ∧
      (0x7F#8 : Byte).getLsbD 7 = false ∧
      [0x8000#16, 0x9FFF#16, 0xA000#16, 0xBFFF#16, 0xC000#16, 0xDFFF#16, 0xE000#16, 0xFFFF#16].map (fun a =>
        (memWrite (banked 0x01#8 (.v1 { Mapper1.init with shiftCount := 4 })) a 0x01#8).mapper.variant) =
        [.v1 { Mapper1.init with control := 16#5 }, .v1 { Mapper1.init with control := 16#5 },
          .v1 { Mapper1.init with chr0 := 16#5 }, .v1 { Mapper1.init with chr0 := 16#5 },
          .v1 { Mapper1.init with chr1 := 16#5 }, .v1 { Mapper1.init with chr1 := 16#5 },
          .v1 { Mapper1.init with prg := 16#5 }, .v1 { Mapper1.init with prg := 16#5 }] := by
  decide +kernel

theorem test_witness_Mapper4RegistersAndCounter :
    (banked 0x04#8 (.v4 Mapper4.init)).mapper.variant = .v4 Mapper4.init ∧
      [0x9FFE#16, 0xDFFE#16, 0xFFFF#16].map (fun a =>
        (memWrite (banked 0x04#8 (.v4 Mapper4.init)) a 0x05#8).mapper.variant) =
        [.v4 { Mapper4.init with bankSelect := 0x05#8 }, .v4 { Mapper4.init with irqLatch := 0x05#8 },
          .v4 { Mapper4.init with irqEnabled := true }] ∧
      (memWrite (banked 0x04#8 (.v4 Mapper4.init)) 0xA000#16 0x00#8).mapper.mirroring = .vertical ∧
      (memWrite (banked 0x04#8 (.v4 Mapper4.init)) 0xBFFF#16 0x05#8).mapper.variant =
        .v4 { Mapper4.init with ramProtect := 0x05#8 } := by
  decide +kernel

/-- A cartridge of each variant with its mapper, and the bounds of the windows. -/
theorem test_witness_BankWindowsStayInsideTheCartridge :
    (mini.mapper.Inv mini.cart ∧ mini.mapper.variant = .v0) ∧
      (serial3.mapper.Inv serial3.cart ∧ serial3.mapper.variant = .v1 { Mapper1.init with prg := 3#5 }) ∧
      bank5.mapper.Inv bank5.cart ∧
      (mapperChecks 0x00#8 0x01#8 0x00#8 = some true ∧ mapperChecks 0x01#8 0x08#8 0x00#8 = some true ∧
        mapperChecks 0x04#8 0x08#8 0x00#8 = some true) ∧
      [0x5FFF, 0x6000, 0x7FFF, 0x8000, 0xFFFF, 0x10000].map (fun a => mapRead mini.mapper mini.cart a .cpu) =
        [(.unmapped, 0), (.prgRam, 0), (.prgRam, 0x1FFF), (.prgRom, 0), (.prgRom, 0x3FFF), (.unmapped, 0)] ∧
      [0, 0x1FFF, 0x2000].map (fun a => mapRead mini.mapper mini.cart a .ppu) =
        [(.chrRam, 0), (.chrRam, 0x1FFF), (.unmapped, 0)] :=
  ⟨⟨mini_mapper, by decide +kernel⟩,
    ⟨⟨show (0x01#8 : Byte).toNat = 1 by decide, show (0 : Nat) ≤ 4 by decide, fun h => absurd h (by decide +kernel)⟩,
      by decide +kernel⟩,
    ⟨show (0x04#8 : Byte).toNat = 4 by decide, trivial, fun h => absurd h (by decide +kernel)⟩,
    by decide +kernel, by decide +kernel, by decide +kernel⟩

/-- The scheduled counts of both modes. -/
theorem test_witness_FrameSequencerFollowsItsSchedule :
    mini.apu.frame.Inv ∧
      [7456, 14912, 22370, 29828, 29829].map (fun c =>
        ({ mini.apu with frame := { mini.apu.frame with counter := BitVec.ofNat 16 c } } : Apu).frameTick.frame.counter.toNat) =
        [7457, 14913, 22371, 29829, 0] ∧
      [29829, 37280, 37281].map (fun c =>
        ({ mini.apu with frame := { mini.apu.frame with mode := true, counter := BitVec.ofNat 16 c } } :
          Apu).frameTick.frame.counter.toNat) = [29830, 37281, 0] :=
  ⟨mini_apu.frame, by decide +kernel, by decide +kernel⟩

theorem test_witness_SamplesAreTheRoundedMixAtTheRate :
    mini.params.sampleRate ≤ 1786840 ∧ mini.apu.decimAcc.toNat < 1786840 ∧ 0 < mini.apu.mixNumerator ∧
      ({ mini.apu with triangle := { mini.apu.triangle with seqPos := 15#5 } } : Apu).mixNumerator = 0 := by
  decide +kernel

/-- Both ways of the reset sequence: a reset of a loaded machine, and a load that succeeds. -/
theorem test_witness_ResetSequenceOfTheCpu :
    (mini.loaded = true ∧ mini = reset mini) ∧ State.reset.loaded = false ∧
      ∃ bytes, (load mini bytes).2 = .ok () :=
  ⟨by decide +kernel, by decide +kernel, _, (test_load_minimal (List.replicate 24576 0x00#8) List.length_replicate).1⟩

theorem test_witness_SavedStatesRestoreExactly :
    mini.Inv ∧ mini.loaded = true ∧ (reset mini).cart.fingerprint = mini.cart.fingerprint :=
  ⟨test_witness_invariant.1, test_witness_invariant.2, by decide +kernel⟩

/-- Each error of `load_state` before the sections, and a sink that fails. -/
theorem test_witness_RestoreIsAllOrNothing :
    (State.reset.loaded = false ∧ mini.loaded = true) ∧
      (loadState mini none).2 = .error .ioError ∧ (loadState mini (some [])).2 = .error .stateCorrupt ∧
      (loadState mini (some [0x50#8, 0x4E#8, 0x45#8, 0x53#8, 0x02#8, 0x00#8, 0x00#8, 0x00#8])).2 =
        .error .stateVersionMismatch ∧
      (loadState mini (some ([0x50#8, 0x4E#8, 0x45#8, 0x53#8, 0x01#8, 0x00#8, 0x00#8, 0x00#8] ++ List.replicate 6 0x00#8))).2 =
        .error .stateCorrupt ∧
      (loadState mini (some ([0x50#8, 0x4E#8, 0x45#8, 0x53#8, 0x01#8, 0x00#8, 0x00#8, 0x00#8] ++ List.replicate 7 0x01#8))).2 =
        .error .stateCartridgeMismatch ∧
      (saveState mini false).2 = .error .ioError ∧ (saveState State.reset true).2 = .error .notLoaded :=
  ⟨by decide +kernel, rfl, rfl, rfl, rfl, rfl, rfl, rfl⟩

/-- A machine whose own stream is restored has its frame counter in range. -/
theorem test_witness_InvariantIsKeptByTheHost :
    mini.Inv ∧ (loadState mini (some (saveStream mini))).2 = .ok () ∧
      (loadState mini (some (saveStream mini))).1.apu.frame.Inv :=
  ⟨test_witness_invariant.1, by decide +kernel, by
    show _ < _
    decide +kernel⟩

theorem test_witness_StepKeepsRomButtonsAndDiagnostic :
    nextIs (step (ready.withCpu fun p => { p with unsupportedSeen := true })) (fun t => t.cpu.unsupportedSeen) = true ∧
      nextIs (step { ready with ppu := { ready.ppu with dot := 0 } }) (fun t => t.ppu.frameComplete = false) = true := by
  decide +kernel

/-- How the host places an instruction: right after reset the next step runs it (log entry 2). -/
theorem test_with_fetch_word :
    nextIs (step (State.reset.withFetchWord 16 0x80A9)) (fun t => t.cpu.a = 0x80#8) = true ∧
      nextIs (step (State.reset.withFetchWord 24 0x92344C)) (fun t => t.cpu.pc = 0x9234#16) = true := by
  decide +kernel

end Sys2Proof.Tests
end

namespace Sys2Proof.Machine

/-! # What every step keeps (O58, O60), and the status byte (O21) -/

/-! ## What a CPU step keeps -/

/-- A set diagnostic stays as it is (10_state.md R30). -/
def Cpu.keepsDiagnostic (p q : Cpu) : Prop :=
  p.unsupportedSeen = true →
    q.unsupportedSeen = true ∧ q.unsupportedOpcode = p.unsupportedOpcode ∧ q.unsupportedAt = p.unsupportedAt

theorem Cpu.keepsDiagnostic.refl (p : Cpu) : p.keepsDiagnostic p := fun h => ⟨h, rfl, rfl⟩

theorem Cpu.keepsDiagnostic.trans {p q r : Cpu} (h1 : p.keepsDiagnostic q) (h2 : q.keepsDiagnostic r) :
    p.keepsDiagnostic r := fun h => by
  obtain ⟨hq, hop, hat⟩ := h1 h
  obtain ⟨hr, hop', hat'⟩ := h2 hq
  exact ⟨hr, hop'.trans hop, hat'.trans hat⟩

/-- What bus reads, bus writes and changes of the CPU registers that respect a set diagnostic keep. Every CPU step is made of
these, so it keeps such a property (`cpuStep_kept`). -/
structure Kept (P : State → Prop) : Prop where
  read : ∀ {s : State} (a : Word), P s → P (memRead s a).2
  write : ∀ {s : State} (a : Word) (v : Byte), P s → P (memWrite s a v)
  cpu : ∀ {s : State} {p : Cpu}, P s → s.cpu.keepsDiagnostic p → P { s with cpu := p }

section Kept

variable {P : State → Prop} {s : State} (hP : Kept P) (h : P s)
include hP h

theorem withCpu_kept {f : Cpu → Cpu} (hf : ∀ p : Cpu, p.keepsDiagnostic (f p)) : P (s.withCpu f) := hP.cpu h (hf _)

theorem jump_kept (pc : Word) : P (s.jump pc) := withCpu_kept hP h fun _ hd => ⟨hd, rfl, rfl⟩

theorem consume_kept (n : Nat) : P (s.consume n) := withCpu_kept hP h fun _ hd => ⟨hd, rfl, rfl⟩

theorem store_kept (ea : Word) (v : Byte) (n : Nat) : P (s.store ea v n) := consume_kept hP (hP.write ea v h) _

theorem push_kept (v : Byte) : P (push s v) := withCpu_kept hP (hP.write _ v h) fun _ hd => ⟨hd, rfl, rfl⟩

theorem pull_kept : P (pull s).2 := hP.read _ (withCpu_kept hP h fun _ hd => ⟨hd, rfl, rfl⟩)

theorem push16_kept (w : Word) : P (push16 s w) := push_kept hP (push_kept hP h _) _

theorem pull16_kept : P (pull16 s).2 := pull_kept hP (pull_kept hP h)

theorem readThen_kept (o : ReadOp) {f : Cpu → Byte → Cpu} (hf : ∀ (p : Cpu) (b : Byte), p.keepsDiagnostic (f p b)) :
    P (readThen s o f) := by
  have hr : P (readOperand s o).2.2 := by
    cases o with
    | imm v => exact h
    | mem m => simpa [readOperand] using hP.read _ h
  exact consume_kept hP (withCpu_kept hP hr fun p => hf p _) _

theorem storeTo_kept (m : MemMode) (v : Byte) : P (storeTo s m v) := by
  rw [storeTo_eq]
  exact consume_kept hP (hP.write _ v h) _

theorem modify_kept (m : MemMode) {f : Cpu → Byte → Byte × Cpu} (hf : ∀ (p : Cpu) (b : Byte), p.keepsDiagnostic (f p b).2) :
    P (modify s m f) := by
  rw [modify_eq]
  refine store_kept hP (hP.cpu (hP.read _ h) ?_) _ _ _
  rw [(memRead_effect s _).cpu]
  exact hf _ _

theorem implied_kept {f : Cpu → Cpu} (hf : ∀ p : Cpu, p.keepsDiagnostic (f p)) : P (implied s f) :=
  consume_kept hP (withCpu_kept hP h hf) 2

theorem shiftThen_kept (o : RmwOp) (f : ShiftOp) : P (shiftThen s o f) := by
  cases o with
  | acc => exact implied_kept hP h fun _ hd => ⟨hd, rfl, rfl⟩
  | mem m =>
    unfold shiftThen
    refine modify_kept hP h m ?_
    exact fun _ _ hd => ⟨hd, rfl, rfl⟩

theorem branch_kept (off : Byte) (taken : Bool) : P (branch s off taken) := by
  unfold branch
  refine consume_kept hP ?_ _
  split
  · exact jump_kept hP h _
  · exact h

theorem enter_kept (ret : Word) (b : Bool) (vector : Word) : P (enter s ret b vector) := by
  have hpushed := push_kept hP (push16_kept hP h ret) ((push16 s ret).cpu.status b)
  have hmasked := withCpu_kept hP hpushed (f := fun p => { p with i := true })
    fun _ hd => ⟨hd, rfl, rfl⟩
  exact consume_kept hP (jump_kept hP (hP.read _ (hP.read vector hmasked)) _) 7

theorem returnFromInterrupt_kept : P (returnFromInterrupt s) := by
  have hflags := withCpu_kept hP (pull_kept hP h) (f := fun q => q.withStatus (pull s).1)
    fun _ hd => ⟨hd, rfl, rfl⟩
  exact consume_kept hP (jump_kept hP (pull16_kept hP hflags) _) 6

theorem raiseUnsupported_kept (op : Byte) (addr : Word) : P (raiseUnsupported s op addr) := by
  refine withCpu_kept hP h fun p hp => ?_
  rw [if_pos hp]
  exact ⟨hp, rfl, rfl⟩

theorem exec_kept {i : Instr} {t : State} (he : exec i s = .next t) : P t := by
  cases i with
  | lda o | ldx o | ldy o | adc o | sbc o | and o | ora o | eor o | cmp o | cpx o | cpy o =>
    obtain rfl := Host.Outcome.next.inj he
    exact readThen_kept hP h o fun _ _ hd => ⟨hd, rfl, rfl⟩
  | bit m =>
    obtain rfl := Host.Outcome.next.inj he
    exact readThen_kept hP h _ fun _ _ hd => ⟨hd, rfl, rfl⟩
  | sta m | stx m | sty m =>
    obtain rfl := Host.Outcome.next.inj he
    exact storeTo_kept hP h m _
  | inc m | dec m =>
    obtain rfl := Host.Outcome.next.inj he
    exact modify_kept hP h m fun _ _ hd => ⟨hd, rfl, rfl⟩
  | asl o | lsr o | rol o | ror o =>
    obtain rfl := Host.Outcome.next.inj he
    exact shiftThen_kept hP h o _
  | tax | tay | txa | tya | tsx | txs | inx | iny | dex | dey | clc | sec | cli | sei | cld | sed | clv | nop =>
    obtain rfl := Host.Outcome.next.inj he
    exact implied_kept hP h fun _ hd => ⟨hd, rfl, rfl⟩
  | bcc o | bcs o | beq o | bmi o | bne o | bpl o | bvc o | bvs o =>
    obtain rfl := Host.Outcome.next.inj he
    exact branch_kept hP h o _
  | jmp o =>
    cases o with
    | abs a =>
      obtain rfl := Host.Outcome.next.inj he
      exact consume_kept hP (jump_kept hP h a) 3
    | ind a =>
      obtain rfl := Host.Outcome.next.inj he
      exact consume_kept hP (jump_kept hP (hP.read _ (hP.read a h)) _) 5
  | jsr a =>
    obtain rfl := Host.Outcome.next.inj he
    exact consume_kept hP (jump_kept hP (push16_kept hP h _) a) 6
  | rts =>
    obtain rfl := Host.Outcome.next.inj he
    exact consume_kept hP (jump_kept hP (pull16_kept hP h) _) 6
  | pha | php =>
    obtain rfl := Host.Outcome.next.inj he
    exact consume_kept hP (push_kept hP h _) 3
  | pla | plp =>
    obtain rfl := Host.Outcome.next.inj he
    refine consume_kept hP (withCpu_kept hP (pull_kept hP h) ?_) 4
    exact fun _ hd => ⟨hd, rfl, rfl⟩
  | brk =>
    obtain rfl := Host.Outcome.next.inj he
    exact enter_kept hP h _ true irqVector
  | rti =>
    obtain rfl := Host.Outcome.next.inj he
    exact returnFromInterrupt_kept hP h
  | undefined op =>
    obtain rfl := Host.Outcome.next.inj he
    exact consume_kept hP (raiseUnsupported_kept hP h op _) 2

theorem fetchByte_kept : P (fetchByte s).2 := jump_kept hP (hP.read _ h) _

theorem fetchInstr_kept : P (fetchInstr s).2 := by
  have hop := fetchByte_kept hP h
  unfold fetchInstr
  dsimp only
  split
  · exact hop
  · exact fetchByte_kept hP hop
  · exact fetchByte_kept hP (fetchByte_kept hP hop)

/-- A CPU step, entry or instruction, keeps what bus accesses and register changes keep. -/
theorem cpuStep_kept {t : State} (he : cpuStep s = .next t) : P t := by
  unfold cpuStep at he
  split at he
  · obtain rfl := Host.Outcome.next.inj he
    refine enter_kept hP (withCpu_kept hP h ?_) _ _ _
    exact fun _ hd => ⟨hd, rfl, rfl⟩
  · split at he
    · obtain rfl := Host.Outcome.next.inj he
      exact enter_kept hP h _ _ _
    · exact exec_kept hP (fetchInstr_kept hP h) he

end Kept

/-! ## The invariant along a run -/

theorem inv_kept : Kept State.Inv where
  read a h := memRead_inv a h
  write a v h := memWrite_inv a v h
  cpu h _ := h.cpu _

theorem machineTurn_inv {s u : State} (h : s.Inv) (he : machineTurn s = .next u) : u.Inv := by
  obtain ⟨t, ht, hu⟩ := machineTurn_eq s
  obtain rfl := Host.Outcome.next.inj (hu.symm.trans he)
  exact fanOut_inv _ (cpuStep_kept inv_kept h ht)

/-- Settles O58: a CPU step is made of bus accesses and register changes, and those, the fan-out and the end of a frame keep
the invariant. -/
theorem invariantIsKeptByEveryStep : Obligations.InvariantIsKeptByEveryStep := by
  intro s t h he
  obtain ⟨-, rfl⟩ | ⟨u, -, hu, ⟨-, rfl⟩ | ⟨-, rfl⟩⟩ := step_cases he
  · exact h
  · exact machineTurn_inv h hu
  · exact endOfFrame_inv (machineTurn_inv h hu)

/-! ## What a step leaves of the CPU's diagnostic -/

theorem keepsDiagnostic_kept (p : Cpu) : Kept fun s => p.keepsDiagnostic s.cpu where
  read a h := by rw [(memRead_effect _ a).cpu]; exact h
  write a v h := by rw [(memWrite_effect _ a v).cpu]; exact h
  cpu h hp := h.trans hp

theorem dmcRead_cpu (s : State) : (dmcRead s).cpu = s.cpu := by
  unfold dmcRead
  split
  · exact (memRead_effect s _).cpu
  · rfl

/-- A cycle of the fan-out changes the two interrupt latches of the CPU alone. -/
theorem fanOutCycle_cpu (s : State) :
    (fanOutCycle s).cpu =
      { s.cpu with nmiPending := (fanOutCycle s).cpu.nmiPending, irqPending := (fanOutCycle s).cpu.irqPending } := by
  have hdots := (((ppuTick_dotEffect s).trans (ppuTick_dotEffect _)).trans (ppuTick_dotEffect _)).cpu
  have hapu : ∀ u : State, (apuTick u).cpu = u.cpu := fun u => dmcRead_cpu { u with apu := u.apu.timersTick }
  simp only [fanOutCycle, sampleIrq_cpu, hapu]
  conv_lhs => rw [hdots]

theorem fanOut_cpu (n : Nat) (s : State) :
    (fanOut n s).cpu =
      { s.cpu with nmiPending := (fanOut n s).cpu.nmiPending, irqPending := (fanOut n s).cpu.irqPending } := by
  induction n generalizing s with
  | zero => rfl
  | succ n ih =>
    have hrest := ih (fanOutCycle s)
    rw [fanOutCycle_cpu s] at hrest
    exact hrest

theorem machineTurn_keepsDiagnostic {s u : State} (he : machineTurn s = .next u) : s.cpu.keepsDiagnostic u.cpu := by
  obtain ⟨t, ht, hu⟩ := machineTurn_eq s
  obtain rfl := Host.Outcome.next.inj (hu.symm.trans he)
  rw [fanOut_cpu]
  exact cpuStep_kept (keepsDiagnostic_kept s.cpu) (.refl _) ht

/-- Settles O60: a turn can only append samples on the host's side and keeps a set diagnostic; the end of a frame hands over
the picture and the samples and does nothing else. -/
theorem stepKeepsRomButtonsAndDiagnostic : Obligations.StepKeepsRomButtonsAndDiagnostic := by
  intro s t he
  obtain ⟨hl, rfl⟩ | ⟨u, -, hu, hend⟩ := step_cases he
  · exact ⟨rfl, rfl, rfl, rfl, rfl, Cpu.keepsDiagnostic.refl _, .inl ⟨rfl, rfl, List.prefix_refl _, by simp [hl]⟩⟩
  · have hside := machineTurn_turnSide hu
    have hdiag := machineTurn_keepsDiagnostic hu
    obtain ⟨hf, rfl⟩ | ⟨hf, rfl⟩ := hend
    · exact ⟨hside.prgRom, hside.params, hside.loaded, hside.buttons0, hside.buttons1, hdiag,
        .inl ⟨hside.published, hside.audioOut, hside.samples, fun _ => hf⟩⟩
    · exact ⟨hside.prgRom, hside.params, hside.loaded, hside.buttons0, hside.buttons1, hdiag,
        .inr ⟨u, hu, hf, hside.samples, rfl, by rw [endOfFrame_audioOut, hside.audioOut], rfl, rfl⟩⟩

/-! ## The status byte -/

/-- Bits 5 and 4 of a pulled byte are ignored. -/
theorem withStatus_mask (q : Cpu) (v : Byte) : q.withStatus (v &&& 0xCF#8) = q.withStatus v := by
  simp [Cpu.withStatus]

/-- Settles O21: the pushed byte as a sum, the pulled flags as its bits. -/
theorem statusByteHoldsTheSixFlags : Obligations.StatusByteHoldsTheSixFlags :=
  ⟨status_toNat, withStatus_status, fun q v => ⟨rfl, (withStatus_mask q v).symm⟩⟩

end Sys2Proof.Machine

namespace Sys2Proof.Machine

/-! ## The writers of each register and flag -/

theorem readThen_cpu (s : State) (o : ReadOp) (f : Cpu → Byte → Cpu) :
    (readThen s o f).cpu = (f s.cpu (readOperand s o).1).later (readOperand s o).2.1 := by
  rw [readThen_eq]; rfl

theorem store_cpu (s : State) (ea : Word) (v : Byte) (n : Nat) :
    (s.store ea v n).cpu = Cpu.later { s.cpu with nmiPending := (memWrite s ea v).cpu.nmiPending }
      (n + dmaCycles ea s.cpu.cycles n) := by
  rw [State.store_eq]; rfl

theorem implied_cpu (s : State) (f : Cpu → Cpu) : (implied s f).cpu = (f s.cpu).later 2 := rfl

theorem branch_cpu (s : State) (off : Byte) (taken : Bool) :
    (branch s off taken).cpu = Cpu.later { s.cpu with pc := if taken then branchTarget s.cpu.pc off else s.cpu.pc }
      (branchCycles taken s.cpu.pc (branchTarget s.cpu.pc off)) := by
  cases taken <;> rfl

/-- Settles O30: the split is by the operation an instruction's meaning is built on; what that operation does to the CPU
registers shows which of them the instruction can change. -/
theorem onlyNamedInstructionsWriteARegister : Obligations.OnlyNamedInstructionsWriteARegister := by
  intro i s t he
  cases i with
  | lda o | ldx o | ldy o | adc o | sbc o | and o | ora o | eor o | cmp o | cpx o | cpy o =>
    obtain rfl := Host.Outcome.next.inj he
    simp [readThen_cpu, Cpu.later, Cpu.addWithCarry, Cpu.subWithBorrow, Cpu.compare]
  | bit m =>
    obtain rfl := Host.Outcome.next.inj he
    simp [readThen_cpu, Cpu.later, Cpu.bitTest]
  | sta m | stx m | sty m =>
    obtain rfl := Host.Outcome.next.inj he
    simp [storeTo, store_cpu, Cpu.later]
  | inc m | dec m =>
    obtain rfl := Host.Outcome.next.inj he
    simp [modify_eq, store_cpu, Cpu.later]
  | asl o | lsr o | rol o | ror o =>
    obtain rfl := Host.Outcome.next.inj he
    cases o with
    | acc => simp [shiftThen, implied_cpu, Cpu.later]
    | mem m => simp [shiftThen, modify_eq, store_cpu, Cpu.later]
  | tax | tay | txa | tya | tsx | txs | inx | iny | dex | dey | clc | sec | cli | sei | cld | sed | clv | nop =>
    obtain rfl := Host.Outcome.next.inj he
    simp [implied_cpu, Cpu.later]
  | bcc o | bcs o | beq o | bmi o | bne o | bpl o | bvc o | bvs o =>
    obtain rfl := Host.Outcome.next.inj he
    simp [branch_cpu, Cpu.later]
  | jmp o =>
    cases o with
    | abs a =>
      obtain rfl := Host.Outcome.next.inj he
      simp
    | ind a =>
      obtain rfl := Host.Outcome.next.inj he
      simp [(memRead_effect _ _).cpu]
  | jsr a =>
    obtain rfl := Host.Outcome.next.inj he
    simp [push16_eq]
  | rts =>
    obtain rfl := Host.Outcome.next.inj he
    simp [pull16_eq]
  | pha | php =>
    obtain rfl := Host.Outcome.next.inj he
    simp [push_eq]
  | pla | plp =>
    obtain rfl := Host.Outcome.next.inj he
    simp [pull_eq]
  | brk =>
    obtain rfl := Host.Outcome.next.inj he
    simp [enter_eq _ _ _ irqVector (by decide) (by decide), Cpu.later]
  | rti =>
    obtain rfl := Host.Outcome.next.inj he
    simp [returnFromInterrupt_eq, Cpu.later]
  | undefined op =>
    obtain rfl := Host.Outcome.next.inj he
    unfold raiseUnsupported
    simp only [consume_cpu, withCpu_cpu]
    split <;> simp

end Sys2Proof.Machine

namespace Sys2Proof.Machine

/-! # The invariant and the host's operations (O57, O59) -/

/-! ## The values at reset meet the invariant -/

theorem Ppu.reset_inv {vram oam palette : Mem} {framebuffer : Frame} (hv : Memory.wf 4096 vram)
    (ho : Memory.wf 256 oam) (hp : Memory.wf 32 palette) (hc : ∀ c ∈ palette, c.2.toNat < 64) (hf : framebuffer.wf) :
    (Ppu.reset vram oam palette framebuffer).Inv where
  vram := hv
  oam := ho
  palette := hp
  colours := hc
  framebuffer := hf
  status := by simp [Ppu.reset]
  scanline := by simp [Ppu.reset]
  dot := by simp [Ppu.reset]
  spriteCount := by simp [Ppu.reset]

theorem Apu.reset_inv : Apu.reset.Inv where
  lfsr := by decide
  bitsRemaining := by decide
  frame := show (0 : Nat) < 29830 by decide
  decimAcc := by decide

theorem Cart.none_inv : Cart.none.Inv :=
  ⟨Memory.wf_nil _, Memory.wf_nil _, Memory.wf_nil _, Memory.wf_nil _⟩

/-- The empty machine of a legal configuration meets the invariant. -/
theorem empty_inv {config : Params} (h : legalConfig config) : (State.empty config).Inv where
  ram := h.2.2
  ppu := Ppu.reset_inv (Memory.wf_nil _) (Memory.wf_nil _) (Memory.wf_nil _) (by simp) Frame.wf_nil
  apu := Apu.reset_inv
  cart := Cart.none_inv
  mapper := ⟨show (0x00#8 : Byte).toNat ≠ 1 ∧ (0x00#8 : Byte).toNat ≠ 4 by decide, trivial, by simp [State.empty]⟩
  params := h
  published := Frame.wf_nil
  checked := by simp [State.empty]

/-- Settles O57: the default parameters are legal, and the machine at reset is their empty machine. -/
theorem invariantHoldsAtReset : Obligations.InvariantHoldsAtReset :=
  empty_inv ⟨by decide, by decide, Memory.wf_nil _⟩

/-! ## Loading an image and resetting -/

/-- What the checks of `load` say of an image they accept. -/
structure Image.Checked (im : Image) : Prop where
  banks : mapperChecks im.mapperId im.prgBanks im.chrBanks = some true
  trainer : im.trainer.length ≤ 512
  prg : im.prg.length ≤ 16384 * im.prgBanks.toNat
  chr : im.chr.length ≤ 8192 * im.chrBanks.toNat

theorem parseImage_checked {bytes : List Byte} {im : Image} (h : parseImage bytes = .ok im) : im.Checked := by
  unfold parseImage at h
  dsimp only at h
  have hsize : (if (bytes.getD 6 0x00#8).getLsbD 2 then 512 else 0) ≤ 512 := by split <;> omega
  generalize (if (bytes.getD 6 0x00#8).getLsbD 2 then 512 else 0) = trainerSize at h hsize
  split at h
  · cases h
  split at h
  · cases h
  · cases h
  · rename_i hbanks
    split at h
    · cases h
    · obtain rfl := Except.ok.inj h
      exact ⟨hbanks, (List.length_take_le _ _).trans hsize, List.length_take_le _ _, List.length_take_le _ _⟩

theorem Image.cart_inv {im : Image} (h : im.Checked) : im.cart.Inv where
  prgRom := Memory.wf_ofBytes _ h.prg
  chrRom := Memory.wf_ofBytes _ h.chr
  prgRam := Memory.wf_ofBytesFrom _ _ (by have := h.trainer; omega)
  chrRam := Memory.wf_nil _

/-- `init` gives the variant of the cartridge's mapper id, its registers in range and no IRQ. -/
theorem Mapper.init_inv (c : Cart) : (Mapper.init c).Inv c := by
  unfold Mapper.init
  split
  · exact ⟨‹_›, Nat.zero_le _, by simp⟩
  · exact ⟨‹_›, trivial, by simp⟩
  · exact ⟨⟨‹_›, ‹_›⟩, trivial, by simp⟩

theorem resetCpu_inv {s : State} (h : s.Inv) : (resetCpu s).Inv := (memRead_inv _ (memRead_inv _ h)).cpu _

theorem powerOn_inv {p : Params} {im : Image} (hp : legalConfig p) (h : im.Checked) : (powerOn p im.cart).Inv := by
  have he := empty_inv hp
  exact resetCpu_inv ⟨he.ram, he.ppu, he.apu, im.cart_inv h, Mapper.init_inv _, hp, he.published, fun _ => h.banks⟩

theorem load_inv {s : State} (bytes : List Byte) (h : s.Inv) : (load s bytes).1.Inv := by
  unfold load
  split
  · exact h
  · exact powerOn_inv h.params (parseImage_checked ‹_›)

theorem reset_inv {s : State} (h : s.Inv) : (reset s).Inv := by
  unfold reset
  split
  · have hppu := Ppu.reset_inv h.ppu.vram h.ppu.oam h.ppu.palette h.ppu.colours h.ppu.framebuffer
    exact resetCpu_inv (State.Inv.setApu (h.setPpu hppu) Apu.reset_inv)
  · exact h

/-! ## Frames, buttons and bus reads -/

theorem frameLoop_inv {n : Nat} {s t : State} (h : s.Inv) (he : frameLoop n s = some t) : t.Inv := by
  obtain ⟨k, run, -, rfl, hturn, -, -, rfl⟩ := frameLoop_run he
  have hrun : ∀ j ≤ k + 1, (run j).Inv := by
    intro j
    induction j with
    | zero => exact fun _ => h
    | succ j ih => exact fun hj => machineTurn_inv (ih (by omega)) (hturn j (by omega))
  exact endOfFrame_inv (hrun (k + 1) (Nat.le_refl _))

theorem stepFrame_inv {s t : State} (h : s.Inv) (he : stepFrame s = some t) : t.Inv := by
  unfold stepFrame at he
  split at he
  · exact frameLoop_inv h he
  · obtain rfl := Option.some.inj he
    exact h

theorem setState_inv {s : State} (port : Fin 2) (btn : Button) (pressed : Bool) (h : s.Inv) :
    (setState s port btn pressed).Inv := by
  unfold setState
  split
  · split <;> exact h.setRam h.ram
  · exact h

theorem busRead_inv {s : State} (addr : Word) (h : s.Inv) : (busRead s addr).1.Inv := by
  unfold busRead
  split
  · exact memRead_inv addr h
  · exact h

/-! ## Reading a save state: each reader's range check -/

/-- What every value a reader accepts satisfies. -/
def Accepts {α : Type} (r : Option (α × List Byte)) (P : α → Prop) : Prop := ∀ v rest, r = some (v, rest) → P v

section Accepts

variable {α β : Type} {P : α → Prop} {Q : β → Prop}

/-- One field of a section: the rest of the section may use what the field's reader accepts. -/
theorem Accepts.bind {r : Option (α × List Byte)} {k : α × List Byte → Option (β × List Byte)} (h : Accepts r P)
    (hk : ∀ v rest, P v → Accepts (k (v, rest)) Q) : Accepts (r >>= k) Q := by
  intro w rest he
  obtain ⟨⟨v, bs⟩, hr, hw⟩ := Option.bind_eq_some_iff.mp he
  exact hk v bs (h v bs hr) w rest hw

/-- A field whose range the rest of the section does not need. -/
theorem Accepts.skip {r : Option (α × List Byte)} {k : α × List Byte → Option (β × List Byte)}
    (hk : ∀ v rest, Accepts (k (v, rest)) Q) : Accepts (r >>= k) Q :=
  Accepts.bind (P := fun _ => True) (fun _ _ _ => trivial) fun v rest _ => hk v rest

theorem Accepts.pure {v : α} {rest : List Byte} (h : P v) : Accepts (some (v, rest)) P := by
  intro w bs he
  cases he
  exact h

/-- A range check at the end of a section. -/
theorem Accepts.check {c : Prop} [Decidable c] {v : α} {rest : List Byte} (h : c → P v) :
    Accepts (if c then some (v, rest) else none) P := by
  split
  · exact .pure (h ‹_›)
  · exact fun _ _ he => by cases he

end Accepts

theorem getCount_accepts (lower upper : Nat) (bs : List Byte) :
    Accepts (getCount lower upper bs) fun n => lower ≤ n ∧ n ≤ upper := by
  unfold getCount
  refine .skip fun b rest => ?_
  exact .check id

theorem getPosition_accepts (upper : Nat) (bs : List Byte) : Accepts (getPosition upper bs) fun n => n ≤ upper := by
  unfold getPosition
  refine .skip fun w rest => ?_
  exact .check id

theorem getMem_accepts (n : Nat) (bs : List Byte) : Accepts (getMem n bs) (Memory.wf n) := by
  have hbytes : Accepts (getBytes n bs) fun m => m.length ≤ n := .check fun _ => List.length_take_le _ _
  exact hbytes.bind fun m rest hm => .pure (Memory.wf_ofBytes m hm)

/-- The ranges section 3's registers are read in, over a PPU whose memories and picture they leave alone. -/
structure Ppu.ReadOver (p q : Ppu) : Prop where
  framebuffer : q.framebuffer = p.framebuffer
  status : q.status &&& 0x1F#8 = 0x00#8
  scanline : q.scanline < 262
  dot : q.dot < 341
  spriteCount : q.spriteCount ≤ 8

theorem getPpuRegs_accepts (p : Ppu) (bs : List Byte) : Accepts (getPpuRegs p bs) p.ReadOver := by
  unfold getPpuRegs
  iterate 9 refine .skip fun _ _ => ?_
  refine (getPosition_accepts 261 _).bind fun scanline _ hscanline => ?_
  refine (getPosition_accepts 340 _).bind fun dot _ hdot => ?_
  iterate 10 refine .skip fun _ _ => ?_
  refine (getCount_accepts 0 8 _).bind fun count _ hcount => ?_
  iterate 5 refine .skip fun _ _ => ?_
  exact .check fun hstatus => ⟨rfl, hstatus, Nat.lt_succ_of_le hscanline, Nat.lt_succ_of_le hdot, hcount.2⟩

theorem getPpuMemories_accepts {p q : Ppu} (hp : p.framebuffer.wf) (hq : p.ReadOver q) (bs : List Byte) :
    Accepts (getPpuMemories q bs) Ppu.Inv := by
  unfold getPpuMemories
  refine (getMem_accepts 4096 _).bind fun vram _ hvram => ?_
  refine (getMem_accepts 256 _).bind fun oam _ hoam => ?_
  refine (getMem_accepts 32 _).bind fun palette _ hpalette => ?_
  exact .check fun hcolours => ⟨hvram, hoam, hpalette, by simpa using hcolours, by rw [hq.framebuffer]; exact hp, hq.status,
    hq.scanline, hq.dot, hq.spriteCount⟩

theorem getNoise_accepts (bs : List Byte) : Accepts (getNoise bs) fun n => n.lfsr ≠ 0#15 := by
  unfold getNoise
  iterate 12 refine .skip fun _ _ => ?_
  exact .check id

theorem getDmc_accepts (bs : List Byte) : Accepts (getDmc bs) fun d => 1 ≤ d.bitsRemaining ∧ d.bitsRemaining ≤ 8 := by
  unfold getDmc
  iterate 12 refine .skip fun _ _ => ?_
  refine (getCount_accepts 1 8 _).bind fun bits _ hbits => ?_
  iterate 2 refine .skip fun _ _ => ?_
  exact .pure hbits

/-- Section 4 is in range but for the frame counter, which R561 bounds by 37281 in both modes (log entry 11). -/
theorem getApu_accepts (a : Apu) (bs : List Byte) : Accepts (getApu a bs) fun b => b.frame.Inv → b.Inv := by
  unfold getApu
  iterate 3 refine .skip fun _ _ => ?_
  refine (getNoise_accepts _).bind fun noise _ hnoise => ?_
  refine (getDmc_accepts _).bind fun dmc _ hdmc => ?_
  iterate 6 refine .skip fun _ _ => ?_
  exact .check fun hacc hframe => ⟨hnoise, hdmc, hframe, hacc⟩

theorem getVariant_accepts {g : Variant} {id : Byte} (h : g.fits id) (bs : List Byte) :
    Accepts (getVariant g bs) fun v => v.fits id ∧ v.Inv ∧ v.hasIrq = g.hasIrq := by
  cases g with
  | v0 => exact .pure ⟨h, trivial, rfl⟩
  | v1 m =>
    unfold getVariant getVariant1
    refine .skip fun _ _ => ?_
    refine (getCount_accepts 0 4 _).bind fun count _ hcount => ?_
    iterate 4 refine .skip fun _ _ => ?_
    exact .pure ⟨h, hcount.2, rfl⟩
  | v4 m =>
    unfold getVariant getVariant4
    iterate 8 refine .skip fun _ _ => ?_
    exact .pure ⟨h, trivial, rfl⟩

theorem getMapper_accepts {g : Mapper} {c : Cart} (h : g.Inv c) (bs : List Byte) :
    Accepts (getMapper g bs) fun g' => g'.Inv c := by
  unfold getMapper
  iterate 3 refine .skip fun _ _ => ?_
  refine (getVariant_accepts h.fits _).bind fun v _ hv => ?_
  obtain ⟨hfits, hregisters, hirq⟩ := hv
  exact .check fun hc => ⟨hfits, hregisters, fun hf => hirq.trans (hc.2 hf)⟩

/-- Section 7 replaces the cartridge's RAM arrays by canonical ones and nothing else. -/
theorem getCartRam_accepts (c : Cart) (bs : List Byte) :
    Accepts (getCartRam c bs) fun d => Memory.wf 8192 d.prgRam ∧ Memory.wf c.chrRamSize d.chrRam ∧
      d = { c with prgRam := d.prgRam, chrRam := d.chrRam } := by
  unfold getCartRam
  refine .skip fun _ _ => ?_
  refine (getMem_accepts 8192 _).bind fun prgRam _ hprg => ?_
  refine .skip fun _ _ => ?_
  refine (getMem_accepts _ _).bind fun chrRam _ hchr => ?_
  exact .check fun _ => ⟨hprg, hchr, rfl⟩

theorem Cart.Inv.setRam {c : Cart} (h : c.Inv) {prgRam chrRam : Mem} (hprg : Memory.wf 8192 prgRam)
    (hchr : Memory.wf c.chrRamSize chrRam) : Cart.Inv { c with prgRam := prgRam, chrRam := chrRam } :=
  ⟨h.prgRom, h.chrRom, hprg, hchr⟩

theorem getSections_inv {s t : State} {bs : List Byte} (h : s.Inv) (ht : getSections s bs = some t)
    (hframe : t.apu.frame.Inv) : t.Inv := by
  simp only [getSections, Option.bind_eq_bind, Option.bind_eq_some_iff, Prod.exists] at ht
  obtain ⟨cpu, _, -, ram, _, hram, regs, _, hregs, ppu, _, hppu, apu, _, hapu, bus, _, -, mapper, _, hmapper, cart, _, hcart,
    ht⟩ := ht
  split at ht
  · obtain rfl := Option.some.inj ht
    have hppu := getPpuMemories_accepts h.ppu.framebuffer (getPpuRegs_accepts _ _ _ _ hregs) _ _ _ hppu
    have hmapper := getMapper_accepts h.mapper _ _ _ hmapper
    obtain ⟨hprg, hchr, hc⟩ := getCartRam_accepts _ _ _ _ hcart
    rw [hc]
    exact ⟨getMem_accepts _ _ _ _ hram, hppu, getApu_accepts _ _ _ _ hapu hframe, h.cart.setRam hprg hchr,
      ⟨hmapper.fits, hmapper.registers, hmapper.irqFlag⟩, h.params, h.published, h.checked⟩
  · cases ht

theorem restore_inv {s t : State} {bs : List Byte} (h : s.Inv) (ht : restore s bs = .ok t) (hframe : t.apu.frame.Inv) :
    t.Inv := by
  unfold restore at ht
  split at ht
  · cases ht
  split at ht
  · cases ht
  split at ht
  · cases ht
  split at ht
  · cases ht
  split at ht
  · cases ht
  · obtain rfl := Except.ok.inj ht
    exact getSections_inv h ‹_› hframe

/-- `load_state` leaves the machine as it was or answers what `restore` answers. -/
theorem loadState_cases (s : State) (source : Option (List Byte)) :
    (loadState s source).1 = s ∨ ∃ bs, restore s bs = .ok (loadState s source).1 := by
  unfold loadState
  split
  · exact .inl rfl
  split
  · exact .inl rfl
  split
  · exact .inl rfl
  · exact .inr ⟨_, ‹_›⟩

theorem loadState_inv {s : State} {source : Option (List Byte)} (h : s.Inv)
    (hframe : (loadState s source).1.apu.frame.Inv) : (loadState s source).1.Inv := by
  obtain hs | ⟨bs, ht⟩ := loadState_cases s source
  · rw [hs]
    exact h
  · exact restore_inv h ht hframe

/-- Settles O59: operation by operation; what a save state's readers accept is in range. -/
theorem invariantIsKeptByTheHost : Obligations.InvariantIsKeptByTheHost :=
  ⟨fun _ => empty_inv, fun _ bytes => load_inv bytes,
    fun _ h => ⟨reset_inv h, h.audioOut [], fun _ => stepFrame_inv h⟩,
    fun _ port btn pressed => setState_inv port btn pressed, fun _ addr => busRead_inv addr, fun _ _ => loadState_inv⟩

end Sys2Proof.Machine

namespace Sys2Proof.Machine

/-! # The buses (O31 to O36) -/

/-! ## The address map of the CPU bus (20_memory.md R61) -/

/-- The addresses of each routing target, the table of 20_memory.md R61. -/
def Route.covers : Route → Nat → Prop
  | .workRam, a => a ≤ 0x1FFF
  | .ppuReg, a => 0x2000 ≤ a ∧ a ≤ 0x3FFF
  | .apuReg, a => 0x4000 ≤ a ∧ a ≤ 0x4013 ∨ a = 0x4015
  | .oamDma, a => a = 0x4014
  | .port0, a => a = 0x4016
  | .port1, a => a = 0x4017
  | .unmapped, a => 0x4018 ≤ a ∧ a ≤ 0x401F
  | .cartridge, a => 0x4020 ≤ a

theorem route_covers (addr : Word) : (route addr).covers addr.toNat := by
  unfold route
  dsimp only
  split_ifs <;> simp only [Route.covers] <;> omega

/-- No address lies in the ranges of two targets. -/
theorem Route.covers_unique {r r' : Route} {a : Nat} (h : r.covers a) (h' : r'.covers a) : r = r' := by
  cases r <;> cases r' <;> simp only [Route.covers, reduceCtorEq] at * <;> omega

theorem route_eq_iff (addr : Word) (r : Route) : route addr = r ↔ r.covers addr.toNat :=
  ⟨fun h => h ▸ route_covers addr, fun h => Route.covers_unique (route_covers addr) h⟩

theorem readHasEffect_iff (addr : Word) :
    readHasEffect addr = true ↔
      (0x2000 ≤ addr.toNat ∧ addr.toNat ≤ 0x3FFF ∧ (addr.toNat % 8 = 2 ∨ addr.toNat % 8 = 7)) ∨ addr.toNat = 0x4015 ∨
        addr.toNat = 0x4016 ∨ addr.toNat = 0x4017 := by
  simp [readHasEffect, route_eq_iff, Route.covers, ← BitVec.toNat_inj, or_assoc, and_assoc]

theorem memRead_ppuReg (s : State) {addr : Word} (h : route addr = .ppuReg) :
    memRead s addr = readPpuReg s (addr.toNat % 8) := by
  simp only [memRead, h]

theorem memWrite_ppuReg (s : State) {addr : Word} (v : Byte) (h : route addr = .ppuReg) :
    memWrite s addr v = writePpuReg s (addr.toNat % 8) v := by
  simp only [memWrite, h]

theorem memRead_cartridge (s : State) {addr : Word} (h : route addr = .cartridge) :
    memRead s addr = (cartByte s addr, s) := by
  simp only [memRead, h]

/-- The low bits of an address select work RAM's cell and the PPU's register (20_memory.md R62, R63). -/
theorem and_07FF_toNat (addr : Word) : (addr &&& 0x07FF#16).toNat = addr.toNat % 2048 := by
  rw [BitVec.toNat_and]
  exact Nat.and_two_pow_sub_one_eq_mod addr.toNat 11

theorem and_0007_toNat (addr : Word) : (addr &&& 0x0007#16).toNat = addr.toNat % 8 := by
  rw [BitVec.toNat_and]
  exact Nat.and_two_pow_sub_one_eq_mod addr.toNat 3

/-! ## Reads without a source (20_memory.md R71) -/

/-- The registers of the PPU that cannot be read (47_ppu.md R389). -/
theorem readPpuReg_open (s : State) {r : Nat} (h2 : r ≠ 2) (h4 : r ≠ 4) (h7 : r ≠ 7) :
    readPpuReg s r = (s.params.openBus, s) := by
  unfold readPpuReg
  split
  · exact absurd rfl h2
  · exact absurd rfl h4
  · exact absurd rfl h7
  · rfl

theorem cartByte_unmapped {s : State} {addr : Word} (h : (mapRead s.mapper s.cart addr.toNat .cpu).1 = .unmapped) :
    cartByte s addr = s.params.openBus := by
  unfold cartByte
  split
  case h_3 => rfl
  all_goals
    rename_i hm
    rw [hm] at h
    cases h

theorem memRead_apuReg_open (s : State) {addr : Word} (h : route addr = .apuReg) (hs : addr ≠ 0x4015#16) :
    memRead s addr = (s.params.openBus, s) := by
  simp only [memRead, h, hs, if_false]

theorem memRead_oamDma (s : State) {addr : Word} (h : route addr = .oamDma) :
    memRead s addr = (s.params.openBus, s) := by
  simp only [memRead, h]

theorem memRead_unmapped (s : State) {addr : Word} (h : route addr = .unmapped) :
    memRead s addr = (s.params.openBus, s) := by
  simp only [memRead, h]

/-- Settles O31: the ranges of the targets cover every address once; each range without a source reads as the parameter. -/
theorem everyAddressHasOneRoute : Obligations.EveryAddressHasOneRoute := by
  refine ⟨fun addr => ⟨route_eq_iff addr .workRam, fun _ => (and_07FF_toNat addr).symm, route_eq_iff addr .ppuReg,
    route_eq_iff addr .apuReg, route_eq_iff addr .oamDma, route_eq_iff addr .port0, route_eq_iff addr .port1,
    route_eq_iff addr .unmapped, route_eq_iff addr .cartridge⟩, fun s addr v h1 h2 => ?_, fun s addr h => ?_,
    fun s addr v h1 h2 => ?_⟩
  · have hr : route addr = .ppuReg := (route_eq_iff _ _).mpr ⟨h1, h2⟩
    rw [and_0007_toNat]
    exact ⟨memRead_ppuReg s hr, memWrite_ppuReg s v hr⟩
  · obtain ⟨h1, h2, hreg⟩ | ⟨h1, h2⟩ | hu | ⟨h1, hm⟩ := h
    · rw [memRead_ppuReg s ((route_eq_iff _ _).mpr ⟨h1, h2⟩)]
      exact readPpuReg_open s (by omega) (by omega) (by omega)
    · by_cases hd : addr.toNat = 0x4014
      · exact memRead_oamDma s ((route_eq_iff _ _).mpr hd)
      · refine memRead_apuReg_open s ((route_eq_iff _ _).mpr (.inl ⟨h1, by omega⟩)) ?_
        rintro rfl
        exact absurd h2 (by decide)
    · exact memRead_unmapped s ((route_eq_iff _ _).mpr hu)
    · rw [memRead_cartridge s ((route_eq_iff _ _).mpr h1), cartByte_unmapped hm]
  · simp only [memWrite, (route_eq_iff addr .unmapped).mpr ⟨h1, h2⟩]

/-! ## PPU space (20_memory.md R80 to R85) -/

section PpuSpace

variable (s : State) (v : Byte) {a : Nat}

theorem ppuRead_pattern (h : a % 0x4000 < 0x2000) :
    ppuRead s a = (patternByte s (a % 0x4000), observePattern s (a % 0x4000)) := if_pos h

theorem ppuRead_nametable (h : 0x2000 ≤ a % 0x4000) (h' : a % 0x4000 < 0x3F00) :
    ppuRead s a = (s.ppu.vram.read (vramIndex s.mapper.mirroring (a % 0x4000)), s) :=
  (if_neg (Nat.not_lt.mpr h)).trans (if_pos h')

theorem ppuRead_palette (h : 0x3F00 ≤ a % 0x4000) : ppuRead s a = (paletteByte s.ppu (a % 0x4000), s) :=
  (if_neg (by omega)).trans (if_neg (Nat.not_lt.mpr h))

theorem ppuWrite_pattern (h : a % 0x4000 < 0x2000) :
    ppuWrite s a v = observePattern (mapWrite s (a % 0x4000) v .ppu) (a % 0x4000) := if_pos h

theorem ppuWrite_nametable (h : 0x2000 ≤ a % 0x4000) (h' : a % 0x4000 < 0x3F00) :
    ppuWrite s a v =
      { s with ppu := { s.ppu with vram := s.ppu.vram.write (vramIndex s.mapper.mirroring (a % 0x4000)) v } } :=
  (if_neg (Nat.not_lt.mpr h)).trans (if_pos h')

theorem ppuWrite_palette (h : 0x3F00 ≤ a % 0x4000) :
    ppuWrite s a v =
      { s with ppu := { s.ppu with palette := s.ppu.palette.write (paletteIndex (a % 0x4000)) (v &&& 0x3F#8) } } :=
  (if_neg (by omega)).trans (if_neg (Nat.not_lt.mpr h))

/-- A pattern address resolves to CHR RAM on a cartridge without CHR ROM, else to CHR ROM. -/
theorem mapRead_pattern (h : a < 0x2000) :
    mapRead s.mapper s.cart a .ppu = (s.cart.chrTarget, s.mapper.variant.chrOffset s.cart a) := if_pos h

theorem patternByte_eq (h : a < 0x2000) :
    patternByte s a =
      if s.cart.chrBanks = 0x00#8 then s.byte (.chrRam (s.mapper.variant.chrOffset s.cart a))
      else s.byte (.chrRom (s.mapper.variant.chrOffset s.cart a)) := by
  by_cases hc : s.cart.chrBanks = 0x00#8 <;> simp [patternByte, mapRead_pattern s h, Cart.chrTarget, hc, State.byte]

theorem mapWrite_pattern (h : a < 0x2000) :
    mapWrite s a v .ppu =
      { s with cart :=
          if s.cart.chrBanks = 0x00#8 then
            { s.cart with chrRam := s.cart.chrRam.write (s.mapper.variant.chrOffset s.cart a) v }
          else s.cart } := by
  by_cases hc : s.cart.chrBanks = 0x00#8 <;> simp [mapWrite, mapRead_pattern s h, Cart.chrTarget, hc]

end PpuSpace

theorem paletteIndex_eq (a : Nat) :
    paletteIndex a = if a % 32 &&& 0x13 = 0x10 then a % 32 &&& 0x0F else a % 32 := by
  have shared : ∀ i < 32, (if 16 ≤ i ∧ i % 4 = 0 then i - 16 else i) = if i &&& 0x13 = 0x10 then i &&& 0x0F else i := by
    decide
  exact shared _ (Nat.mod_lt _ (by decide))

/-- Settles O33: pattern, nametable and palette addresses in turn. -/
theorem ppuSpaceResolvesToItsCells : Obligations.PpuSpaceResolvesToItsCells := by
  intro s addr v a
  refine ⟨fun ha => ⟨?_, ?_⟩, fun h1 h2 => ?_, fun h => ?_⟩
  · rw [ppuRead_pattern s ha, patternByte_eq s ha]
    rfl
  · rw [ppuWrite_pattern s v ha, mapWrite_pattern s v ha]
    rfl
  · rw [ppuRead_nametable s h1 h2, ppuWrite_nametable s v h1 h2]
    cases s.mapper.mirroring <;> simp [vramIndex, physicalTable, State.byte, Nat.div_div_eq_div_mul, a]
  · rw [ppuRead_palette s h, ppuWrite_palette s v h, paletteByte, paletteIndex_eq]
    exact ⟨rfl, rfl⟩

/-- Settles O32: each array's read after a write, at the cell the address resolves to. -/
theorem writesReadBackThroughEveryMirror : Obligations.WritesReadBackThroughEveryMirror := by
  refine ⟨fun s a v ha => ?_, fun s a b v ha hb => ?_, fun s a b v ha ha' hb hb' => ?_, fun s a b v hg ha ha' hb hb' => ?_⟩
  · exact ⟨memRead_workRam s (Nat.lt_succ_of_le ha), memWrite_workRam s v (Nat.lt_succ_of_le ha)⟩
  · rw [memWrite_workRam s v (Nat.lt_succ_of_le ha), memRead_workRam _ (Nat.lt_succ_of_le hb),
      memRead_workRam s (Nat.lt_succ_of_le hb)]
    exact Mem.read_write _ _ _ v
  · have ea : a % 0x4000 = a := Nat.mod_eq_of_lt (by omega)
    have eb : b % 0x4000 = b := Nat.mod_eq_of_lt (by omega)
    rw [ppuWrite_nametable s v (by omega) (by omega), ppuRead_nametable _ (by omega) (by omega),
      ppuRead_nametable s (by omega) (by omega), ea, eb]
    exact Mem.read_write _ _ _ v
  · have ea : a % 0x4000 = a := Nat.mod_eq_of_lt (by omega)
    have eb : b % 0x4000 = b := Nat.mod_eq_of_lt (by omega)
    rw [ppuWrite_palette s v (by omega), ppuRead_palette _ (by omega), ppuRead_palette s (by omega), ea, eb]
    simp only [paletteByte, hg, Mem.read_write, Bool.false_eq_true, if_false]
    split
    · rw [BitVec.and_assoc, BitVec.and_self]
    · rfl

/-! ## Reads with side effects (20_memory.md R68) -/

theorem readPpuReg_status (s : State) :
    readPpuReg s 2 =
      (s.ppu.status &&& 0xE0#8, { s with ppu := { s.ppu with status := s.ppu.status &&& 0x7F#8, w := false } }) := rfl

theorem readPpuReg_data (s : State) : readPpuReg s 7 = readPpuData s := rfl

/-- A PPU-space read outside pattern memory changes nothing (20_memory.md R84). -/
theorem ppuRead_snd_of_ge (s : State) {a : Nat} (h : 0x2000 ≤ a % 0x4000) : (ppuRead s a).2 = s := by
  by_cases h' : a % 0x4000 < 0x3F00
  · rw [ppuRead_nametable s h h']
  · rw [ppuRead_palette s (Nat.not_lt.mp h')]

/-- A PPU-space read changes nothing but what the mapper observes (20_memory.md R84). -/
theorem ppuRead_snd (s : State) (a : Nat) :
    (ppuRead s a).2 =
      { s with mapper := if a % 0x4000 < 0x2000 then s.mapper.observe (a % 0x4000) else s.mapper } := by
  by_cases h : a % 0x4000 < 0x2000
  · rw [ppuRead_pattern s h, if_pos h]
    rfl
  · rw [ppuRead_snd_of_ge s (Nat.not_lt.mp h), if_neg h]

theorem advance_eq (v : BitVec 15) (down : Bool) :
    v + (if down then 32#15 else 1#15) = BitVec.ofNat 15 (v.toNat + if down then 32 else 1) := by
  cases down <;> simp [BitVec.ofNat_add]

theorem advanceV_setBuffer (s : State) (b : Byte) :
    advanceV (setBuffer s b) = { s with ppu := { s.ppu with
      buffer := (advanceV (setBuffer s b)).ppu.buffer
      v := BitVec.ofNat 15 (s.ppu.v.toNat + if s.ppu.ctrl.getLsbD 2 then 32 else 1) } } := by
  rw [← advance_eq]
  rfl

/-- A read of the data port changes the buffer, the address and what the mapper observes (47_ppu.md R387). -/
theorem readPpuData_snd (s : State) :
    (readPpuData s).2 = { s with
      ppu := { s.ppu with
        buffer := (readPpuData s).2.ppu.buffer
        v := BitVec.ofNat 15 (s.ppu.v.toNat + if s.ppu.ctrl.getLsbD 2 then 32 else 1) }
      mapper :=
        if s.ppu.v.toNat % 0x4000 < 0x2000 then s.mapper.observe (s.ppu.v.toNat % 0x4000) else s.mapper } := by
  by_cases h : s.ppu.v.toNat % 0x4000 < 0x3F00
  · rw [readPpuData_low h, ppuRead_snd, Nat.mod_mod]
    exact advanceV_setBuffer _ _
  · have hpal : ¬ s.ppu.v.toNat % 0x4000 < 0x2000 := by omega
    rw [readPpuData_high h, ppuRead_snd_of_ge s (by omega), ppuRead_snd_of_ge s (by omega), if_neg hpal]
    exact advanceV_setBuffer _ _

/-- Seven flags as the bits of a byte are the sum of their weights. -/
theorem orFlags_eq_sum : ∀ b0 b1 b2 b3 b4 b6 b7 : Bool,
    (if b0 then 0x01#8 else 0x00#8) ||| (if b1 then 0x02#8 else 0x00#8) ||| (if b2 then 0x04#8 else 0x00#8) |||
        (if b3 then 0x08#8 else 0x00#8) ||| (if b4 then 0x10#8 else 0x00#8) ||| (if b6 then 0x40#8 else 0x00#8) |||
        (if b7 then 0x80#8 else 0x00#8) =
      BitVec.ofNat 8 ((if b0 then 1 else 0) + (if b1 then 2 else 0) + (if b2 then 4 else 0) + (if b3 then 8 else 0) +
        (if b4 then 16 else 0) + (if b6 then 64 else 0) + (if b7 then 128 else 0)) := by
  decide

theorem ite_eq_zero {α : Type} {n : Nat} (x : BitVec n) (p q : α) :
    (if x = 0#n then p else q) = if decide (0 < x.toNat) then q else p := by
  have h : 0 < x.toNat ↔ x ≠ 0#n := by rw [Nat.pos_iff_ne_zero, ne_eq, ne_eq, BitVec.toNat_eq, BitVec.toNat_zero]
  by_cases hx : x = 0#n <;> simp [h, hx]

theorem memRead_apuStatus (s : State) :
    memRead s 0x4015#16 =
      (s.apu.statusByte, { s with apu := { s.apu with frame := { s.apu.frame with irqFlag := false } } }) := rfl

theorem memRead_port0 (s : State) :
    memRead s 0x4016#16 = ((s.bus.pad0.read s.bus.strobe).1,
      { s with bus := { s.bus with pad0 := (s.bus.pad0.read s.bus.strobe).2 } }) := rfl

theorem memRead_port1 (s : State) :
    memRead s 0x4017#16 = ((s.bus.pad1.read s.bus.strobe).1,
      { s with bus := { s.bus with pad1 := (s.bus.pad1.read s.bus.strobe).2 } }) := rfl

/-- A read of a port changes its shift register alone. -/
theorem Pad.read_snd (p : Pad) (strobe : Bool) : (p.read strobe).2 = { p with shift := (p.read strobe).2.shift } := by
  cases strobe <;> rfl

/-- Settles O34: without a side effect by `memRead_pure`; then each of the five registers. -/
theorem readsChangeStateOnlyWhereListed : Obligations.ReadsChangeStateOnlyWhereListed := by
  intro s addr a t flag some8
  refine ⟨(memRead_effect s addr).byte, fun hppu h15 h16 h17 => memRead_pure ?_, fun h1 h2 hr => ?_, fun h1 h2 hr => ?_,
    fun ha => ?_, fun ha => ?_, fun ha => ?_⟩
  · rw [Bool.eq_false_iff, ne_eq, readHasEffect_iff]
    exact not_or.mpr ⟨hppu, not_or.mpr ⟨h15, not_or.mpr ⟨h16, h17⟩⟩⟩
  · rw [memRead_ppuReg s ((route_eq_iff _ _).mpr ⟨h1, h2⟩), hr, readPpuReg_status]
  · have ht : t = (readPpuData s).2 := by
      rw [← readPpuReg_data, ← hr, ← memRead_ppuReg s ((route_eq_iff _ _).mpr ⟨h1, h2⟩)]
    rw [ht]
    exact readPpuData_snd s
  · obtain rfl : addr = 0x4015#16 := BitVec.eq_of_toNat_eq ha
    rw [memRead_apuStatus, Apu.statusByte]
    simp only [ite_eq_zero, orFlags_eq_sum]
    rfl
  · obtain rfl : addr = 0x4016#16 := BitVec.eq_of_toNat_eq ha
    have hpad := Pad.read_snd s.bus.pad0 s.bus.strobe
    simp only [t, memRead_port0]
    rw [← hpad]
  · obtain rfl : addr = 0x4017#16 := BitVec.eq_of_toNat_eq ha
    have hpad := Pad.read_snd s.bus.pad1 s.bus.strobe
    simp only [t, memRead_port1]
    rw [← hpad]

/-! ## OAM DMA (20_memory.md R73) -/

theorem State.readEffect.oamAddr {s t : State} (h : s.readEffect t) : t.ppu.oamAddr = s.ppu.oamAddr := by
  rw [State.readEffect] at h; rw [h]

/-- The address of byte `i` of page `p`. -/
theorem word_page (p : Byte) {i : Nat} (hi : i < 256) : word p (BitVec.ofNat 8 i) = BitVec.ofNat 16 (256 * p.toNat + i) := by
  rw [word_eq, BitVec.toNat_ofNat, Nat.mod_eq_of_lt hi]

/-- The byte a read of byte `i` of page `p` gives. -/
def pageByte (s : State) (p : Byte) (i : Nat) : Byte := (memRead s (BitVec.ofNat 16 (256 * p.toNat + i))).1

/-- The OAM cell byte `i` of a page goes to when `oam_addr` is `base`. -/
def oamCell (base : Byte) (i : Nat) : Nat := (base.toNat + i) % 256

/-- A page fills every cell once. -/
theorem oamCell_inj (base : Byte) {i j : Nat} (hi : i < 256) (hj : j < 256) (h : oamCell base i = oamCell base j) :
    i = j := by
  unfold oamCell at h
  omega

/-- Copies byte `i` of page `p` into OAM at `base + i`: what one byte of the DMA does while `oam_addr` is `base`. -/
def oamCopy (base p : Byte) (s : State) (i : Nat) : State :=
  let r := memRead s (BitVec.ofNat 16 (256 * p.toNat + i))
  { r.2 with ppu := { r.2.ppu with oam := r.2.ppu.oam.write (oamCell base i) r.1 } }

theorem oamCopy_oamAddr (base p : Byte) (s : State) (i : Nat) : (oamCopy base p s i).ppu.oamAddr = s.ppu.oamAddr :=
  (memRead_effect s _).oamAddr

theorem oamDmaByte_eq (p : Byte) (s : State) {i : Nat} (hi : i < 256) :
    oamDmaByte p s i = oamCopy s.ppu.oamAddr p s i := by
  rw [oamDmaByte, word_page p hi]
  simp only [oamCopy, oamCell, (memRead_effect s _).oamAddr]

theorem foldl_oamCopy_oamAddr (base p : Byte) (is : List Nat) (s : State) :
    (is.foldl (oamCopy base p) s).ppu.oamAddr = s.ppu.oamAddr := by
  induction is generalizing s with
  | nil => rfl
  | cons i is ih => exact (ih _).trans (oamCopy_oamAddr base p s i)

theorem foldl_oamDmaByte (p : Byte) {is : List Nat} (his : ∀ i ∈ is, i < 256) (s : State) :
    is.foldl (oamDmaByte p) s = is.foldl (oamCopy s.ppu.oamAddr p) s := by
  induction is generalizing s with
  | nil => rfl
  | cons i is ih =>
    obtain ⟨hi, his⟩ := List.forall_mem_cons.mp his
    rw [List.foldl_cons, List.foldl_cons, ih his, oamDmaByte_eq p s hi, oamCopy_oamAddr]

/-- OAM DMA reads the addresses of the page in order and leaves `oam_addr` alone. -/
theorem oamDma_eq (s : State) (p : Byte) : oamDma s p = (List.range 256).foldl (oamCopy s.ppu.oamAddr p) s :=
  foldl_oamDmaByte p (fun _ => List.mem_range.mp) s

/-- A read of work RAM or of the cartridge does not look at OAM. -/
theorem memRead_withOam (s : State) (m : Mem) {a : Word} (h : a.toNat < 0x2000 ∨ 0x4020 ≤ a.toNat) :
    memRead { s with ppu := { s.ppu with oam := m } } a =
      ((memRead s a).1, { s with ppu := { s.ppu with oam := m } }) := by
  obtain h | h := h
  · rw [memRead_workRam _ h, memRead_workRam s h]
  · rw [memRead_cartridge _ (route_cartridge h), memRead_cartridge s (route_cartridge h)]
    rfl

/-- `m` with `g j` written at `f j` for each `j` of the list, in order. -/
def Mem.writeEach (f : Nat → Nat) (g : Nat → Byte) (m : Mem) (js : List Nat) : Mem :=
  js.foldl (fun m j => m.write (f j) (g j)) m

/-- Writes at different indexes all stay. -/
theorem Mem.read_writeEach (f : Nat → Nat) (g : Nat → Byte) (m : Mem) {n i : Nat} (hi : i < n)
    (hf : ∀ i < n, ∀ j < n, f i = f j → i = j) : (Mem.writeEach f g m (List.range n)).read (f i) = g i := by
  induction n with
  | zero => exact absurd hi (Nat.not_lt_zero i)
  | succ n ih =>
    rw [Mem.writeEach, List.range_succ, List.foldl_append, List.foldl_cons, List.foldl_nil, Mem.read_write]
    by_cases he : i = n
    · rw [he, if_pos rfl]
    · rw [if_neg fun e => he (hf i hi n (Nat.lt_succ_self n) e)]
      exact ih (by omega) fun a ha b hb => hf a (by omega) b (by omega)

/-- A page read without side effects is copied into OAM, and nothing else changes. -/
theorem foldl_oamCopy_pure (s : State) (base p : Byte) {is : List Nat} (hp : p.toNat < 0x20 ∨ 0x41 ≤ p.toNat)
    (his : ∀ i ∈ is, i < 256) (m : Mem) :
    is.foldl (oamCopy base p) { s with ppu := { s.ppu with oam := m } } =
      { s with ppu := { s.ppu with oam := m.writeEach (oamCell base) (pageByte s p) is } } := by
  induction is generalizing m with
  | nil => rfl
  | cons i is ih =>
    obtain ⟨hi, his⟩ := List.forall_mem_cons.mp his
    have hlt := p.isLt
    have ha : (BitVec.ofNat 16 (256 * p.toNat + i)).toNat = 256 * p.toNat + i := Nat.mod_eq_of_lt (by omega)
    rw [List.foldl_cons, oamCopy, memRead_withOam s m (by omega)]
    exact ih his _

theorem oamDma_pure (s : State) {p : Byte} (hp : p.toNat < 0x20 ∨ 0x41 ≤ p.toNat) :
    oamDma s p = { s with ppu := { s.ppu with
      oam := s.ppu.oam.writeEach (oamCell s.ppu.oamAddr) (pageByte s p) (List.range 256) } } :=
  (oamDma_eq s p).trans (foldl_oamCopy_pure s s.ppu.oamAddr p hp (fun _ => List.mem_range.mp) s.ppu.oam)

theorem State.eq_withOam {s t : State} {m : Mem} (h : t = { s with ppu := { s.ppu with oam := m } }) :
    t = { s with ppu := { s.ppu with oam := t.ppu.oam } } := by
  subst h
  rfl

theorem oamDma_pure_byte (s : State) {p : Byte} (hp : p.toNat < 0x20 ∨ 0x41 ≤ p.toNat) {i : Nat} (hi : i < 256) :
    (oamDma s p).byte (.oam (oamCell s.ppu.oamAddr i)) = pageByte s p i := by
  have hread := Mem.read_writeEach (oamCell s.ppu.oamAddr) (pageByte s p) s.ppu.oam hi
    fun _ ha _ hb => oamCell_inj _ ha hb
  simpa only [oamDma_pure s hp, State.byte] using hread

/-- Settles O35: the copy's `oam_addr` is constant; a page without side effects is read from the state before the write. -/
theorem oamDmaCopiesOnePage : Obligations.OamDmaCopiesOnePage := by
  have hw : ∀ s p, memWrite s 0x4014#16 p = oamDma s p := fun _ _ => rfl
  refine ⟨fun s p => ?_, fun s p hp => ?_, fun ea c0 n => ?_⟩
  · rw [hw, oamDma_eq]
    exact ⟨rfl, foldl_oamCopy_oamAddr _ p _ s⟩
  · exact ⟨State.eq_withOam (oamDma_pure s hp), fun i hi => oamDma_pure_byte s hp hi⟩
  · have hr : route ea = .oamDma ↔ ea = 0x4014#16 :=
      (route_eq_iff ea .oamDma).trans (BitVec.toNat_inj (y := 0x4014#16))
    simp only [dmaCycles, hr]

/-! ## The controller ports (20_memory.md R74, R75) -/

/-- Reading one port and no other: its shifts are those of `Pad.read`. -/
theorem iterate_memRead_port0 (s : State) (k : Nat) :
    (fun u : State => (memRead u 0x4016#16).2)^[k] s =
      { s with bus := { s.bus with pad0 := (fun p : Pad => (p.read s.bus.strobe).2)^[k] s.bus.pad0 } } := by
  induction k generalizing s with
  | zero => rfl
  | succ k ih => rw [Function.iterate_succ_apply, ih, memRead_port0, Function.iterate_succ_apply]

theorem iterate_memRead_port1 (s : State) (k : Nat) :
    (fun u : State => (memRead u 0x4017#16).2)^[k] s =
      { s with bus := { s.bus with pad1 := (fun p : Pad => (p.read s.bus.strobe).2)^[k] s.bus.pad1 } } := by
  induction k generalizing s with
  | zero => rfl
  | succ k ih => rw [Function.iterate_succ_apply, ih, memRead_port1, Function.iterate_succ_apply]

theorem and_one_eq_bitByte (b : Byte) : b &&& 1#8 = bitByte (b.getLsbD 0) := by
  revert b; decide +kernel

/-- A read of a port shifts a one in at the top. -/
theorem shiftOnes_getLsbD (b : Byte) (j : Nat) :
    ((b >>> 1) ||| 0x80#8).getLsbD j = if j < 7 then b.getLsbD (j + 1) else decide (j = 7) := by
  have top : (0x80#8 : Byte).getLsbD j = decide (j = 7) := by
    by_cases hj : j < 8
    · interval_cases j <;> rfl
    · rw [BitVec.getLsbD_of_ge _ _ (Nat.le_of_not_lt hj), eq_comm, decide_eq_false_iff_not]
      omega
  rw [BitVec.getLsbD_or, BitVec.getLsbD_ushiftRight, top, Nat.add_comm 1 j]
  split
  · simp [show j ≠ 7 by omega]
  · simp [BitVec.getLsbD_of_ge b (j + 1) (by omega)]

/-- After `k` reads bit `j` is bit `j + k` of the snapshot, or a one above it. -/
theorem iterate_padRead_getLsbD (p : Pad) (k : Nat) {j : Nat} (hj : j < 8) :
    ((fun p : Pad => (p.read false).2)^[k] p).shift.getLsbD j = if j + k < 8 then p.shift.getLsbD (j + k) else true := by
  induction k generalizing j with
  | zero => simp [hj]
  | succ k ih =>
    have hstep (q : Pad) : (q.read false).2.shift = (q.shift >>> 1) ||| 0x80#8 := rfl
    rw [Function.iterate_succ_apply', hstep, shiftOnes_getLsbD]
    by_cases h7 : j < 7
    · rw [if_pos h7, ih (by omega), show j + 1 + k = j + (k + 1) by omega]
    · rw [if_neg h7, if_neg (by omega)]
      exact decide_eq_true (by omega)

/-- Read `k` of a port with the strobe 0 gives bit `k` of its snapshot, then ones. -/
theorem padRead_iterate_fst (p : Pad) (k : Nat) :
    (((fun p : Pad => (p.read false).2)^[k] p).read false).1 = if k < 8 then bitByte (p.shift.getLsbD k) else 0x01#8 := by
  have hbit (q : Pad) : (q.read false).1 = bitByte (q.shift.getLsbD 0) := and_one_eq_bitByte q.shift
  rw [hbit, iterate_padRead_getLsbD p k (by decide), Nat.zero_add]
  split <;> rfl

/-- A strobe write captures both ports while the strobe is 1 and when it falls. -/
theorem Bus.writeStrobe_eq (b : Bus) (v : Byte) :
    b.writeStrobe v = { b with
      strobe := v.getLsbD 0
      pad0 := if v.getLsbD 0 || b.strobe then b.pad0.capture else b.pad0
      pad1 := if v.getLsbD 0 || b.strobe then b.pad1.capture else b.pad1 } := by
  unfold Bus.writeStrobe
  cases v.getLsbD 0 <;> cases b.strobe <;> rfl

theorem memWrite_port0 (s : State) (v : Byte) : memWrite s 0x4016#16 v = { s with bus := s.bus.writeStrobe v } := rfl

theorem and_one_eq_mod (b : Byte) : b &&& 1#8 = BitVec.ofNat 8 (b.toNat % 2) := by
  revert b; decide +kernel

theorem shiftOnes_eq (b : Byte) : (b >>> 1) ||| 0x80#8 = BitVec.ofNat 8 (b.toNat / 2 + 128) := by
  revert b; decide +kernel

theorem Pad.read_fst_eq (p : Pad) (strobe : Bool) :
    (p.read strobe).1 = BitVec.ofNat 8 ((if strobe then p.buttons.toNat else p.shift.toNat) % 2) := by
  cases strobe
  · exact and_one_eq_mod p.shift
  · exact and_one_eq_mod p.buttons

theorem Pad.read_snd_eq (p : Pad) (strobe : Bool) :
    (p.read strobe).2 = if strobe then p else { p with shift := BitVec.ofNat 8 (p.shift.toNat / 2 + 128) } := by
  cases strobe
  · rw [← shiftOnes_eq]
    rfl
  · rfl

/-- The machine after the strobe went to 1 and back to 0: both ports hold their snapshot. -/
theorem memWrite_strobePulse (s : State) :
    memWrite (memWrite s 0x4016#16 0x01#8) 0x4016#16 0x00#8 =
      { s with bus := { s.bus with strobe := false, pad0 := s.bus.pad0.capture, pad1 := s.bus.pad1.capture } } := rfl

/-- Settles O36: one write, one read, then `k` reads after a strobe. -/
theorem controllerPortsShiftTheSnapshot : Obligations.ControllerPortsShiftTheSnapshot := by
  refine ⟨fun s v => ?_, fun s => ?_, fun s k => ?_⟩
  · rw [memWrite_port0, Bus.writeStrobe_eq]
    rfl
  · rw [memRead_port0, memRead_port1]
    simp only [Pad.read_fst_eq, Pad.read_snd_eq, and_self]
  · rw [memWrite_strobePulse]
    dsimp only
    rw [iterate_memRead_port0, iterate_memRead_port1, memRead_port0, memRead_port1]
    exact ⟨padRead_iterate_fst _ k, padRead_iterate_fst _ k⟩

end Sys2Proof.Machine

namespace Sys2Proof

/-! # The encoding (O1 to O3)

An opcode byte fixes everything but the operand, so a fact about `decodeOp op b1 b2` is one about `decodeOp op 0#8 0#8`, of
which there are 256, and one about replacing an operand. -/

/-! ## The bytes of an address -/

theorem word_hi_lo (a : Word) : a.extractLsb' 8 8 ++ a.setWidth 8 = a := by
  change Machine.word (Machine.hi a) (Machine.lo a) = a
  have := a.isLt
  apply BitVec.eq_of_toNat_eq
  rw [Machine.word_toNat, Machine.hi_eq, Machine.lo_eq, BitVec.toNat_ofNat, BitVec.toNat_ofNat]
  omega

theorem addressBytes_append (b1 b2 : Byte) : [(b2 ++ b1).setWidth 8, (b2 ++ b1).extractLsb' 8 8] = [b1, b2] := by
  rw [BitVec.setWidth_append_eq_right, BitVec.extractLsb'_append_eq_left]

/-! ## Replacing the operand of an instruction -/

/-- The mode with the operand bytes `b1`, `b2` read after the opcode (30_encoding.md R123). -/
def MemMode.withOperand (b1 b2 : Byte) : MemMode → MemMode
  | .zp _ => .zp b1
  | .zpx _ => .zpx b1
  | .zpy _ => .zpy b1
  | .abs _ => .abs (b2 ++ b1)
  | .abx _ => .abx (b2 ++ b1)
  | .aby _ => .aby (b2 ++ b1)
  | .izx _ => .izx b1
  | .izy _ => .izy b1

def ReadOp.withOperand (b1 b2 : Byte) : ReadOp → ReadOp
  | .imm _ => .imm b1
  | .mem m => .mem (m.withOperand b1 b2)

def RmwOp.withOperand (b1 b2 : Byte) : RmwOp → RmwOp
  | .acc => .acc
  | .mem m => .mem (m.withOperand b1 b2)

def JmpOp.withOperand (b1 b2 : Byte) : JmpOp → JmpOp
  | .abs _ => .abs (b2 ++ b1)
  | .ind _ => .ind (b2 ++ b1)

/-- The instruction of the same opcode whose operand bytes are `b1` and `b2`, as many as its mode has. -/
def Instr.withOperand (b1 b2 : Byte) : Instr → Instr
  | .lda o => .lda (o.withOperand b1 b2)
  | .ldx o => .ldx (o.withOperand b1 b2)
  | .ldy o => .ldy (o.withOperand b1 b2)
  | .sta m => .sta (m.withOperand b1 b2)
  | .stx m => .stx (m.withOperand b1 b2)
  | .sty m => .sty (m.withOperand b1 b2)
  | .adc o => .adc (o.withOperand b1 b2)
  | .sbc o => .sbc (o.withOperand b1 b2)
  | .and o => .and (o.withOperand b1 b2)
  | .ora o => .ora (o.withOperand b1 b2)
  | .eor o => .eor (o.withOperand b1 b2)
  | .cmp o => .cmp (o.withOperand b1 b2)
  | .cpx o => .cpx (o.withOperand b1 b2)
  | .cpy o => .cpy (o.withOperand b1 b2)
  | .bit m => .bit (m.withOperand b1 b2)
  | .inc m => .inc (m.withOperand b1 b2)
  | .dec m => .dec (m.withOperand b1 b2)
  | .asl o => .asl (o.withOperand b1 b2)
  | .lsr o => .lsr (o.withOperand b1 b2)
  | .rol o => .rol (o.withOperand b1 b2)
  | .ror o => .ror (o.withOperand b1 b2)
  | .jmp t => .jmp (t.withOperand b1 b2)
  | .jsr _ => .jsr (b2 ++ b1)
  | .bcc _ => .bcc b1
  | .bcs _ => .bcs b1
  | .beq _ => .beq b1
  | .bmi _ => .bmi b1
  | .bne _ => .bne b1
  | .bpl _ => .bpl b1
  | .bvc _ => .bvc b1
  | .bvs _ => .bvs b1
  | i => i

/-! ### What the operand bytes do not touch -/

/-- Opcode and mode do not depend on the operand bytes. -/
theorem row_withOperand (b1 b2 : Byte) (i : Instr) :
    opcode (i.withOperand b1 b2) = opcode i ∧ (i.withOperand b1 b2).mode = i.mode := by
  cases i with
  | lda o | ldx o | ldy o | adc o | sbc o | and o | ora o | eor o | cmp o | cpx o | cpy o =>
    cases o with
    | imm v => exact ⟨rfl, rfl⟩
    | mem m => cases m <;> exact ⟨rfl, rfl⟩
  | sta m | stx m | sty m | bit m | inc m | dec m => cases m <;> exact ⟨rfl, rfl⟩
  | asl o | lsr o | rol o | ror o =>
    cases o with
    | acc => exact ⟨rfl, rfl⟩
    | mem m => cases m <;> exact ⟨rfl, rfl⟩
  | jmp t => cases t <;> exact ⟨rfl, rfl⟩
  | _ => exact ⟨rfl, rfl⟩

theorem Instr.size_withOperand (b1 b2 : Byte) (i : Instr) : (i.withOperand b1 b2).size = i.size :=
  congrArg Mode.length (row_withOperand b1 b2 i).2

theorem Instr.size_bounds (i : Instr) : 1 ≤ i.size ∧ i.size ≤ 3 := by
  unfold Instr.size
  cases i.mode <;> decide

/-! ### Operand bytes written are read back, and operand bytes read are written back -/

theorem MemMode.bytes_withOperand (b1 b2 : Byte) (m : MemMode) :
    (m.withOperand b1 b2).bytes = [b1, b2].take (m.mode.length - 1) := by
  cases m with
  | abs a | abx a | aby a => exact addressBytes_append b1 b2
  | _ => rfl

theorem ReadOp.bytes_withOperand (b1 b2 : Byte) (o : ReadOp) :
    (o.withOperand b1 b2).bytes = [b1, b2].take (o.mode.length - 1) := by
  cases o with
  | imm v => rfl
  | mem m => exact m.bytes_withOperand b1 b2

theorem RmwOp.bytes_withOperand (b1 b2 : Byte) (o : RmwOp) :
    (o.withOperand b1 b2).bytes = [b1, b2].take (o.mode.length - 1) := by
  cases o with
  | acc => rfl
  | mem m => exact m.bytes_withOperand b1 b2

theorem Instr.operandBytes_withOperand (b1 b2 : Byte) (i : Instr) :
    (i.withOperand b1 b2).operandBytes = [b1, b2].take (i.size - 1) := by
  cases i with
  | lda o | ldx o | ldy o | adc o | sbc o | and o | ora o | eor o | cmp o | cpx o | cpy o =>
    exact o.bytes_withOperand b1 b2
  | sta m | stx m | sty m | bit m | inc m | dec m => exact m.bytes_withOperand b1 b2
  | asl o | lsr o | rol o | ror o => exact o.bytes_withOperand b1 b2
  | jmp t => cases t <;> exact addressBytes_append b1 b2
  | jsr a => exact addressBytes_append b1 b2
  | _ => rfl

theorem MemMode.withOperand_bytes (m : MemMode) : m.withOperand (m.bytes.getD 0 0#8) (m.bytes.getD 1 0#8) = m := by
  cases m with
  | abs a => exact congrArg MemMode.abs (word_hi_lo a)
  | abx a => exact congrArg MemMode.abx (word_hi_lo a)
  | aby a => exact congrArg MemMode.aby (word_hi_lo a)
  | _ => rfl

theorem ReadOp.withOperand_bytes (o : ReadOp) : o.withOperand (o.bytes.getD 0 0#8) (o.bytes.getD 1 0#8) = o := by
  cases o with
  | imm v => rfl
  | mem m => exact congrArg ReadOp.mem m.withOperand_bytes

theorem RmwOp.withOperand_bytes (o : RmwOp) : o.withOperand (o.bytes.getD 0 0#8) (o.bytes.getD 1 0#8) = o := by
  cases o with
  | acc => rfl
  | mem m => exact congrArg RmwOp.mem m.withOperand_bytes

theorem Instr.withOperand_operandBytes (i : Instr) :
    i.withOperand (i.operandBytes.getD 0 0#8) (i.operandBytes.getD 1 0#8) = i := by
  cases i with
  | lda o | ldx o | ldy o | adc o | sbc o | and o | ora o | eor o | cmp o | cpx o | cpy o =>
    simp only [Instr.withOperand, Instr.operandBytes, ReadOp.withOperand_bytes]
  | sta m | stx m | sty m | bit m | inc m | dec m =>
    simp only [Instr.withOperand, Instr.operandBytes, MemMode.withOperand_bytes]
  | asl o | lsr o | rol o | ror o => simp only [Instr.withOperand, Instr.operandBytes, RmwOp.withOperand_bytes]
  | jmp t =>
    cases t with
    | abs a => exact congrArg (Instr.jmp ∘ .abs) (word_hi_lo a)
    | ind a => exact congrArg (Instr.jmp ∘ .ind) (word_hi_lo a)
  | jsr a => exact congrArg Instr.jsr (word_hi_lo a)
  | _ => rfl

/-- An instruction has as many operand bytes as its length leaves after the opcode (30_encoding.md R120). -/
theorem Instr.operandBytes_length (i : Instr) : i.operandBytes.length = i.size - 1 := by
  have hbytes := i.operandBytes_withOperand (i.operandBytes.getD 0 0#8) (i.operandBytes.getD 1 0#8)
  rw [i.withOperand_operandBytes] at hbytes
  rw [hbytes, List.length_take]
  exact Nat.min_eq_left (Nat.sub_le_sub_right i.size_bounds.2 1)

/-! ## The opcode map and its inverse -/

/-- The decoder reads the operand bytes into the operand and nowhere else. -/
theorem decodeOp_eq_withOperand (op b1 b2 : Byte) :
    decodeOp op b1 b2 = (decodeOp op 0#8 0#8).withOperand b1 b2 := by
  unfold decodeOp
  split <;> rfl

theorem opcode_decodeOp (op b1 b2 : Byte) : opcode (decodeOp op b1 b2) = some op := by
  have hzero : ∀ op : Byte, opcode (decodeOp op 0#8 0#8) = some op := by decide +kernel
  rw [decodeOp_eq_withOperand, (row_withOperand b1 b2 _).1, hzero]

theorem decodeOp_undefined (op b1 b2 : Byte) (h : op.toNat ∈ undefinedOpcodes) : decodeOp op b1 b2 = .undefined op := by
  have hzero : ∀ op : Byte, op.toNat ∈ undefinedOpcodes → decodeOp op 0#8 0#8 = .undefined op := by decide +kernel
  rw [decodeOp_eq_withOperand, hzero op h]
  rfl

/-- An instruction has an opcode exactly when it is well-formed, and the decoder takes that opcode back to it. -/
theorem map_decodeOp_opcode (b1 b2 : Byte) (i : Instr) :
    (opcode i).map (decodeOp · b1 b2) = if i.wf then some (i.withOperand b1 b2) else none := by
  cases i with
  | lda o | ldx o | ldy o | adc o | sbc o | and o | ora o | eor o | cmp o | cpx o | cpy o =>
    cases o with
    | imm v => rfl
    | mem m => cases m <;> rfl
  | sta m | stx m | sty m | bit m | inc m | dec m => cases m <;> rfl
  | asl o | lsr o | rol o | ror o =>
    cases o with
    | acc => rfl
    | mem m => cases m <;> rfl
  | jmp t => cases t <;> rfl
  | undefined op =>
    by_cases h : op.toNat ∈ undefinedOpcodes
    · simp [opcode, Instr.wf, Instr.withOperand, h, decodeOp_undefined]
    · simp [opcode, Instr.wf, h]
  | _ => rfl

theorem wellFormed_iff_opcode (i : Instr) : WellFormed i ↔ ∃ op, opcode i = some op := by
  have hmap := congrArg Option.isSome (map_decodeOp_opcode 0#8 0#8 i)
  rw [Option.isSome_map] at hmap
  rw [← Option.isSome_iff_exists, hmap]
  cases h : i.wf <;> simp [WellFormed, h]

theorem decodeOp_of_opcode {i : Instr} {op : Byte} (h : opcode i = some op) (b1 b2 : Byte) :
    decodeOp op b1 b2 = i.withOperand b1 b2 := by
  have hmap := map_decodeOp_opcode b1 b2 i
  rw [if_pos ((wellFormed_iff_opcode i).mpr ⟨op, h⟩), h] at hmap
  exact Option.some.inj hmap

theorem wellFormed_decodeOp (op b1 b2 : Byte) : WellFormed (decodeOp op b1 b2) :=
  (wellFormed_iff_opcode _).mpr ⟨op, opcode_decodeOp op b1 b2⟩

theorem decodeOp_eq_undefined_iff (op b1 b2 : Byte) : decodeOp op b1 b2 = .undefined op ↔ op.toNat ∈ undefinedOpcodes := by
  refine ⟨fun h => ?_, decodeOp_undefined op b1 b2⟩
  have hwf := wellFormed_decodeOp op b1 b2
  rw [h] at hwf
  exact of_decide_eq_true hwf

/-! ## Whole encodings -/

theorem encode_of_opcode {i : Instr} {op : Byte} (h : opcode i = some op) : encode i = op :: i.operandBytes := by
  rw [encode, h]

theorem encode_length {i : Instr} (h : WellFormed i) : (encode i).length = i.size := by
  obtain ⟨op, hop⟩ := (wellFormed_iff_opcode i).mp h
  rw [encode_of_opcode hop, List.length_cons, i.operandBytes_length]
  exact Nat.sub_add_cancel i.size_bounds.1

theorem operandCount_le_two (op : Byte) : operandCount op ≤ 2 :=
  Nat.sub_le_sub_right (decodeOp op 0#8 0#8).size_bounds.2 1

theorem operandCount_of_opcode {i : Instr} {op : Byte} (h : opcode i = some op) : operandCount op = i.size - 1 := by
  rw [operandCount, decodeOp_of_opcode h, Instr.size_withOperand]

/-- At most two bytes are the first so many of a pair. -/
theorem take_pair_getD {bs : List Byte} (h : bs.length ≤ 2) : [bs.getD 0 0#8, bs.getD 1 0#8].take bs.length = bs := by
  match bs, h with
  | [], _ | [_], _ | [_, _], _ => rfl

theorem encode_decodeOp {op : Byte} {bs : List Byte} (h : bs.length = operandCount op) :
    encode (decodeOp op (bs.getD 0 0#8) (bs.getD 1 0#8)) = op :: bs := by
  have htwo : bs.length ≤ 2 := h ▸ operandCount_le_two op
  rw [encode_of_opcode (opcode_decodeOp _ _ _), decodeOp_eq_withOperand, Instr.operandBytes_withOperand, ← operandCount, ← h,
    take_pair_getD htwo]

theorem decode_append {op : Byte} {bs : List Byte} (h : bs.length = operandCount op) (rest : List Byte) :
    decode (op :: bs ++ rest) = .ok (decodeOp op (bs.getD 0 0#8) (bs.getD 1 0#8), rest) := by
  have htwo : bs.length ≤ 2 := h ▸ operandCount_le_two op
  match bs, htwo with
  | [], _ | [_], _ | [_, _], _ =>
    unfold decode
    dsimp only [List.cons_append]
    rw [← h]
    rfl

/-- What `decode` answers: an opcode byte, as many operand bytes as it has, and the rest. -/
theorem decode_eq_ok_iff (bytes : List Byte) (i : Instr) (rest : List Byte) :
    decode bytes = .ok (i, rest) ↔ ∃ op bs, bs.length = operandCount op ∧ bytes = op :: bs ++ rest ∧
      i = decodeOp op (bs.getD 0 0#8) (bs.getD 1 0#8) := by
  constructor
  · intro h
    unfold decode at h
    split at h
    next => cases h
    next op tail =>
      split at h
      next hcount => cases h; exact ⟨op, [], hcount.symm, rfl, rfl⟩
      next b1 _ hcount => cases h; exact ⟨op, [b1], hcount.symm, rfl, rfl⟩
      next b1 b2 _ hcount => cases h; exact ⟨op, [b1, b2], hcount.symm, rfl, rfl⟩
      next => cases h
  · rintro ⟨op, bs, hcount, rfl, rfl⟩
    exact decode_append hcount rest

/-- Settles O2: the operand bytes of `i` are as many as its opcode has, and the opcode map puts them back into `i`. -/
theorem decodingAnEncodedInstructionGivesItBack : Obligations.DecodingAnEncodedInstructionGivesItBack := by
  intro i rest hwf
  obtain ⟨op, hop⟩ := (wellFormed_iff_opcode i).mp hwf
  have hcount : i.operandBytes.length = operandCount op := by
    rw [i.operandBytes_length, operandCount_of_opcode hop]
  rw [encode_of_opcode hop, decode_append hcount, decodeOp_of_opcode hop, i.withOperand_operandBytes]

/-- Settles O3: what is decoded is an opcode of the map with its operand bytes, and these are what is encoded. -/
theorem everyOpcodeDecodesAndEncodesBack : Obligations.EveryOpcodeDecodesAndEncodesBack := by
  refine ⟨fun op b1 b2 => ?_, fun bytes i rest h => ?_, decodeOp_eq_undefined_iff, rfl, by decide⟩
  · have hlen : ([b1, b2].take (operandCount op)).length = operandCount op :=
      List.length_take_of_le (operandCount_le_two op)
    refine ⟨_, [b1, b2].drop (operandCount op), (decode_eq_ok_iff _ _ _).mpr ⟨op, _, hlen, ?_, rfl⟩⟩
    rw [List.cons_append, List.take_append_drop]
  · obtain ⟨op, bs, hcount, rfl, rfl⟩ := (decode_eq_ok_iff bytes i rest).mp h
    have hwf := wellFormed_decodeOp op (bs.getD 0 0#8) (bs.getD 1 0#8)
    exact ⟨hwf, congrArg (· ++ rest) (encode_decodeOp hcount), encode_length hwf⟩

/-- Settles O1: each word is evaluated. -/
theorem specWordsDecodeToTheirInstructions : Obligations.SpecWordsDecodeToTheirInstructions :=
  ⟨rfl, rfl, rfl, rfl, rfl, rfl, rfl, rfl, rfl, rfl, rfl, rfl, rfl, rfl, rfl, rfl, rfl, rfl⟩

end Sys2Proof

namespace Sys2Proof.Machine

/-! # Operands (O5, O6) -/

theorem word_zero_add_toNat (a index : Byte) : (word 0#8 (a + index)).toNat = (a.toNat + index.toNat) % 256 := by
  rw [word_zero_toNat, BitVec.toNat_add]

theorem EffAddr.indexed_toNat (base : Word) (index : Byte) :
    (EffAddr.indexed base index).addr.toNat = (base.toNat + index.toNat) % 65536 := by
  have := index.isLt
  rw [EffAddr.indexed, BitVec.toNat_add, BitVec.toNat_setWidth, Nat.mod_eq_of_lt (by omega : index.toNat < 2 ^ 16)]

/-- Indexing crosses when the high byte changed (30_encoding.md R131, R132, R135). -/
theorem EffAddr.indexed_crossed (base : Word) (index : Byte) :
    (EffAddr.indexed base index).crossed = true ↔
      (EffAddr.indexed base index).addr.toNat / 256 ≠ base.toNat / 256 := by
  rw [← hi_ne]
  exact decide_eq_true_iff

/-- The pointer at `$00zz` as a number: both bytes from page zero, the low one first (30_encoding.md R129). -/
theorem pointer_toNat (s : State) (z : Byte) :
    (word (s.bus.ram.read (z + 1#8).toNat) (s.bus.ram.read z.toNat)).toNat =
      (s.byte (.ram z.toNat)).toNat + 256 * (s.byte (.ram ((z.toNat + 1) % 256))).toNat := by
  rw [word_toNat, Nat.add_comm, BitVec.toNat_add]
  rfl

/-- Settles O5: zero-page sums wrap in a byte, indexed sums in a word; pointers are read from work RAM. -/
theorem effectiveAddressesFollowTheModes : Obligations.EffectiveAddressesFollowTheModes := by
  intro s a w
  refine ⟨⟨word_zero_toNat a, rfl, rfl⟩, ⟨word_zero_add_toNat a s.cpu.x, rfl, rfl⟩,
    ⟨word_zero_add_toNat a s.cpu.y, rfl, rfl⟩, ⟨rfl, rfl, rfl⟩,
    ⟨EffAddr.indexed_toNat w s.cpu.x, EffAddr.indexed_crossed w s.cpu.x, rfl⟩,
    ⟨EffAddr.indexed_toNat w s.cpu.y, EffAddr.indexed_crossed w s.cpu.y, rfl⟩, ?_, ?_, effAddr_state s⟩
  · rw [effAddr_izx, ← BitVec.toNat_add]
    exact ⟨pointer_toNat s (a + s.cpu.x), rfl, rfl⟩
  · rw [effAddr_izy, ← pointer_toNat]
    exact ⟨EffAddr.indexed_toNat _ _, EffAddr.indexed_crossed _ _, rfl⟩

/-- The cycles of the read at an effective address: one more when indexing crossed a page. -/
theorem readOperand_mem (s : State) (m : MemMode) :
    readOperand s (.mem m) = ((memRead s (effAddr s m).1.addr).1, readBase m + (effAddr s m).1.crossed.toNat,
      (memRead s (effAddr s m).1.addr).2) := by
  rw [readOperand, effAddr_state]

theorem add_toNat_crossed (n : Nat) (b : Bool) : n + b.toNat = if b then n + 1 else n := by
  cases b <;> rfl

/-- Settles O6: the modes that do not index across pages never cross, so their count is the table's. -/
theorem operandValuesAndCycleCounts : Obligations.OperandValuesAndCycleCounts := by
  refine ⟨fun s v => rfl, fun s m => ?_, fun m => ?_, fun a w => ⟨rfl, rfl, rfl, rfl⟩⟩
  · dsimp only
    rw [readOperand_mem]
    cases m with
    | zp a | zpx a | zpy a | abs a => rfl
    | abx a | aby a | izy a => rw [add_toNat_crossed]; rfl
    | izx a => rw [effAddr_izx]; rfl
  · cases m <;> rfl

end Sys2Proof.Machine

namespace Sys2Proof.Machine

/-! # Loads, stores and transfers (O7 to O9) -/

/-- The forms of a rule are a table: its column of opcode bytes and lengths is that of the encodings. -/
theorem formsOf_of_map_eq {l : List (Byte × Nat × Instr)}
    (h : l.map (fun f => ((encode f.2.2).head?, (encode f.2.2).length)) = l.map fun f => (some f.1, f.2.1)) :
    formsOf l :=
  fun f hf => Prod.ext_iff.mp (List.map_inj_left.mp h f hf)

/-- Settles O9: each transfer is an implied instruction, and `SetZN` of the model is that of the statement. -/
theorem transfersCopyOneRegister : Obligations.TransfersCopyOneRegister := by
  refine ⟨formsOf_of_map_eq rfl, fun s => ?_⟩
  simp only [Cpu.zn_eq_setZN]
  exact ⟨rfl, rfl, rfl, rfl, rfl, rfl⟩

/-! ## Loads -/

/-- A reading instruction leaves the CPU registers its meaning gives and what its operand read changes. -/
theorem readThen_eq_afterRead (s : State) (o : ReadOp) (f : Cpu → Byte → Cpu) :
    readThen s o f = s.afterRead o (f s.cpu (readOperand s o).1) := readThen_eq s o f

theorem readOperand_frame (s : State) (o : ReadOp) : s.readFrame o :=
  ⟨readOperand_effect s o, (readOperand_effect s o).byte⟩

/-- Settles O7: each load is a reading instruction that sets its register, `Z` and `N` by the operand value. -/
theorem loadsSetTheirRegisterAndZN : Obligations.LoadsSetTheirRegisterAndZN := by
  refine ⟨fun b w => formsOf_of_map_eq rfl, fun s o => ?_⟩
  simp only [Cpu.zn_eq_setZN]
  exact ⟨congrArg _ (readThen_eq_afterRead s o _), congrArg _ (readThen_eq_afterRead s o _),
    congrArg _ (readThen_eq_afterRead s o _), readOperand_frame s o⟩

/-! ## Stores -/

theorem storeTo_eq_afterWrite (s : State) (m : MemMode) (v : Byte) :
    storeTo s m v = s.afterWrite (effAddr s m).1.addr v (storeCycles m) := by
  rw [storeTo, effAddr_state, State.store_eq]

theorem dmaCycles_eq_zero {ea : Word} (h : route ea ≠ .oamDma) (c0 : BitVec 64) (n : Nat) : dmaCycles ea c0 n = 0 :=
  if_neg h

theorem route_workRam {ea : Word} (h : ea.toNat < 0x2000) : route ea = .workRam := if_pos h

/-- A write at $6000 to $7FFF stores into PRG RAM, whatever the mapper (46_mapper.md R326, R347). -/
theorem memWrite_prgRam (s : State) {ea : Word} (v : Byte) (h : 0x6000 ≤ ea.toNat) (h' : ea.toNat < 0x8000) :
    memWrite s ea v = { s with cart := { s.cart with prgRam := s.cart.prgRam.write (ea.toNat - 0x6000) v } } := by
  rw [memWrite, route_cartridge (by omega)]
  exact if_pos ⟨h, h'⟩

theorem afterWrite_workRam (s : State) {ea : Word} (v : Byte) (n : Nat) (h : ea.toNat < 0x2000) :
    s.afterWrite ea v n =
      { s with bus := { s.bus with ram := s.bus.ram.write (ea.toNat % 2048) v }, cpu := s.cpu.later n } := by
  rw [State.afterWrite, memWrite_workRam s v h, dmaCycles_eq_zero (by simp [route_workRam h])]
  rfl

theorem afterWrite_prgRam (s : State) {ea : Word} (v : Byte) (n : Nat) (h : 0x6000 ≤ ea.toNat)
    (h' : ea.toNat < 0x8000) :
    s.afterWrite ea v n =
      { s with cart := { s.cart with prgRam := s.cart.prgRam.write (ea.toNat - 0x6000) v }, cpu := s.cpu.later n } := by
  have hr : route ea = .cartridge := route_cartridge (by omega)
  rw [State.afterWrite, memWrite_prgRam s v h h', dmaCycles_eq_zero (by simp [hr])]
  rfl

theorem storesTo_workRam (s : State) {ea : Word} (l : Loc) (h : ea.toNat < 0x2000) :
    s.storesTo ea l ↔ l = .ram (ea.toNat % 2048) := by
  rw [State.storesTo, route_workRam h]
  rfl

theorem storesTo_cartridge (s : State) {ea : Word} (l : Loc) (h : 0x4020 ≤ ea.toNat) :
    s.storesTo ea l ↔ 0x6000 ≤ ea.toNat ∧ ea.toNat < 0x8000 ∧ l = .prgRam (ea.toNat - 0x6000) := by
  rw [State.storesTo, route_cartridge h]

/-- A location of work RAM or of PRG RAM holds the byte stored to it. -/
theorem afterWrite_byte_of_storesTo {s : State} {ea : Word} {l : Loc} (v : Byte) (n : Nat) (hl : s.storesTo ea l)
    (h : ea.toNat < 0x2000 ∨ 0x6000 ≤ ea.toNat) : (s.afterWrite ea v n).byte l = v := by
  obtain h | h := h
  · obtain rfl := (storesTo_workRam s l h).mp hl
    rw [afterWrite_workRam s v n h]
    exact Mem.read_write_same _ _ v
  · obtain ⟨-, h', rfl⟩ := (storesTo_cartridge s l (by omega)).mp hl
    rw [afterWrite_prgRam s v n h h']
    exact Mem.read_write_same _ _ v

/-- Settles O8: a store is one write at the effective address; what the write does is known where it lies in work RAM or
PRG RAM, and bounded by `storesTo` everywhere. -/
theorem storesWriteTheirRegisterAtTheAddress : Obligations.StoresWriteTheirRegisterAtTheAddress := by
  refine ⟨fun b w => formsOf_of_map_eq rfl, fun s m => ?_⟩
  refine ⟨congrArg _ (storeTo_eq_afterWrite s m _), congrArg _ (storeTo_eq_afterWrite s m _),
    congrArg _ (storeTo_eq_afterWrite s m _), fun v => ⟨memWrite_byte s _ v, ?_, ?_, ?_⟩⟩
  · exact afterWrite_workRam s v _
  · exact afterWrite_prgRam s v _
  · exact fun l hl h => afterWrite_byte_of_storesTo v _ hl h

end Sys2Proof.Machine

namespace Sys2Proof.Machine

/-! # Arithmetic and logic (O10 to O15) -/

/-! ## Bytes as numbers -/

/-- Bit 7 of a byte, which is its sign. -/
theorem getLsbD_seven (b : Byte) : b.getLsbD 7 = decide (128 ≤ b.toNat) :=
  (BitVec.msb_eq_getLsbD_last b).symm.trans (BitVec.msb_eq_decide b)

theorem getLsbD_six (b : Byte) : b.getLsbD 6 = decide (64 ≤ b.toNat % 128) := by
  rw [BitVec.getLsbD, Nat.testBit_eq_decide_div_mod_eq, decide_eq_decide]
  omega

theorem add_one_eq_ofNat (b : Byte) : b + 1#8 = BitVec.ofNat 8 ((b.toNat + 1) % 256) := by
  bv_omega

theorem sub_one_eq_ofNat (b : Byte) : b - 1#8 = BitVec.ofNat 8 ((b.toNat + 255) % 256) := by
  bv_omega

/-- A byte's signed value is its unsigned one, less 256 when the sign bit is set. -/
theorem byte_toInt_cases (b : Byte) :
    b.toNat < 128 ∧ b.toInt = b.toNat ∨ 128 ≤ b.toNat ∧ b.toInt = b.toNat - 256 := by
  rw [BitVec.toInt_eq_toNat_cond]
  omega

theorem xor_FF_toNat (m : Byte) : (m ^^^ 0xFF#8).toNat = 255 - m.toNat := by
  rw [show m ^^^ 0xFF#8 = ~~~m from BitVec.xor_allOnes, BitVec.toNat_not]

theorem xor_FF_toInt (m : Byte) : (m ^^^ 0xFF#8).toInt = -m.toInt - 1 := by
  have h := byte_toInt_cases (m ^^^ 0xFF#8)
  have hm := byte_toInt_cases m
  rw [xor_FF_toNat] at h
  omega

/-! ## The operands -/

/-- The effective address depends on no CPU register but the index registers. -/
theorem effAddr_withCpu (s : State) (m : MemMode) {g : Cpu → Cpu} (hx : (g s.cpu).x = s.cpu.x)
    (hy : (g s.cpu).y = s.cpu.y) : (effAddr (s.withCpu g) m).1 = (effAddr s m).1 := by
  cases m with
  | izx a => rw [effAddr_izx, effAddr_izx, withCpu_cpu, withCpu_bus, hx]
  | izy a => rw [effAddr_izy, effAddr_izy, withCpu_cpu, withCpu_bus, hy]
  | zp a | abs a => rfl
  | zpx a | abx a => simp only [effAddr, withCpu_cpu, hx]
  | zpy a | aby a => simp only [effAddr, withCpu_cpu, hy]

/-- Reading an operand depends on no CPU register but the index registers. -/
theorem readOperand_withCpu (s : State) (o : ReadOp) {g : Cpu → Cpu} (hx : (g s.cpu).x = s.cpu.x)
    (hy : (g s.cpu).y = s.cpu.y) :
    readOperand (s.withCpu g) o =
      ((readOperand s o).1, (readOperand s o).2.1, (readOperand s o).2.2.withCpu g) := by
  cases o with
  | imm v => rfl
  | mem m =>
    have hread := memRead_cpu s (g s.cpu) (effAddr s m).1.addr
    have hcpu := (memRead_effect s (effAddr s m).1.addr).cpu
    rw [readOperand_mem, readOperand_mem, effAddr_withCpu s m hx hy, State.withCpu, State.withCpu, hread, hcpu]

/-! ## ADC and SBC -/

theorem Cpu.addWithCarry_eq (p : Cpu) (m : Byte) :
    p.addWithCarry m =
      let sum := p.a.toNat + m.toNat + (if p.c then 1 else 0)
      let r := BitVec.ofNat 8 sum
      Cpu.zn { p with a := r, c := decide (255 < sum), v := (~~~(p.a ^^^ m) &&& (p.a ^^^ r)).getLsbD 7 } r := by
  have hc : p.c.toNat = if p.c then 1 else 0 := Bool.cond_eq_ite ..
  simp only [Cpu.zn_eq_setZN, ← hc]
  rfl

theorem Cpu.subWithBorrow_eq (p : Cpu) (m : Byte) :
    p.subWithBorrow m =
      let diff := p.a.toNat + (m ^^^ 0xFF#8).toNat + (if p.c then 1 else 0)
      let d := BitVec.ofNat 8 diff
      Cpu.zn { p with a := d, c := decide (255 < diff), v := ((p.a ^^^ m) &&& (p.a ^^^ d)).getLsbD 7 } d := by
  have hm : ~~~(p.a ^^^ (m ^^^ 0xFF#8)) = p.a ^^^ m := by
    rw [← BitVec.xor_assoc, ← BitVec.xor_allOnes, BitVec.xor_assoc]
    exact BitVec.xor_zero
  rw [Cpu.subWithBorrow, Cpu.addWithCarry_eq, hm]

/-- Settles O10: ADC and SBC are reading instructions, and their register functions are those of the rules. -/
theorem addAndSubtractSetAccumulatorAndFlags : Obligations.AddAndSubtractSetAccumulatorAndFlags := by
  refine ⟨fun b w => formsOf_of_map_eq rfl, fun s o => ⟨?_, ?_, readOperand_frame s o⟩⟩
  · dsimp only
    rw [← Cpu.addWithCarry_eq, ← readThen_eq_afterRead]
    rfl
  · dsimp only
    rw [← Cpu.subWithBorrow_eq, ← readThen_eq_afterRead]
    rfl

/-- `V` is read off three signs: those of the operands agree and that of the result differs (R190). -/
theorem adcOverflow_iff_signs (a m r : Byte) :
    adcOverflow a m r = true ↔ (128 ≤ a.toNat ↔ 128 ≤ m.toNat) ∧ ¬ (128 ≤ a.toNat ↔ 128 ≤ r.toNat) := by
  rw [adcOverflow, BitVec.getLsbD_and, BitVec.getLsbD_not, BitVec.getLsbD_xor, BitVec.getLsbD_xor, getLsbD_seven a,
    getLsbD_seven m, getLsbD_seven r]
  by_cases ha : 128 ≤ a.toNat <;> simp [ha]

/-- `V` says that the exact signed sum is no signed byte (R210). -/
theorem adcOverflow_iff (a m : Byte) (c : Bool) :
    adcOverflow a m (BitVec.ofNat 8 (adcSum a m c)) = true ↔
      a.toInt + m.toInt + c.toNat < -128 ∨ 127 < a.toInt + m.toInt + c.toNat := by
  rw [adcOverflow_iff_signs, BitVec.toNat_ofNat, adcSum]
  have hc := c.toNat_lt
  have ha := byte_toInt_cases a
  have hm := byte_toInt_cases m
  omega

/-- The sum is the result and its ninth bit, the carry (R190). -/
theorem Cpu.addWithCarry_exact (p : Cpu) (m : Byte) :
    (p.addWithCarry m).a.toNat + 256 * (p.addWithCarry m).c.toNat = p.a.toNat + m.toNat + p.c.toNat := by
  have ha : (p.addWithCarry m).a.toNat = adcSum p.a m p.c % 256 := BitVec.toNat_ofNat ..
  have hc : (p.addWithCarry m).c = decide (255 < adcSum p.a m p.c) := rfl
  have hp := p.c.toNat_lt
  rw [ha, hc, adcSum]
  by_cases h : 255 < p.a.toNat + m.toNat + p.c.toNat
  · rw [decide_eq_true h, Bool.toNat_true]
    omega
  · rw [decide_eq_false h, Bool.toNat_false]
    omega

theorem Cpu.addWithCarry_v_iff (p : Cpu) (m : Byte) :
    (p.addWithCarry m).v = true ↔
      p.a.toInt + m.toInt + p.c.toNat < -128 ∨ 127 < p.a.toInt + m.toInt + p.c.toNat :=
  adcOverflow_iff p.a m p.c

/-- The difference is the result with a borrow where the carry is clear (R191). -/
theorem Cpu.subWithBorrow_exact (p : Cpu) (m : Byte) :
    ((p.subWithBorrow m).a.toNat : Int) =
      p.a.toNat - m.toNat - (1 - p.c.toNat) + 256 * (1 - (p.subWithBorrow m).c.toNat) := by
  have h := p.addWithCarry_exact (m ^^^ 0xFF#8)
  rw [xor_FF_toNat] at h
  rw [Cpu.subWithBorrow]
  omega

theorem Cpu.subWithBorrow_v_iff (p : Cpu) (m : Byte) :
    (p.subWithBorrow m).v = true ↔
      p.a.toInt - m.toInt - (1 - p.c.toNat) < -128 ∨ 127 < p.a.toInt - m.toInt - (1 - p.c.toNat) := by
  rw [Cpu.subWithBorrow, Cpu.addWithCarry_v_iff, xor_FF_toInt]
  omega

/-- The decimal flag set to `d`, nothing else changed. -/
def Cpu.withD (d : Bool) (p : Cpu) : Cpu := { p with d := d }

/-- A reading instruction whose register function ignores `D` ignores `D`. -/
theorem readThen_withD (s : State) (o : ReadOp) (d : Bool) {f : Cpu → Byte → Cpu}
    (hf : ∀ p m, f (p.withD d) m = (f p m).withD d) :
    readThen (s.withCpu (Cpu.withD d)) o f = (readThen s o f).withCpu (Cpu.withD d) := by
  rw [readThen_eq, readThen_eq, readOperand_withCpu s o rfl rfl, withCpu_cpu, hf]
  rfl

/-- Settles O11: SBC adds the complement, which is `255 - m` and, signed, `-m - 1`. -/
theorem carryAndOverflowAreTheExactResults : Obligations.CarryAndOverflowAreTheExactResults := by
  refine ⟨fun p m => ⟨?_, ?_⟩, fun p m => ⟨?_, ?_⟩, fun s o d => ⟨⟨_, rfl, ?_⟩, ⟨_, rfl, ?_⟩⟩⟩
  · have h := p.addWithCarry_exact m
    cases hp : p.c <;> cases hq : (p.addWithCarry m).c <;> rw [hp, hq] at h <;> exact h
  · have h := p.addWithCarry_v_iff m
    cases hp : p.c <;> rw [hp] at h <;> exact h
  · have h := p.subWithBorrow_exact m
    cases hp : p.c <;> cases hq : (p.subWithBorrow m).c <;> rw [hp, hq] at h <;> exact h
  · have h := p.subWithBorrow_v_iff m
    cases hp : p.c <;> rw [hp] at h <;> exact h
  · exact congrArg _ (readThen_withD s o d fun _ _ => rfl)
  · exact congrArg _ (readThen_withD s o d fun _ _ => rfl)

/-! ## AND, ORA and EOR -/

/-- Settles O12: each is a reading instruction that sets the accumulator, `Z` and `N` by the bitwise result. -/
theorem logicSetsAccumulatorAndZN : Obligations.LogicSetsAccumulatorAndZN := by
  refine ⟨fun b w => formsOf_of_map_eq rfl, fun s o => ?_⟩
  simp only [Cpu.zn_eq_setZN]
  exact ⟨congrArg _ (readThen_eq_afterRead s o _), congrArg _ (readThen_eq_afterRead s o _),
    congrArg _ (readThen_eq_afterRead s o _), readOperand_frame s o⟩

/-! ## CMP, CPX, CPY and BIT -/

/-- The flags of a compare as an unsigned comparison and a difference modulo 256 (R195 to R197). -/
theorem Cpu.compare_eq (p : Cpu) (r m : Byte) :
    p.compare r m =
      { p with
        c := decide (m.toNat ≤ r.toNat)
        z := decide (r.toNat = m.toNat)
        n := decide (128 ≤ (r.toNat + 256 - m.toNat) % 256) } := by
  have hm := m.isLt
  have hsub : (r - m).toNat = (r.toNat + 256 - m.toNat) % 256 := by
    rw [BitVec.toNat_sub]
    omega
  simp only [Cpu.compare, getLsbD_seven, hsub, BitVec.toNat_inj]

/-- `N` and `V` of BIT are bits 7 and 6 of the memory byte (R198). -/
theorem Cpu.bitTest_eq (p : Cpu) (m : Byte) :
    p.bitTest m =
      { p with z := decide (p.a &&& m = 0x00#8), n := decide (128 ≤ m.toNat), v := decide (64 ≤ m.toNat % 128) } := by
  rw [Cpu.bitTest, getLsbD_seven, getLsbD_six]

/-- A compare of any register leaves the flags of `Cpu.compare` and what its operand read changes. -/
theorem readThen_compare (s : State) (o : ReadOp) (reg : Cpu → Byte) :
    readThen s o (fun p m => p.compare (reg p) m) =
      let r := reg s.cpu
      let m := (readOperand s o).1
      s.afterRead o { s.cpu with
        c := decide (m.toNat ≤ r.toNat)
        z := decide (r.toNat = m.toNat)
        n := decide (128 ≤ (r.toNat + 256 - m.toNat) % 256) } := by
  rw [readThen_eq_afterRead, Cpu.compare_eq]

/-- Settles O13: the three compares are one register function, of their register. -/
theorem comparesAndBitSetFlagsOnly : Obligations.ComparesAndBitSetFlagsOnly := by
  refine ⟨fun b w => formsOf_of_map_eq rfl, fun s => ⟨fun o i r h => ⟨?_, readOperand_frame s o⟩,
    fun m => ⟨?_, readOperand_frame s _⟩⟩⟩
  · obtain ⟨rfl, rfl⟩ | ⟨rfl, rfl⟩ | ⟨rfl, rfl⟩ := h
    · exact congrArg _ (readThen_compare s o Cpu.a)
    · exact congrArg _ (readThen_compare s o Cpu.x)
    · exact congrArg _ (readThen_compare s o Cpu.y)
  · rw [← Cpu.bitTest_eq, ← readThen_eq_afterRead]
    rfl

/-! ## Increments and decrements -/

/-- A modifying instruction is one read and one write at its effective address (20_memory.md R70). -/
theorem modify_eq_afterWrite (s : State) (m : MemMode) (f : Cpu → Byte → Byte × Cpu) :
    modify s m f =
      let ea := (effAddr s m).1.addr
      let r := f s.cpu (memRead s ea).1
      State.afterWrite { (memRead s ea).2 with cpu := r.2 } ea r.1 (rmwCycles m) := by
  rw [modify_eq, State.store_eq]

/-- Settles O14: INC and DEC modify one byte; the read is that of the bus, and `storesTo` bounds the write. -/
theorem incrementAndDecrementMemory : Obligations.IncrementAndDecrementMemory := by
  refine ⟨fun b w => formsOf_of_map_eq rfl, fun s m => ?_⟩
  have hread := memRead_effect s (effAddr s m).1.addr
  simp only [Cpu.zn_eq_setZN, ← add_one_eq_ofNat, ← sub_one_eq_ofNat]
  exact ⟨congrArg _ (modify_eq_afterWrite s m _), congrArg _ (modify_eq_afterWrite s m _), hread, hread.byte,
    fun v => memWrite_byte _ _ v⟩

/-- Settles O15: each is an implied instruction, and a byte's sum wraps. -/
theorem indexIncrementsAndDecrementsWrap : Obligations.IndexIncrementsAndDecrementsWrap := by
  refine ⟨formsOf_of_map_eq rfl, fun s => ?_⟩
  simp only [Cpu.zn_eq_setZN, ← add_one_eq_ofNat, ← sub_one_eq_ofNat]
  exact ⟨rfl, rfl, rfl, rfl⟩

end Sys2Proof.Machine

namespace Sys2Proof.Machine

/-! # Shifts and rotates (O16) -/

/-! ## One byte, as a number -/

theorem getLsbD_zero (b : Byte) : b.getLsbD 0 = decide (b.toNat % 2 = 1) := by
  rw [BitVec.getLsbD, Nat.testBit_zero]

theorem bitByte_toNat (c : Bool) : (bitByte c).toNat = if c then 1 else 0 := by
  cases c <;> rfl

theorem shiftLeft_one_toNat (v : Byte) : (v <<< 1).toNat = 2 ^ 1 * (v.toNat % 128) := by
  rw [BitVec.toNat_shiftLeft, Nat.shiftLeft_eq]
  omega

theorem ushiftRight_one_toNat (v : Byte) : (v >>> 1).toNat = v.toNat / 2 := by
  rw [BitVec.toNat_ushiftRight, Nat.shiftRight_eq_div_pow, Nat.pow_one]

/-- ASL doubles the byte; bit 7 goes to the carry (42_shift_rotate.md R220). -/
theorem shiftAsl_eq (c : Bool) (v : Byte) :
    shiftAsl c v = (decide (128 ≤ v.toNat), BitVec.ofNat 8 (2 * v.toNat % 256)) := by
  have hr : v <<< 1 = BitVec.ofNat 8 (2 * v.toNat % 256) := by
    apply BitVec.eq_of_toNat_eq
    rw [shiftLeft_one_toNat, BitVec.toNat_ofNat]
    omega
  rw [shiftAsl, getLsbD_seven, hr]

/-- LSR halves the byte; bit 0 goes to the carry (42_shift_rotate.md R221). -/
theorem shiftLsr_eq (c : Bool) (v : Byte) :
    shiftLsr c v = (decide (v.toNat % 2 = 1), BitVec.ofNat 8 (v.toNat / 2)) := by
  rw [shiftLsr, getLsbD_zero, ← ushiftRight_one_toNat, BitVec.ofNat_toNat, BitVec.setWidth_eq]

/-- The doubled byte is even, so the carry that enters at bit 0 is added to it (42_shift_rotate.md R222). -/
theorem shiftRol_eq (c : Bool) (v : Byte) :
    shiftRol c v = (decide (128 ≤ v.toNat), BitVec.ofNat 8 (2 * v.toNat % 256 + if c then 1 else 0)) := by
  have hr : (v <<< 1) ||| bitByte c = BitVec.ofNat 8 (2 * v.toNat % 256 + if c then 1 else 0) := by
    have hc : (bitByte c).toNat < 2 ^ 1 := by cases c <;> decide
    apply BitVec.eq_of_toNat_eq
    rw [BitVec.toNat_or, shiftLeft_one_toNat, ← Nat.two_pow_add_eq_or_of_lt hc, BitVec.toNat_ofNat, ← bitByte_toNat]
    omega
  rw [shiftRol, getLsbD_seven, hr]

/-- The halved byte is below 128, so the carry that enters at bit 7 is added to it (42_shift_rotate.md R223). -/
theorem shiftRor_eq (c : Bool) (v : Byte) :
    shiftRor c v = (decide (v.toNat % 2 = 1), BitVec.ofNat 8 (v.toNat / 2 + 128 * if c then 1 else 0)) := by
  have hr : (v >>> 1) ||| (bitByte c <<< 7) = BitVec.ofNat 8 (v.toNat / 2 + 128 * if c then 1 else 0) := by
    have hv : v.toNat / 2 < 2 ^ 7 := by omega
    have hc : (bitByte c <<< 7).toNat = 2 ^ 7 * if c then 1 else 0 := by cases c <;> rfl
    apply BitVec.eq_of_toNat_eq
    rw [BitVec.toNat_or, ushiftRight_one_toNat, hc, Nat.or_comm, ← Nat.two_pow_add_eq_or_of_lt hv, BitVec.toNat_ofNat]
    split <;> omega
  rw [shiftRor, getLsbD_zero, hr]

/-! ## The two operand kinds -/

theorem shiftThen_acc (s : State) (op : ShiftOp) :
    shiftThen s .acc op =
      let r := op s.cpu.c s.cpu.a
      { s with cpu := (Cpu.zn { s.cpu with a := r.2, c := r.1 } r.2).later 2 } := by
  simp only [Cpu.zn_eq_setZN]
  rfl

theorem shiftThen_mem (s : State) (m : MemMode) (op : ShiftOp) :
    shiftThen s (.mem m) op =
      let ea := (effAddr s m).1.addr
      let b := memRead s ea
      let r := op s.cpu.c b.1
      State.afterWrite { b.2 with cpu := Cpu.zn { s.cpu with c := r.1 } r.2 } ea r.2 (rmwCycles m) := by
  simp only [shiftThen, modify_eq_afterWrite, Cpu.zn_eq_setZN]

/-- Settles O16: each instruction is one shift of its operand, which is known as a number; the read is that of the bus, and
`storesTo` bounds the write. -/
theorem shiftsAndRotatesMoveOneBit : Obligations.ShiftsAndRotatesMoveOneBit := by
  refine ⟨fun b w => formsOf_of_map_eq rfl, fun s i f carry h => ?_⟩
  obtain ⟨op, hexec, hop⟩ : ∃ op : ShiftOp, (∀ o, exec (i o) s = .next (shiftThen s o op)) ∧
      ∀ v, op s.cpu.c v = (carry v, BitVec.ofNat 8 (f v.toNat)) := by
    obtain ⟨rfl, rfl, rfl⟩ | ⟨rfl, rfl, rfl⟩ | ⟨rfl, rfl, rfl⟩ | ⟨rfl, rfl, rfl⟩ := h
    · exact ⟨shiftAsl, fun _ => rfl, shiftAsl_eq _⟩
    · exact ⟨shiftLsr, fun _ => rfl, shiftLsr_eq _⟩
    · exact ⟨shiftRol, fun _ => rfl, shiftRol_eq _⟩
    · exact ⟨shiftRor, fun _ => rfl, shiftRor_eq _⟩
  refine ⟨?_, fun m => ?_⟩
  · rw [hexec, shiftThen_acc, hop]
  · have hread := memRead_effect s (effAddr s m).1.addr
    refine ⟨?_, hread, hread.byte, fun v => memWrite_byte _ _ v⟩
    simp only [hexec, shiftThen_mem, hop]

end Sys2Proof.Machine

namespace Sys2Proof.Machine

/-! # Control transfer (O17 to O19) -/

/-! ## Jumps -/

/-- The high byte of an indirect target wraps within the pointer's page (43_control_transfer.md R231). -/
theorem samePageNext_eq (ptr : Word) :
    samePageNext ptr = BitVec.ofNat 16 (ptr.toNat / 256 * 256 + (ptr.toNat + 1) % 256) := by
  apply BitVec.eq_of_toNat_eq
  rw [samePageNext, word_toNat, hi_eq, lo_eq, add_one_eq_ofNat]
  simp only [BitVec.toNat_ofNat]
  omega

/-- Settles O17: both forms end in a jump; the two reads of the indirect form do not touch the CPU registers. -/
theorem jumpsSetPcAlone : Obligations.JumpsSetPcAlone := by
  refine ⟨fun w => formsOf_of_map_eq rfl, fun s w => ⟨rfl, ?_⟩⟩
  rw [← samePageNext_eq]
  have hreads := (memRead_effect s w).trans (memRead_effect (memRead s w).2 (samePageNext w))
  refine ⟨?_, hreads, hreads.byte⟩
  dsimp only
  rw [← hreads.cpu, ← word_eq]
  rfl

/-! ## Subroutines -/

/-- The machine after JSR: the address of the instruction's last byte lies on the stack, high byte first
(43_control_transfer.md R232). -/
def State.called (s : State) (target : Word) : State :=
  let ret := s.cpu.pc - 1#16
  { s with
    bus := { s.bus with
      ram := (s.bus.ram.write (stackCell s.cpu.s) (BitVec.ofNat 8 (ret.toNat / 256))).write
        (stackCell (s.cpu.s - 1#8)) (BitVec.ofNat 8 (ret.toNat % 256)) }
    cpu := Cpu.later { s.cpu with s := s.cpu.s - 2#8, pc := target } 6 }

/-- The machine after RTS: one past the address pulled, low byte first (43_control_transfer.md R233). -/
def State.returned (s : State) : State :=
  let l := s.byte (.ram (stackCell (s.cpu.s + 1#8)))
  let h := s.byte (.ram (stackCell (s.cpu.s + 2#8)))
  { s with cpu := Cpu.later { s.cpu with s := s.cpu.s + 2#8, pc := BitVec.ofNat 16 (256 * h.toNat + l.toNat + 1) } 6 }

theorem exec_jsr (s : State) (target : Word) : exec (.jsr target) s = .next (s.called target) := by
  have hs : s.cpu.s - 1#8 - 1#8 = s.cpu.s - 2#8 := by bv_omega
  change Host.Outcome.next (((push16 s (s.cpu.pc - 1#16)).jump target).consume 6) = _
  rw [push16_eq, hi_eq, lo_eq, hs]
  rfl

theorem exec_rts (s : State) : exec .rts s = .next s.returned := by
  have hs : s.cpu.s + 1#8 + 1#8 = s.cpu.s + 2#8 := by bv_omega
  change Host.Outcome.next (((pull16 s).2.jump ((pull16 s).1 + 1#16)).consume 6) = _
  rw [pull16_eq, hs, word_eq, ← BitVec.ofNat_add]
  rfl

theorem Cpu.later_later (p : Cpu) (m n : Nat) : (p.later m).later n = p.later (m + n) := by
  rw [Cpu.later, Cpu.later, BitVec.add_assoc, ← BitVec.ofNat_add]
  rfl

theorem called_byte_high (s : State) (target : Word) :
    (s.called target).byte (.ram (stackCell s.cpu.s)) = hi (s.cpu.pc - 1#16) := by
  rw [hi_eq]
  exact (Mem.read_write_other _ _ (stackCell_ne (by bv_omega))).trans (Mem.read_write_same _ _ _)

theorem called_byte_low (s : State) (target : Word) :
    (s.called target).byte (.ram (stackCell (s.cpu.s - 1#8))) = lo (s.cpu.pc - 1#16) := by
  rw [lo_eq]
  exact Mem.read_write_same _ _ _

theorem called_byte_other (s : State) (target : Word) {l : Loc} (hhigh : l ≠ .ram (stackCell s.cpu.s))
    (hlow : l ≠ .ram (stackCell (s.cpu.s - 1#8))) : (s.called target).byte l = s.byte l := by
  cases l with
  | ram i =>
    exact (Mem.read_write_other _ _ fun h => hlow (congrArg _ h)).trans
      (Mem.read_write_other _ _ fun h => hhigh (congrArg _ h))
  | _ => rfl

/-- RTS finds the address JSR left: `S` is as before and `PC` is past the JSR again. -/
theorem called_returned_cpu (s : State) (target : Word) : (s.called target).returned.cpu = s.cpu.later 12 := by
  have hsp : s.cpu.s - 2#8 + 2#8 = s.cpu.s := by bv_omega
  have hlow : s.cpu.s - 2#8 + 1#8 = s.cpu.s - 1#8 := by bv_omega
  have hpc : BitVec.ofNat 16 (256 * (hi (s.cpu.pc - 1#16)).toNat + (lo (s.cpu.pc - 1#16)).toNat + 1) = s.cpu.pc := by
    rw [BitVec.ofNat_add, ← word_eq, word, hi, lo, word_hi_lo]
    exact BitVec.sub_add_cancel ..
  have hs : (s.called target).cpu.s = s.cpu.s - 2#8 := rfl
  simp only [State.returned, hs, hsp, hlow, called_byte_high, called_byte_low, hpc]
  exact Cpu.later_later s.cpu 6 6

theorem returned_byte (s : State) (l : Loc) : s.returned.byte l = s.byte l := by
  cases l <;> rfl

/-- Settles O18: RTS changes the CPU registers alone, so what a call and its return leave of storage is what JSR left. -/
theorem callAndReturnUseTheStack : Obligations.CallAndReturnUseTheStack := by
  refine ⟨fun _ => formsOf_of_map_eq rfl, fun s target => ⟨exec_jsr s target, exec_rts s, s.called target,
    (s.called target).returned, exec_jsr s target, exec_rts _, called_returned_cpu s target, fun l hhigh hlow => ?_, rfl⟩⟩
  rw [returned_byte, called_byte_other s target hhigh hlow]

/-! ## Branches -/

/-- A page is crossed between the target and the address after the branch (43_control_transfer.md R234). -/
theorem branchCycles_taken (pc target : Word) :
    branchCycles true pc target = if target.toNat / 256 = pc.toNat / 256 then 3 else 4 := by
  have hpage := hi_ne target pc
  rw [branchCycles, if_pos rfl]
  by_cases h : target.toNat / 256 = pc.toNat / 256
  · rw [if_pos h, decide_eq_false fun hne => hpage.mp hne h]
    rfl
  · rw [if_neg h, decide_eq_true (hpage.mpr h)]
    rfl

theorem branch_eq (s : State) (off : Byte) (taken : Bool) :
    branch s off taken =
      let target := BitVec.ofInt 16 (s.cpu.pc.toNat + off.toInt)
      { s with
        cpu :=
          if taken then
            Cpu.later { s.cpu with pc := target } (if target.toNat / 256 = s.cpu.pc.toNat / 256 then 3 else 4)
          else s.cpu.later 2 } := by
  rw [← branchTarget_eq]
  cases taken with
  | true =>
    dsimp only
    rw [← branchCycles_taken]
    rfl
  | false => rfl

/-- Settles O19: each branch is the common rule (43_control_transfer.md R234) on its condition. -/
theorem branchesTestOneFlag : Obligations.BranchesTestOneFlag := by
  refine ⟨fun b => formsOf_of_map_eq rfl, fun s off i cond h => ?_⟩
  have hexec : exec (i off) s = .next (branch s off cond) := by
    obtain ⟨rfl, rfl⟩ | ⟨rfl, rfl⟩ | ⟨rfl, rfl⟩ | ⟨rfl, rfl⟩ | ⟨rfl, rfl⟩ | ⟨rfl, rfl⟩ | ⟨rfl, rfl⟩ | ⟨rfl, rfl⟩ := h
    all_goals rfl
  rw [hexec, branch_eq]

end Sys2Proof.Machine

namespace Sys2Proof.Machine

/-! # Stack, flag and system instructions (O20, O22 to O24) -/

/-! ## Pushes and pulls -/

/-- A push instruction is one cell of page one and `S` one lower (44_stack_flag_system.md R260, R261). -/
theorem push_consume (s : State) (v : Byte) (n : Nat) :
    (push s v).consume n = { s with
      bus := { s.bus with ram := s.bus.ram.write (stackCell s.cpu.s) v }
      cpu := Cpu.later { s.cpu with s := s.cpu.s - 1#8 } n } := by
  rw [push_eq]
  rfl

/-- A pull instruction changes the CPU registers alone, by the byte above `S` (44_stack_flag_system.md R262, R263). -/
theorem pull_withCpu_consume (s : State) (f : Byte → Cpu → Cpu) (n : Nat) :
    ((pull s).2.withCpu (f (pull s).1)).consume n = { s with
      cpu := (f (s.byte (.ram (stackCell (s.cpu.s + 1#8)))) { s.cpu with s := s.cpu.s + 1#8 }).later n } := by
  rw [pull_eq]
  rfl

/-- Settles O20: PHA and PHP are one push of their byte, PLA and PLP one pull and a change of the CPU registers by it. -/
theorem pushesAndPullsMoveOneByte : Obligations.PushesAndPullsMoveOneByte := by
  refine ⟨formsOf_of_map_eq rfl, fun s => ⟨fun i v h => ?_, ?_, ?_⟩⟩
  · have hexec : exec i s = .next ((push s v).consume 3) := by
      obtain ⟨rfl, rfl⟩ | ⟨rfl, rfl⟩ := h
      all_goals rfl
    rw [hexec, push_consume]
  · rw [Cpu.zn_eq_setZN]
    exact congrArg Host.Outcome.next (pull_withCpu_consume s (fun b p => Cpu.setZN { p with a := b } b) 4)
  · exact congrArg Host.Outcome.next (pull_withCpu_consume s (fun b p => p.withStatus b) 4)

/-! ## Interrupt entry and return -/

/-- Settles O23: BRK takes the interrupt of the vector $FFFE, which lies in the cartridge, with the break bit set. -/
theorem breakEntersThroughTheIrqVector : Obligations.BreakEntersThroughTheIrqVector :=
  ⟨formsOf_of_map_eq rfl, fun s =>
    congrArg Host.Outcome.next (enter_eq s (s.cpu.pc + 1#16) true irqVector (by decide) (by decide))⟩

/-- Settles O24: RTI is the return from an interrupt. -/
theorem returnFromInterruptPullsStatusAndPc : Obligations.ReturnFromInterruptPullsStatusAndPc :=
  ⟨formsOf_of_map_eq rfl, fun s => congrArg Host.Outcome.next (returnFromInterrupt_eq s)⟩

/-! ## Flags -/

/-- Settles O22: each is an implied instruction whose register function writes its flag (NOP: none), which its meaning says. -/
theorem flagInstructionsWriteOneFlag : Obligations.FlagInstructionsWriteOneFlag :=
  ⟨formsOf_of_map_eq rfl, fun _ => ⟨rfl, rfl, rfl, rfl, rfl, rfl, rfl, rfl⟩⟩

end Sys2Proof.Machine

namespace Sys2Proof.Machine

/-! # Undefined opcodes (O25) -/

theorem encode_undefined {op : Byte} (h : op.toNat ∈ undefinedOpcodes) : encode (.undefined op) = [op] :=
  encode_of_opcode (i := .undefined op) (if_pos h)

/-- The first undefined opcode is recorded with its address (45_undefined_opcodes.md R290). -/
theorem raiseUnsupported_of_not_seen {s : State} (h : s.cpu.unsupportedSeen = false) (op : Byte) (addr : Word) :
    raiseUnsupported s op addr =
      { s with cpu := { s.cpu with unsupportedSeen := true, unsupportedOpcode := op, unsupportedAt := addr } } := by
  rw [raiseUnsupported, State.withCpu, h]
  rfl

/-- The diagnostic is sticky: a later undefined opcode changes nothing of it (45_undefined_opcodes.md R290). -/
theorem raiseUnsupported_of_seen {s : State} (h : s.cpu.unsupportedSeen = true) (op : Byte) (addr : Word) :
    raiseUnsupported s op addr = s := by
  rw [raiseUnsupported, State.withCpu, h]
  rfl

theorem exec_undefined (op : Byte) (s : State) :
    exec (.undefined op) s = .next ((raiseUnsupported s op (s.cpu.pc - 1#16)).consume 2) := rfl

/-- Settles O25: an undefined opcode is its own encoding, and its meaning is the diagnostic and 2 cycles. -/
theorem undefinedOpcodesSignalAndGoOn : Obligations.UndefinedOpcodesSignalAndGoOn := by
  refine ⟨fun op hop => formsOf_of_map_eq ?_, fun s op => ⟨fun h => ?_, fun h => ?_⟩⟩
  · simp only [List.map_cons, List.map_nil, encode_undefined hop]
    rfl
  · rw [exec_undefined, raiseUnsupported_of_not_seen h]
    rfl
  · rw [exec_undefined, raiseUnsupported_of_seen h]
    rfl

end Sys2Proof.Machine

namespace Sys2Proof.Machine

/-! # The mapper (O44 to O46) -/

/-- The number of the 8 KiB window of CPU space that holds a ROM address. -/
theorem prgWindow_eq {a : Nat} (h : 0x8000 ≤ a) (h' : a < 0x10000) :
    a / 8192 = if a < 0xA000 then 4 else if a < 0xC000 then 5 else if a < 0xE000 then 6 else 7 := by
  split_ifs <;> omega

/-- A CPU write to ROM addresses changes nothing but the mapper (46_mapper.md R302). -/
theorem memWrite_register (s : State) {a : Word} (d : Byte) (h : 0x8000 ≤ a.toNat) :
    memWrite s a d = { s with mapper := s.mapper.writeRegister s.cart a.toNat d } := by
  rw [memWrite, route_cartridge (by omega)]
  exact (if_neg (by omega)).trans (if_pos ⟨h, a.isLt⟩)

/-! ## The serial port of variant 1 (46_mapper.md R322, R323) -/

theorem memWrite_v1 {s : State} {m : Mapper1} (hv : s.mapper.variant = .v1 m) {a : Word} (d : Byte)
    (ha : 0x8000 ≤ a.toNat) : memWrite s a d = { s with mapper := s.mapper.write1 m a.toNat d } := by
  rw [memWrite_register s d ha, Mapper.writeRegister, hv]

theorem write1_reset (g : Mapper) (m : Mapper1) (a : Nat) {d : Byte} (hd : d.getLsbD 7 = true) :
    g.write1 m a d = { g with
      variant := .v1 { m with shift := 0#5, shiftCount := 0, control := m.control ||| 0x0C#5 } } := if_pos hd

/-- The bit a serial write adds to the shift register. -/
theorem serialBit_toNat (d : Byte) {k : Nat} (hk : k < 5) :
    ((d &&& 1#8).setWidth 5 <<< k).toNat = d.toNat % 2 * 2 ^ k := by
  have hbit : ((d &&& 1#8).setWidth 5).toNat = d.toNat % 2 := by
    rw [BitVec.toNat_setWidth, BitVec.toNat_and]
    change (d.toNat &&& 2 ^ 1 - 1) % 32 = d.toNat % 2
    rw [Nat.and_two_pow_sub_one_eq_mod]
    omega
  have hlt : d.toNat % 2 * 2 ^ k < 2 ^ 5 := by
    calc d.toNat % 2 * 2 ^ k ≤ 1 * 2 ^ k := Nat.mul_le_mul_right _ (by omega)
      _ = 2 ^ k := Nat.one_mul _
      _ < 2 ^ 5 := Nat.pow_lt_pow_right (by decide) hk
  rw [BitVec.toNat_shiftLeft, hbit, Nat.shiftLeft_eq, Nat.mod_eq_of_lt hlt]

theorem shift_or_serialBit (shift : BitVec 5) (d : Byte) {k : Nat} (hk : k < 5) :
    shift ||| ((d &&& 1#8).setWidth 5 <<< k) = BitVec.ofNat 5 (shift.toNat ||| d.toNat % 2 * 2 ^ k) := by
  rw [← serialBit_toNat d hk, ← BitVec.toNat_or, BitVec.ofNat_toNat, BitVec.setWidth_eq]

theorem write1_collect (g : Mapper) {m : Mapper1} (a : Nat) {d : Byte} (hd : d.getLsbD 7 = false)
    (hc : m.shiftCount < 4) :
    g.write1 m a d = { g with variant := .v1 { m with
      shift := BitVec.ofNat 5 (m.shift.toNat ||| d.toNat % 2 * 2 ^ m.shiftCount), shiftCount := m.shiftCount + 1 } } := by
  rw [Mapper.write1, if_neg (Bool.eq_false_iff.mp hd), shift_or_serialBit _ _ (by omega)]
  exact if_neg (by omega)

theorem write1_complete (g : Mapper) {m : Mapper1} (a : Nat) {d : Byte} (hd : d.getLsbD 7 = false)
    (hc : m.shiftCount = 4) :
    g.write1 m a d =
      let value := BitVec.ofNat 5 (m.shift.toNat ||| d.toNat % 2 * 2 ^ 4)
      { g with
        variant := .v1 (m.load a value)
        mirroring := if a / 8192 % 4 = 0 then mirroringOfControl value else g.mirroring } := by
  rw [Mapper.write1, if_neg (Bool.eq_false_iff.mp hd), shift_or_serialBit _ _ (by omega), hc]
  rfl

/-- The next bit goes above the bits collected, so that collecting is adding. -/
theorem collected_or_eq_add {x k : Nat} (hk : k < 5) (hx : x < 2 ^ k) (b : Nat) :
    (BitVec.ofNat 5 x).toNat ||| b * 2 ^ k = x + 2 ^ k * b := by
  have hx5 : x < 2 ^ 5 := hx.trans (Nat.pow_lt_pow_right (by decide) hk)
  rw [BitVec.toNat_ofNat, Nat.mod_eq_of_lt hx5, Nat.mul_comm b, Nat.or_comm, ← Nat.two_pow_add_eq_or_of_lt hx,
    Nat.add_comm]

/-- `s` with the registers `m` of variant 1, whose serial port has collected the `k` low bits `x`. -/
def State.collected (s : State) (m : Mapper1) (x k : Nat) : State :=
  { s with mapper := { s.mapper with variant := .v1 { m with shift := BitVec.ofNat 5 x, shiftCount := k } } }

theorem collected_of_empty {s : State} {m : Mapper1} (hv : s.mapper.variant = .v1 m) (hs : m.shift = 0#5)
    (hc : m.shiftCount = 0) : s = s.collected m 0 0 := by
  rw [State.collected, ← hs, ← hc, ← hv]

/-- A write below the fifth puts its bit above the bits collected. -/
theorem memWrite_collected (s : State) (m : Mapper1) {a : Word} {d : Byte} {x k : Nat} (ha : 0x8000 ≤ a.toNat)
    (hd : d.getLsbD 7 = false) (hk : k < 4) (hx : x < 2 ^ k) :
    memWrite (s.collected m x k) a d = s.collected m (x + 2 ^ k * (d.toNat % 2)) (k + 1) := by
  rw [memWrite_v1 rfl d ha, write1_collect _ _ hd hk, collected_or_eq_add (by omega) hx]
  rfl

/-- The register a complete sequence loads, by the address range of its last write. -/
theorem Mapper1.load_eq {m : Mapper1} (hs : m.shift = 0#5) (hc : m.shiftCount = 0) (x : BitVec 5) (k : Nat) {a : Nat}
    (h : 0x8000 ≤ a) (h' : a < 0x10000) (v : BitVec 5) :
    Mapper1.load { m with shift := x, shiftCount := k } a v =
      if a < 0xA000 then { m with control := v }
      else if a < 0xC000 then { m with chr0 := v }
      else if a < 0xE000 then { m with chr1 := v }
      else { m with prg := v } := by
  rw [Mapper1.load, prgWindow_eq h h', ← hs, ← hc]
  split_ifs <;> rfl

/-- The fifth bit loads the register of the last write's address range; the mirroring follows `control`. -/
theorem memWrite_collected_four {s : State} {m : Mapper1} (hs : m.shift = 0#5) (hc : m.shiftCount = 0) {a : Word} {d : Byte}
    {x : Nat} (ha : 0x8000 ≤ a.toNat) (hd : d.getLsbD 7 = false) (hx : x < 2 ^ 4) :
    memWrite (s.collected m x 4) a d =
      let value := BitVec.ofNat 5 (x + 2 ^ 4 * (d.toNat % 2))
      { s with mapper := { s.mapper with
        variant := .v1
          (if a.toNat < 0xA000 then { m with control := value }
            else if a.toNat < 0xC000 then { m with chr0 := value }
            else if a.toNat < 0xE000 then { m with chr1 := value }
            else { m with prg := value })
        mirroring := if a.toNat < 0xA000 then mirroringOfControl value else s.mapper.mirroring } } := by
  have hfirst : a.toNat / 8192 % 4 = 0 ↔ a.toNat < 0xA000 := by omega
  rw [memWrite_v1 rfl d ha, write1_complete _ _ hd rfl, collected_or_eq_add (by decide) hx]
  simp only [State.collected, Mapper1.load_eq hs hc _ _ ha a.isLt, hfirst]

/-- The two bits of `control` that choose the mirroring (46_mapper.md R323). -/
theorem mirroringBits_toNat (v : BitVec 5) : (v &&& 3#5).toNat = v.toNat % 4 :=
  Nat.and_two_pow_sub_one_eq_mod v.toNat 2

/-- Settles O44: the writes below the fifth add their bits to the port from the low one up, and the fifth loads the sum. -/
theorem serialPortLoadsFiveBits : Obligations.SerialPortLoadsFiveBits := by
  refine ⟨fun s m a d hv ha => ⟨fun hd => ?_, fun hd hc => ?_⟩, fun s m a0 a1 a2 a3 a4 d0 d1 d2 d3 d4 hv hs hc ha hd => ?_⟩
  · rw [memWrite_v1 hv d ha, write1_reset _ _ _ hd]
  · rw [memWrite_v1 hv d ha, write1_collect _ _ hd hc]
  · simp only [List.forall_mem_cons, List.not_mem_nil, false_imp_iff, implies_true, and_true] at ha hd
    obtain ⟨ha0, ha1, ha2, ha3, ha4⟩ := ha
    obtain ⟨hd0, hd1, hd2, hd3, hd4⟩ := hd
    have hvalue : 0 + 2 ^ 0 * (d0.toNat % 2) + 2 ^ 1 * (d1.toNat % 2) + 2 ^ 2 * (d2.toNat % 2) + 2 ^ 3 * (d3.toNat % 2) +
        2 ^ 4 * (d4.toNat % 2) =
          d0.toNat % 2 + 2 * (d1.toNat % 2) + 4 * (d2.toNat % 2) + 8 * (d3.toNat % 2) + 16 * (d4.toNat % 2) := by omega
    intro value
    conv_lhs => rw [collected_of_empty hv hs hc]
    rw [memWrite_collected s m ha0 hd0 (by omega) (by omega), memWrite_collected s m ha1 hd1 (by omega) (by omega),
      memWrite_collected s m ha2 hd2 (by omega) (by omega), memWrite_collected s m ha3 hd3 (by omega) (by omega),
      memWrite_collected_four hs hc ha4 hd4 (by omega), hvalue]
    simp only [mirroringOfControl, mirroringBits_toNat]
    rfl

/-! ## The registers and the counter of variant 4 (46_mapper.md R332 to R342) -/

/-- Writing a bank register by its number, entry by entry. -/
theorem bankRegisters_set (r : Vector Byte 8) (select d : Byte) :
    r.setIfInBounds (select &&& 7#8).toNat d =
      Vector.ofFn fun i => if i.val = select.toNat % 8 then d else r[i] := by
  have hmask : (select &&& 7#8).toNat = select.toNat % 8 := Nat.and_two_pow_sub_one_eq_mod select.toNat 3
  ext i hi
  simp [hmask, Vector.getElem_setIfInBounds, eq_comm]

theorem mirroring_of_bit_zero (d : Byte) :
    (if d.getLsbD 0 then Mirroring.horizontal else .vertical) = if d.toNat % 2 = 0 then .vertical else .horizontal := by
  rw [getLsbD_zero]
  obtain h | h := Nat.mod_two_eq_zero_or_one d.toNat <;> rw [h] <;> rfl

theorem memWrite_v4 {s : State} {m : Mapper4} (hv : s.mapper.variant = .v4 m) {a : Word} (d : Byte)
    (ha : 0x8000 ≤ a.toNat) : memWrite s a d = { s with mapper := s.mapper.write4 s.cart m a.toNat d } := by
  rw [memWrite_register s d ha, Mapper.writeRegister, hv]

theorem clockCounter_eq (m : Mapper4) :
    m.clockCounter = { m with
      irqCounter :=
        if m.irqCounter = 0x00#8 ∨ m.irqReload = true then m.irqLatch else BitVec.ofNat 8 (m.irqCounter.toNat - 1)
      irqReload := false } := by
  rw [Mapper4.clockCounter]
  split_ifs with h
  · rfl
  · obtain ⟨hc, hr⟩ := not_or.mp h
    have hsub : m.irqCounter - 1#8 = BitVec.ofNat 8 (m.irqCounter.toNat - 1) := by bv_omega
    rw [hsub, ← Bool.eq_false_of_not_eq_true hr]

theorem observe_v4 {g : Mapper} {m : Mapper4} (hv : g.variant = .v4 m) (a : Nat) :
    g.observe a =
      if decide (a / 4096 % 2 = 1) = true ∧ m.a12Prev = false then
        { g with
          variant := .v4 { m.clockCounter with a12Prev := true }
          irqFlag := g.irqFlag || (decide (m.clockCounter.irqCounter = 0x00#8) && m.clockCounter.irqEnabled) }
      else { g with variant := .v4 { m with a12Prev := decide (a / 4096 % 2 = 1) } } := by
  rw [Mapper.observe, hv]
  by_cases ha : a / 4096 % 2 = 1 <;> by_cases hp : m.a12Prev <;> simp [ha, hp]

/-- Settles O45: the eight registers in turn, and the counter's clock on a rising edge. -/
theorem mapper4RegistersAndCounter : Obligations.Mapper4RegistersAndCounter := by
  refine ⟨fun s m a d hv ha => ?_, fun g m a hv => ?_⟩
  · rw [memWrite_v4 hv d ha, Mapper.write4, prgWindow_eq ha a.isLt, bankRegisters_set, mirroring_of_bit_zero]
    dsimp only
    obtain hp | hp := Nat.mod_two_eq_zero_or_one a.toNat
    · simp only [hp, if_true]
      split_ifs <;> rfl
    · simp only [hp, one_ne_zero, if_false]
      split_ifs <;> rfl
  · rw [observe_v4 hv, clockCounter_eq]


/-! ## The bank windows (46_mapper.md R306, R312, R324, R325, R345, R346) -/

/-- The number of bytes of pattern memory: CHR RAM on a cartridge without CHR ROM. -/
def Cart.chrBytes (c : Cart) : Nat := if c.chrBanks = 0x00#8 then 8192 else 8192 * c.chrBanks.toNat

theorem chrUnits_eq (c : Cart) (unit : Nat) : c.chrUnits unit = c.chrBytes / unit :=
  (apply_ite (· / unit) _ _ _).symm

/-- Pattern memory is a positive number of 8 KiB banks. -/
theorem chrBytes_eq_mul (c : Cart) : ∃ k, 0 < k ∧ c.chrBytes = 8192 * k := by
  rw [Cart.chrBytes]
  split_ifs with h
  · exact ⟨1, by decide, rfl⟩
  · exact ⟨c.chrBanks.toNat, by bv_omega, rfl⟩

/-- The checks of load leave no cartridge without PRG ROM (46_mapper.md R305). -/
theorem prgBanks_pos {id prg chr : Byte} (h : mapperChecks id prg chr = some true) : 0 < prg.toNat := by
  unfold mapperChecks at h
  split at h
  · exact (of_decide_eq_true (Option.some.inj h)).1
  · exact (of_decide_eq_true (Option.some.inj h)).1
  · exact (of_decide_eq_true (Option.some.inj h)).1
  · cases h

theorem mapRead_cpu_prgRom (g : Mapper) (c : Cart) {a : Nat} (h : 0x8000 ≤ a) (h' : a < 0x10000) :
    mapRead g c a .cpu = (.prgRom, g.variant.prgOffset c a) :=
  (if_neg (by omega)).trans (if_pos ⟨h, h'⟩)

theorem mapRead_cpu_unmapped (g : Mapper) (c : Cart) {a : Nat} (h : a < 0x6000 ∨ 0x10000 ≤ a) :
    mapRead g c a .cpu = (.unmapped, 0) :=
  (if_neg (by omega)).trans (if_neg (by omega))

/-! ### Offsets lie inside their arrays -/

theorem prgOffset_lt (v : Variant) {c : Cart} (hn : 0 < c.prgBanks.toNat) (a : Nat) :
    v.prgOffset c a < 16384 * c.prgBanks.toNat := by
  cases v with
  | v0 => exact Nat.mod_lt _ (Nat.mul_pos (by decide) hn)
  | v1 m =>
    rw [Nat.mul_comm]
    exact bank_offset_lt _ a hn (by decide)
  | v4 m =>
    calc m.prgOffset c.prgBanks.toNat a < 2 * c.prgBanks.toNat * 8192 := bank_offset_lt _ a (by omega) (by decide)
      _ = 16384 * c.prgBanks.toNat := by omega

theorem chrOffset_lt (v : Variant) (c : Cart) {a : Nat} (ha : a < 0x2000) : v.chrOffset c a < c.chrBytes := by
  obtain ⟨k, hk, hbytes⟩ := chrBytes_eq_mul c
  cases v with
  | v0 => exact ha.trans_le (by omega)
  | v1 m =>
    calc m.chrOffset (c.chrUnits 4096) a < c.chrUnits 4096 * 4096 :=
          bank_offset_lt _ a (by rw [chrUnits_eq]; omega) (by decide)
      _ = c.chrBytes := by rw [chrUnits_eq]; omega
  | v4 m =>
    calc m.chrOffset (c.chrUnits 1024) a < c.chrUnits 1024 * 1024 :=
          bank_offset_lt _ a (by rw [chrUnits_eq]; omega) (by decide)
      _ = c.chrBytes := by rw [chrUnits_eq]; omega

/-! ### The windows of variant 1 -/

/-- A bank number without its low bit. -/
theorem clearBitZero_toNat (v : BitVec 5) : (v &&& 0x1E#5).toNat = v.toNat / 2 * 2 := by
  revert v
  decide

theorem prgBankPair_toNat (v : BitVec 5) : (v &&& 0x0E#5).toNat = v.toNat % 16 / 2 * 2 := by
  revert v
  decide

theorem prgMode_toNat (v : BitVec 5) : ((v >>> 2) &&& 3#5).toNat = v.toNat / 4 % 4 := by
  revert v
  decide

theorem chrMode_eq (v : BitVec 5) : v.getLsbD 4 = decide (v.toNat / 16 = 1) := by
  revert v
  decide

theorem Mapper1.prgOffset_eq (m : Mapper1) (n a : Nat) :
    m.prgOffset n a =
      (if m.control.toNat / 4 % 4 = 2 then (if a < 0xC000 then 0 else m.prg.toNat % 16)
        else if m.control.toNat / 4 % 4 = 3 then (if a < 0xC000 then m.prg.toNat % 16 else n - 1)
        else (if a < 0xC000 then m.prg.toNat % 16 / 2 * 2 else m.prg.toNat % 16 / 2 * 2 + 1)) % n * 16384 +
        a % 16384 := by
  have hbank : (m.prg &&& 0x0F#5).toNat = m.prg.toNat % 16 := Nat.and_two_pow_sub_one_eq_mod m.prg.toNat 4
  have hmode : m.control.toNat / 4 % 4 < 4 := Nat.mod_lt _ (by decide)
  rw [Mapper1.prgOffset, hbank, prgBankPair_toNat, prgMode_toNat]
  interval_cases m.control.toNat / 4 % 4
  · simp only [Nat.reduceEqDiff, if_false]
    split_ifs <;> rfl
  · simp only [Nat.reduceEqDiff, if_false]
    split_ifs <;> rfl
  · rfl
  · rfl

theorem Mapper1.chrOffset_eq (m : Mapper1) (units a : Nat) :
    m.chrOffset units a =
      (if m.control.toNat / 16 = 1 then (if a < 0x1000 then m.chr0.toNat else m.chr1.toNat)
        else (if a < 0x1000 then m.chr0.toNat / 2 * 2 else m.chr0.toNat / 2 * 2 + 1)) % units * 4096 + a % 4096 := by
  simp only [Mapper1.chrOffset, clearBitZero_toNat, chrMode_eq, decide_eq_true_eq]
  split_ifs <;> rfl

/-! ### The windows of variant 4 -/

theorem swapPrg_eq (select : Byte) : select.getLsbD 6 = decide (select.toNat / 64 % 2 = 1) := by
  rw [getLsbD_six, decide_eq_decide]
  omega

theorem swapChr_eq (select : Byte) : select.getLsbD 7 = decide (select.toNat / 128 = 1) := by
  rw [getLsbD_seven, decide_eq_decide]
  omega

theorem Mapper4.prgOffset_eq (m : Mapper4) (n : Nat) {a : Nat} (h : 0x8000 ≤ a) (h' : a < 0x10000) :
    m.prgOffset n a =
      (if a < 0xA000 then (if m.bankSelect.toNat / 64 % 2 = 1 then 2 * n - 2 else m.r[6].toNat)
        else if a < 0xC000 then m.r[7].toNat
        else if a < 0xE000 then (if m.bankSelect.toNat / 64 % 2 = 1 then m.r[6].toNat else 2 * n - 2)
        else 2 * n - 1) % (2 * n) * 8192 + a % 8192 := by
  simp only [Mapper4.prgOffset, prgWindow_eq h h', swapPrg_eq, decide_eq_true_eq]
  split_ifs <;> rfl

/-- Two 2 KiB windows, then four of 1 KiB. -/
theorem Mapper4.chrBank_eq (m : Mapper4) {w : Nat} (h : w < 8) :
    m.chrBank w = if w < 4 then m.bank (w / 2) / 2 * 2 + w % 2 else m.bank (w - 2) := by
  interval_cases w <;> rfl

/-- Inverting address bit 12 exchanges the halves of pattern space. -/
theorem xor_bit_twelve {a : Nat} (h : a < 0x2000) : a ^^^ 0x1000 = (a + 4096) % 8192 := by
  have hlow : (a ^^^ 0x1000) % 2 ^ 12 = a % 2 ^ 12 ^^^ 0 := Nat.xor_mod_two_pow
  have hhigh : (a ^^^ 0x1000) / 2 ^ 12 = a / 2 ^ 12 ^^^ 1 := Nat.xor_div_two_pow
  rw [Nat.xor_zero] at hlow
  obtain hhalf | hhalf : a / 2 ^ 12 = 0 ∨ a / 2 ^ 12 = 1 := by omega
  · rw [hhalf, Nat.zero_xor] at hhigh
    omega
  · rw [hhalf, Nat.xor_self] at hhigh
    omega

theorem Mapper4.chrOffset_eq (m : Mapper4) (units : Nat) {a : Nat} (h : a < 0x2000) :
    m.chrOffset units a =
      (let slot := (if m.bankSelect.toNat / 128 = 1 then (a + 4096) % 8192 else a) / 1024
        if slot < 4 then m.bank (slot / 2) / 2 * 2 + slot % 2 else m.bank (slot - 2)) % units * 1024 + a % 1024 := by
  simp only [Mapper4.chrOffset, swapChr_eq, decide_eq_true_eq, xor_bit_twelve h]
  rw [Mapper4.chrBank_eq m (by split_ifs <;> omega)]

/-- Settles O46: where each window resolves, and `bank_offset_lt` for the bound of each variant's offset. -/
theorem bankWindowsStayInsideTheCartridge : Obligations.BankWindowsStayInsideTheCartridge := by
  intro g c _ hchecks a n chr
  refine ⟨mapRead_cpu_unmapped g c, fun h h' => if_pos ⟨h, h'⟩, fun h h' => ?_, fun h => ?_, fun h => if_neg (by omega)⟩
  · refine ⟨_, mapRead_cpu_prgRom g c h h', prgOffset_lt _ (prgBanks_pos hchecks) a, fun hv => ?_, fun m hv => ?_,
      fun m hv => ?_⟩
    · rw [hv]; rfl
    · rw [hv]; exact m.prgOffset_eq n a
    · rw [hv]; exact m.prgOffset_eq n h h'
  · refine ⟨g.variant.chrOffset c a, if_pos h, chrOffset_lt _ c h, fun hv => ?_, fun m hv => ?_, fun m hv => ?_⟩
    · rw [hv]; rfl
    · rw [hv, Variant.chrOffset, chrUnits_eq]; exact m.chrOffset_eq _ a
    · rw [hv, Variant.chrOffset, chrUnits_eq]; exact m.chrOffset_eq _ h

end Sys2Proof.Machine

namespace Sys2Proof.Machine

/-! # The scroll registers of the PPU (O43) -/

/-! ## Fields of bits as numbers -/

/-- A field of `k` bits from bit `m` on, cleared by the mask and set to `x`. -/
theorem setField_eq {w : Nat} (t : BitVec w) {mask field : BitVec w} (m k : Nat) {x : Nat}
    (hmask : mask = ~~~(BitVec.ofNat w (2 ^ k - 1) <<< m)) (hfield : field.toNat = x * 2 ^ m) (hx : x < 2 ^ k) :
    (t &&& mask) ||| field =
      BitVec.ofNat w (t.toNat / 2 ^ (m + k) * 2 ^ (m + k) + x * 2 ^ m + t.toNat % 2 ^ m) := by
  have hsum : t.toNat / 2 ^ (m + k) * 2 ^ (m + k) + x * 2 ^ m + t.toNat % 2 ^ m =
      2 ^ m * (2 ^ k * (t.toNat / 2 ^ (m + k)) + x) + t.toNat % 2 ^ m := by ring
  have hlow : t.toNat % 2 ^ m < 2 ^ m := Nat.mod_lt _ (Nat.two_pow_pos m)
  apply BitVec.eq_of_getLsbD_eq
  intro i hi
  simp only [hmask, hsum, BitVec.getLsbD_or, BitVec.getLsbD_and, BitVec.getLsbD_not, BitVec.getLsbD_shiftLeft,
    BitVec.getLsbD_ofNat, ← BitVec.testBit_toNat field, hfield, Nat.testBit_two_pow_mul_add _ hlow,
    Nat.testBit_two_pow_mul_add _ hx, Nat.testBit_mul_two_pow, Nat.testBit_two_pow_sub_one, Nat.testBit_mod_two_pow,
    Nat.testBit_div_two_pow, BitVec.testBit_toNat, hi]
  obtain hbelow | hin | habove : i < m ∨ (m ≤ i ∧ i - m < k) ∨ (m + k ≤ i) := by omega
  · simp [hbelow, Nat.not_le.mpr hbelow]
  · simp [hin, Nat.not_lt.mpr hin.1, show i - m < w by omega]
  · have hshift : i - m - k + (m + k) = i := by omega
    have hclear : x.testBit (i - m) = false :=
      Nat.testBit_eq_false_of_lt (hx.trans_le (Nat.pow_le_pow_right (by decide) (by omega)))
    simp [hclear, hshift, show ¬ i < m by omega, show ¬ i - m < k by omega]

/-- The low `k` bits. -/
theorem and_lowMask_toNat {w : Nat} (b : BitVec w) {mask : BitVec w} (k : Nat) (hmask : mask.toNat = 2 ^ k - 1) :
    (b &&& mask).toNat = b.toNat % 2 ^ k := by
  rw [BitVec.toNat_and, hmask, Nat.and_two_pow_sub_one_eq_mod]

theorem ofNat_toNat_add {n : Nat} (v : BitVec n) (k : Nat) : v + BitVec.ofNat n k = BitVec.ofNat n (v.toNat + k) := by
  rw [BitVec.ofNat_add, BitVec.ofNat_toNat, BitVec.setWidth_eq]

/-! ## The fields of a scroll register (47_ppu.md R390) -/

theorem append_toNat {m n : Nat} (a : BitVec m) (b : BitVec n) : (a ++ b).toNat = a.toNat * 2 ^ n + b.toNat := by
  rw [BitVec.toNat_append, ← Nat.shiftLeft_add_eq_or_of_lt b.isLt, Nat.shiftLeft_eq]

/-- A scroll register of its fields: fine Y, vertical and horizontal nametable, coarse Y, coarse X (47_ppu.md R390). -/
def scrollWord (fineY : BitVec 3) (ntY ntX : BitVec 1) (coarseY coarseX : BitVec 5) : BitVec 15 :=
  fineY ++ ntY ++ ntX ++ coarseY ++ coarseX

theorem exists_scrollWord (v : BitVec 15) : ∃ fineY ntY ntX coarseY coarseX, v = scrollWord fineY ntY ntX coarseY coarseX :=
  ⟨v.extractLsb' 12 3, v.extractLsb' 11 1, v.extractLsb' 10 1, v.extractLsb' 5 5, v.extractLsb' 0 5, by
    apply BitVec.eq_of_toNat_eq
    simp only [scrollWord, append_toNat, BitVec.extractLsb'_toNat, Nat.shiftRight_eq_div_pow]
    omega⟩

section ScrollWord

variable (fineY fineY' : BitVec 3) (ntY ntY' ntX ntX' : BitVec 1) (coarseY coarseY' coarseX coarseX' : BitVec 5)

theorem scrollWord_toNat :
    (scrollWord fineY ntY ntX coarseY coarseX).toNat =
      4096 * fineY.toNat + 2048 * ntY.toNat + 1024 * ntX.toNat + 32 * coarseY.toNat + coarseX.toNat := by
  simp only [scrollWord, append_toNat]
  omega

theorem scrollWord_eq_ofNat :
    scrollWord fineY ntY ntX coarseY coarseX =
      BitVec.ofNat 15
        (4096 * fineY.toNat + 2048 * ntY.toNat + 1024 * ntX.toNat + 32 * coarseY.toNat + coarseX.toNat) := by
  rw [← scrollWord_toNat, BitVec.ofNat_toNat, BitVec.setWidth_eq]

theorem scrollWord_and :
    scrollWord fineY ntY ntX coarseY coarseX &&& scrollWord fineY' ntY' ntX' coarseY' coarseX' =
      scrollWord (fineY &&& fineY') (ntY &&& ntY') (ntX &&& ntX') (coarseY &&& coarseY') (coarseX &&& coarseX') := by
  simp only [scrollWord, ← BitVec.and_append]

theorem scrollWord_or :
    scrollWord fineY ntY ntX coarseY coarseX ||| scrollWord fineY' ntY' ntX' coarseY' coarseX' =
      scrollWord (fineY ||| fineY') (ntY ||| ntY') (ntX ||| ntX') (coarseY ||| coarseY') (coarseX ||| coarseX') := by
  simp only [scrollWord, ← BitVec.or_append]

theorem scrollWord_xor :
    scrollWord fineY ntY ntX coarseY coarseX ^^^ scrollWord fineY' ntY' ntX' coarseY' coarseX' =
      scrollWord (fineY ^^^ fineY') (ntY ^^^ ntY') (ntX ^^^ ntX') (coarseY ^^^ coarseY') (coarseX ^^^ coarseX') := by
  simp only [scrollWord, ← BitVec.xor_append]

end ScrollWord

/-! ## The counters and the copies (47_ppu.md R391 to R393) -/

theorem and_001F_toNat (v : BitVec 15) : (v &&& 0x001F#15).toNat = v.toNat % 32 := and_lowMask_toNat v 5 rfl

theorem flipBit_toNat (b : BitVec 1) : (b ^^^ 1#1).toNat = 1 - b.toNat := by
  revert b
  decide

/-- Coarse X at its end: it is cleared and the horizontal nametable is the other one. -/
theorem wrapX_eq (v : BitVec 15) :
    (v &&& 0x7FE0#15) ^^^ 0x0400#15 =
      BitVec.ofNat 15 (v.toNat / 2048 * 2048 + (1 - v.toNat / 1024 % 2) * 1024 + v.toNat / 32 % 32 * 32) := by
  obtain ⟨fineY, ntY, ntX, coarseY, coarseX, rfl⟩ := exists_scrollWord v
  rw [show 0x7FE0#15 = scrollWord (.allOnes 3) (.allOnes 1) (.allOnes 1) (.allOnes 5) 0#5 from rfl,
    show 0x0400#15 = scrollWord 0#3 0#1 1#1 0#5 0#5 from rfl, scrollWord_and, scrollWord_xor]
  simp only [BitVec.and_zero, BitVec.and_allOnes, BitVec.xor_zero, scrollWord_eq_ofNat _ _ (_ ^^^ _), scrollWord_toNat,
    flipBit_toNat, BitVec.toNat_zero]
  congr 1
  omega

/-- Each half of a copy keeps its own fields: coarse X and the horizontal nametable of `t`, the others of `v`. -/
theorem copyFields_eq (v t : BitVec 15) :
    (v &&& 0x7BE0#15) ||| (t &&& 0x041F#15) =
      BitVec.ofNat 15
        (v.toNat / 2048 * 2048 + t.toNat / 1024 % 2 * 1024 + v.toNat / 32 % 32 * 32 + t.toNat % 32) := by
  obtain ⟨fineY, ntY, ntX, coarseY, coarseX, rfl⟩ := exists_scrollWord v
  obtain ⟨fineY', ntY', ntX', coarseY', coarseX', rfl⟩ := exists_scrollWord t
  rw [show 0x7BE0#15 = scrollWord (.allOnes 3) (.allOnes 1) 0#1 (.allOnes 5) 0#5 from rfl,
    show 0x041F#15 = scrollWord 0#3 0#1 (.allOnes 1) 0#5 (.allOnes 5) from rfl, scrollWord_and, scrollWord_and,
    scrollWord_or]
  simp only [BitVec.and_zero, BitVec.and_allOnes, BitVec.or_zero, BitVec.zero_or]
  rw [scrollWord_eq_ofNat, scrollWord_toNat, scrollWord_toNat]
  congr 1
  omega

theorem and_0FFF_toNat (v : BitVec 15) : (v &&& 0x0FFF#15).toNat = v.toNat % 4096 := and_lowMask_toNat v 12 rfl

theorem coarseY_toNat (v : BitVec 15) : ((v >>> 5) &&& 31#15).toNat = v.toNat / 32 % 32 := by
  rw [and_001F_toNat, BitVec.toNat_ushiftRight, Nat.shiftRight_eq_div_pow]

/-- Fine Y has not reached its end. -/
theorem fineY_ne_seven_iff (v : BitVec 15) : v &&& 0x7000#15 ≠ 0x7000#15 ↔ v.toNat / 4096 < 7 := by
  obtain ⟨fineY, ntY, ntX, coarseY, coarseX, rfl⟩ := exists_scrollWord v
  rw [show 0x7000#15 = scrollWord (.allOnes 3) 0#1 0#1 0#5 0#5 from rfl, scrollWord_and]
  simp only [BitVec.and_zero, BitVec.and_allOnes, ne_eq, ← BitVec.toNat_inj, scrollWord_toNat, BitVec.toNat_zero,
    BitVec.toNat_allOnes]
  omega

theorem flipVertical_toNat (v : BitVec 15) :
    (v ^^^ 0x0800#15).toNat = v.toNat / 4096 * 4096 + (1 - v.toNat / 2048 % 2) * 2048 + v.toNat % 2048 := by
  obtain ⟨fineY, ntY, ntX, coarseY, coarseX, rfl⟩ := exists_scrollWord v
  rw [show 0x0800#15 = scrollWord 0#3 1#1 0#1 0#5 0#5 from rfl, scrollWord_xor]
  simp only [BitVec.xor_zero, scrollWord_toNat, flipBit_toNat]
  omega

/-- Coarse Y set to `y`. -/
theorem setCoarseY_eq (t : BitVec 15) {y : BitVec 15} (hy : y.toNat < 32) :
    (t &&& 0x7C1F#15) ||| (y <<< 5) = BitVec.ofNat 15 (t.toNat / 1024 * 1024 + y.toNat * 32 + t.toNat % 32) := by
  have hfield : (y <<< 5).toNat = y.toNat * 2 ^ 5 := by
    rw [BitVec.toNat_shiftLeft, Nat.shiftLeft_eq]
    omega
  exact setField_eq t 5 5 rfl hfield hy

/-- The PPU with `n`, modulo 2 to the 15, in `v`. -/
def Ppu.withV (p : Ppu) (n : Nat) : Ppu := { p with v := BitVec.ofNat 15 n }

theorem incX_eq (p : Ppu) :
    p.incX = p.withV (if p.v.toNat % 32 = 31 then
        p.v.toNat / 2048 * 2048 + (1 - p.v.toNat / 1024 % 2) * 1024 + p.v.toNat / 32 % 32 * 32
      else p.v.toNat + 1) := by
  have hend : p.v &&& 0x001F#15 = 31#15 ↔ p.v.toNat % 32 = 31 := by rw [← BitVec.toNat_inj, and_001F_toNat]; rfl
  simp only [Ppu.incX, Ppu.withV, hend, wrapX_eq, ofNat_toNat_add, apply_ite (BitVec.ofNat 15)]

/-- The carry of fine Y into coarse Y: `c` is the coarse Y it meets, at its end (29), past its end (31) or before. -/
theorem incY_carry (p : Ppu) (hfine : ¬ p.v.toNat / 4096 < 7) {c : Nat} (hc : p.v.toNat / 32 % 32 = c) :
    p.incY = p.withV (if c = 29 then (1 - p.v.toNat / 2048 % 2) * 2048 + p.v.toNat / 1024 % 2 * 1024 + p.v.toNat % 32
      else if c = 31 then p.v.toNat / 1024 % 4 * 1024 + p.v.toNat % 32
      else p.v.toNat % 4096 + 32) := by
  have hcoarse : ((p.v &&& 0x0FFF#15) >>> 5 &&& 31#15).toNat = c := by
    rw [coarseY_toNat, and_0FFF_toNat]
    omega
  rw [Ppu.incY, if_neg (mt (fineY_ne_seven_iff _).mp hfine)]
  simp only [← BitVec.toNat_inj, hcoarse, BitVec.toNat_ofNat, Nat.reducePow, Nat.reduceMod]
  obtain h29 | h31 | hrest : c = 29 ∨ c = 31 ∨ ¬ (c = 29 ∨ c = 31) := by omega
  · simp only [h29, true_or, if_true]
    rw [setCoarseY_eq _ (by decide), flipVertical_toNat, and_0FFF_toNat, BitVec.toNat_zero]
    exact congrArg p.withV (by omega)
  · simp only [h31, or_true, if_true, Nat.reduceEqDiff, if_false]
    rw [setCoarseY_eq _ (by decide), and_0FFF_toNat, BitVec.toNat_zero]
    exact congrArg p.withV (by omega)
  · obtain ⟨h29, h31⟩ := not_or.mp hrest
    have hnext : (((p.v &&& 0x0FFF#15) >>> 5 &&& 31#15) + 1#15).toNat = c + 1 := by
      rw [BitVec.toNat_add, hcoarse, BitVec.toNat_ofNat]
      omega
    rw [if_neg h29, if_neg hrest, if_neg h29, if_neg h31, setCoarseY_eq _ (by omega), hnext, and_0FFF_toNat]
    exact congrArg p.withV (by omega)

/-- Settles O43: the counters as numbers by their cases; one copy is the other with `v` and `t` exchanged. -/
theorem scrollCountersWrapByTheirFields : Obligations.ScrollCountersWrapByTheirFields := by
  intro p v t fields
  refine ⟨incX_eq p, ?_, congrArg (fun v => { p with v := v }) (copyFields_eq p.v p.t), ?_⟩
  · by_cases hfine : v / 4096 < 7
    · rw [Ppu.incY, if_pos ((fineY_ne_seven_iff _).mpr hfine), if_pos hfine, ofNat_toNat_add]
    · rw [if_neg hfine]
      exact incY_carry p hfine rfl
  · rw [Ppu.copyVertical, BitVec.or_comm, copyFields_eq]

end Sys2Proof.Machine

namespace Sys2Proof.Machine

/-! # The PPU registers (O37) -/

/-! ## Bytes written into the fields of `ppu.t` (47_ppu.md R380, R385, R386) -/

theorem and_03_toNat (d : Byte) : (d &&& 3#8).toNat = d.toNat % 4 := and_lowMask_toNat d 2 rfl

theorem and_07_toNat (d : Byte) : (d &&& 7#8).toNat = d.toNat % 8 := and_lowMask_toNat d 3 rfl

theorem and_3F_toNat (d : Byte) : (d &&& 0x3F#8).toNat = d.toNat % 64 := and_lowMask_toNat d 6 rfl

theorem ushiftRight_three_toNat (d : Byte) : (d >>> 3).toNat = d.toNat / 8 := by
  rw [BitVec.toNat_ushiftRight, Nat.shiftRight_eq_div_pow]

theorem setWidth_shiftLeft_toNat (b : Byte) {m : Nat} (h : b.toNat * 2 ^ m < 2 ^ 15) :
    (b.setWidth 15 <<< m).toNat = b.toNat * 2 ^ m := by
  have hb : b.toNat < 2 ^ 15 := b.isLt.trans (by decide)
  rw [BitVec.toNat_shiftLeft, BitVec.toNat_setWidth, Nat.mod_eq_of_lt hb, Nat.shiftLeft_eq, Nat.mod_eq_of_lt h]

theorem setNametable_eq (t : BitVec 15) (d : Byte) :
    (t &&& 0x73FF#15) ||| ((d &&& 3#8).setWidth 15 <<< 10) =
      BitVec.ofNat 15 (t.toNat / 4096 * 4096 + d.toNat % 4 * 1024 + t.toNat % 1024) := by
  have hd := and_03_toNat d
  rw [← hd]
  exact setField_eq t 10 2 rfl (setWidth_shiftLeft_toNat _ (by omega)) (by omega)

theorem setCoarseX_eq (t : BitVec 15) (d : Byte) :
    (t &&& 0x7FE0#15) ||| (d >>> 3).setWidth 15 = BitVec.ofNat 15 (t.toNat / 32 * 32 + d.toNat / 8) := by
  have hd := ushiftRight_three_toNat d
  rw [← hd, ← BitVec.shiftLeft_zero ((d >>> 3).setWidth 15)]
  refine (setField_eq t 0 5 rfl (setWidth_shiftLeft_toNat _ (by omega)) (by omega)).trans (congrArg _ ?_)
  omega

/-- Fine Y lies above the 12 bits of the other fields. -/
theorem setFineY_eq {n : Nat} (hn : n < 4096) (d : Byte) :
    BitVec.ofNat 15 n ||| ((d &&& 7#8).setWidth 15 <<< 12) = BitVec.ofNat 15 (d.toNat % 8 * 4096 + n) := by
  have hd := and_07_toNat d
  have hkeep : BitVec.ofNat 15 n &&& 0x0FFF#15 = BitVec.ofNat 15 n := by
    rw [← BitVec.toNat_inj, and_0FFF_toNat, BitVec.toNat_ofNat]
    omega
  rw [← hd, ← hkeep]
  refine (setField_eq _ 12 3 rfl (setWidth_shiftLeft_toNat _ (by omega)) (by omega)).trans (congrArg _ ?_)
  rw [BitVec.toNat_ofNat]
  omega

theorem setFineCoarseY_eq (t : BitVec 15) (d : Byte) :
    (t &&& 0x0C1F#15) ||| ((d &&& 7#8).setWidth 15 <<< 12) ||| ((d >>> 3).setWidth 15 <<< 5) =
      BitVec.ofNat 15 (d.toNat % 8 * 4096 + t.toNat / 1024 % 4 * 1024 + d.toNat / 8 * 32 + t.toNat % 32) := by
  have hcoarse : ((d >>> 3).setWidth 15).toNat = d.toNat / 8 := by
    rw [BitVec.toNat_setWidth, ushiftRight_three_toNat]
    omega
  rw [show 0x0C1F#15 = 0x0FFF#15 &&& 0x7C1F#15 from rfl, ← BitVec.and_assoc, BitVec.or_assoc,
    BitVec.or_comm ((d &&& 7#8).setWidth 15 <<< 12), ← BitVec.or_assoc, setCoarseY_eq _ (by omega), hcoarse,
    and_0FFF_toNat, setFineY_eq (by omega)]
  exact congrArg _ (by omega)

theorem setAddrHigh_eq (t : BitVec 15) (d : Byte) :
    (t &&& 0x00FF#15) ||| ((d &&& 0x3F#8).setWidth 15 <<< 8) =
      BitVec.ofNat 15 (d.toNat % 64 * 256 + t.toNat % 256) := by
  have hd := and_3F_toNat d
  rw [← hd]
  refine (setField_eq t 8 7 rfl (setWidth_shiftLeft_toNat _ (by omega)) (by omega)).trans (congrArg _ ?_)
  omega

theorem setAddrLow_eq (t : BitVec 15) (d : Byte) :
    (t &&& 0x7F00#15) ||| d.setWidth 15 = BitVec.ofNat 15 (t.toNat / 256 * 256 + d.toNat) := by
  rw [← BitVec.shiftLeft_zero (d.setWidth 15)]
  refine (setField_eq t 0 8 rfl (setWidth_shiftLeft_toNat _ (by omega)) (by omega)).trans (congrArg _ ?_)
  omega

theorem setWidth_three_eq (d : Byte) : d.setWidth 3 = BitVec.ofNat 3 (d.toNat % 8) := by
  rw [← BitVec.toNat_inj, BitVec.toNat_setWidth, BitVec.toNat_ofNat, Nat.mod_mod]

/-! ## The accesses -/

@[simp] theorem ppuRead_ppu (s : State) (a : Nat) : (ppuRead s a).2.ppu = s.ppu := by
  rw [ppuRead_snd]

/-- A PPU-space write changes nothing of the PPU but its two memories. -/
theorem ppuWrite_ppu (s : State) (a : Nat) (v : Byte) :
    (ppuWrite s a v).ppu =
      { s.ppu with vram := (ppuWrite s a v).ppu.vram, palette := (ppuWrite s a v).ppu.palette } := by
  by_cases hp : a % 0x4000 < 0x2000
  · rw [ppuWrite_pattern s v hp, mapWrite_pattern s v hp]
    rfl
  · by_cases hn : a % 0x4000 < 0x3F00
    · rw [ppuWrite_nametable s v (by omega) hn]
    · rw [ppuWrite_palette s v (by omega)]

theorem advanceV_eq (s : State) :
    advanceV s = { s with ppu := s.ppu.withV (s.ppu.v.toNat + if s.ppu.ctrl.getLsbD 2 then 32 else 1) } := by
  rw [Ppu.withV, ← advance_eq]
  rfl

theorem writePpuData_eq {s : State} {a : Nat} (d : Byte) (ha : s.ppu.v.toNat % 0x4000 = a) :
    writePpuData s d = { ppuWrite s a d with
      ppu := (ppuWrite s a d).ppu.withV (s.ppu.v.toNat + if s.ppu.ctrl.getLsbD 2 then 32 else 1) } := by
  have hv : (ppuWrite s a d).ppu.v = s.ppu.v := by rw [ppuWrite_ppu]
  have hctrl : (ppuWrite s a d).ppu.ctrl = s.ppu.ctrl := by rw [ppuWrite_ppu]
  rw [writePpuData, ha, advanceV_eq, hv, hctrl]

theorem advanceV_setBuffer_eq (s : State) (b : Byte) :
    advanceV (setBuffer s b) = { s with ppu := { s.ppu with
      buffer := b, v := BitVec.ofNat 15 (s.ppu.v.toNat + if s.ppu.ctrl.getLsbD 2 then 32 else 1) } } := advanceV_eq _

theorem readPpuData_buffered {s : State} {a : Nat} (ha : s.ppu.v.toNat % 0x4000 = a) (h : a < 0x3F00) :
    readPpuData s = (s.ppu.buffer, { (ppuRead s a).2 with ppu := { s.ppu with
      buffer := (ppuRead s a).1
      v := BitVec.ofNat 15 (s.ppu.v.toNat + if s.ppu.ctrl.getLsbD 2 then 32 else 1) } }) := by
  rw [readPpuData_low (by omega), ha, advanceV_setBuffer_eq, ppuRead_ppu]

theorem readPpuData_palette {s : State} {a : Nat} (ha : s.ppu.v.toNat % 0x4000 = a) (h : 0x3F00 ≤ a) :
    readPpuData s = ((ppuRead s a).1, { s with ppu := { s.ppu with
      buffer := (ppuRead s (a - 0x1000)).1
      v := BitVec.ofNat 15 (s.ppu.v.toNat + if s.ppu.ctrl.getLsbD 2 then 32 else 1) } }) := by
  rw [readPpuData_high (by omega), ha, ppuRead_snd_of_ge s (by omega), ppuRead_snd_of_ge s (by omega),
    advanceV_setBuffer_eq]

/-- Settles O37: each register's access, the writes to `t` by the fields they set. -/
theorem ppuRegisterAccessesFollowTheirRules : Obligations.PpuRegisterAccessesFollowTheirRules := by
  intro s addr d h h' r p t a v'
  have hroute : route addr = .ppuReg := (route_eq_iff _ _).mpr ⟨h, h'⟩
  have hread {k : Nat} (hr : r = k) : memRead s addr = readPpuReg s k := by rw [← hr, memRead_ppuReg s hroute]
  have hwrite {k : Nat} (hr : r = k) : memWrite s addr d = writePpuReg s k d := by rw [← hr, memWrite_ppuReg s d hroute]
  have hport : s.ppu.v.toNat % 0x4000 = a := rfl
  clear_value a
  refine ⟨fun hr => ?_, fun hr => hwrite hr, fun hr => hwrite hr, fun hr => hwrite hr, fun hr => ⟨hread hr, ?_⟩,
    fun hr hw => ?_, fun hr hw => ?_, fun hr hw => ?_, fun hr hw => ?_, fun hr ha => ?_, fun hr ha => ?_, fun hr => ?_⟩
  · rw [hwrite hr, writePpuReg, writePpuCtrl, setNametable_eq]
  · rw [hwrite hr, writePpuReg, writeOamData, ofNat_toNat_add]
  · rw [hwrite hr, writePpuReg, writePpuScroll, if_neg (Bool.eq_false_iff.mp hw), setCoarseX_eq, setWidth_three_eq]
  · rw [hwrite hr, writePpuReg, writePpuScroll, if_pos hw, setFineCoarseY_eq]
  · rw [hwrite hr, writePpuReg, writePpuAddr, if_neg (Bool.eq_false_iff.mp hw), setAddrHigh_eq]
  · rw [hwrite hr, writePpuReg, writePpuAddr, if_pos hw, setAddrLow_eq]
  · exact (hread hr).trans (readPpuData_buffered hport ha)
  · exact (hread hr).trans (readPpuData_palette hport ha)
  · exact (hwrite hr).trans (writePpuData_eq d hport)

end Sys2Proof.Machine

namespace Sys2Proof.Machine

/-! # The dots that render nothing (O38) -/

/-- The dot 1 of a line fetches nothing (47_ppu.md R370). -/
theorem renderDot_one (sl : Nat) (s : State) : renderDot sl 1 s = s := by
  have hscroll : scrollDot sl 1 s = s := if_neg (by omega)
  have hsprite : spriteDot sl 1 s = s := by
    rw [spriteDot, if_neg (by omega)]
    exact if_neg (by omega)
  rw [renderDot, backgroundDot, if_neg (by omega), hscroll, hsprite]

theorem withPpu_advance_of_lt {s : State} {d : Nat} (hd : s.ppu.dot = d) (h : d < 340) :
    s.withPpu Ppu.advance = { s with ppu := { s.ppu with dot := d + 1 } } := by
  rw [State.withPpu, Ppu.advance, if_neg (by omega), hd]

theorem ppuTick_vblankEntry {s : State} (hsl : s.ppu.scanline = 241) (hd : s.ppu.dot = 1) :
    ppuTick s = (vblankEntry s).withPpu Ppu.advance := by
  simp [ppuTick, hsl, hd]

theorem ppuTick_preRenderClear {s : State} (hsl : s.ppu.scanline = 261) (hd : s.ppu.dot = 1) :
    ppuTick s = (s.withPpu Ppu.preRenderClear).withPpu Ppu.advance := by
  simp [ppuTick, hsl, hd, renderDot_one]

theorem ppuTick_idle {s : State} (hentry : ¬ (s.ppu.scanline = 241 ∧ s.ppu.dot = 1))
    (hclear : ¬ (s.ppu.scanline = 261 ∧ s.ppu.dot = 1))
    (hrender : ¬ (s.ppu.rendering = true ∧ (s.ppu.scanline ≤ 239 ∨ s.ppu.scanline = 261)))
    (hpixel : ¬ (s.ppu.scanline ≤ 239 ∧ 1 ≤ s.ppu.dot ∧ s.ppu.dot ≤ 256)) : ppuTick s = s.withPpu Ppu.advance := by
  simp only [ppuTick, if_neg hentry, if_neg hclear, if_neg hrender, if_neg hpixel]

/-- With rendering disabled every pixel is the backdrop (47_ppu.md R412). -/
theorem emitPixel_blanked {s : State} (hbg : s.ppu.mask.getLsbD 3 = false) (hsp : s.ppu.mask.getLsbD 4 = false) (x y : Nat) :
    emitPixel x y s = s.withPpu (Ppu.putPixel x y (s.params.rgba (ppuRead s 0x3F00).1)) := by
  have hbgPixel : s.ppu.bgPixel x = (0, 0) := if_neg fun h => Bool.false_ne_true (hbg.symm.trans h.1)
  have hspPixel : s.ppu.spritePixel x = .none := if_neg fun h => Bool.false_ne_true (hsp.symm.trans h.1)
  have hmark : s.withPpu (Ppu.markHit x) = s := by simp [State.withPpu, Ppu.markHit, Ppu.hits, hbgPixel]
  rw [emitPixel, hmark, hbgPixel, hspPixel]
  rfl

theorem ppuTick_blankedPixel {s : State} (hoff : s.ppu.rendering = false) (hsl : s.ppu.scanline ≤ 239)
    (h1 : 1 ≤ s.ppu.dot) (h2 : s.ppu.dot ≤ 256) :
    ppuTick s = (emitPixel (s.ppu.dot - 1) s.ppu.scanline s).withPpu Ppu.advance := by
  simp [ppuTick, hoff, hsl, h1, h2, show s.ppu.scanline ≠ 241 by omega, show s.ppu.scanline ≠ 261 by omega]

theorem rendering_eq_false {p : Ppu} (hbg : p.mask.getLsbD 3 = false) (hsp : p.mask.getLsbD 4 = false) :
    p.rendering = false := by
  rw [Ppu.rendering, hbg, hsp]
  rfl

/-- Settles O38: which work of a dot is done, by its position and the rendering bits. -/
theorem vblankPreRenderAndBlankedDots : Obligations.VblankPreRenderAndBlankedDots := by
  intro s
  dsimp only
  refine ⟨fun hsl hd => ?_, fun hsl hd => ?_, fun h1 h2 h => ?_, fun ⟨hbg, hsp⟩ hsl h1 h2 => ?_,
    fun ⟨hbg, hsp⟩ hidle => ?_⟩
  · rw [ppuTick_vblankEntry hsl hd, withPpu_advance_of_lt (s := vblankEntry s) hd (by decide)]
    rfl
  · rw [ppuTick_preRenderClear hsl hd, withPpu_advance_of_lt (s := s.withPpu Ppu.preRenderClear) hd (by decide)]
    rfl
  · exact ppuTick_idle h (by omega) (by omega) (by omega)
  · rw [ppuTick_blankedPixel (rendering_eq_false hbg hsp) hsl h1 h2, emitPixel_blanked hbg hsp,
      withPpu_advance_of_lt (s := s.withPpu _) rfl (Nat.lt_of_le_of_lt h2 (by decide))]
    rfl
  · exact ppuTick_idle (by omega) (by omega) (fun hr => Bool.false_ne_true ((rendering_eq_false hbg hsp).symm.trans hr.1))
      (by omega)

end Sys2Proof.Machine

namespace Sys2Proof.Machine

/-! # The position of the PPU (O39, O40) -/

/-! ## What the rendering work of a dot keeps -/

/-- What of the PPU only the advance of the position, the VBlank entry and the pre-render clear change in a dot: the position,
the end of the frame, the VBlank flag. -/
def Ppu.clock (p : Ppu) : Nat × Nat × Bool × Bool := (p.scanline, p.dot, p.frameComplete, p.status.getLsbD 7)

/-- A PPU-space read and a change of the PPU by it keep what the change keeps. -/
theorem ppuRead_withPpu_clock (s : State) (a : Nat) {f : Ppu → Ppu} (hf : (f s.ppu).clock = s.ppu.clock) :
    ((ppuRead s a).2.withPpu f).ppu.clock = s.ppu.clock := by
  rw [withPpu_ppu, ppuRead_ppu, hf]

theorem fetchSpriteLo_clock (i sl : Nat) (s : State) : (fetchSpriteLo i sl s).ppu.clock = s.ppu.clock :=
  ppuRead_withPpu_clock s _ (by split <;> rfl)

theorem fetchSpriteHi_clock (i sl : Nat) (s : State) : (fetchSpriteHi i sl s).ppu.clock = s.ppu.clock :=
  ppuRead_withPpu_clock s _ (by split <;> rfl)

theorem fetchNt_clock (s : State) : (fetchNt s).ppu.clock = s.ppu.clock := ppuRead_withPpu_clock s _ rfl

theorem fetchAt_clock (s : State) : (fetchAt s).ppu.clock = s.ppu.clock := ppuRead_withPpu_clock s _ rfl

theorem fetchPatternLo_clock (s : State) : (fetchPatternLo s).ppu.clock = s.ppu.clock := ppuRead_withPpu_clock s _ rfl

theorem fetchPatternHi_clock (s : State) : (fetchPatternHi s).ppu.clock = s.ppu.clock := ppuRead_withPpu_clock s _ rfl

theorem backgroundDot_clock (d : Nat) (s : State) : (backgroundDot d s).ppu.clock = s.ppu.clock := by
  unfold backgroundDot
  split
  · dsimp only
    split
    · exact fetchNt_clock _
    · exact fetchAt_clock _
    · exact fetchPatternLo_clock _
    · exact fetchPatternHi_clock _
    · rfl
    · rfl
  · rfl

theorem incY_clock (p : Ppu) : p.incY.clock = p.clock := by
  unfold Ppu.incY
  split <;> simp only [Ppu.clock]

theorem scrollDot_clock (sl d : Nat) (s : State) : (scrollDot sl d s).ppu.clock = s.ppu.clock := by
  have hcopy (p : Ppu) : p.copyHorizontal.clock = p.clock ∧ p.copyVertical.clock = p.clock := ⟨rfl, rfl⟩
  simp only [scrollDot, apply_ite State.ppu, apply_ite Ppu.clock, withPpu_ppu, fetchNt_clock, incY_clock, hcopy, ite_self]

/-- Setting another bit of the status keeps the VBlank flag. -/
theorem evaluateSprites_clock (sl : Nat) (p : Ppu) : (p.evaluateSprites sl).clock = p.clock := by
  unfold Ppu.evaluateSprites
  dsimp only
  split <;> simp [Ppu.clock]

theorem spriteDot_clock (sl d : Nat) (s : State) : (spriteDot sl d s).ppu.clock = s.ppu.clock := by
  have heval : (if d = 257 ∧ sl ≤ 239 then s.withPpu (Ppu.evaluateSprites sl) else s).ppu.clock = s.ppu.clock := by
    split
    · exact evaluateSprites_clock sl s.ppu
    · rfl
  unfold spriteDot
  dsimp only
  split
  · split
    · exact (fetchSpriteLo_clock _ sl _).trans heval
    · exact (fetchSpriteHi_clock _ sl _).trans heval
    · exact heval
  · exact heval

theorem renderDot_clock (sl d : Nat) (s : State) : (renderDot sl d s).ppu.clock = s.ppu.clock := by
  rw [renderDot, spriteDot_clock, scrollDot_clock, backgroundDot_clock]

theorem markHit_clock (x : Nat) (p : Ppu) : (p.markHit x).clock = p.clock := by
  unfold Ppu.markHit
  split <;> simp [Ppu.clock]

theorem emitPixel_clock (x y : Nat) (s : State) : (emitPixel x y s).ppu.clock = s.ppu.clock :=
  (ppuRead_withPpu_clock (s.withPpu (Ppu.markHit x)) _ rfl).trans (markHit_clock x s.ppu)

/-! ## The position after dots -/

/-- The work of a dot, before the position advances (47_ppu.md R370). -/
def dotWork (s : State) : State :=
  let sl := s.ppu.scanline
  let d := s.ppu.dot
  let entered := if sl = 241 ∧ d = 1 then vblankEntry s else s
  let cleared := if sl = 261 ∧ d = 1 then entered.withPpu Ppu.preRenderClear else entered
  let rendered := if s.ppu.rendering = true ∧ (sl ≤ 239 ∨ sl = 261) then renderDot sl d cleared else cleared
  if sl ≤ 239 ∧ 1 ≤ d ∧ d ≤ 256 then emitPixel (d - 1) sl rendered else rendered

theorem ppuTick_eq (s : State) : ppuTick s = (dotWork s).withPpu Ppu.advance := rfl

theorem dotWork_clock (s : State) :
    (dotWork s).ppu.clock =
      (s.ppu.scanline, s.ppu.dot,
        if s.ppu.scanline = 241 ∧ s.ppu.dot = 1 then true else s.ppu.frameComplete,
        if s.ppu.scanline = 241 ∧ s.ppu.dot = 1 then true
        else if s.ppu.scanline = 261 ∧ s.ppu.dot = 1 then false
        else s.ppu.status.getLsbD 7) := by
  have hentry : (vblankEntry s).ppu.clock = (s.ppu.scanline, s.ppu.dot, true, true) := by
    simp [vblankEntry, Ppu.clock]
  have hclear : s.ppu.preRenderClear.clock = (s.ppu.scanline, s.ppu.dot, s.ppu.frameComplete, false) := by
    simp [Ppu.preRenderClear, Ppu.clock]
  simp only [dotWork, apply_ite State.ppu, apply_ite Ppu.clock, emitPixel_clock, renderDot_clock, ite_self]
  split_ifs with h261 h241
  · omega
  · exact hclear
  · exact hentry
  · rfl

/-- The position lies in a frame (47_ppu.md R361). -/
def Ppu.inFrame (p : Ppu) : Prop := p.scanline < 262 ∧ p.dot < 341

/-- From `p` to `q` the position moves `n` dots on, through the 89342 dots of a frame. -/
def Ppu.moves (n : Nat) (p q : Ppu) : Prop := p.inFrame → q.inFrame ∧ q.position = (p.position + n) % 89342

theorem Ppu.moves.trans {m n : Nat} {p q r : Ppu} (h1 : Ppu.moves m p q) (h2 : Ppu.moves n q r) :
    Ppu.moves (m + n) p r := fun hp => by
  obtain ⟨hq, hpos⟩ := h1 hp
  obtain ⟨hr, hpos'⟩ := h2 hq
  exact ⟨hr, by omega⟩

theorem moves_zero {p q : Ppu} (hsl : q.scanline = p.scanline) (hd : q.dot = p.dot) : Ppu.moves 0 p q := by
  rintro ⟨h1, h2⟩
  simp only [Ppu.inFrame, Ppu.position, hsl, hd]
  omega

theorem advance_moves (p : Ppu) : Ppu.moves 1 p p.advance := by
  rintro ⟨h1, h2⟩
  unfold Ppu.advance Ppu.inFrame Ppu.position
  split_ifs <;> dsimp only <;> omega

theorem ppuTick_moves (s : State) : Ppu.moves 1 s.ppu (ppuTick s).ppu := by
  obtain ⟨hsl, hd, -, -⟩ : _ ∧ _ ∧ _ ∧ _ := by simpa only [Ppu.clock, Prod.mk.injEq] using dotWork_clock s
  exact (moves_zero hsl hd).trans (advance_moves (dotWork s).ppu)

theorem iterate_ppuTick_moves (n : Nat) (s : State) : Ppu.moves n s.ppu (ppuTick^[n] s).ppu := by
  induction n with
  | zero => exact moves_zero rfl rfl
  | succ n ih =>
    rw [Function.iterate_succ_apply']
    exact ih.trans (ppuTick_moves _)

theorem position_eq_entry_iff {p : Ppu} (h : p.inFrame) : p.position = 82182 ↔ p.scanline = 241 ∧ p.dot = 1 := by
  obtain ⟨h1, h2⟩ := h
  unfold Ppu.position
  omega

theorem advance_flags (p : Ppu) : p.advance.frameComplete = p.frameComplete ∧ p.advance.status = p.status := by
  unfold Ppu.advance
  split_ifs <;> exact ⟨rfl, rfl⟩

/-- No dot but the VBlank entry sets the VBlank flag or completes a frame. -/
theorem ppuTick_flags {s : State} (h : ¬ (s.ppu.scanline = 241 ∧ s.ppu.dot = 1)) :
    (ppuTick s).ppu.frameComplete = s.ppu.frameComplete ∧
      ((ppuTick s).ppu.status.getLsbD 7 = true → s.ppu.status.getLsbD 7 = true) := by
  obtain ⟨-, -, hframe, hvblank⟩ : _ ∧ _ ∧ _ ∧ _ := by
    simpa only [Ppu.clock, Prod.mk.injEq, if_neg h] using dotWork_clock s
  obtain ⟨hframe', hstatus⟩ := advance_flags (dotWork s).ppu
  rw [ppuTick_eq, withPpu_ppu, hframe', hstatus, hframe, hvblank]
  refine ⟨rfl, fun ht => ?_⟩
  split at ht
  · cases ht
  · exact ht

/-- Settles O39: the ticks move the position around the frame, and the entry is one position of it. -/
theorem oneVblankEntryInEveryFrame : Obligations.OneVblankEntryInEveryFrame := by
  intro s hsl hd
  have hmoves (n : Nat) := iterate_ppuTick_moves n s ⟨hsl, hd⟩
  have hentry (j : Nat) : ((ppuTick^[j] s).ppu.scanline = 241 ∧ (ppuTick^[j] s).ppu.dot = 1) ↔
      (s.ppu.position + j) % 89342 = 82182 := by
    rw [← position_eq_entry_iff (hmoves j).1, (hmoves j).2]
  have hstart : s.ppu.position < 89342 := by
    unfold Ppu.position
    omega
  refine ⟨fun n => (hmoves n).2, ⟨(82182 + 89342 - s.ppu.position) % 89342, Nat.mod_lt _ (by decide), ?_⟩,
    ppuTick_flags⟩
  obtain ⟨h1, h2⟩ := (hentry ((82182 + 89342 - s.ppu.position) % 89342)).mpr (by omega)
  refine ⟨h1, h2, fun j hj hj1 hj2 => ?_⟩
  have := (hentry j).mp ⟨hj1, hj2⟩
  omega

end Sys2Proof.Machine

namespace Sys2Proof.Machine

/-! ## The position and the parity over a step (47_ppu.md R360, 48_apu.md R440) -/

/-- `q` stands at the dot `p` stands at. -/
def Ppu.samePosition (p q : Ppu) : Prop := q.scanline = p.scanline ∧ q.dot = p.dot

theorem Ppu.samePosition.trans {p q r : Ppu} (h1 : p.samePosition q) (h2 : q.samePosition r) : p.samePosition r :=
  ⟨h2.1.trans h1.1, h2.2.trans h1.2⟩

theorem Ppu.samePosition.moves {p q : Ppu} (h : p.samePosition q) : Ppu.moves 0 p q := moves_zero h.1 h.2

theorem State.readEffect.samePosition {s t : State} (h : s.readEffect t) : s.ppu.samePosition t.ppu := by
  rw [State.readEffect] at h
  rw [h]
  exact ⟨rfl, rfl⟩

theorem mapWrite_ppu (s : State) (a : Nat) (v : Byte) (dev : Device) : (mapWrite s a v dev).ppu = s.ppu := by
  unfold mapWrite
  split
  · split_ifs <;> rfl
  · split <;> rfl

theorem ppuWrite_samePosition (s : State) (a : Nat) (v : Byte) : s.ppu.samePosition (ppuWrite s a v).ppu := by
  rw [ppuWrite_ppu]
  exact ⟨rfl, rfl⟩

theorem writePpuReg_samePosition (s : State) (r : Nat) (v : Byte) : s.ppu.samePosition (writePpuReg s r v).ppu := by
  unfold writePpuReg
  split
  case h_6 => unfold writePpuScroll; dsimp only; split <;> exact ⟨rfl, rfl⟩
  case h_7 => unfold writePpuAddr; dsimp only; split <;> exact ⟨rfl, rfl⟩
  case h_8 => exact ppuWrite_samePosition s _ v
  all_goals exact ⟨rfl, rfl⟩

theorem oamDma_samePosition (s : State) (p : Byte) : s.ppu.samePosition (oamDma s p).ppu := by
  unfold oamDma
  generalize List.range 256 = is
  induction is generalizing s with
  | nil => exact ⟨rfl, rfl⟩
  | cons i is ih => exact (memRead_effect s (word p (BitVec.ofNat 8 i))).samePosition.trans (ih (oamDmaByte p s i))

theorem memWrite_samePosition (s : State) (a : Word) (v : Byte) : s.ppu.samePosition (memWrite s a v).ppu := by
  unfold memWrite
  split
  case h_2 => exact writePpuReg_samePosition s _ v
  case h_5 => exact oamDma_samePosition s v
  case h_8 => rw [mapWrite_ppu]; exact ⟨rfl, rfl⟩
  all_goals exact ⟨rfl, rfl⟩

/-- A CPU step does not move the PPU: only its fan-out does. -/
theorem samePosition_kept (p : Ppu) : Kept fun s => p.samePosition s.ppu where
  read a h := h.trans (memRead_effect _ a).samePosition
  write a v h := h.trans (memWrite_samePosition _ a v)
  cpu h _ := h

theorem dmcRead_samePosition (s : State) : s.ppu.samePosition (dmcRead s).ppu := by
  unfold dmcRead
  split
  · exact (memRead_effect s _).samePosition
  · exact ⟨rfl, rfl⟩

theorem apuTick_samePosition (s : State) : s.ppu.samePosition (apuTick s).ppu :=
  dmcRead_samePosition { s with apu := s.apu.timersTick }

theorem fanOutCycle_moves (s : State) : Ppu.moves 3 s.ppu (fanOutCycle s).ppu := by
  rw [fanOutCycle, sampleIrq_ppu]
  exact (((ppuTick_moves s).trans (ppuTick_moves _)).trans (ppuTick_moves _)).trans (apuTick_samePosition _).moves

theorem fanOut_moves (n : Nat) (s : State) : Ppu.moves (3 * n) s.ppu (fanOut n s).ppu := by
  induction n generalizing s with
  | zero => exact moves_zero rfl rfl
  | succ n ih =>
    rw [Nat.mul_succ, Nat.add_comm]
    exact (fanOutCycle_moves s).trans (ih _)

theorem timersTick_odd (a : Apu) : a.timersTick.odd = a.odd := by
  have hframe : a.frameTick.odd = a.odd := by
    simp only [Apu.frameTick, Apu.quarterFrame, Apu.halfFrame]
    split_ifs <;> rfl
  unfold Apu.timersTick
  dsimp only
  split <;> exact hframe

theorem outputTick_odd (rate : Nat) (a : Apu) : (a.outputTick rate).odd = !a.odd := by
  simp only [Apu.outputTick, Apu.decimate]
  split <;> rfl

theorem State.readEffect.odd {s t : State} (h : s.readEffect t) : t.apu.odd = s.apu.odd := by
  rw [State.readEffect] at h
  rw [h]

theorem dmcRead_odd (s : State) : (dmcRead s).apu.odd = s.apu.odd := by
  unfold dmcRead
  split
  · exact (memRead_effect s _).odd
  · rfl

theorem apuTick_odd (s : State) : (apuTick s).apu.odd = !s.apu.odd := by
  simp only [apuTick, outputTick_odd, dmcRead_odd, timersTick_odd]

theorem State.dotEffect.apu {s t : State} (h : s.dotEffect t) : t.apu = s.apu := by
  rw [h.rest]

theorem fanOutCycle_odd (s : State) : (fanOutCycle s).apu.odd = !s.apu.odd := by
  rw [fanOutCycle, sampleIrq_apu, apuTick_odd, (ppuTick_dotEffect _).apu, (ppuTick_dotEffect _).apu,
    (ppuTick_dotEffect _).apu]

theorem fanOut_odd (n : Nat) (s : State) : (fanOut n s).apu.odd = (s.apu.odd != decide (n % 2 = 1)) := by
  induction n generalizing s with
  | zero => simp [fanOut]
  | succ n ih =>
    rw [fanOut, ih, fanOutCycle_odd]
    obtain h | h : n % 2 = 0 ∨ n % 2 = 1 := by omega
    · simp [h, show (n + 1) % 2 = 1 by omega]
    · simp [h, show (n + 1) % 2 = 0 by omega]

theorem fanOut_cycles (n : Nat) (s : State) : (fanOut n s).cpu.cycles = s.cpu.cycles := by rw [fanOut_cpu]

/-- A turn moves the PPU three dots for every cycle it counts. -/
theorem machineTurn_moves {s u : State} (h : machineTurn s = .next u) :
    Ppu.moves (3 * stepCycles s u) s.ppu u.ppu := by
  obtain ⟨t, ht, hu⟩ := machineTurn_eq s
  obtain rfl := Host.Outcome.next.inj (hu.symm.trans h)
  have hcpu := (cpuStep_kept (samePosition_kept s.ppu) ⟨rfl, rfl⟩ ht).moves
  have hcycles : stepCycles s (fanOut (stepCycles s t) t) = stepCycles s t := by
    rw [stepCycles, fanOut_cycles, ← stepCycles]
  rw [hcycles]
  simpa using hcpu.trans (fanOut_moves (stepCycles s t) t)

/-- Settles O40: the fan-out cycle by cycle; the CPU step before it and the end of a frame do not move the PPU. -/
theorem threeDotsAndOneTickForEveryCycle : Obligations.ThreeDotsAndOneTickForEveryCycle := by
  refine ⟨fun n s hsl hd => ⟨(fanOut_moves n s ⟨hsl, hd⟩).2, fanOut_odd n s, fanOut_cycles n s⟩,
    fun s t hl hsl hd he => ?_⟩
  obtain ⟨hempty, -⟩ | ⟨u, -, hu, hend⟩ := step_cases he
  · exact absurd (hl.symm.trans hempty) (by decide)
  · have hpos := (machineTurn_moves hu ⟨hsl, hd⟩).2
    obtain ⟨-, rfl⟩ | ⟨-, rfl⟩ := hend
    · exact hpos
    · exact hpos

end Sys2Proof.Machine

namespace Sys2Proof.Machine

/-! # The pixel of a dot (O41) -/

/-! ## Palette addresses (47_ppu.md R403, R408, R411) -/

/-- A pixel of two bits with a palette of three selects a palette address. -/
def inPalette (px : Nat × Nat) : Prop := px.1 < 4 ∧ px.2 < 8

theorem inPalette_zero : inPalette (0, 0) := ⟨by decide, by decide⟩

theorem twoBits_lt (high low : Bool) : 2 * high.toNat + low.toNat < 4 := by
  revert high low
  decide

theorem bgPixel_inPalette (p : Ppu) (x : Nat) : inPalette (p.bgPixel x) := by
  unfold Ppu.bgPixel
  split
  · exact ⟨twoBits_lt _ _, (twoBits_lt _ _).trans (by decide)⟩
  · exact inPalette_zero

theorem slotPixel_inPalette (p : Ppu) (x i : Nat) : inPalette ((p.slotPixel x i).pix, (p.slotPixel x i).pal) := by
  have hpal (attr : Byte) : (attr &&& 3#8).toNat + 4 < 8 := by
    rw [and_03_toNat]
    omega
  unfold Ppu.slotPixel
  dsimp only
  split
  · exact ⟨twoBits_lt _ _, hpal _⟩
  · exact inPalette_zero

theorem firstPixel_inPalette (p : Ppu) (x : Nat) (is : List Nat) :
    inPalette ((p.firstPixel x is).pix, (p.firstPixel x is).pal) := by
  induction is with
  | nil => exact inPalette_zero
  | cons i is ih =>
    unfold Ppu.firstPixel
    split
    · exact slotPixel_inPalette p x i
    · exact ih

theorem spritePixel_inPalette (p : Ppu) (x : Nat) :
    inPalette ((p.spritePixel x).pix, (p.spritePixel x).pal) := by
  unfold Ppu.spritePixel
  split
  · exact firstPixel_inPalette p x _
  · exact inPalette_zero

theorem compose_inPalette {bg : Nat × Nat} {sp : SpritePixel} (hbg : inPalette bg) (hsp : inPalette (sp.pix, sp.pal)) :
    inPalette (compose bg sp) := by
  unfold compose
  split_ifs
  · exact hsp
  · exact hbg
  · exact inPalette_zero

theorem pixelAddr_bounds {px : Nat × Nat} (h : inPalette px) : 0x3F00 ≤ pixelAddr px ∧ pixelAddr px < 0x4000 := by
  obtain ⟨h1, h2⟩ := h
  unfold pixelAddr
  split_ifs <;> omega

/-! ## The pixel -/

/-- Composition by which of the two pixels are transparent (47_ppu.md R409). -/
theorem compose_eq (bg : Nat × Nat) (sp : SpritePixel) :
    compose bg sp =
      if bg.1 = 0 ∧ sp.pix = 0 then (0, 0)
      else if bg.1 = 0 then (sp.pix, sp.pal)
      else if sp.pix = 0 then bg
      else if sp.behind = false then (sp.pix, sp.pal)
      else bg := by
  by_cases hbg : bg.1 = 0 <;> by_cases hsp : sp.pix = 0 <;> simp [compose, hbg, hsp]

/-- A palette read looks at nothing that the sprite-0 hit changes, and changes nothing. -/
theorem ppuRead_markHit (s : State) (x : Nat) {a : Nat} (h : 0x3F00 ≤ a) (h' : a < 0x4000) :
    ppuRead (s.withPpu (Ppu.markHit x)) a = ((ppuRead s a).1, s.withPpu (Ppu.markHit x)) := by
  have ha : a % 0x4000 = a := Nat.mod_eq_of_lt h'
  rw [ppuRead_palette _ (by omega), ppuRead_palette s (by omega)]
  rfl

theorem emitPixel_eq (s : State) (x y : Nat) :
    emitPixel x y s = { s with ppu := { s.ppu.markHit x with
      framebuffer := s.ppu.framebuffer.write x y
        (s.params.rgba (ppuRead s (pixelAddr (compose (s.ppu.bgPixel x) (s.ppu.spritePixel x)))).1) } } := by
  obtain ⟨h, h'⟩ := pixelAddr_bounds (compose_inPalette (bgPixel_inPalette s.ppu x) (spritePixel_inPalette s.ppu x))
  rw [emitPixel, ppuRead_markHit s x h h']
  rfl

/-- Settles O41: the composed pixel's address lies in the palette, whose read changes nothing. -/
theorem onePixelIsComposedAndMarked : Obligations.OnePixelIsComposedAndMarked := by
  refine ⟨fun p c => BitVec.setWidth_append_eq_right, fun s x y => ?_⟩
  intro bg sp px a t
  have ha : pixelAddr (compose bg sp) = a := by rw [compose_eq, pixelAddr, Nat.mul_comm]
  have ht : t = { s with ppu := { s.ppu.markHit x with
      framebuffer := s.ppu.framebuffer.write x y (s.params.rgba (ppuRead s a).1) } } := ha ▸ emitPixel_eq s x y
  refine ⟨?_, fun x' y' => ?_⟩
  · rw [ht, Ppu.markHit, Ppu.hits]
    simp only [decide_eq_true_eq]
    rfl
  · rw [ht, Frame.read_write]

end Sys2Proof.Machine

namespace Sys2Proof.Machine

/-! # Sprite evaluation (O42) -/

/-- Entry `n` of OAM covers line `sl` (47_ppu.md R404). -/
def coversLine (oam : Mem) (sl h n : Nat) : Bool :=
  decide ((oam.read (4 * n)).toNat ≤ sl ∧ sl < (oam.read (4 * n)).toNat + h)

/-- Secondary OAM after the scan met the entries `hits`, in order: four bytes for each, $FF beyond them. -/
def selectedBytes (oam : Mem) (hits : List Nat) : Vector Byte 32 :=
  Vector.ofFn fun i => hits[i.val / 4]?.elim 0xFF#8 fun n => oam.read (4 * n + i.val % 4)

/-- The scan after it met the entries `hits` that cover the line, in order. -/
def scanned (oam : Mem) (hits : List Nat) : SpriteScan where
  sec := selectedBytes oam hits
  found := min 8 hits.length
  zero := decide (0 ∈ hits.take 8)
  overflow := decide (8 < hits.length)

theorem selectedBytes_getElem (oam : Mem) (hits : List Nat) {i : Nat} (hi : i < 32) :
    (selectedBytes oam hits)[i] = hits[i / 4]?.elim 0xFF#8 fun n => oam.read (4 * n + i % 4) := by
  rw [selectedBytes, Vector.getElem_ofFn]

theorem selectedBytes_nil (oam : Mem) : selectedBytes oam [] = Vector.replicate 32 0xFF#8 :=
  Vector.ext fun i hi => by
    rw [selectedBytes_getElem, Vector.getElem_replicate]
    rfl

/-- The next hit fills the next slot, if there is one. -/
theorem selectedBytes_append (oam : Mem) (hits : List Nat) (n : Nat) :
    selectedBytes oam (hits ++ [n]) =
      ((((selectedBytes oam hits).setIfInBounds (4 * hits.length) (oam.read (4 * n))).setIfInBounds
        (4 * hits.length + 1) (oam.read (4 * n + 1))).setIfInBounds
        (4 * hits.length + 2) (oam.read (4 * n + 2))).setIfInBounds
        (4 * hits.length + 3) (oam.read (4 * n + 3)) := by
  refine Vector.ext fun i hi => ?_
  simp only [Vector.getElem_setIfInBounds, selectedBytes_getElem]
  obtain hlt | hgt | hslot : i / 4 < hits.length ∨ hits.length < i / 4 ∨ i / 4 = hits.length := by omega
  · rw [if_neg (by omega), if_neg (by omega), if_neg (by omega), if_neg (by omega), List.getElem?_append_left hlt]
  · rw [if_neg (by omega), if_neg (by omega), if_neg (by omega), if_neg (by omega), List.getElem?_eq_none hgt.le,
      List.getElem?_eq_none (by simpa using hgt)]
  · rw [hslot, List.getElem?_concat_length, Option.elim_some]
    split_ifs with h3 h2 h1 h0
    · rw [show i % 4 = 3 by omega]
    · rw [show i % 4 = 2 by omega]
    · rw [show i % 4 = 1 by omega]
    · rw [show i % 4 = 0 by omega, Nat.add_zero]
    · omega

theorem scanned_append (oam : Mem) {hits : List Nat} (n : Nat) (h : hits.length < 8) :
    scanned oam (hits ++ [n]) = { scanned oam hits with
      sec := selectedBytes oam (hits ++ [n])
      zero := (scanned oam hits).zero || decide (n = 0)
      found := hits.length + 1 } := by
  have hfew : (hits ++ [n]).length ≤ 8 := by
    rw [List.length_append]
    exact h
  have hzero : decide (0 ∈ (hits ++ [n]).take 8) = (decide (0 ∈ hits.take 8) || decide (n = 0)) := by
    rw [List.take_of_length_le hfew, List.take_of_length_le h.le]
    simp [eq_comm]
  have hfound : min 8 (hits ++ [n]).length = hits.length + 1 := by
    rw [Nat.min_eq_right hfew, List.length_append]
    rfl
  have hoverflow : decide (8 < (hits ++ [n]).length) = decide (8 < hits.length) := by
    rw [decide_eq_false (Nat.not_lt.mpr hfew), decide_eq_false (Nat.not_lt.mpr h.le)]
  simp only [scanned, hzero, hfound, hoverflow]

/-- From the eighth hit on the slots are full: only the overflow is noted. -/
theorem scanned_append_full (oam : Mem) {hits : List Nat} (n : Nat) (h : 8 ≤ hits.length) :
    scanned oam (hits ++ [n]) = { scanned oam hits with overflow := true } := by
  have hsec : selectedBytes oam (hits ++ [n]) = selectedBytes oam hits := Vector.ext fun i hi => by
    rw [selectedBytes_getElem, selectedBytes_getElem, List.getElem?_append_left (by omega)]
  have hlength : 8 < (hits ++ [n]).length := by
    rw [List.length_append]
    exact Nat.lt_succ_of_le h
  simp only [scanned, hsec, List.take_append_of_le_length h, Nat.min_eq_left hlength.le, Nat.min_eq_left h,
    decide_eq_true hlength]

theorem entry_of_not_covers (oam : Mem) (sl h n : Nat) (sc : SpriteScan) (hn : coversLine oam sl h n = false) :
    sc.entry oam sl h n = sc := by
  rw [coversLine, decide_eq_false_iff_not] at hn
  exact if_neg (by omega)

theorem entry_scanned (oam : Mem) {sl h n : Nat} (hits : List Nat) (hn : coversLine oam sl h n = true) :
    (scanned oam hits).entry oam sl h n = scanned oam (hits ++ [n]) := by
  rw [coversLine, decide_eq_true_iff] at hn
  have hline : (oam.read (4 * n)).toNat ≤ sl ∧ sl - (oam.read (4 * n)).toNat < h := by omega
  obtain hlt | heq | hgt : hits.length < 8 ∨ hits.length = 8 ∨ 8 < hits.length := by omega
  · have hfound : (scanned oam hits).found = hits.length := Nat.min_eq_right hlt.le
    rw [SpriteScan.entry, if_pos ⟨decide_eq_false hlt.not_gt, hline⟩, if_pos (hfound ▸ hlt), scanned_append oam n hlt,
      hfound, selectedBytes_append oam hits n]
    rfl
  · have hfound : (scanned oam hits).found = 8 := Nat.min_eq_left heq.ge
    rw [SpriteScan.entry, if_pos ⟨decide_eq_false heq.not_gt, hline⟩, if_neg (by omega), scanned_append_full oam n heq.ge]
  · have hoverflow : (scanned oam hits).overflow = true := decide_eq_true hgt
    rw [SpriteScan.entry, if_neg fun hc => Bool.false_ne_true (hc.1.symm.trans hoverflow), scanned_append_full oam n hgt.le,
      ← hoverflow]

theorem spriteScan_eq (oam : Mem) (sl h : Nat) :
    spriteScan oam sl h = scanned oam ((List.range 64).filter (coversLine oam sl h)) := by
  have hfold (is hits : List Nat) :
      is.foldl (SpriteScan.entry oam sl h) (scanned oam hits) = scanned oam (hits ++ is.filter (coversLine oam sl h)) := by
    induction is generalizing hits with
    | nil => simp
    | cons n is ih =>
      cases hn : coversLine oam sl h n with
      | false => rw [List.foldl_cons, entry_of_not_covers _ _ _ _ _ hn, ih, List.filter_cons_of_neg (by simp [hn])]
      | true =>
        rw [List.foldl_cons, entry_scanned oam hits hn, ih, List.filter_cons_of_pos hn, List.append_assoc,
          List.singleton_append]
  have hempty : scanned oam [] = { sec := Vector.replicate 32 0xFF#8, found := 0, zero := false, overflow := false } := by
    rw [scanned, selectedBytes_nil]
    rfl
  rw [spriteScan, ← hempty, hfold, List.nil_append]

/-- Entry 0 comes first, so it is among the first eight exactly when it covers the line. -/
theorem zero_mem_take_filter (f : Nat → Bool) : decide (0 ∈ ((List.range 64).filter f).take 8) = f 0 := by
  rw [List.range_succ_eq_map]
  cases h : f 0 with
  | false =>
    rw [List.filter_cons_of_neg (by simp [h]), decide_eq_false_iff_not]
    exact fun hm => by simpa using List.mem_of_mem_take hm
  | true => simp [List.filter_cons_of_pos, h]

/-- Settles O42: the scan is known by the entries that cover the line. -/
theorem spriteEvaluationSelectsTheFirstEight : Obligations.SpriteEvaluationSelectsTheFirstEight := by
  intro p sl height top inRange q
  have hq : q = { p with
      secOam := selectedBytes p.oam inRange
      status := if decide (8 < inRange.length) then p.status ||| 0x20#8 else p.status
      spriteCount := min 8 inRange.length
      sp0OnLine := decide (0 ∈ inRange.take 8) } := by
    simp only [q, Ppu.evaluateSprites, spriteScan_eq]
    rfl
  clear_value q
  subst hq
  refine ⟨rfl, zero_mem_take_filter _, by simp only [decide_eq_true_eq], fun k hk j hj => ?_, rfl⟩
  rw [Ppu.sec, Vector.getElem?_eq_getElem (by omega), Option.getD_some, selectedBytes_getElem,
    show (4 * k + j) / 4 = k by omega, show (4 * k + j) % 4 = j by omega]

end Sys2Proof.Machine

namespace Sys2Proof.Machine

/-! # The APU's registers (O47, O48) -/

/-- The low `k` bits of a byte. -/
theorem setWidth_eq_ofNat_mod (b : Byte) (k : Nat) : b.setWidth k = BitVec.ofNat k (b.toNat % 2 ^ k) := by
  apply BitVec.eq_of_toNat_eq
  rw [BitVec.toNat_setWidth, BitVec.toNat_ofNat, Nat.mod_mod]

/-- The `k` bits of a byte from bit `m` on. -/
theorem extractLsb'_eq_ofNat_mod (b : Byte) (m k : Nat) :
    b.extractLsb' m k = BitVec.ofNat k (b.toNat / 2 ^ m % 2 ^ k) := by
  apply BitVec.eq_of_toNat_eq
  rw [BitVec.extractLsb'_toNat, Nat.shiftRight_eq_div_pow, BitVec.toNat_ofNat, Nat.mod_mod]

theorem periodLow_eq (p : BitVec 11) (d : Byte) : periodLow p d = BitVec.ofNat 11 (p.toNat / 256 * 256 + d.toNat) := by
  have hfield : (d.setWidth 11).toNat = d.toNat * 2 ^ 0 := by
    rw [BitVec.toNat_setWidth]
    omega
  have h := setField_eq p 0 8 (show 0x700#11 = ~~~(BitVec.ofNat 11 (2 ^ 8 - 1) <<< 0) by decide) hfield d.isLt
  rw [Nat.pow_zero, Nat.mod_one, Nat.mul_one, Nat.add_zero] at h
  exact h

theorem periodHigh_eq (p : BitVec 11) (d : Byte) :
    periodHigh p d = BitVec.ofNat 11 (d.toNat % 8 * 256 + p.toNat % 256) := by
  have hd : (d &&& 7#8).toNat = d.toNat % 2 ^ 3 := and_lowMask_toNat d 3 (by decide)
  have hfield : ((d &&& 7#8).setWidth 11 <<< 8).toNat = d.toNat % 8 * 2 ^ 8 := by
    rw [BitVec.toNat_shiftLeft, BitVec.toNat_setWidth, hd, Nat.shiftLeft_eq]
    omega
  have h := setField_eq p 8 3 (show 0x0FF#11 = ~~~(BitVec.ofNat 11 (2 ^ 3 - 1) <<< 8) by decide) hfield
    (show d.toNat % 8 < 2 ^ 3 by omega)
  rw [Nat.div_eq_of_lt p.isLt, Nat.zero_mul, Nat.zero_add] at h
  exact h

theorem lengthOf_eq (d : Byte) : lengthOf d = BitVec.ofNat 8 (lengthTable.getD (d.toNat / 8) 0) := by
  rw [lengthOf, BitVec.toNat_ushiftRight, Nat.shiftRight_eq_div_pow]

/-- The four registers of pulse channel `k` (48_apu.md R450 to R453). -/
theorem memWrite_pulse (s : State) (k : Fin 2) {r : Nat} (hr : r < 4) (d : Byte) :
    memWrite s (BitVec.ofNat 16 (0x4000 + 4 * k.val + r)) d =
      { s with apu := s.apu.setPulse k ((s.apu.pulse k).writeReg r d) } := by
  fin_cases k <;> interval_cases r <;> rfl

/-- Settles O47: with the fields of the data byte as numbers each write is the register's. -/
theorem toneChannelRegisterWrites : Obligations.ToneChannelRegisterWrites := by
  intro s d
  have hn := d.isLt
  have hduty : d.extractLsb' 6 2 = BitVec.ofNat 2 (d.toNat / 64) :=
    (extractLsb'_eq_ofNat_mod d 6 2).trans (congrArg _ (Nat.mod_eq_of_lt (by omega)))
  have hsweep : d.extractLsb' 4 3 = BitVec.ofNat 3 (d.toNat / 16 % 8) := extractLsb'_eq_ofNat_mod d 4 3
  have hlow3 : d.setWidth 3 = BitVec.ofNat 3 (d.toNat % 8) := setWidth_eq_ofNat_mod d 3
  have hlow4 : d.setWidth 4 = BitVec.ofNat 4 (d.toNat % 16) := setWidth_eq_ofNat_mod d 4
  have hlow7 : d.setWidth 7 = BitVec.ofNat 7 (d.toNat % 128) := setWidth_eq_ofNat_mod d 7
  simp only [← hduty, ← hsweep, ← hlow3, ← hlow4, ← hlow7, ← periodLow_eq, ← periodHigh_eq, ← lengthOf_eq]
  refine ⟨fun k => ⟨?_, ?_, ?_, ?_⟩, ⟨rfl, rfl, rfl, rfl⟩, ⟨rfl, rfl, rfl, rfl⟩⟩
  · exact memWrite_pulse s k (r := 0) (by decide) d
  · exact memWrite_pulse s k (r := 1) (by decide) d
  · exact memWrite_pulse s k (r := 2) (by decide) d
  · exact memWrite_pulse s k (r := 3) (by decide) d

theorem sampleAddr_eq (d : Byte) : 0xC000#16 + (d.setWidth 16 <<< 6) = BitVec.ofNat 16 (0xC000 + 64 * d.toNat) := by
  bv_omega

theorem sampleLen_eq (d : Byte) : (d.setWidth 12 <<< 4) + 1#12 = BitVec.ofNat 12 (16 * d.toNat + 1) := by
  bv_omega

/-- The channel enables (48_apu.md R484): the sample channel restarts only where it had ended. -/
theorem Apu.writeEnables_dmc (a : Apu) (d : Byte) :
    (a.writeEnables d).dmc = { a.dmc with
      irqFlag := false
      curAddr := if d.getLsbD 4 = true ∧ a.dmc.bytesRemaining = 0#12 then a.dmc.sampleAddr else a.dmc.curAddr
      bytesRemaining :=
        if d.getLsbD 4 = false then 0#12
        else if a.dmc.bytesRemaining = 0#12 then a.dmc.sampleLen else a.dmc.bytesRemaining } := by
  unfold Apu.writeEnables
  cases d.getLsbD 4
  · rfl
  · by_cases hb : a.dmc.bytesRemaining = 0#12 <;> simp [hb]

/-- Settles O48: register by register; only the enables split on the state of a channel. -/
theorem sampleChannelAndControlRegisterWrites : Obligations.SampleChannelAndControlRegisterWrites := by
  intro s d
  have hlow4 : d.setWidth 4 = BitVec.ofNat 4 (d.toNat % 16) := setWidth_eq_ofNat_mod d 4
  have hlow7 : d.setWidth 7 = BitVec.ofNat 7 (d.toNat % 128) := setWidth_eq_ofNat_mod d 7
  simp only [← hlow4, ← hlow7, ← sampleAddr_eq, ← sampleLen_eq, ← Apu.writeEnables_dmc]
  exact ⟨rfl, rfl, rfl, rfl, rfl, rfl⟩

end Sys2Proof.Machine

namespace Sys2Proof.Machine

/-! # The frame sequencer (O49) -/

/-- The counts of a sequence (48_apu.md R481). -/
def FrameSeq.period (f : FrameSeq) : Nat := if f.mode = false then 29830 else 37282

theorem FrameSeq.inv_iff (f : FrameSeq) : f.Inv ↔ f.counter.toNat < f.period := by
  unfold FrameSeq.Inv FrameSeq.period
  cases f.mode <;> rfl

/-- The sequencer's own state after a tick (48_apu.md R481): the next count, and the IRQ flag. -/
def FrameSeq.next (f : FrameSeq) : FrameSeq :=
  { f with
    counter := if f.counter.toNat + 1 = f.period then 0#16 else BitVec.ofNat 16 (f.counter.toNat + 1)
    irqFlag := f.irqFlag || decide (f.mode = false ∧ f.counter.toNat + 1 = 29829 ∧ f.irqInhibit = false) }

/-- A tick moves the sequencer on and clocks the quarter and the half frame at the scheduled counts. -/
theorem frameTick_eq (a : Apu) :
    a.frameTick =
      let n := a.frame.counter.toNat + 1
      let half := n = 14913 ∨ n = (if a.frame.mode = false then 29829 else 37281)
      let b : Apu := { a with frame := a.frame.next }
      let q := if n = 7457 ∨ n = 22371 ∨ half then b.quarterFrame else b
      if half then q.halfFrame else q := by
  simp only [Apu.frameTick, FrameSeq.next, FrameSeq.period]
  generalize a.frame.counter.toNat + 1 = n
  obtain hm | hm := Bool.eq_false_or_eq_true a.frame.mode
  · obtain h | h | h | h | h | h : n = 7457 ∨ n = 22371 ∨ n = 14913 ∨ n = 37281 ∨ n = 37282 ∨
      (n ≠ 7457 ∧ n ≠ 22371 ∧ n ≠ 14913 ∧ n ≠ 37281 ∧ n ≠ 37282) := by omega
    all_goals simp [h, hm]
  · obtain h | h | h | h | h | h : n = 7457 ∨ n = 22371 ∨ n = 14913 ∨ n = 29829 ∨ n = 29830 ∨
      (n ≠ 7457 ∧ n ≠ 22371 ∧ n ≠ 14913 ∧ n ≠ 29829 ∧ n ≠ 29830) := by omega
    all_goals simp [h, hm]

/-- The clocks of the channels leave the sequencer alone. -/
theorem frameTick_frame (a : Apu) : a.frameTick.frame = a.frame.next := by
  have hclock (b : Apu) : b.quarterFrame.frame = b.frame ∧ b.halfFrame.frame = b.frame := ⟨rfl, rfl⟩
  rw [frameTick_eq]
  simp only [apply_ite Apu.frame, hclock, ite_self]

theorem FrameSeq.next_counter {f : FrameSeq} (h : f.Inv) : f.next.counter.toNat = (f.counter.toNat + 1) % f.period := by
  rw [FrameSeq.inv_iff] at h
  have hperiod : f.period ≤ 37282 := by
    unfold FrameSeq.period
    split <;> decide
  unfold FrameSeq.next
  dsimp only
  split
  · rename_i hwrap
    rw [hwrap, Nat.mod_self]
    rfl
  · rw [BitVec.toNat_ofNat, Nat.mod_eq_of_lt (by omega), Nat.mod_eq_of_lt (by omega)]

theorem iterate_frameTick_counter {a : Apu} (h : a.frame.Inv) (k : Nat) :
    (Apu.frameTick^[k] a).frame.mode = a.frame.mode ∧
      (Apu.frameTick^[k] a).frame.counter.toNat = (a.frame.counter.toNat + k) % a.frame.period := by
  have hpos : 0 < a.frame.period := Nat.zero_lt_of_lt ((FrameSeq.inv_iff _).mp h)
  induction k with
  | zero => exact ⟨rfl, (Nat.mod_eq_of_lt ((FrameSeq.inv_iff _).mp h)).symm⟩
  | succ k ih =>
    obtain ⟨hmode, hcounter⟩ := ih
    have hperiod : (Apu.frameTick^[k] a).frame.period = a.frame.period := by simp only [FrameSeq.period, hmode]
    have hinv : (Apu.frameTick^[k] a).frame.Inv := by
      rw [FrameSeq.inv_iff, hcounter, hperiod]
      exact Nat.mod_lt _ hpos
    rw [Function.iterate_succ_apply', frameTick_frame]
    refine ⟨hmode, ?_⟩
    rw [FrameSeq.next_counter hinv, hperiod, hcounter, Nat.mod_add_mod, Nat.add_assoc]

/-- Settles O49: one tick at each scheduled count; the counter's range carries the count through `k` ticks. -/
theorem frameSequencerFollowsItsSchedule : Obligations.FrameSequencerFollowsItsSchedule :=
  fun a h => ⟨frameTick_eq a, fun k => (iterate_frameTick_counter h k).2⟩

end Sys2Proof.Machine

namespace Sys2Proof.Machine

/-! # The samples (O50) -/

/-! ## The decimator (48_apu.md R492) -/

theorem decimate_eq (a : Apu) {rate : Nat} (hr : rate ≤ 1786840) (ha : a.decimAcc.toNat < 1786840) :
    Apu.decimate rate a =
      if 1786840 ≤ a.decimAcc.toNat + rate then
        { a with decimAcc := BitVec.ofNat 32 (a.decimAcc.toNat + rate - 1786840), samples := a.samples ++ [a.mix] }
      else { a with decimAcc := BitVec.ofNat 32 (a.decimAcc.toNat + rate) } := by
  have hacc : a.decimAcc + BitVec.ofNat 32 rate = BitVec.ofNat 32 (a.decimAcc.toNat + rate) := ofNat_toNat_add _ _
  have hsum : (BitVec.ofNat 32 (a.decimAcc.toNat + rate)).toNat = a.decimAcc.toNat + rate := by
    rw [BitVec.toNat_ofNat, Nat.mod_eq_of_lt (by omega)]
  unfold Apu.decimate nominalCpuHz
  dsimp only
  rw [hacc, hsum]
  split
  · rw [← BitVec.ofNat_sub_ofNat_of_le _ _ (by decide) ‹_›]
  · rfl

/-- A tick of the decimator, as a division: the quotient is the number of samples, the remainder stays. -/
theorem decimate_count (a : Apu) {rate : Nat} (hr : rate ≤ 1786840) (ha : a.decimAcc.toNat < 1786840) :
    (Apu.decimate rate a).samples.length = a.samples.length + (a.decimAcc.toNat + rate) / 1786840 ∧
      (Apu.decimate rate a).decimAcc.toNat = (a.decimAcc.toNat + rate) % 1786840 := by
  rw [decimate_eq a hr ha]
  split
  · rw [List.length_append, List.length_singleton, BitVec.toNat_ofNat]
    omega
  · dsimp only
    rw [BitVec.toNat_ofNat]
    omega

/-- The timers of a tick leave the accumulator to the decimator. -/
theorem timersTick_decimAcc (a : Apu) : a.timersTick.decimAcc = a.decimAcc := by
  have hframe : a.frameTick.decimAcc = a.decimAcc := by
    simp only [Apu.frameTick, Apu.quarterFrame, Apu.halfFrame]
    split_ifs <;> rfl
  unfold Apu.timersTick
  dsimp only
  split <;> exact hframe

theorem State.readEffect.decimAcc {s t : State} (h : s.readEffect t) : t.apu.decimAcc = s.apu.decimAcc := by
  rw [State.readEffect] at h
  rw [h]

theorem dmcRead_decimAcc (s : State) : (dmcRead s).apu.decimAcc = s.apu.decimAcc := by
  unfold dmcRead
  split
  · exact (memRead_effect s _).decimAcc
  · rfl

theorem apuTick_count {s : State} (hr : s.params.sampleRate ≤ 1786840) (ha : s.apu.decimAcc.toNat < 1786840) :
    (apuTick s).apu.samples.length =
        s.apu.samples.length + (s.apu.decimAcc.toNat + s.params.sampleRate) / 1786840 ∧
      (apuTick s).apu.decimAcc.toNat = (s.apu.decimAcc.toNat + s.params.sampleRate) % 1786840 := by
  have hside := dmcRead_hostSide { s with apu := s.apu.timersTick }
  have hacc : (dmcRead { s with apu := s.apu.timersTick }).apu.decimAcc = s.apu.decimAcc :=
    (dmcRead_decimAcc _).trans (timersTick_decimAcc s.apu)
  have hsamples : (dmcRead { s with apu := s.apu.timersTick }).apu.samples = s.apu.samples :=
    hside.samples.trans (timersTick_samples s.apu)
  unfold apuTick
  dsimp only
  generalize dmcRead { s with apu := s.apu.timersTick } = u at hside hacc hsamples
  have hcount := decimate_count { u.apu with dmc := u.apu.dmc.timerTick } hr (hacc ▸ ha)
  rw [hside.params, ← hacc, ← hsamples]
  exact hcount

/-- `n` ticks append the whole part of the accumulated rate, and keep its remainder. -/
theorem iterate_apuTick_count (n : Nat) {s : State} (hr : s.params.sampleRate ≤ 1786840)
    (ha : s.apu.decimAcc.toNat < 1786840) :
    (apuTick^[n] s).params = s.params ∧
      (apuTick^[n] s).apu.samples.length =
        s.apu.samples.length + (s.apu.decimAcc.toNat + n * s.params.sampleRate) / 1786840 ∧
      (apuTick^[n] s).apu.decimAcc.toNat = (s.apu.decimAcc.toNat + n * s.params.sampleRate) % 1786840 := by
  induction n with
  | zero =>
    rw [Nat.zero_mul, Nat.add_zero, Nat.div_eq_of_lt ha, Nat.mod_eq_of_lt ha]
    exact ⟨rfl, rfl, rfl⟩
  | succ n ih =>
    obtain ⟨hparams, hlength, hacc⟩ := ih
    obtain ⟨hlength', hacc'⟩ := apuTick_count (s := apuTick^[n] s) (by rw [hparams]; exact hr) (by omega)
    rw [Function.iterate_succ_apply', hlength', hacc', hparams, hlength, hacc, Nat.succ_mul]
    exact ⟨(apuTick_turnSide _).params.trans hparams, by omega, by omega⟩

/-! ## The mixer (48_apu.md R490) -/

theorem pulse_out_le (p : Pulse) (k : Fin 2) : p.out k ≤ 15 := by
  unfold Pulse.out
  split
  · decide
  · exact Nat.le_of_lt_succ (BitVec.isLt _)

theorem triangle_out_le (t : Triangle) : t.out ≤ 15 := by
  unfold Triangle.out
  split <;> omega

theorem noise_out_le (n : Noise) : n.out ≤ 15 := by
  unfold Noise.out
  split
  · decide
  · exact Nat.le_of_lt_succ (BitVec.isLt _)

theorem mixNumerator_le (a : Apu) : a.mixNumerator ≤ 85280 := by
  have h0 := pulse_out_le a.pulse0 0
  have h1 := pulse_out_le a.pulse1 1
  have ht := triangle_out_le a.triangle
  have hn := noise_out_le a.noise
  have hd := a.dmc.level.isLt
  unfold Apu.mixNumerator
  omega

/-! ## Rounding to binary32 (00_scope.md R7) -/

/-- The scale is the least in its range that brings the quotient to `2^23` or more. -/
theorem f32Scale_spec {num den : Nat} (fuel k : Nat) (h : 2 ^ 23 * den ≤ num * 2 ^ (k + fuel)) :
    2 ^ 23 * den ≤ num * 2 ^ f32Scale num den fuel k ∧ f32Scale num den fuel k ≤ k + fuel ∧
      ∀ j, k ≤ j → j < f32Scale num den fuel k → num * 2 ^ j < 2 ^ 23 * den := by
  induction fuel generalizing k with
  | zero => exact ⟨h, Nat.le_refl _, fun j hj hlt => absurd hlt (Nat.not_lt.mpr hj)⟩
  | succ fuel ih =>
    unfold f32Scale
    split
    · exact ⟨‹_›, by omega, fun j hj hlt => absurd hlt (Nat.not_lt.mpr hj)⟩
    · rename_i hk
      rw [← Nat.add_assoc, Nat.add_right_comm] at h
      obtain ⟨hge, hle, hleast⟩ := ih (k + 1) h
      refine ⟨hge, by omega, fun j hj hlt => ?_⟩
      obtain rfl | hj := Nat.eq_or_lt_of_le hj
      · exact Nat.not_le.mp hk
      · exact hleast j hj hlt

/-- The scale of the mixer's quotient: at least 24, and half the scaled numerator is below `2^23`. -/
theorem f32Scale_mix {num : Nat} (h0 : 0 < num) (h : num ≤ 85280) :
    ∃ k, f32Scale num 100000 64 0 = k + 1 ∧ 23 ≤ k ∧ k < 64 ∧ 2 ^ 23 * 100000 ≤ num * 2 ^ (k + 1) ∧
      num * 2 ^ k < 2 ^ 23 * 100000 := by
  have hfuel : 2 ^ 23 * 100000 ≤ num * 2 ^ (0 + 64) := by omega
  obtain ⟨hge, hle, hleast⟩ := f32Scale_spec 64 0 hfuel
  generalize f32Scale num 100000 64 0 = k at hge hle hleast
  have hk : 24 ≤ k := by
    by_contra hk
    have hpow : num * 2 ^ k ≤ num * 2 ^ 23 := Nat.mul_le_mul_left _ (Nat.pow_le_pow_right (by decide) (by omega))
    omega
  obtain ⟨k, rfl⟩ : ∃ j, k = j + 1 := ⟨k - 1, by omega⟩
  exact ⟨k, rfl, by omega, by omega, hge, hleast k (Nat.zero_le k) (Nat.lt_succ_self k)⟩

/-- The binary32 word of a quotient below one: its mantissa over `2^k` is within half a unit of it, and even in a tie. -/
theorem f32OfRatio_nearest {num : Nat} (h0 : 0 < num) (h : num ≤ 85280) :
    let w := (f32OfRatio num 100000).toNat
    let k := 150 - w / 2 ^ 23
    let q := 2 ^ 23 + w % 2 ^ 23
    let error := ((q * 100000 : Nat) - (num * 2 ^ k : Nat) : Int).natAbs
    w / 2 ^ 23 ≤ 126 ∧ 2 * error ≤ 100000 ∧ (2 * error = 100000 → q % 2 = 0) := by
  obtain ⟨k, hscale, hk, hk', hge, hlt⟩ := f32Scale_mix h0 h
  have hdouble : num * 2 ^ (k + 1) = 2 * (num * 2 ^ k) := by ring
  have hsmall : k = 23 → num * 2 ^ k ≤ 85280 * 2 ^ 23 := by
    rintro rfl
    exact Nat.mul_le_mul_right _ h
  unfold f32OfRatio
  rw [if_neg (by omega), hscale]
  dsimp only
  generalize hup : (if 100000 < 2 * (num * 2 ^ (k + 1) % 100000) ∨
    2 * (num * 2 ^ (k + 1) % 100000) = 100000 ∧ num * 2 ^ (k + 1) / 100000 % 2 = 1 then 1 else 0) = up
  have hup1 : up ≤ 1 := by
    rw [← hup]
    split <;> decide
  rw [BitVec.toNat_ofNat, Nat.mod_eq_of_lt (by omega)]
  by_cases hcarry : num * 2 ^ (k + 1) / 100000 + up < 2 ^ 24
  · have hexp : 150 - ((150 - (k + 1)) * 2 ^ 23 + (num * 2 ^ (k + 1) / 100000 - 2 ^ 23) + up) / 2 ^ 23 = k + 1 := by
      omega
    rw [hexp]
    split at hup <;> omega
  · have hexp : 150 - ((150 - (k + 1)) * 2 ^ 23 + (num * 2 ^ (k + 1) / 100000 - 2 ^ 23) + up) / 2 ^ 23 = k := by
      omega
    rw [hexp]
    split at hup <;> omega

/-- Settles O50: the decimator tick by tick; the mixer's numerator is bounded, so its quotient is rounded below one. -/
theorem samplesAreTheRoundedMixAtTheRate : Obligations.SamplesAreTheRoundedMixAtTheRate := by
  refine ⟨fun a rate => decimate_eq a, fun n s hr ha => (iterate_apuTick_count n hr ha).2.1,
    fun a => ⟨rfl, mixNumerator_le a, fun h => ?_, fun h => f32OfRatio_nearest h (mixNumerator_le a)⟩⟩
  have hzero : a.mix = 0#32 := if_pos h
  rw [hzero, BitVec.toNat_zero]

end Sys2Proof.Machine

namespace Sys2Proof.Machine

/-! # The poll and the entries (O26, O27) -/

theorem cpuStep_nmi {s : State} (h : s.cpu.nmiPending = true) :
    cpuStep s = .next (enter (s.withCpu fun p => { p with nmiPending := false }) s.cpu.pc false nmiVector) := if_pos h

theorem cpuStep_irq {s : State} (hn : s.cpu.nmiPending = false) (hi : s.cpu.irqPending = true) (hm : s.cpu.i = false) :
    cpuStep s = .next (enter s s.cpu.pc false irqVector) := by
  simp [cpuStep, hn, hi, hm]

theorem cpuStep_instr {s : State} (hn : s.cpu.nmiPending = false) (hm : s.cpu.irqPending = true → s.cpu.i = true) :
    cpuStep s = exec (fetchInstr s).1 (fetchInstr s).2 := by
  have hmasked : (s.cpu.irqPending && !s.cpu.i) = false := by
    cases hi : s.cpu.irqPending with
    | false => rfl
    | true => rw [hm hi]; rfl
  simp [cpuStep, hn, hmasked]

/-- Settles O26: the three cases of the poll; what an entry does is `enter_eq`. -/
theorem interruptPollChoosesTheEntry : Obligations.InterruptPollChoosesTheEntry := by
  refine fun s => ⟨fun h => ?_, fun hn hi hm => ?_, fun hn hm => cpuStep_instr hn hm⟩
  · rw [cpuStep_nmi h, enter_eq _ _ _ nmiVector (by decide) (by decide)]
    rfl
  · rw [cpuStep_irq hn hi hm, enter_eq _ _ _ irqVector (by decide) (by decide)]
    simp only [hn]
    rfl

/-! ## The return from an entry (60_exceptions.md R590) -/

section Entered

variable (s : State) (ret : Word) (b : Bool) {vector : Word} (h : 0x4020 ≤ vector.toNat) (h' : vector.toNat < 0xFFFF)
include h h'

theorem enter_byte_status : (enter s ret b vector).byte (.ram (stackCell (s.cpu.s - 2#8))) = s.cpu.status b := by
  rw [enter_eq s ret b vector h h']
  exact Mem.read_write_same _ _ _

theorem enter_byte_low : (enter s ret b vector).byte (.ram (stackCell (s.cpu.s - 1#8))) = lo ret := by
  rw [enter_eq s ret b vector h h', lo_eq]
  exact (Mem.read_write_other _ _ (stackCell_ne (by bv_omega))).trans (Mem.read_write_same _ _ _)

theorem enter_byte_high : (enter s ret b vector).byte (.ram (stackCell s.cpu.s)) = hi ret := by
  rw [enter_eq s ret b vector h h', hi_eq]
  exact (Mem.read_write_other _ _ (stackCell_ne (by bv_omega))).trans
    ((Mem.read_write_other _ _ (stackCell_ne (by bv_omega))).trans (Mem.read_write_same _ _ _))

theorem enter_byte_other {l : Loc} (hhigh : l ≠ .ram (stackCell s.cpu.s)) (hlow : l ≠ .ram (stackCell (s.cpu.s - 1#8)))
    (hstatus : l ≠ .ram (stackCell (s.cpu.s - 2#8))) : (enter s ret b vector).byte l = s.byte l := by
  rw [enter_eq s ret b vector h h']
  cases l with
  | ram i =>
    exact (Mem.read_write_other _ _ fun e => hstatus (congrArg _ e)).trans
      ((Mem.read_write_other _ _ fun e => hlow (congrArg _ e)).trans
        (Mem.read_write_other _ _ fun e => hhigh (congrArg _ e)))
  | _ => rfl

/-- RTI finds the status and the address the entry left: `I` is as before and `S` is back. -/
theorem enter_returned_cpu :
    (returnFromInterrupt (enter s ret b vector)).cpu = Cpu.later { s.cpu with pc := ret } 13 := by
  have hstatus := enter_byte_status s ret b h h'
  have hlow := enter_byte_low s ret b h h'
  have hhigh := enter_byte_high s ret b h h'
  have hcpu := congrArg State.cpu (enter_eq s ret b vector h h')
  have h1 : s.cpu.s - 3#8 + 1#8 = s.cpu.s - 2#8 := by bv_omega
  have h2 : s.cpu.s - 3#8 + 2#8 = s.cpu.s - 1#8 := by bv_omega
  have h3 : s.cpu.s - 3#8 + 3#8 = s.cpu.s := by bv_omega
  have hret : BitVec.ofNat 16 ((lo ret).toNat + 256 * (hi ret).toNat) = ret := by
    rw [Nat.add_comm, ← word_eq]
    exact word_hi_lo ret
  have hflags := withStatus_status s.cpu (Cpu.later { s.cpu with i := true, pc := ret } 7) b
  have hs : (enter s ret b vector).cpu.s = s.cpu.s - 3#8 := by rw [hcpu]; rfl
  rw [returnFromInterrupt_eq]
  simp only [hs, h1, h2, h3, hstatus, hlow, hhigh, hret]
  rw [hcpu]
  exact (congrArg (Cpu.later · 6) hflags).trans (Cpu.later_later { s.cpu with pc := ret } 7 6)

end Entered

/-- Settles O27: RTI changes the CPU registers alone, so what is left of storage is what the entry left. -/
theorem returnAfterEntryRestoresTheFlags : Obligations.ReturnAfterEntryRestoresTheFlags := by
  intro s ret b vector h h'
  refine ⟨_, rfl, enter_returned_cpu s ret b h h', fun l hhigh hlow hstatus => ?_, ?_⟩
  · rw [← enter_byte_other s ret b h h' hhigh hlow hstatus, returnFromInterrupt_eq]
    cases l <;> rfl
  · rw [returnFromInterrupt_eq, enter_eq s ret b vector h h']

end Sys2Proof.Machine

namespace Sys2Proof.Machine

/-! # The count and the latches of a CPU step (O28, O29) -/

/-! ## What an instruction does to the latches and the cycle count -/

/-- `q` has the interrupt latches and the cycle count of `p`. -/
def Cpu.sameClock (p q : Cpu) : Prop :=
  q.nmiPending = p.nmiPending ∧ q.irqPending = p.irqPending ∧ q.cycles = p.cycles

/-- From `p` to `q` the CPU counted `n` cycles; the IRQ latch is as it was, and the NMI latch can only have been set. -/
structure Cpu.ran (n : Nat) (p q : Cpu) : Prop where
  nmi : p.nmiPending = true → q.nmiPending = true
  irq : q.irqPending = p.irqPending
  cycles : q.cycles = p.cycles + BitVec.ofNat 64 n

theorem Cpu.sameClock.later {p q : Cpu} (h : p.sameClock q) (n : Nat) : p.ran n (q.later n) := by
  obtain ⟨hnmi, hirq, hcycles⟩ := h
  exact ⟨fun hp => hnmi.trans hp, hirq, congrArg (· + BitVec.ofNat 64 n) hcycles⟩

theorem Cpu.sameClock.ran {p q r : Cpu} {n : Nat} (h : p.sameClock q) (hr : q.ran n r) : p.ran n r := by
  obtain ⟨hnmi, hirq, hcycles⟩ := h
  exact ⟨fun hp => hr.nmi (hnmi.trans hp), hr.irq.trans hirq, by rw [hr.cycles, hcycles]⟩

/-- A count of at least two cycles, and of at most 521 where `c` holds. -/
def countedIn (c : Prop) (p q : Cpu) : Prop := ∃ n, p.ran n q ∧ 2 ≤ n ∧ (c → n ≤ 521)

theorem later_counted {p q : Cpu} {c : Prop} {n : Nat} (h2 : 2 ≤ n) (h521 : n ≤ 521) (h : p.sameClock q) :
    countedIn c p (q.later n) := ⟨n, h.later n, h2, fun _ => h521⟩

theorem dmaCycles_le (ea : Word) (c0 : BitVec 64) (n : Nat) : dmaCycles ea c0 n ≤ 514 := by
  unfold dmaCycles
  split <;> omega

theorem store_ran (s : State) (ea : Word) (v : Byte) (n : Nat) :
    s.cpu.ran (n + dmaCycles ea s.cpu.cycles n) (s.store ea v n).cpu := by
  rw [store_cpu]
  exact ⟨(memWrite_effect s ea v).nmi, rfl, rfl⟩

/-- The counts of the tables lie between 2 and 7, one more for a crossed page. -/
theorem readBase_bounds (m : MemMode) : 3 ≤ readBase m ∧ readBase m ≤ 6 := by
  unfold readBase
  split <;> decide

theorem storeCycles_bounds (m : MemMode) : 3 ≤ storeCycles m ∧ storeCycles m ≤ 6 := by
  unfold storeCycles
  split <;> decide

theorem rmwCycles_le {m : MemMode} (h : m.mode ∈ rmwModes) : rmwCycles m ≤ 7 := by
  cases m with
  | izx a | izy a => simp [MemMode.mode, rmwModes] at h
  | _ => simp [rmwCycles, storeCycles]

theorem readOperand_count (s : State) (o : ReadOp) : 2 ≤ (readOperand s o).2.1 ∧ (readOperand s o).2.1 ≤ 7 := by
  cases o with
  | imm v => exact ⟨Nat.le_refl 2, Nat.le_add_left 2 5⟩
  | mem m =>
    have hbase := readBase_bounds m
    have hcross := (effAddr s m).1.crossed.toNat_le
    rw [readOperand_mem]
    dsimp only
    omega

theorem branchCycles_bounds (taken : Bool) (pc target : Word) :
    2 ≤ branchCycles taken pc target ∧ branchCycles taken pc target ≤ 4 := by
  cases taken with
  | false => exact ⟨Nat.le_refl 2, Nat.le_add_left 2 2⟩
  | true =>
    rw [branchCycles_taken]
    split <;> decide

theorem readThen_counted (s : State) (o : ReadOp) {f : Cpu → Byte → Cpu} {c : Prop}
    (hf : ∀ (p : Cpu) (b : Byte), p.sameClock (f p b)) :
    countedIn c s.cpu (readThen s o f).cpu := by
  obtain ⟨h2, h7⟩ := readOperand_count s o
  rw [readThen_cpu]
  exact later_counted h2 (by omega) (hf _ _)

theorem storeTo_counted (s : State) (m : MemMode) (v : Byte) {c : Prop} : countedIn c s.cpu (storeTo s m v).cpu := by
  obtain ⟨h3, h6⟩ := storeCycles_bounds m
  have hdma := dmaCycles_le (effAddr s m).1.addr s.cpu.cycles (storeCycles m)
  rw [storeTo, effAddr_state]
  exact ⟨_, store_ran _ _ _ _, by omega, by omega⟩

theorem modify_counted (s : State) (m : MemMode) {f : Cpu → Byte → Byte × Cpu} {c : Prop} (hc : c → m.mode ∈ rmwModes)
    (hf : ∀ (p : Cpu) (b : Byte), p.sameClock (f p b).2) : countedIn c s.cpu (modify s m f).cpu := by
  have h3 := (storeCycles_bounds m).1
  rw [modify_eq]
  dsimp only
  generalize memRead s (effAddr s m).1.addr = b
  have hstore := store_ran { b.2 with cpu := (f s.cpu b.1).2 } (effAddr s m).1.addr (f s.cpu b.1).1 (rmwCycles m)
  exact ⟨_, (hf s.cpu b.1).ran hstore, by unfold rmwCycles; omega,
    fun h => Nat.add_le_add (rmwCycles_le (hc h)) (dmaCycles_le _ _ _)⟩

theorem implied_counted (s : State) {f : Cpu → Cpu} {c : Prop} (hf : ∀ p : Cpu, p.sameClock (f p)) :
    countedIn c s.cpu (implied s f).cpu := later_counted (by decide) (by decide) (hf s.cpu)

theorem shiftThen_counted (s : State) (o : RmwOp) (f : ShiftOp) {c : Prop} (hc : c → o.mode ∈ Mode.acc :: rmwModes) :
    countedIn c s.cpu (shiftThen s o f).cpu := by
  cases o with
  | acc => exact implied_counted s fun _ => ⟨rfl, rfl, rfl⟩
  | mem m =>
    rw [shiftThen]
    refine modify_counted s m (fun h => ?_) fun _ _ => ⟨rfl, rfl, rfl⟩
    refine (List.mem_cons.mp (hc h)).resolve_left ?_
    cases m <;> exact nofun

theorem branch_counted (s : State) (off : Byte) (taken : Bool) {c : Prop} : countedIn c s.cpu (branch s off taken).cpu := by
  obtain ⟨h2, h4⟩ := branchCycles_bounds taken s.cpu.pc (branchTarget s.cpu.pc off)
  rw [branch_cpu]
  exact later_counted h2 (by omega) ⟨rfl, rfl, rfl⟩

theorem enter_counted (s : State) (ret : Word) (b : Bool) {vector : Word} (h : 0x4020 ≤ vector.toNat)
    (h' : vector.toNat < 0xFFFF) {c : Prop} : countedIn c s.cpu (enter s ret b vector).cpu := by
  rw [enter_eq s ret b vector h h']
  exact later_counted (by decide) (by decide) ⟨rfl, rfl, rfl⟩

/-- Every instruction counts at least two cycles, a well-formed one at most 521 (30_encoding.md R121, R138). -/
theorem exec_counted {i : Instr} {s t : State} (he : exec i s = .next t) : countedIn (WellFormed i) s.cpu t.cpu := by
  cases i with
  | lda o | ldx o | ldy o | adc o | sbc o | and o | ora o | eor o | cmp o | cpx o | cpy o =>
    obtain rfl := Host.Outcome.next.inj he
    exact readThen_counted s o fun _ _ => ⟨rfl, rfl, rfl⟩
  | bit m =>
    obtain rfl := Host.Outcome.next.inj he
    exact readThen_counted s _ fun _ _ => ⟨rfl, rfl, rfl⟩
  | sta m | stx m | sty m =>
    obtain rfl := Host.Outcome.next.inj he
    exact storeTo_counted s m _
  | inc m | dec m =>
    obtain rfl := Host.Outcome.next.inj he
    exact modify_counted s m of_decide_eq_true fun _ _ => ⟨rfl, rfl, rfl⟩
  | asl o | lsr o | rol o | ror o =>
    obtain rfl := Host.Outcome.next.inj he
    exact shiftThen_counted s o _ of_decide_eq_true
  | tax | tay | txa | tya | tsx | txs | inx | iny | dex | dey | clc | sec | cli | sei | cld | sed | clv | nop =>
    obtain rfl := Host.Outcome.next.inj he
    exact implied_counted s fun _ => ⟨rfl, rfl, rfl⟩
  | bcc o | bcs o | beq o | bmi o | bne o | bpl o | bvc o | bvs o =>
    obtain rfl := Host.Outcome.next.inj he
    exact branch_counted s o _
  | jmp o =>
    cases o with
    | abs a =>
      obtain rfl := Host.Outcome.next.inj he
      exact later_counted (n := 3) (by decide) (by decide) ⟨rfl, rfl, rfl⟩
    | ind a =>
      obtain ⟨-, hind, -, -⟩ := jumpsSetPcAlone.2 s a
      obtain rfl := Host.Outcome.next.inj (hind.symm.trans he)
      exact later_counted (n := 5) (by decide) (by decide) ⟨rfl, rfl, rfl⟩
  | jsr a =>
    obtain rfl := Host.Outcome.next.inj ((exec_jsr s a).symm.trans he)
    exact later_counted (n := 6) (by decide) (by decide) ⟨rfl, rfl, rfl⟩
  | rts =>
    obtain rfl := Host.Outcome.next.inj ((exec_rts s).symm.trans he)
    exact later_counted (n := 6) (by decide) (by decide) ⟨rfl, rfl, rfl⟩
  | pha | php =>
    obtain rfl := Host.Outcome.next.inj he
    rw [push_consume]
    exact later_counted (n := 3) (by decide) (by decide) ⟨rfl, rfl, rfl⟩
  | pla | plp =>
    obtain rfl := Host.Outcome.next.inj he
    rw [pull_eq]
    exact later_counted (n := 4) (by decide) (by decide) ⟨rfl, rfl, rfl⟩
  | brk =>
    obtain rfl := Host.Outcome.next.inj he
    exact enter_counted s _ true (vector := irqVector) (by decide) (by decide)
  | rti =>
    obtain rfl := Host.Outcome.next.inj he
    rw [returnFromInterrupt_eq]
    exact later_counted (n := 6) (by decide) (by decide) ⟨rfl, rfl, rfl⟩
  | undefined op =>
    obtain rfl := Host.Outcome.next.inj he
    refine later_counted (n := 2) (q := (raiseUnsupported s op (s.cpu.pc - 1#16)).cpu) (by decide) (by decide) ?_
    unfold raiseUnsupported State.withCpu
    dsimp only
    split <;> exact ⟨rfl, rfl, rfl⟩

/-! ## What a CPU step does to them -/

theorem fetchByte_sameClock (s : State) : s.cpu.sameClock (fetchByte s).2.cpu := by
  rw [fetchByte, jump_cpu, (memRead_effect s _).cpu]
  exact ⟨rfl, rfl, rfl⟩

theorem Cpu.sameClock.trans {p q r : Cpu} (h1 : p.sameClock q) (h2 : q.sameClock r) : p.sameClock r := by
  obtain ⟨hnmi, hirq, hcycles⟩ := h1
  obtain ⟨hnmi', hirq', hcycles'⟩ := h2
  exact ⟨hnmi'.trans hnmi, hirq'.trans hirq, hcycles'.trans hcycles⟩

/-- The fetch answers a well-formed instruction and counts no cycle. -/
theorem fetchInstr_sameClock (s : State) : WellFormed (fetchInstr s).1 ∧ s.cpu.sameClock (fetchInstr s).2.cpu := by
  have hop := fetchByte_sameClock s
  unfold fetchInstr
  dsimp only
  split
  · exact ⟨wellFormed_decodeOp _ _ _, hop⟩
  · exact ⟨wellFormed_decodeOp _ _ _, hop.trans (fetchByte_sameClock _)⟩
  · exact ⟨wellFormed_decodeOp _ _ _, (hop.trans (fetchByte_sameClock _)).trans (fetchByte_sameClock _)⟩

/-- A CPU step counts 2 to 521 cycles and does not change the IRQ latch. -/
theorem cpuStep_counted {s t : State} (he : cpuStep s = .next t) :
    (∃ n, 2 ≤ n ∧ n ≤ 521 ∧ t.cpu.cycles = s.cpu.cycles + BitVec.ofNat 64 n) ∧
      t.cpu.irqPending = s.cpu.irqPending := by
  have of_counted {p : Cpu} (h : countedIn True p t.cpu) (hcycles : p.cycles = s.cpu.cycles)
      (hirq : p.irqPending = s.cpu.irqPending) : (∃ n, 2 ≤ n ∧ n ≤ 521 ∧ t.cpu.cycles = s.cpu.cycles + BitVec.ofNat 64 n) ∧
      t.cpu.irqPending = s.cpu.irqPending := by
    obtain ⟨n, hran, h2, h521⟩ := h
    exact ⟨⟨n, h2, h521 trivial, hcycles ▸ hran.cycles⟩, hran.irq.trans hirq⟩
  unfold cpuStep at he
  split at he
  · obtain rfl := Host.Outcome.next.inj he
    exact of_counted (enter_counted _ _ _ (vector := nmiVector) (by decide) (by decide)) rfl rfl
  · split at he
    · obtain rfl := Host.Outcome.next.inj he
      exact of_counted (enter_counted _ _ _ (vector := irqVector) (by decide) (by decide)) rfl rfl
    · obtain ⟨hwf, -, hirq, hcycles⟩ := fetchInstr_sameClock s
      obtain ⟨n, hran, h2, h521⟩ := exec_counted he
      exact of_counted ⟨n, hran, h2, fun _ => h521 hwf⟩ hcycles hirq

theorem stepCycles_bounds {s t : State} (he : cpuStep s = .next t) : 2 ≤ stepCycles s t ∧ stepCycles s t ≤ 521 := by
  obtain ⟨⟨n, h2, h521, hcycles⟩, -⟩ := cpuStep_counted he
  have hn : stepCycles s t = n := by
    rw [stepCycles, hcycles, BitVec.add_comm, BitVec.add_sub_cancel, BitVec.toNat_ofNat, Nat.mod_eq_of_lt (by omega)]
  omega

theorem step_next (s : State) : ∃ t, step s = .next t := by
  obtain ⟨t, -, ht⟩ := machineTurn_eq s
  unfold step stepMachine
  rw [ht]
  split <;> exact ⟨_, rfl⟩

theorem step_empty {s : State} (h : s.loaded = false) : step s = .next s := by
  rw [step, stepMachine, h]
  rfl

/-- Settles O29: the count of a CPU step is that of its instruction or entry; only it decides whether a step goes on. -/
theorem everyStepGoesOnAfterTwoTo521Cycles : Obligations.EveryStepGoesOnAfterTwoTo521Cycles := by
  refine ⟨fun s => ?_, step_next, fun s => step_empty⟩
  obtain ⟨t, ht⟩ := cpuStep_next s
  exact ⟨t, ht, stepCycles_bounds ht⟩

/-! ## The latches along the fan-out (60_exceptions.md R583, R584) -/

theorem fanOutCycle_nmi {s : State} (h : s.cpu.nmiPending = true) : (fanOutCycle s).cpu.nmiPending = true := by
  have hdots := ((ppuTick_dotEffect s).trans (ppuTick_dotEffect _)).trans (ppuTick_dotEffect _)
  have hapu (u : State) : (apuTick u).cpu = u.cpu := dmcRead_cpu { u with apu := u.apu.timersTick }
  rw [fanOutCycle, sampleIrq_cpu, hapu]
  exact hdots.nmi h

theorem fanOut_nmi (n : Nat) {s : State} (h : s.cpu.nmiPending = true) : (fanOut n s).cpu.nmiPending = true := by
  induction n generalizing s with
  | zero => exact h
  | succ n ih => exact ih (fanOutCycle_nmi h)

theorem sampleIrq_irq (s : State) : (sampleIrq s).cpu.irqPending = irqLevel (sampleIrq s) := rfl

theorem fanOutCycle_irq (s : State) : (fanOutCycle s).cpu.irqPending = irqLevel (fanOutCycle s) :=
  sampleIrq_irq (apuTick (ppuTick (ppuTick (ppuTick s))))

/-- The IRQ latch is the OR of its three sources after every cycle, so after every fan-out of one or more. -/
theorem fanOut_irq (n : Nat) (s : State) : (fanOut (n + 1) s).cpu.irqPending = irqLevel (fanOut (n + 1) s) := by
  induction n generalizing s with
  | zero => exact fanOutCycle_irq s
  | succ n ih => exact ih (fanOutCycle s)

theorem machineTurn_irq {s u : State} (h : machineTurn s = .next u) : u.cpu.irqPending = irqLevel u := by
  obtain ⟨t, ht, hu⟩ := machineTurn_eq s
  obtain rfl := Host.Outcome.next.inj (hu.symm.trans h)
  obtain ⟨n, hn⟩ : ∃ n, stepCycles s t = n + 1 := ⟨stepCycles s t - 1, by have := (stepCycles_bounds ht).1; omega⟩
  rw [hn]
  exact fanOut_irq n t

theorem cpuStep_clears_nmi {s : State} (h : s.cpu.nmiPending = true) : ∃ t, cpuStep s = .next t ∧ t.cpu.nmiPending = false := by
  refine ⟨_, cpuStep_nmi h, ?_⟩
  rw [enter_eq _ _ _ nmiVector (by decide) (by decide)]
  rfl

/-- Settles O28: the NMI latch by instruction, cycle and entry; the IRQ latch is written by the fan-out alone, which has at
least two cycles. -/
theorem interruptLatchesFollowTheirSources : Obligations.InterruptLatchesFollowTheirSources := by
  refine ⟨fun i s t he => ?_, fun n s => fanOut_nmi n, fun s => cpuStep_clears_nmi, fun s t he => (cpuStep_counted he).2,
    fun n s => ⟨fanOutCycle_irq s, rfl⟩, fun s t hl he => ?_⟩
  · obtain ⟨n, hran, -⟩ := exec_counted he
    exact hran.nmi
  · obtain ⟨hempty, -⟩ | ⟨u, -, hu, hend⟩ := step_cases he
    · exact absurd (hl.symm.trans hempty) (by decide)
    · have hirq := machineTurn_irq hu
      obtain ⟨-, rfl⟩ | ⟨-, rfl⟩ := hend
      · exact hirq
      · exact hirq

end Sys2Proof.Machine

namespace Sys2Proof.Machine

/-! # The fetch (O4) -/

theorem memRead_jump (s : State) (pc a : Word) :
    memRead (s.jump pc) a = ((memRead s a).1, (memRead s a).2.jump pc) := by
  have hcpu := (memRead_effect s a).cpu
  rw [State.jump, State.withCpu, memRead_cpu, State.jump, State.withCpu, hcpu]

theorem fetchByte_eq (s : State) :
    fetchByte s = ((memRead s s.cpu.pc).1, (memRead s s.cpu.pc).2.jump (s.cpu.pc + 1#16)) := by
  rw [fetchByte, (memRead_effect s _).cpu]

theorem operandCount_eq (op : Byte) : (decodeOp op 0#8 0#8).size = operandCount op + 1 :=
  (Nat.sub_add_cancel (decodeOp op 0#8 0#8).size_bounds.1).symm

/-- The fetch reads at `PC` and on, as many bytes as the opcode's format has (30_encoding.md R121). -/
theorem fetchInstr_eq (s : State) :
    let op := memRead s s.cpu.pc
    let s1 := op.2.jump (s.cpu.pc + 1#16)
    let b1 := memRead s1 (s.cpu.pc + 1#16)
    let s2 := b1.2.jump (s.cpu.pc + 2#16)
    let b2 := memRead s2 (s.cpu.pc + 2#16)
    let s3 := b2.2.jump (s.cpu.pc + 3#16)
    fetchInstr s =
      (if (decodeOp op.1 0#8 0#8).size = 1 then (decodeOp op.1 0#8 0#8, s1)
       else if (decodeOp op.1 0#8 0#8).size = 2 then (decodeOp op.1 b1.1 0#8, s2)
       else (decodeOp op.1 b1.1 b2.1, s3)) := by
  intro op s1 b1 s2 b2 s3
  have h2 : s.cpu.pc + 1#16 + 1#16 = s.cpu.pc + 2#16 := by bv_omega
  have h3 : s.cpu.pc + 2#16 + 1#16 = s.cpu.pc + 3#16 := by bv_omega
  have hop : fetchByte s = (op.1, s1) := fetchByte_eq s
  have hb1 : fetchByte s1 = (b1.1, s2) := (fetchByte_eq s1).trans (by rw [jump_cpu, h2])
  have hb2 : fetchByte s2 = (b2.1, s3) := (fetchByte_eq s2).trans (by rw [jump_cpu, h3])
  rw [operandCount_eq]
  unfold fetchInstr
  simp only [hop, hb1, hb2]
  split
  case h_1 h => rw [h]; rfl
  case h_2 h => rw [h]; rfl
  case h_3 h0 h1 => rw [if_neg fun h => h0 (Nat.succ.inj h), if_neg fun h => h1 (Nat.succ.inj h)]

/-- Bytes read without side effects are fetched, and the fetch moves `PC` past them. -/
theorem fetchInstr_of_decode {s : State} {i : Instr} {rest : List Byte}
    (hpure : ∀ k < i.size, readHasEffect (s.cpu.pc + BitVec.ofNat 16 k) = false)
    (hdecode : decode [(memRead s s.cpu.pc).1, (memRead s (s.cpu.pc + 1#16)).1, (memRead s (s.cpu.pc + 2#16)).1] =
      .ok (i, rest)) :
    fetchInstr s = (i, s.jump (s.cpu.pc + BitVec.ofNat 16 i.size)) := by
  obtain ⟨op, bs, hcount, hbytes, rfl⟩ := (decode_eq_ok_iff _ _ _).mp hdecode
  have hop : (memRead s s.cpu.pc).1 = op := (List.cons.inj hbytes).1
  have hsize (b1 b2 : Byte) : (decodeOp op b1 b2).size = bs.length + 1 := by
    rw [hcount, decodeOp_eq_withOperand, Instr.size_withOperand, operandCount_eq]
  have hread0 : (memRead s s.cpu.pc).2 = s := by
    have h := hpure 0 (by rw [hsize]; omega)
    rw [BitVec.add_zero] at h
    exact memRead_pure h
  have hread (k : Nat) (hk : k ≤ bs.length) : (memRead s (s.cpu.pc + BitVec.ofNat 16 k)).2 = s :=
    memRead_pure (hpure k (by rw [hsize]; omega))
  have hjump (a b : Word) : (s.jump a).jump b = s.jump b := rfl
  rw [hsize]
  have hfetch := fetchInstr_eq s
  dsimp only at hfetch
  rw [hfetch, hop, hsize, hread0]
  obtain _ | ⟨b1, _ | ⟨b2, _ | ⟨b3, bs⟩⟩⟩ := bs
  · rfl
  · have hb1 : (memRead s (s.cpu.pc + 1#16)).1 = b1 := (List.cons.inj (List.cons.inj hbytes).2).1
    simp [memRead_jump, hb1, hread 1 (Nat.le_refl _), hjump]
  · have hb1 : (memRead s (s.cpu.pc + 1#16)).1 = b1 := (List.cons.inj (List.cons.inj hbytes).2).1
    have hb2 : (memRead s (s.cpu.pc + 2#16)).1 = b2 := (List.cons.inj (List.cons.inj (List.cons.inj hbytes).2).2).1
    simp [memRead_jump, hb1, hb2, hread 1 (by simp), hread 2 (by simp), hjump]
  · exact absurd (operandCount_le_two op) (by rw [← hcount]; simp)

/-- A step of a loaded machine that takes no interrupt is the instruction fetched, its fan-out and the end of the frame. -/
theorem step_of_exec {s u t : State} {i : Instr} (hl : s.loaded = true) (hn : s.cpu.nmiPending = false)
    (hm : s.cpu.irqPending = true → s.cpu.i = true) (hfetch : fetchInstr s = (i, u)) (ht : exec i u = .next t) :
    step s = .next (closeFrame (fanOut (stepCycles s t) t)) := by
  have hstep : cpuStep s = .next t := by rw [cpuStep_instr hn hm, hfetch, ht]
  rw [step, stepMachine, if_pos hl, machineTurn, hstep]

/-- Settles O4: the poll takes no interrupt, so the step is the fetch and the instruction. -/
theorem stepRunsTheDecodedInstruction : Obligations.StepRunsTheDecodedInstruction := by
  refine ⟨fun s i rest hl hn hm hpure hdecode => ⟨?_, ?_⟩, fetchInstr_eq⟩
  · obtain ⟨op, bs, -, -, rfl⟩ := (decode_eq_ok_iff _ _ _).mp hdecode
    exact wellFormed_decodeOp _ _ _
  · obtain ⟨t, ht⟩ := exec_next i (s.jump (s.cpu.pc + BitVec.ofNat 16 i.size))
    rw [step_of_exec hl hn hm (fetchInstr_of_decode hpure hdecode) ht, ht]
    rfl

end Sys2Proof.Machine

namespace Sys2Proof.Machine

/-! # The end of a frame (O53) -/

/-! ## The flag a VBlank entry sets -/

/-- The dots before the next VBlank entry (47_ppu.md R361, R371). -/
def Ppu.toEntry (p : Ppu) : Nat := (82182 + 89342 - p.position) % 89342

/-- From `p` to `q` the PPU ran `n` dots, and the frame is complete when one of them was the VBlank entry. -/
structure Ppu.runs (n : Nat) (p q : Ppu) : Prop where
  moves : Ppu.moves n p q
  completes : p.inFrame → q.frameComplete = (p.frameComplete || decide (p.toEntry < n))

theorem Ppu.inFrame.position_lt {p : Ppu} (h : p.inFrame) : p.position < 89342 := by
  obtain ⟨h1, h2⟩ := h
  unfold Ppu.position
  omega

/-- While the entry is not reached, `n` dots bring it `n` dots nearer. -/
theorem Ppu.moves.toEntry {n : Nat} {p q : Ppu} (h : Ppu.moves n p q) (hp : p.inFrame) (hn : n ≤ p.toEntry) :
    q.toEntry = p.toEntry - n := by
  have hlt := hp.position_lt
  obtain ⟨hq, hpos⟩ := h hp
  have hlt' := hq.position_lt
  unfold Ppu.toEntry at *
  omega

theorem Ppu.runs.trans {m n : Nat} {p q r : Ppu} (h1 : Ppu.runs m p q) (h2 : Ppu.runs n q r) : Ppu.runs (m + n) p r where
  moves := h1.moves.trans h2.moves
  completes hp := by
    rw [h2.completes (h1.moves hp).1, h1.completes hp, Bool.or_assoc, ← Bool.decide_or]
    congr 2
    by_cases hm : p.toEntry < m
    · simp only [hm, true_or, true_iff, eq_iff_iff]
      omega
    · have hq := h1.moves.toEntry hp (Nat.le_of_not_lt hm)
      simp only [hm, false_or, eq_iff_iff]
      omega

theorem runs_zero {p q : Ppu} (h : p.samePosition q) (hf : q.frameComplete = p.frameComplete) : Ppu.runs 0 p q :=
  ⟨h.moves, fun _ => by simp [hf]⟩

theorem ppuTick_runs (s : State) : Ppu.runs 1 s.ppu (ppuTick s).ppu where
  moves := ppuTick_moves s
  completes hp := by
    have hlt := hp.position_lt
    have hentry : s.ppu.toEntry < 1 ↔ s.ppu.scanline = 241 ∧ s.ppu.dot = 1 := by
      rw [← position_eq_entry_iff hp]
      unfold Ppu.toEntry
      omega
    obtain ⟨-, -, hf, -⟩ : _ ∧ _ ∧ _ ∧ _ := by simpa only [Ppu.clock, Prod.mk.injEq] using dotWork_clock s
    rw [ppuTick_eq, withPpu_ppu, (advance_flags _).1, hf]
    by_cases hat : s.ppu.scanline = 241 ∧ s.ppu.dot = 1
    · rw [if_pos hat, decide_eq_true (hentry.mpr hat), Bool.or_true]
    · rw [if_neg hat, decide_eq_false fun h => hat (hentry.mp h), Bool.or_false]

/-! ## What else leaves the flag alone -/

theorem State.readEffect.frameComplete {s t : State} (h : s.readEffect t) :
    t.ppu.frameComplete = s.ppu.frameComplete := by
  rw [State.readEffect] at h
  rw [h]

theorem ppuWrite_frameComplete (s : State) (a : Nat) (v : Byte) :
    (ppuWrite s a v).ppu.frameComplete = s.ppu.frameComplete := by
  rw [ppuWrite_ppu]

theorem writePpuReg_frameComplete (s : State) (r : Nat) (v : Byte) :
    (writePpuReg s r v).ppu.frameComplete = s.ppu.frameComplete := by
  unfold writePpuReg
  split
  case h_6 => unfold writePpuScroll; dsimp only; split <;> rfl
  case h_7 => unfold writePpuAddr; dsimp only; split <;> rfl
  case h_8 => exact ppuWrite_frameComplete s _ v
  all_goals rfl

theorem oamDma_frameComplete (s : State) (p : Byte) : (oamDma s p).ppu.frameComplete = s.ppu.frameComplete := by
  unfold oamDma
  generalize List.range 256 = is
  induction is generalizing s with
  | nil => rfl
  | cons i is ih => exact (ih (oamDmaByte p s i)).trans (memRead_effect s _).frameComplete

theorem memWrite_frameComplete (s : State) (a : Word) (v : Byte) :
    (memWrite s a v).ppu.frameComplete = s.ppu.frameComplete := by
  unfold memWrite
  split
  case h_2 => exact writePpuReg_frameComplete s _ v
  case h_5 => exact oamDma_frameComplete s v
  case h_8 => rw [mapWrite_ppu]
  all_goals rfl

theorem runs_zero_kept (p : Ppu) : Kept fun s => Ppu.runs 0 p s.ppu where
  read a h := h.trans (runs_zero (memRead_effect _ a).samePosition (memRead_effect _ a).frameComplete)
  write a v h := h.trans (runs_zero (memWrite_samePosition _ a v) (memWrite_frameComplete _ a v))
  cpu h _ := h

theorem apuTick_runs (s : State) : Ppu.runs 0 s.ppu (apuTick s).ppu := by
  refine runs_zero (apuTick_samePosition s) ?_
  change (dmcRead _).ppu.frameComplete = _
  unfold dmcRead
  split
  · exact (memRead_effect _ _).frameComplete
  · rfl

theorem fanOutCycle_runs (s : State) : Ppu.runs 3 s.ppu (fanOutCycle s).ppu := by
  rw [fanOutCycle, sampleIrq_ppu]
  exact (((ppuTick_runs s).trans (ppuTick_runs _)).trans (ppuTick_runs _)).trans (apuTick_runs _)

theorem fanOut_runs (n : Nat) (s : State) : Ppu.runs (3 * n) s.ppu (fanOut n s).ppu := by
  induction n generalizing s with
  | zero => exact runs_zero ⟨rfl, rfl⟩ rfl
  | succ n ih =>
    rw [Nat.mul_succ, Nat.add_comm]
    exact (fanOutCycle_runs s).trans (ih _)

/-- A turn runs three dots for each of its 2 to 521 cycles. -/
theorem machineTurn_runs {s u : State} (h : machineTurn s = .next u) :
    ∃ c, 2 ≤ c ∧ c ≤ 521 ∧ Ppu.runs (3 * c) s.ppu u.ppu := by
  obtain ⟨t, ht, hu⟩ := machineTurn_eq s
  obtain rfl := Host.Outcome.next.inj (hu.symm.trans h)
  obtain ⟨h2, h521⟩ := stepCycles_bounds ht
  have hcpu := cpuStep_kept (runs_zero_kept s.ppu) (runs_zero ⟨rfl, rfl⟩ rfl) ht
  refine ⟨_, h2, h521, ?_⟩
  simpa only [Nat.zero_add] using hcpu.trans (fanOut_runs (stepCycles s t) t)

/-! ## The loop of `step_frame` -/

/-- Two cycles a turn reach the VBlank entry within the bound (49_machine_and_savestate.md R544). -/
theorem frameLoop_some {n : Nat} {s : State} (hin : s.ppu.inFrame) (hn : s.ppu.toEntry < 6 * n) :
    ∃ t, frameLoop n s = some t := by
  induction n generalizing s with
  | zero => omega
  | succ n ih =>
    obtain ⟨v, -, hv⟩ := machineTurn_eq s
    generalize fanOut (stepCycles s v) v = u at hv
    obtain ⟨c, h2, -, hruns⟩ := machineTurn_runs hv
    simp only [frameLoop, hv]
    split
    · exact ⟨_, rfl⟩
    · rename_i hf
      have hreach : ¬ s.ppu.toEntry < 3 * c := fun hlt => hf (by rw [hruns.completes hin]; simp [hlt])
      have hnear := hruns.moves.toEntry hin (Nat.le_of_not_lt hreach)
      exact ih (hruns.moves hin).1 (by omega)

theorem run_inFrame {run : Nat → State} {k : Nat} (h : ∀ j ≤ k, machineTurn (run j) = .next (run (j + 1)))
    (h0 : (run 0).ppu.inFrame) : (run k).ppu.inFrame := by
  induction k with
  | zero => exact h0
  | succ k ih =>
    obtain ⟨c, -, -, hruns⟩ := machineTurn_runs (h k (Nat.le_succ k))
    exact (hruns.moves (ih fun j hj => h j (Nat.le_succ_of_le hj))).1

/-- The turn that completes a frame passes the VBlank entry by at most its dots. -/
theorem machineTurn_position {s u : State} (h : machineTurn s = .next u) (hin : s.ppu.inFrame)
    (hf : s.ppu.frameComplete = false) (hf' : u.ppu.frameComplete = true) :
    82182 < u.ppu.position ∧ u.ppu.position ≤ 82182 + 3 * 521 := by
  obtain ⟨c, -, h521, hruns⟩ := machineTurn_runs h
  have hlt := hin.position_lt
  have hentry : s.ppu.toEntry < 3 * c := by
    rw [hruns.completes hin, hf, Bool.false_or] at hf'
    exact of_decide_eq_true hf'
  have hpos := (hruns.moves hin).2
  unfold Ppu.toEntry at hentry
  omega

/-- Settles O53: the loop ends within the bound; its last turn is the one that passes the VBlank entry. -/
theorem stepFrameEndsAfterTheNextVblank : Obligations.StepFrameEndsAfterTheNextVblank := by
  intro s hl hsl hd hf
  have hin : s.ppu.inFrame := ⟨hsl, hd⟩
  have hbound : s.ppu.toEntry < 6 * frameTurns := Nat.lt_trans (Nat.mod_lt _ (by decide)) (by decide)
  obtain ⟨t, ht⟩ := frameLoop_some hin hbound
  obtain ⟨k, run, hk, h0, hturn, hopen, hdone, rfl⟩ := frameLoop_run ht
  have hside := run_turnSide (run := run) (k := k + 1) fun j hj => hturn j (Nat.le_of_lt_succ hj)
  have hopen' (j : Nat) (hj : j ≤ k) : (run j).ppu.frameComplete = false := by
    cases j with
    | zero => rw [h0]; exact hf
    | succ j => exact hopen j hj
  have hpos := machineTurn_position (hturn k (Nat.le_refl k)) (run_inFrame hturn (by rw [h0]; exact hin))
    (hopen' k (Nat.le_refl k)) hdone
  rw [h0] at hside
  refine ⟨k + 1, run, Nat.succ_le_succ (Nat.zero_le k), hk, h0, fun j hj => ⟨hturn j (Nat.le_of_lt_succ hj),
    hopen' j (Nat.le_of_lt_succ hj)⟩, hdone, _, (if_pos hl).trans ht, ?_, ?_, ?_, hpos⟩
  · rw [← hside.audioOut]
    rfl
  · obtain ⟨new, hnew⟩ := hside.samples
    exact ⟨new, hnew.symm⟩
  · exact hside.loaded.trans hl

end Sys2Proof.Machine

namespace Sys2Proof.Machine

/-! # The host's operations (O51, O52, O56) -/

/-! ## Reset (70_reset_and_hazards.md R621) -/

/-- The two vector reads lie in the cartridge, so a reset of the CPU changes the CPU alone. -/
theorem resetCpu_eq (s : State) :
    resetCpu s = { s with
      cpu := Cpu.reset (BitVec.ofNat 16 ((cartByte s 0xFFFC#16).toNat + 256 * (cartByte s 0xFFFD#16).toNat)) } := by
  have hlow : memRead s resetVector = (cartByte s 0xFFFC#16, s) := memRead_cartridge s (route_cartridge (by decide))
  have hhigh : memRead s (resetVector + 1#16) = (cartByte s 0xFFFD#16, s) :=
    memRead_cartridge s (route_cartridge (by decide))
  rw [resetCpu, memRead16, hlow]
  dsimp only
  rw [hhigh, word_eq, Nat.add_comm]

theorem reset_eq {s : State} (h : s.loaded = true) :
    reset s = resetCpu { s with
      ppu := Ppu.reset s.ppu.vram s.ppu.oam s.ppu.palette s.ppu.framebuffer
      apu := Apu.reset } := if_pos h

/-- Settles O51: a load that succeeds and a reset both end in `resetCpu`, which reads the vector and writes the CPU alone. -/
theorem resetSequenceOfTheCpu : Obligations.ResetSequenceOfTheCpu := by
  refine ⟨fun s t ht => ?_, fun s hl => ?_, fun s hl => ?_⟩
  · obtain ⟨bytes, hload⟩ | ⟨hl, rfl⟩ := ht
    · unfold load at hload
      split at hload
      · cases hload
      · obtain ⟨rfl, -⟩ := Prod.mk.inj hload
        rw [powerOn, resetCpu_eq]
        exact ⟨rfl, rfl, rfl, rfl, rfl⟩
    · rw [reset_eq hl, resetCpu_eq]
      exact ⟨hl, rfl, rfl, rfl, rfl⟩
  · rw [reset_eq hl, resetCpu_eq]
    refine ⟨fun l => ?_, rfl, rfl, rfl⟩
    cases l <;> rfl
  · rw [reset, hl]
    rfl

/-! ## Loading an image (49_machine_and_savestate.md R530 to R532) -/

theorem load_snd (s : State) (bytes : List Byte) : (load s bytes).2 = (parseImage bytes).map fun _ => () := by
  unfold load
  split <;> rename_i h <;> rw [h] <;> rfl

theorem load_fst_of_error {s : State} {bytes : List Byte} {e : HostError} (h : (load s bytes).2 = .error e) :
    (load s bytes).1 = s := by
  unfold load at *
  split at h
  · rfl
  · cases h

theorem imageMapperId_toNat (flags6 flags7 : Byte) :
    (imageMapperId flags6 flags7).toNat = flags7.toNat / 16 * 16 + flags6.toNat / 16 := by
  have h6 := flags6.isLt
  have h7 := flags7.isLt
  have hfield : (flags6 >>> 4).toNat = flags6.toNat / 16 * 2 ^ 0 := by
    rw [BitVec.toNat_ushiftRight, Nat.shiftRight_eq_div_pow, Nat.pow_zero, Nat.mul_one]
  have h := setField_eq flags7 0 4 (show 0xF0#8 = ~~~(BitVec.ofNat 8 (2 ^ 4 - 1) <<< 0) by decide) hfield
    (show flags6.toNat / 16 < 2 ^ 4 by omega)
  rw [imageMapperId, h, BitVec.toNat_ofNat, Nat.pow_zero, Nat.mod_one]
  omega

/-- The mapper ids of the catalog (46_mapper.md R304). -/
abbrev inCatalog (id : Nat) : Prop := id = 0 ∨ id = 1 ∨ id = 4

/-- The bank counts of 46_mapper.md R305, for an image with PRG ROM. -/
abbrev bankCountsFit (id prg chr : Nat) : Prop :=
  (id = 0 ∧ prg ≤ 2 ∧ chr ≤ 1) ∨ (id = 1 ∧ prg ≤ 16 ∧ chr ≤ 16) ∨ (id = 4 ∧ prg ≤ 32 ∧ chr ≤ 32)

theorem mapperChecks_eq (id prgBanks chrBanks : Byte) (h : prgBanks.toNat ≠ 0) :
    mapperChecks id prgBanks chrBanks =
      if inCatalog id.toNat then some (decide (bankCountsFit id.toNat prgBanks.toNat chrBanks.toNat)) else none := by
  have h1 : 1 ≤ prgBanks.toNat := Nat.one_le_iff_ne_zero.mpr h
  unfold mapperChecks
  split
  case h_4 h0 h1 h4 => exact (if_neg fun hid => hid.elim h0 fun hid => hid.elim h1 h4).symm
  all_goals
    rename_i hid
    simp [hid, h1]

/-- Settles O52: the checks in their order, on the header's numbers. -/
theorem loadChecksTheImageAndKeepsTheMachine : Obligations.LoadChecksTheImageAndKeepsTheMachine := by
  intro s bytes
  dsimp only
  refine ⟨?_, fun e => load_fst_of_error⟩
  have htrainer : (bytes.getD 6 0x00#8).getLsbD 2 = true ↔ (bytes.getD 6 0x00#8).toNat / 4 % 2 = 1 := by
    rw [BitVec.getLsbD, Nat.testBit_eq_decide_div_mod_eq, decide_eq_true_iff]
  have hzero : bytes.getD 4 0x00#8 = 0x00#8 ↔ (bytes.getD 4 0x00#8).toNat = 0 := BitVec.toNat_inj.symm
  rw [load_snd, parseImage, ← imageMapperId_toNat]
  simp only [htrainer, hzero, imageMagic]
  split
  · rfl
  · rename_i hheader
    rw [mapperChecks_eq _ _ _ fun h => hheader (.inr (.inr h))]
    by_cases hid : inCatalog (imageMapperId (bytes.getD 6 0x00#8) (bytes.getD 7 0x00#8)).toNat
    · rw [if_pos hid, if_neg (not_not.mpr hid)]
      by_cases hfits : bankCountsFit (imageMapperId (bytes.getD 6 0x00#8) (bytes.getD 7 0x00#8)).toNat
        (bytes.getD 4 0x00#8).toNat (bytes.getD 5 0x00#8).toNat
      · rw [decide_eq_true hfits, if_neg (not_not.mpr hfits)]
        dsimp only
        generalize (if (bytes.getD 6 0x00#8).toNat / 4 % 2 = 1 then 512 else 0) = trainer
        split <;> rfl
      · rw [decide_eq_false hfits, if_pos hfits]
        rfl
    · rw [if_neg hid, if_pos hid]
      rfl

/-! ## Buttons, samples and the picture (49_machine_and_savestate.md R524 to R526, R545) -/

/-- A button is one bit of its port. -/
theorem Pad.press_getLsbD (p : Pad) (btn : Button) (pressed : Bool) {k : Nat} (hk : k < 8) :
    (p.press btn pressed).buttons.getLsbD k = if k = btn.bit then pressed else p.buttons.getLsbD k := by
  have hbit : btn.bit < 8 := by cases btn <;> decide
  have hmask : (1#8 <<< btn.bit).getLsbD k = decide (k = btn.bit) := by
    rw [← BitVec.twoPow_eq, BitVec.getLsbD_twoPow, decide_eq_true hbit, Bool.true_and]
    exact decide_eq_decide.mpr eq_comm
  cases pressed with
  | true =>
    change (p.buttons ||| 1#8 <<< btn.bit).getLsbD k = _
    rw [BitVec.getLsbD_or, hmask]
    by_cases h : k = btn.bit <;> simp [h]
  | false =>
    change (p.buttons &&& ~~~(1#8 <<< btn.bit)).getLsbD k = _
    rw [BitVec.getLsbD_and, BitVec.getLsbD_not, hmask]
    by_cases h : k = btn.bit <;> simp [h, hk]

theorem setState_port0 {s : State} (h : s.loaded = true) (btn : Button) (pressed : Bool) :
    setState s 0 btn pressed = { s with bus := { s.bus with pad0 := s.bus.pad0.press btn pressed } } := if_pos h

theorem setState_port1 {s : State} (h : s.loaded = true) (btn : Button) (pressed : Bool) :
    setState s 1 btn pressed = { s with bus := { s.bus with pad1 := s.bus.pad1.press btn pressed } } := if_pos h

theorem setState_empty {s : State} (h : s.loaded = false) (port : Fin 2) (btn : Button) (pressed : Bool) :
    setState s port btn pressed = s := by
  rw [setState, h]
  rfl

/-- The picture row by row. -/
theorem frame_getElem (s : State) {x y : Nat} (hx : x < 256) (hy : y < 240) :
    (frame s)[y * 256 + x]? = some (s.publishedFrame.read x y) := by
  have hcol : (y * 256 + x) % screenW = x := by unfold screenW; omega
  have hrow : (y * 256 + x) / screenW = y := by unfold screenW; omega
  have hlt : y * 256 + x < screenW * screenH := by unfold screenW screenH; omega
  rw [frame, List.getElem?_map, List.getElem?_range hlt, Option.map_some, hcol, hrow]

/-- Settles O56: operation by operation, and on the machine `new` builds. -/
theorem hostCallsChangeOnlyWhatTheyName : Obligations.HostCallsChangeOnlyWhatTheyName := by
  refine ⟨fun s port btn pressed => ⟨fun h => setState_empty h port btn pressed, fun h => ?_⟩,
    fun s addr => ⟨fun h => if_pos h, fun h => ?_, rfl⟩,
    fun s => ⟨rfl, ?_, fun x hx y hy => frame_getElem s hx hy⟩, fun config => ⟨rfl, rfl, rfl, rfl, fun x y => rfl⟩⟩
  · obtain rfl | rfl : port = 0 ∨ port = 1 := by omega
    · rw [setState_port0 h]
      exact ⟨fun k hk => s.bus.pad0.press_getLsbD btn pressed hk, rfl, rfl, rfl⟩
    · rw [setState_port1 h]
      exact ⟨fun k hk => s.bus.pad1.press_getLsbD btn pressed hk, rfl, rfl, rfl⟩
  · rw [busRead, h]
    rfl
  · rw [frame, List.length_map, List.length_range]
    rfl

end Sys2Proof.Machine

namespace Sys2Proof.Machine

/-! # The save state (O54, O55) -/

/-! ## What no restore touches (49_machine_and_savestate.md R561) -/

/-- `q` has the diagnostic of `p`. -/
def Cpu.sameDiagnostic (p q : Cpu) : Prop :=
  q.unsupportedSeen = p.unsupportedSeen ∧ q.unsupportedOpcode = p.unsupportedOpcode ∧ q.unsupportedAt = p.unsupportedAt

theorem getCpu_accepts (p : Cpu) (bs : List Byte) : Accepts (getCpu p bs) p.sameDiagnostic := by
  unfold getCpu
  iterate 6 refine .skip fun _ _ => ?_
  dsimp only
  split
  · iterate 3 refine .skip fun _ _ => ?_
    exact .pure ⟨rfl, rfl, rfl⟩
  · exact fun _ _ he => by cases he

theorem getPpuMemories_framebuffer (p : Ppu) (bs : List Byte) :
    Accepts (getPpuMemories p bs) fun q => q.framebuffer = p.framebuffer := by
  unfold getPpuMemories
  iterate 3 refine .skip fun _ _ => ?_
  exact .check fun _ => rfl

theorem getApu_samples (a : Apu) (bs : List Byte) : Accepts (getApu a bs) fun b => b.samples = a.samples := by
  unfold getApu
  iterate 11 refine .skip fun _ _ => ?_
  exact .check fun _ => rfl

/-- What a restore leaves alone: `t` is `s` but for the elements of the stream. -/
def State.restoredFrom (s t : State) : Prop :=
  t = { s with
    cpu := { t.cpu with
      unsupportedSeen := s.cpu.unsupportedSeen, unsupportedOpcode := s.cpu.unsupportedOpcode
      unsupportedAt := s.cpu.unsupportedAt }
    bus := t.bus
    ppu := { t.ppu with framebuffer := s.ppu.framebuffer }
    apu := { t.apu with samples := s.apu.samples }
    mapper := t.mapper
    cart := { s.cart with prgRam := t.cart.prgRam, chrRam := t.cart.chrRam } }

theorem getSections_restoredFrom {s t : State} {bs : List Byte} (ht : getSections s bs = some t) : s.restoredFrom t := by
  simp only [getSections, Option.bind_eq_bind, Option.bind_eq_some_iff, Prod.exists] at ht
  obtain ⟨cpu, _, hcpu, ram, _, -, regs, _, hregs, ppu, _, hppu, apu, _, hapu, bus, _, -, mapper, _, -, cart, _, hcart, ht⟩ := ht
  split at ht
  · obtain rfl := Option.some.inj ht
    obtain ⟨hseen, hopcode, hat⟩ := getCpu_accepts _ _ _ _ hcpu
    have hframe := (getPpuMemories_framebuffer _ _ _ _ hppu).trans (getPpuRegs_accepts _ _ _ _ hregs).framebuffer
    have hsamples := getApu_samples _ _ _ _ hapu
    obtain ⟨-, -, hram⟩ := getCartRam_accepts _ _ _ _ hcart
    unfold State.restoredFrom
    simp only [← hseen, ← hopcode, ← hat, ← hframe, ← hsamples, ← hram]
  · cases ht

theorem restore_restoredFrom {s t : State} {bs : List Byte} (ht : restore s bs = .ok t) : s.restoredFrom t := by
  unfold restore at ht
  split_ifs at ht
  split at ht
  · cases ht
  · obtain rfl := Except.ok.inj ht
    exact getSections_restoredFrom ‹_›

theorem loadState_restoredFrom (s : State) (source : Option (List Byte)) : s.restoredFrom (loadState s source).1 := by
  obtain hs | ⟨bs, ht⟩ := loadState_cases s source
  · rw [hs]
    rfl
  · exact restore_restoredFrom ht

/-! ## The errors in their order (49_machine_and_savestate.md R560, R561) -/

theorem loadState_empty {s : State} (h : s.loaded = false) (source : Option (List Byte)) :
    loadState s source = (s, .error .notLoaded) := by
  simp [loadState, h]

theorem loadState_none {s : State} (h : s.loaded = true) : loadState s none = (s, .error .ioError) := by
  simp [loadState, h]

theorem loadState_of_restore_error {s : State} (h : s.loaded = true) {bs : List Byte} {e : HostError}
    (he : restore s bs = .error e) : loadState s (some bs) = (s, .error e) := by
  simp [loadState, h, he]

theorem loadState_of_restore_ok {s t : State} (h : s.loaded = true) {bs : List Byte} (ht : restore s bs = .ok t) :
    loadState s (some bs) = (t, .ok ()) := by
  simp [loadState, h, ht]

theorem loadState_fst_of_error {s : State} {source : Option (List Byte)} {e : HostError}
    (h : (loadState s source).2 = .error e) : (loadState s source).1 = s := by
  unfold loadState at *
  split at h
  · simp [*]
  split at h
  · simp [*]
  split at h
  · simp [*]
  · cases h

/-- Settles O55: the checks before the sections in their order; a restore that fails answers the machine it was given. -/
theorem restoreIsAllOrNothing : Obligations.RestoreIsAllOrNothing := by
  refine ⟨fun s source => ?_, fun s sinkOk => ?_⟩
  · refine ⟨fun h => loadState_empty h source, ?_, fun h hs => ?_, fun e => loadState_fst_of_error,
      loadState_restoredFrom s source⟩
    · rintro h rfl
      exact loadState_none h
    · obtain ⟨bs, rfl⟩ := Option.ne_none_iff_exists'.mp hs
      rw [Option.getD_some]
      refine ⟨fun hmagic => ?_, fun hlen hmagic => ⟨fun hversion => ?_, fun hversion hshort => ?_,
        fun hversion hlong hidentity => ?_⟩⟩
      all_goals apply loadState_of_restore_error h
      · exact if_pos hmagic
      all_goals
        have hfirst : ¬ (bs.length < 8 ∨ bs.take 4 ≠ saveMagic) :=
          not_or.mpr ⟨Nat.not_lt.mpr hlen, not_not.mpr hmagic⟩
        rw [restore, if_neg hfirst]
      · exact if_pos hversion
      · exact (if_neg (not_not.mpr hversion)).trans (if_pos hshort)
      · exact (if_neg (not_not.mpr hversion)).trans ((if_neg (Nat.not_lt.mpr hlong)).trans (if_pos hidentity))
  · unfold saveState
    cases s.loaded <;> cases sinkOk <;> exact ⟨rfl, rfl⟩

end Sys2Proof.Machine

namespace Sys2Proof.Machine

/-! # A saved state is read back (O54) -/

/-! ## Integers and fields (49_machine_and_savestate.md R550) -/

@[simp] theorem getU8_cons (b : Byte) (rest : List Byte) : getU8 (b :: rest) = some (b, rest) := rfl

@[simp] theorem getU16_put (w : Word) (rest : List Byte) : getU16 (putU16 w ++ rest) = some (w, rest) :=
  congrArg (fun v => some (v, rest)) (word_hi_lo w)

/-- The halves of a number put together again. -/
theorem extractLsb'_append_setWidth {k : Nat} (v : BitVec (k + k)) : v.extractLsb' k k ++ v.setWidth k = v := by
  apply BitVec.eq_of_toNat_eq
  have hv := v.isLt
  rw [Nat.pow_add] at hv
  rw [append_toNat, BitVec.extractLsb'_toNat, BitVec.toNat_setWidth, Nat.shiftRight_eq_div_pow,
    Nat.mod_eq_of_lt (Nat.div_lt_of_lt_mul hv), Nat.mul_comm]
  exact Nat.div_add_mod _ _

@[simp] theorem getU32_put (v : BitVec 32) (rest : List Byte) : getU32 (putU32 v ++ rest) = some (v, rest) := by
  simp [getU32, putU32, List.append_assoc, extractLsb'_append_setWidth (k := 16) v]

@[simp] theorem getU64_put (v : BitVec 64) (rest : List Byte) : getU64 (putU64 v ++ rest) = some (v, rest) := by
  simp [getU64, putU64, List.append_assoc, extractLsb'_append_setWidth (k := 32) v]

theorem setWidth_setWidth_of_le {n m : Nat} (v : BitVec n) (h : n ≤ m) :
    (v.setWidth m).toNat < 2 ^ n ∧ (v.setWidth m).setWidth n = v := by
  rw [BitVec.toNat_setWidth_of_le h]
  exact ⟨v.isLt, by rw [BitVec.setWidth_setWidth_of_le _ h, BitVec.setWidth_eq]⟩

theorem getWide_put {n : Nat} (v : BitVec n) (h : n ≤ 16) (rest : List Byte) :
    getWide n (putWide v ++ rest) = some (v, rest) := by
  obtain ⟨hlt, hv⟩ := setWidth_setWidth_of_le v h
  simp only [getWide, putWide, getU16_put, Option.bind_eq_bind, Option.bind_some, if_pos hlt, hv]
  rfl

theorem getNarrow_put {n : Nat} (v : BitVec n) (h : n ≤ 8) (rest : List Byte) :
    getNarrow n (putNarrow v ++ rest) = some (v, rest) := by
  obtain ⟨hlt, hv⟩ := setWidth_setWidth_of_le v h
  simp only [getNarrow, putNarrow, List.singleton_append, getU8_cons, Option.bind_eq_bind, Option.bind_some, if_pos hlt, hv]
  rfl

@[simp] theorem getFlag_put (b : Bool) (rest : List Byte) : getFlag (putFlag b ++ rest) = some (b, rest) := by
  cases b <;> rfl

theorem getCount_put {lower upper n : Nat} (h : lower ≤ n ∧ n ≤ upper) (hupper : upper < 256) (rest : List Byte) :
    getCount lower upper (BitVec.ofNat 8 n :: rest) = some (n, rest) := by
  have hn : (BitVec.ofNat 8 n).toNat = n := Nat.mod_eq_of_lt (by omega)
  simp only [getCount, getU8_cons, Option.bind_eq_bind, Option.bind_some, hn, if_pos h]
  rfl

theorem getPosition_put {upper n : Nat} (h : n ≤ upper) (hupper : upper < 65536) (rest : List Byte) :
    getPosition upper (putU16 (BitVec.ofNat 16 n) ++ rest) = some (n, rest) := by
  have hn : (BitVec.ofNat 16 n).toNat = n := Nat.mod_eq_of_lt (by omega)
  simp only [getPosition, getU16_put, Option.bind_eq_bind, Option.bind_some, hn, if_pos h]
  rfl

theorem getBytes_append {n : Nat} {bs : List Byte} (h : bs.length = n) (rest : List Byte) :
    getBytes n (bs ++ rest) = some (bs, rest) := by
  subst h
  simp [getBytes]

theorem getMem_put {n : Nat} {m : Mem} (h : Memory.wf n m) (rest : List Byte) :
    getMem n (m.toBytes n ++ rest) = some (m, rest) := by
  simp only [getMem, getBytes_append (Mem.toBytes_length n m), Option.bind_eq_bind, Option.bind_some, Mem.ofBytes_toBytes h]
  rfl

@[simp] theorem getArray_put {n : Nat} (v : Vector Byte n) (rest : List Byte) :
    getArray n (v.toList ++ rest) = some (v, rest) := by
  have hv : (Vector.ofFn fun i : Fin n => v.toList.getD i 0x00#8) = v := by
    ext i hi
    simp
  simp only [getArray, getBytes_append v.length_toList, Option.bind_eq_bind, Option.bind_some, hv]
  rfl

/-! ## The sections (49_machine_and_savestate.md R553 to R559) -/

section Fields

variable {α β : Type} {rest : List Byte}

/-- A field that is read back hands its value and the rest of the stream on. As rewrites, these read a section field by
field. -/
theorem bind_of_some {r : Option (α × List Byte)} {k : α × List Byte → Option β} {v : α} (h : r = some (v, rest)) :
    (r >>= k) = k (v, rest) := by
  rw [h]
  rfl

theorem bind_byte {k : Byte × List Byte → Option β} (b : Byte) : (getU8 (b :: rest) >>= k) = k (b, rest) := rfl

theorem bind_u16 {k : Word × List Byte → Option β} (w : Word) : (getU16 (putU16 w ++ rest) >>= k) = k (w, rest) :=
  bind_of_some (getU16_put w rest)

theorem bind_flag {k : Bool × List Byte → Option β} (b : Bool) : (getFlag (putFlag b ++ rest) >>= k) = k (b, rest) :=
  bind_of_some (getFlag_put b rest)

theorem bind_narrow {n : Nat} {k : BitVec n × List Byte → Option β} (v : BitVec n) (h : n ≤ 8) :
    (getNarrow n (putNarrow v ++ rest) >>= k) = k (v, rest) := bind_of_some (getNarrow_put v h rest)

theorem bind_wide {n : Nat} {k : BitVec n × List Byte → Option β} (v : BitVec n) (h : n ≤ 16) :
    (getWide n (putWide v ++ rest) >>= k) = k (v, rest) := bind_of_some (getWide_put v h rest)

theorem bind_array {n : Nat} {k : Vector Byte n × List Byte → Option β} (v : Vector Byte n) :
    (getArray n (v.toList ++ rest) >>= k) = k (v, rest) := bind_of_some (getArray_put v rest)

end Fields

theorem status_unused_bits (p : Cpu) (b : Bool) : (p.status b).getLsbD 5 = true ∧ (p.status b).getLsbD 4 = b := by
  unfold Cpu.status
  simp only [BitVec.getLsbD_append]
  cases b <;> exact ⟨rfl, rfl⟩

theorem getCpu_put (p q : Cpu) (rest : List Byte) :
    getCpu p (putCpu q ++ rest) = some ({ q with
      unsupportedSeen := p.unsupportedSeen, unsupportedOpcode := p.unsupportedOpcode
      unsupportedAt := p.unsupportedAt }, rest) := by
  unfold getCpu putCpu
  simp only [List.append_assoc, List.cons_append, List.nil_append]
  simp only [bind_byte, bind_u16, bind_flag, if_pos (status_unused_bits q false), bind_of_some (getU64_put _ _),
    withStatus_status]
  rfl

theorem getPulse_put (p : Pulse) (rest : List Byte) : getPulse (putPulse p ++ rest) = some (p, rest) := by
  unfold getPulse putPulse
  simp only [List.append_assoc, List.cons_append, List.nil_append]
  simp only [bind_byte, bind_flag, bind_narrow, bind_wide, Nat.reduceLeDiff]
  rfl

theorem getTriangle_put (t : Triangle) (rest : List Byte) : getTriangle (putTriangle t ++ rest) = some (t, rest) := by
  unfold getTriangle putTriangle
  simp only [List.append_assoc, List.cons_append, List.nil_append]
  simp only [bind_byte, bind_flag, bind_narrow, bind_wide, Nat.reduceLeDiff]
  rfl

theorem getNoise_put {n : Noise} (h : n.lfsr ≠ 0#15) (rest : List Byte) :
    getNoise (putNoise n ++ rest) = some (n, rest) := by
  unfold getNoise putNoise
  simp only [List.append_assoc, List.cons_append, List.nil_append]
  simp only [bind_byte, bind_flag, bind_narrow, bind_wide, Nat.reduceLeDiff, if_pos h]
  rfl

theorem getDmc_put {d : Dmc} (h : 1 ≤ d.bitsRemaining ∧ d.bitsRemaining ≤ 8) (rest : List Byte) :
    getDmc (putDmc d ++ rest) = some (d, rest) := by
  unfold getDmc putDmc
  simp only [List.append_assoc, List.cons_append, List.nil_append]
  simp only [bind_byte, bind_u16, bind_flag, bind_narrow, bind_wide, Nat.reduceLeDiff,
    bind_of_some (getCount_put h (by decide) _)]
  rfl

theorem getPpuRegs_put (p : Ppu) {q : Ppu} (h : q.Inv) (rest : List Byte) :
    getPpuRegs p (putPpuRegs q ++ rest) = some ({ q with
      vram := p.vram, oam := p.oam, palette := p.palette, framebuffer := p.framebuffer }, rest) := by
  unfold getPpuRegs putPpuRegs
  simp only [List.append_assoc, List.cons_append, List.nil_append]
  simp only [bind_byte, bind_u16, bind_flag, bind_narrow, bind_wide, bind_array, Nat.reduceLeDiff,
    bind_of_some (getPosition_put (Nat.le_of_lt_succ h.scanline) (by decide) _),
    bind_of_some (getPosition_put (Nat.le_of_lt_succ h.dot) (by decide) _),
    bind_of_some (getCount_put ⟨Nat.zero_le _, h.spriteCount⟩ (by decide) _), if_pos h.status]
  rfl

theorem getPpuMemories_put (p : Ppu) {q : Ppu} (h : q.Inv) (rest : List Byte) :
    getPpuMemories p (putPpuMemories q ++ rest) =
      some ({ p with vram := q.vram, oam := q.oam, palette := q.palette }, rest) := by
  unfold getPpuMemories putPpuMemories
  simp only [List.append_assoc]
  simp only [bind_of_some (getMem_put h.vram _), bind_of_some (getMem_put h.oam _),
    bind_of_some (getMem_put h.palette _)]
  exact if_pos (by simpa using h.colours)

theorem FrameSeq.Inv.counter_le {f : FrameSeq} (h : f.Inv) : f.counter.toNat ≤ 37281 := by
  unfold FrameSeq.Inv at h
  split at h <;> omega

theorem getApu_put (p : Apu) {q : Apu} (h : q.Inv) (rest : List Byte) :
    getApu p (putApu q ++ rest) = some ({ q with samples := p.samples }, rest) := by
  have hcounter : BitVec.ofNat 16 q.frame.counter.toNat = q.frame.counter := by
    rw [BitVec.ofNat_toNat, BitVec.setWidth_eq]
  have hposition (r : List Byte) :
      getPosition 37281 (putU16 q.frame.counter ++ r) = some (q.frame.counter.toNat, r) := by
    rw [← getPosition_put h.frame.counter_le (by decide), hcounter]
  unfold getApu putApu
  simp only [List.append_assoc]
  simp only [bind_of_some (getPulse_put _ _), bind_of_some (getTriangle_put _ _),
    bind_of_some (getNoise_put h.lfsr _), bind_of_some (getDmc_put h.bitsRemaining _), bind_flag,
    bind_of_some (hposition _), bind_of_some (getU32_put _ _), if_pos h.decimAcc, hcounter]
  rfl

theorem getPads_put (b c : Bus) (rest : List Byte) :
    getPads b (putPads c ++ rest) = some ({ c with ram := b.ram }, rest) := by
  unfold getPads putPads
  simp only [List.cons_append, List.nil_append]
  simp only [bind_byte, bind_flag]
  rfl

theorem getMirroring_put (m : Mirroring) (rest : List Byte) : getMirroring (putMirroring m ++ rest) = some (m, rest) := by
  cases m <;> rfl

theorem getVariant1_put {m : Mapper1} (h : m.shiftCount ≤ 4) (rest : List Byte) :
    getVariant1 (putVariant (.v1 m) ++ rest) = some (.v1 m, rest) := by
  unfold getVariant1
  simp only [putVariant, List.append_assoc, List.cons_append, List.nil_append]
  simp only [bind_narrow, Nat.reduceLeDiff, bind_of_some (getCount_put ⟨Nat.zero_le _, h⟩ (by decide) _)]
  rfl

theorem getVariant4_put (m : Mapper4) (rest : List Byte) :
    getVariant4 (putVariant (.v4 m) ++ rest) = some (.v4 m, rest) := by
  unfold getVariant4
  simp only [putVariant, List.append_assoc, List.cons_append, List.nil_append]
  simp only [bind_byte, bind_array, bind_flag]
  rfl

/-- Two variants of one mapper id are of one kind: the reader chosen by the one reads the other. -/
theorem getVariant_put {u v : Variant} {id : Byte} (hu : u.fits id) (hv : v.fits id) (h : v.Inv) (rest : List Byte) :
    getVariant u (putVariant v ++ rest) = some (v, rest) ∧ u.blockLength = v.blockLength ∧ u.hasIrq = v.hasIrq := by
  cases u <;> cases v <;> simp only [Variant.fits] at hu hv
  case v0.v0 => exact ⟨rfl, rfl, rfl⟩
  case v1.v1 => exact ⟨getVariant1_put h rest, rfl, rfl⟩
  case v4.v4 => exact ⟨getVariant4_put _ rest, rfl, rfl⟩
  all_goals omega

theorem getMapper_put {f g : Mapper} {c d : Cart} (hf : f.Inv c) (hg : g.Inv d) (hid : c.mapperId = d.mapperId)
    (rest : List Byte) : getMapper f (putMapper g ++ rest) = some (g, rest) := by
  obtain ⟨hvariant, hlength, hirq⟩ := getVariant_put hf.fits (hid ▸ hg.fits) hg.registers rest
  have hwidth : (BitVec.ofNat 16 g.variant.blockLength).toNat = f.variant.blockLength := by
    rw [hlength]
    cases g.variant <;> rfl
  unfold getMapper putMapper
  simp only [List.append_assoc]
  simp only [bind_u16, bind_of_some (getMirroring_put _ _), bind_flag, bind_of_some hvariant]
  exact if_pos ⟨hwidth, fun h => hirq.trans (hg.irqFlag h)⟩

theorem getCartRam_put (c : Cart) {d : Cart} (h : d.Inv) (hchr : c.chrBanks = d.chrBanks) (rest : List Byte) :
    getCartRam c (putCartRam d ++ rest) = some ({ c with prgRam := d.prgRam, chrRam := d.chrRam }, rest) := by
  have hsize : c.chrRamSize = d.chrRamSize := by rw [Cart.chrRamSize, Cart.chrRamSize, hchr]
  have hlength : (BitVec.ofNat 32 d.chrRamSize).toNat = d.chrRamSize := by
    unfold Cart.chrRamSize
    split <;> rfl
  unfold getCartRam putCartRam
  simp only [List.append_assoc]
  simp only [hsize, bind_of_some (getU32_put _ _), bind_of_some (getMem_put h.prgRam _),
    bind_of_some (getMem_put h.chrRam _)]
  exact if_pos ⟨trivial, hlength⟩

/-! ## The whole stream (49_machine_and_savestate.md R550, R561) -/

/-- What a restore of the stream of `s` makes of `u`. -/
def State.restoreFrom (u s : State) : State :=
  { u with
    cpu := { s.cpu with
      unsupportedSeen := u.cpu.unsupportedSeen, unsupportedOpcode := u.cpu.unsupportedOpcode
      unsupportedAt := u.cpu.unsupportedAt }
    bus := s.bus
    ppu := { s.ppu with framebuffer := u.ppu.framebuffer }
    apu := { s.apu with samples := u.apu.samples }
    mapper := s.mapper
    cart := { u.cart with prgRam := s.cart.prgRam, chrRam := s.cart.chrRam } }

theorem getSections_put {s u : State} (hs : s.Inv) (hu : u.Inv) (hid : u.cart.mapperId = s.cart.mapperId)
    (hchr : u.cart.chrBanks = s.cart.chrBanks) : getSections u (putSections s) = some (u.restoreFrom s) := by
  have hcart := getCartRam_put u.cart hs.cart hchr []
  rw [List.append_nil] at hcart
  unfold getSections putSections
  simp only [List.append_assoc]
  simp only [bind_of_some (getCpu_put _ _ _), bind_of_some (getMem_put hs.ram _), bind_of_some (getPpuRegs_put _ hs.ppu _),
    bind_of_some (getPpuMemories_put _ hs.ppu _), bind_of_some (getApu_put _ hs.apu _), bind_of_some (getPads_put _ _ _),
    bind_of_some (getMapper_put hu.mapper hs.mapper hid _), bind_of_some hcart]
  rfl

theorem restore_saveStream {s u : State} (hs : s.Inv) (hu : u.Inv) (hid : u.cart.mapperId = s.cart.mapperId)
    (hprg : u.cart.prgBanks = s.cart.prgBanks) (hchr : u.cart.chrBanks = s.cart.chrBanks)
    (hfingerprint : u.cart.fingerprint = s.cart.fingerprint) : restore u (saveStream s) = .ok (u.restoreFrom s) := by
  have hidentity : putIdentity u.cart = putIdentity s.cart := by
    unfold putIdentity
    rw [hid, hprg, hchr, hfingerprint]
  have hlength : 15 ≤ (saveStream s).length := Nat.le_add_left 15 (putSections s).length
  have hsections : getSections u ((saveStream s).drop 15) = some (u.restoreFrom s) := getSections_put hs hu hid hchr
  have hmagic : (saveStream s).take 4 = saveMagic := rfl
  have hversion : ((saveStream s).drop 4).take 4 = putU32 saveStateVersion := rfl
  have htag : ((saveStream s).drop 8).take 7 = putIdentity s.cart := rfl
  have hshort : ¬ (saveStream s).length < 8 := by omega
  simp [restore, hmagic, hversion, htag, hshort, Nat.not_lt.mpr hlength, hidentity, hsections]

/-- Settles O54: field by field, a reader takes back what its writer wrote; the two variants are of one kind, as their
mapper ids agree. -/
theorem savedStatesRestoreExactly : Obligations.SavedStatesRestoreExactly := by
  intro s u hs hu hloaded hloaded' hid hprg hchr hfingerprint
  refine ⟨?_, loadState_of_restore_ok hloaded' (restore_saveStream hs hu hid hprg hchr hfingerprint)⟩
  simp [saveState, hloaded]

end Sys2Proof.Machine
